-- ==== Sys2Proof/Word.lean ====
section
/-! DEFINITION. The plain words of the part: bytes, state words, masks. Times, indices and counts are natural
numbers and corrected times are integers, because the spec computes them exactly (00_scope.md, Conventions). -/

namespace Sys2Proof

/-- One byte of a service port or of a pod descriptor. -/
abbrev Byte := BitVec 8

/-- One bit per channel, bit `c` for channel `c` (R22). -/
abbrev ChannelWord := BitVec 32

/-- One bit per lane, bit `l` for lane `l` (R179). -/
abbrev LaneSet := BitVec 4

/-- A pod socket, decoder lane or capture slot number, 0 to 3. -/
abbrev Four := Fin 4

end Sys2Proof
end

