-- ==== Sys2Proof/Config.lean ====
section
/-! DEFINITION. The capacities of the part (00_scope.md, Principal Figures) and the free values: the choices the
spec leaves open. A free value has no body, so nothing can be proved of it. -/

namespace Sys2Proof.Config

/-- Blocks of the sample store (R31). -/
def blockCount : Nat := 2048

/-- Change records a block holds at most (R31). -/
def recordsPerBlock : Nat := 4096

/-- The longest run of a change record (R24). -/
def maxRun : Nat := 65536

/-- Events the list holds at most (R137). -/
def eventCapacity : Nat := 8192

/-- Items a render queue holds at most (R149). -/
def queueCapacity : Nat := 64

/-- The saturation point of the 16-bit counters (R34, R53, R110, R137). -/
def max16 : Nat := 65535

/-- The saturation point of the 32-bit counters (R34, R57). -/
def max32 : Nat := 4294967295

/-- The debounce time of a sense line, 50 ms (R3). -/
def debounceTime : Nat := 50000000

/-- The wait after a failed descriptor read attempt, 10 ms (R7). -/
def retryWait : Nat := 10000000

/-- Descriptor read attempts of one identification at most (R7). -/
def maxAttempts : Nat := 4

/-- One clock of a pod bus at 100 kbit/s (R6). -/
def busBitTime : Nat := 10000

/-- The longest time a pod may hold the clock of its pod bus low, 25 ms (R7). -/
def clockHoldLimit : Nat := 25000000

/-- The length of a trigger-out pulse (R66, R98). -/
def pulseWidth : Nat := 100

/-- FREE VALUE (log 9). Which lane's event EVL takes next when two or more lanes have events waiting on one
sample: R138 leaves the order open. The argument is the count of choices made so far. -/
opaque laneChoice : Nat → Nat

/-- FREE VALUE (log 10). The expected generation of a PLAN_EDIT whose section byte has no meaning and whose body is
too short to hold a generation: by R179 any length fits such a body, and no rule says what generation it carries. -/
opaque openGeneration : List Byte → BitVec 32

end Sys2Proof.Config
end

