-- ==== Sys2Proof/Syntax.lean ====
section
/-! DEFINITION. The commands of the part: one constructor per row of spec/opcode_table.json. The operands of a request
have the widths that R179 gives the fields of its body. -/

namespace Sys2Proof

/-- A service port (R175). -/
inductive Port where
  | a
  | b
  deriving DecidableEq, Repr

/-- "The other port" (00_scope.md, Conventions). -/
def Port.other : Port → Port
  | .a => .b
  | .b => .a

/-- The target of an EVENTS_SEEK (R147). `other` is a target byte without meaning, with the bytes after it. -/
inductive SeekTarget where
  | firstOf (slot : Byte) (num : BitVec 16)
  | atTime (slot : Byte) (num : BitVec 16) (time : BitVec 64)
  | newest
  | other (code : Byte) (rest : List Byte)
  deriving DecidableEq, Repr

/-- The commands. `p` is the port a request comes from and `tag` the tag of its frame (R176); `t` is the timebase
value at which an event of an input line is seen; `w` holds the 32 comparator outputs at a sample's raw time. -/
inductive Instr where
  /-- Power-on reset (R186). -/
  | nrst
  /-- A SEND transaction with the bytes that follow its kind byte (R176). -/
  | sendTransaction (p : Port) (bytes : List Byte)
  /-- A FETCH transaction in which `n` bytes are clocked after the kind byte (R178). -/
  | fetchTransaction (p : Port) (n : Nat)
  /-- A transaction of kind byte `kind` with the bytes that follow it (R175). -/
  | otherKindTransaction (p : Port) (kind : Byte) (bytes : List Byte)
  | ident (p : Port) (tag : Byte)
  | planRead (p : Port) (tag : Byte) (section_ : Byte)
  | planEdit (p : Port) (tag : Byte) (section_ : Byte) (expected : BitVec 32) (contents : List Byte)
  | arm (p : Port) (tag : Byte)
  | stop (p : Port) (tag : Byte)
  | force (p : Port) (tag : Byte)
  | abort (p : Port) (tag : Byte)
  | status (p : Port) (tag : Byte)
  | captureList (p : Port) (tag : Byte)
  | captureInfo (p : Port) (tag : Byte) (slot : Byte) (num : BitVec 16)
  | retain (p : Port) (tag : Byte) (slot : Byte) (num : BitVec 16)
  | release (p : Port) (tag : Byte) (slot : Byte) (num : BitVec 16)
  | readRecords (p : Port) (tag : Byte) (slot : Byte) (num : BitVec 16) (start : BitVec 64) (count : Byte)
  | eventsRead (p : Port) (tag : Byte) (count : Byte)
  | eventsSeek (p : Port) (tag : Byte) (target : SeekTarget)
  | eventsThreshold (p : Port) (tag : Byte) (threshold : BitVec 16)
  | renderStart (p : Port) (tag : Byte) (slot : Byte) (num : BitVec 16) (start : BitVec 64) (width : BitVec 64)
      (columns : BitVec 16) (channels : List Byte) (lanes : Byte)
  | renderFetch (p : Port) (tag : Byte) (count : Byte)
  | renderCancel (p : Port) (tag : Byte)
  | noticeRead (p : Port) (tag : Byte)
  | noticeEnable (p : Port) (tag : Byte) (enables : BitVec 16)
  | podInfo (p : Port) (tag : Byte) (pod : Byte)
  | podRescan (p : Port) (tag : Byte) (pod : Byte)
  | storeHealth (p : Port) (tag : Byte) (clear : Byte)
  | storeTest (p : Port) (tag : Byte) (kind : Byte)
  | portReset (p : Port) (tag : Byte)
  | engineReset (p : Port) (tag : Byte)
  /-- The sense line of a socket reads present (R3). -/
  | sensePresent (pod : Four) (t : Nat)
  /-- The debounce timer of a socket ends (R3). -/
  | debounceExpiry (pod : Four)
  /-- The sense line of a socket reads absent (R4). -/
  | podDetach (pod : Four) (t : Nat)
  /-- A read attempt has clocked in 64 bytes and made its stop condition at `t` (R6, R8). -/
  | descriptorReadDone (pod : Four) (bytes : Vector Byte 64) (t : Nat)
  /-- The pod does not acknowledge the address byte (R7). -/
  | addressNak (pod : Four) (t : Nat)
  /-- The pod holds the clock low, from the time `t` on, for more than 25 ms (R7). -/
  | clockHoldTimeout (pod : Four) (t : Nat)
  /-- The 10 ms wait after a failed attempt ends (R7). -/
  | retryWaitExpiry (pod : Four)
  /-- A change of the trigger-in line to `level` (R84). -/
  | triggerInEdge (level : Bool) (t : Nat)
  /-- A trigger-out pulse runs out (R98). -/
  | triggerOutPulseEnd
  /-- Sample 0 of a capture (R21). -/
  | firstSample (w : ChannelWord)
  /-- The next sample after sample 0 (R24). -/
  | sample (w : ChannelWord)
  /-- The sample on which the engine becomes ARMED (R64). -/
  | armedEntry (w : ChannelWord)
  /-- The sample on which a WITHIN stage runs out of time (R93). -/
  | withinExpiry (w : ChannelWord)
  /-- The sample on which the current stage is satisfied (R95). -/
  | stageSatisfied (w : ChannelWord)
  /-- The sample on which the post-trigger length is complete (R67). -/
  | postDone (w : ChannelWord)
  /-- The sample on which a TWO_WIRE frame stalls (R116). -/
  | twoWireStall (lane : Four) (w : ChannelWord)
  /-- The sample on which a CLOCKED frame without select ends by idle (R118). -/
  | clockedIdleEnd (lane : Four) (w : ChannelWord)
  /-- The sample on which an ASYNC frame ends by idle (R120). -/
  | asyncIdleEnd (lane : Four) (w : ChannelWord)
  /-- The sample on which a BIPHASE frame ends by idle (R122). -/
  | biphaseIdleEnd (lane : Four) (w : ChannelWord)
  /-- The sample on which a drain is cut off (R109). -/
  | drainLimit (lane : Four) (w : ChannelWord)
  /-- The seal of the final write completes (R71). -/
  | finalWriteComplete
  /-- The renderer makes the next column item (R157). -/
  | columnItem
  /-- The renderer makes the next annotation item (R161). -/
  | annotationItem
  deriving DecidableEq, Repr

end Sys2Proof
end

