-- ==== Sys2Proof/Decode.lean ====
section
/-! DEFINITION. Request frames: the header and body of a SEND transaction (R176, R179, R187) read into a command, total on any
bytes; a frame that is no request is rejected by name (UNKNOWN, MALFORMED). The opcode table gives no row any
bits, so a table word spells no command. -/

namespace Sys2Proof

/-- The number that `bytes` spell, most significant byte first (R179). -/
def beNat : List Byte → Nat
  | bytes => bytes.foldl (fun acc x => acc * 256 + x.toNat) 0

/-- The `k` bytes of `n` modulo `256 ^ k`, most significant byte first (R179). -/
def beBytes : Nat → Nat → List Byte
  | 0, _ => []
  | k + 1, n => BitVec.ofNat 8 (n / 256 ^ k) :: beBytes k n

/-- The unsigned field of `k` bytes at byte offset `off`; bytes that are not there read as 0. -/
def fieldAt (bytes : List Byte) (off k : Nat) : Nat := beNat ((bytes.drop off).take k)

/-- The byte at offset `off`; 0 where there is none. -/
def byteAt (bytes : List Byte) (off : Nat) : Byte := bytes.getD off 0

/-- The two's complement reading of a field of `k` bytes (R179). -/
def signedOf (k n : Nat) : Int := if n < 2 ^ (8 * k - 1) then (n : Int) else (n : Int) - (2 ^ (8 * k) : Nat)

/-- The signed field of `k` bytes at byte offset `off` (R179). -/
def signedAt (bytes : List Byte) (off k : Nat) : Int := signedOf k (fieldAt bytes off k)

/-- Length of one trigger condition on the wire (R179: 1 + 9 + 5 + 18 + 2). -/
def conditionLength : Nat := 35

/-- Length of one stage record on the wire (log 12): conditions, combine, required count, timer use and limit,
fail target, success target, actions. -/
def stageLength : Nat := 90

/-- Length of one lane record on the wire (R103, R179). -/
def laneLength : Nat := 31

/-- Length of one match entry on the wire (R126, R179). -/
def entryLength : Nat := 14

/-- Do these contents have the length of the named plan section (R179)? The sections are numbered in the order of
R167; a number without meaning fits any length. -/
def contentsFit (sec : Byte) (contents : List Byte) : Bool :=
  match sec.toNat with
  | 1 => contents.length == 28
  | 2 => contents.length == 40
  | 3 => contents.length == 1 + 8 * stageLength
  | 4 => contents.length == 4 * laneLength
  | 5 => 2 ≤ contents.length && contents.length == 2 + entryLength * (byteAt contents 1).toNat
  | _ => true

/-- The body of a PLAN_EDIT: the section, the expected generation, the contents (section 10.3). A body without
a section byte does not fit; a section byte without meaning fits with any length (R179), and where the body is too
short to hold a generation the generation is open (log 10). -/
def decodePlanEdit (p : Port) (tag : Byte) (body : List Byte) : Option Instr :=
  match body with
  | [] => none
  | sec :: rest =>
    if 4 ≤ rest.length then
      if contentsFit sec (rest.drop 4) then
        some (.planEdit p tag sec (BitVec.ofNat 32 (fieldAt rest 0 4)) (rest.drop 4))
      else none
    else if 1 ≤ sec.toNat && sec.toNat ≤ 5 then none
    else some (.planEdit p tag sec (Config.openGeneration body) [])

/-- The body of an EVENTS_SEEK: the target byte and that target's own parameters (R147, R179, log 11). -/
def decodeEventsSeek (p : Port) (tag : Byte) (body : List Byte) : Option Instr :=
  match body with
  | [] => none
  | code :: rest =>
    match code.toNat with
    | 1 => if rest.length == 3 then
        some (.eventsSeek p tag (.firstOf (byteAt rest 0) (BitVec.ofNat 16 (fieldAt rest 1 2)))) else none
    | 2 => if rest.length == 11 then
        some (.eventsSeek p tag
          (.atTime (byteAt rest 0) (BitVec.ofNat 16 (fieldAt rest 1 2)) (BitVec.ofNat 64 (fieldAt rest 3 8)))) else none
    | 3 => if rest.length == 0 then some (.eventsSeek p tag .newest) else none
    | _ => some (.eventsSeek p tag (.other code rest))

/-- The body of a RENDER_START: slot, number, S, Zq, C, the counted channel list, the lane set (R151, R179). -/
def decodeRenderStart (p : Port) (tag : Byte) (body : List Byte) : Option Instr :=
  let k := (byteAt body 21).toNat
  if body.length == 23 + k then
    some (.renderStart p tag (byteAt body 0) (BitVec.ofNat 16 (fieldAt body 1 2)) (BitVec.ofNat 64 (fieldAt body 3 8))
      (BitVec.ofNat 64 (fieldAt body 11 8)) (BitVec.ofNat 16 (fieldAt body 19 2)) ((body.drop 22).take k)
      (byteAt body (22 + k)))
  else none

/-! ## Transactions (R175) -/

/-- The kinds of a transaction (R175). -/
inductive TransactionKind where
  | send
  | fetch
  | other
  deriving DecidableEq, Repr

/-- The kind byte of a SEND (R175). -/
def sendKind : Byte := 0x01

/-- The kind byte of a FETCH (R175). -/
def fetchKind : Byte := 0x02

/-- What a kind byte says (R175). -/
def transactionKind (kind : Byte) : TransactionKind :=
  if kind = sendKind then .send else if kind = fetchKind then .fetch else .other

/-- The command that the bytes clocked in one assertion of a port's chip select spell: the first byte is the kind, and what
follows a FETCH kind is ignored but for its number (R175). An assertion without a byte is no transaction. -/
def decodeTransaction (p : Port) : List Byte → Option Instr
  | [] => none
  | kind :: bytes =>
    match transactionKind kind with
    | .send => some (.sendTransaction p bytes)
    | .fetch => some (.fetchTransaction p bytes.length)
    | .other => some (.otherKindTransaction p kind bytes)

/-! ## Frames (R176) -/

/-- What the port controller makes of a complete header and the body after it (R176). -/
inductive Decoded where
  /-- The request code is not one of the 27. -/
  | unknown
  /-- The body does not fit the request. -/
  | malformed
  /-- The request is passed to its owning block. -/
  | request (c : Instr)
  deriving DecidableEq, Repr

/-- A request whose body is fixed at `k` bytes (R179). -/
def fixedBody (body : List Byte) (k : Nat) (c : Instr) : Decoded :=
  if body.length == k then .request c else .malformed

/-- A request whose body length depends on what it carries (R179). -/
def variableBody : Option Instr → Decoded
  | some c => .request c
  | none => .malformed

/-- The request that a request code and a body of the announced length spell, by the numbering of R180. -/
def decodeRequest (p : Port) (code tag : Byte) (body : List Byte) : Decoded :=
  let slot := byteAt body 0
  let num := BitVec.ofNat 16 (fieldAt body 1 2)
  match code.toNat with
  | 1 => fixedBody body 0 (.ident p tag)
  | 2 => fixedBody body 1 (.planRead p tag slot)
  | 3 => variableBody (decodePlanEdit p tag body)
  | 4 => fixedBody body 0 (.arm p tag)
  | 5 => fixedBody body 0 (.stop p tag)
  | 6 => fixedBody body 0 (.force p tag)
  | 7 => fixedBody body 0 (.abort p tag)
  | 8 => fixedBody body 0 (.status p tag)
  | 9 => fixedBody body 0 (.captureList p tag)
  | 10 => fixedBody body 3 (.captureInfo p tag slot num)
  | 11 => fixedBody body 3 (.retain p tag slot num)
  | 12 => fixedBody body 3 (.release p tag slot num)
  | 13 => fixedBody body 12 (.readRecords p tag slot num (BitVec.ofNat 64 (fieldAt body 3 8)) (byteAt body 11))
  | 14 => fixedBody body 1 (.eventsRead p tag slot)
  | 15 => variableBody (decodeEventsSeek p tag body)
  | 16 => fixedBody body 2 (.eventsThreshold p tag (BitVec.ofNat 16 (fieldAt body 0 2)))
  | 17 => variableBody (decodeRenderStart p tag body)
  | 18 => fixedBody body 1 (.renderFetch p tag slot)
  | 19 => fixedBody body 0 (.renderCancel p tag)
  | 20 => fixedBody body 0 (.noticeRead p tag)
  | 21 => fixedBody body 2 (.noticeEnable p tag (BitVec.ofNat 16 (fieldAt body 0 2)))
  | 22 => fixedBody body 1 (.podInfo p tag slot)
  | 23 => fixedBody body 1 (.podRescan p tag slot)
  | 24 => fixedBody body 1 (.storeHealth p tag slot)
  | 25 => fixedBody body 1 (.storeTest p tag slot)
  | 26 => fixedBody body 0 (.portReset p tag)
  | 27 => fixedBody body 0 (.engineReset p tag)
  | _ => .unknown

/-- A SEND transaction's frame: `none` when the 4 header bytes are not complete, otherwise the tag and what the
header and body spell (R176). An unknown code decides before the body is looked at, a body shorter than announced is
MALFORMED, and bytes after the body are ignored. -/
def decodeFrame (p : Port) (bytes : List Byte) : Option (Byte × Decoded) :=
  if bytes.length < 4 then none
  else
    let code := byteAt bytes 0
    let tag := byteAt bytes 1
    let len := fieldAt bytes 2 2
    let body := (bytes.drop 4).take len
    if code.toNat = 0 ∨ 27 < code.toNat then some (tag, .unknown)
    else if body.length < len then some (tag, .malformed)
    else some (tag, decodeRequest p code tag body)

/-- Does a request command carry a body that a frame can carry and that fits its request (R179)? A command that is
no request needs no body. -/
def bodyFits : Instr → Bool
  | .planEdit _ _ sec _ contents => contentsFit sec contents
  | .eventsSeek _ _ (.other code _) => !(1 ≤ code.toNat && code.toNat ≤ 3)
  | .renderStart _ _ _ _ _ _ _ channels _ => channels.length ≤ 255
  | _ => true

/-- The command that a table word spells: none, since spec/opcode_table.json gives no row any bits. -/
def decodeTableWord (_nbits _w : Nat) : Option Instr := none

end Sys2Proof
end

