-- ==== Sys2Proof/WellFormed.lean ====
section
/-! DEFINITION. Well-formed commands: the ones the outside of the part can send. A command that is not well formed still has a
meaning (exec is total); the checks say which terms stand for something a controller or a pin can do. -/

namespace Sys2Proof

/-- The body of a request fits its frame (R179), and is no longer than the 65,535 bytes a header can announce. -/
def bodySendable : Instr → Bool
  | .planEdit _ _ sec _ contents => contentsFit sec contents && contents.length ≤ 65530
  | .eventsSeek _ _ (.other code rest) => !(1 ≤ code.toNat && code.toNat ≤ 3) && rest.length ≤ 65534
  | .renderStart _ _ _ _ _ _ _ channels _ => channels.length ≤ 255
  | _ => true

/-- A transaction of another kind has a kind byte that is neither SEND nor FETCH (R175). -/
def kindAllowed : Instr → Bool
  | .otherKindTransaction _ kind _ => transactionKind kind == .other
  | _ => true

/-- The command is one that can be sent. -/
def Instr.wellFormed (c : Instr) : Bool := bodySendable c && kindAllowed c

end Sys2Proof
end

