-- ==== Sys2Proof/Machine/State.lean ====
section
/-! DEFINITION. The state of the part, as plain data: what every block holds (R1, R19, R31, R34, R53, R57, R80,
R105, R137, R149, R167, R176, R182), the answers the ports hold, the stop reasons, and the state after reset. -/

namespace Sys2Proof.Machine

open Sys2Proof

/-! ## Fixed-size collections -/

/-- One value for each port. -/
structure PerPort (α : Type) where
  a : α
  b : α
  deriving DecidableEq, Repr

def PerPort.get {α : Type} (x : PerPort α) : Port → α
  | .a => x.a
  | .b => x.b

def PerPort.set {α : Type} (x : PerPort α) (p : Port) (v : α) : PerPort α :=
  match p with
  | .a => { x with a := v }
  | .b => { x with b := v }

/-- Four numbered values: pods, lanes or capture slots. -/
structure Quad (α : Type) where
  q0 : α
  q1 : α
  q2 : α
  q3 : α
  deriving DecidableEq, Repr

def Quad.get {α : Type} (x : Quad α) : Four → α
  | 0 => x.q0
  | 1 => x.q1
  | 2 => x.q2
  | 3 => x.q3

def Quad.set {α : Type} (x : Quad α) (i : Four) (v : α) : Quad α :=
  match i with
  | 0 => { x with q0 := v }
  | 1 => { x with q1 := v }
  | 2 => { x with q2 := v }
  | 3 => { x with q3 := v }

def Quad.all {α : Type} (v : α) : Quad α := ⟨v, v, v, v⟩

/-- The four values, lowest number first. -/
def Quad.toList {α : Type} (x : Quad α) : List α := [x.q0, x.q1, x.q2, x.q3]

def Quad.map {α β : Type} (f : α → β) (x : Quad α) : Quad β := ⟨f x.q0, f x.q1, f x.q2, f x.q3⟩

/-- The four numbers, lowest first. -/
def allFour : List Four := [0, 1, 2, 3]

/-- The two ports. -/
def allPorts : List Port := [.a, .b]

/-! ## Why a step can stop -/

/-- The part stops for nothing (INVENTORY, Faults): no command faults, so there is no reason to name. -/
inductive Fault where
  deriving DecidableEq, Repr

/-- A command without a meaning. -/
inductive Refusal where
  /-- Answered by `exec` for a row that has no meaning yet; safe, since nothing is claimed of it. No arm is left so. -/
  | notModelled (mnemonic : String)
  deriving DecidableEq, Repr

/-! ## Pods (R1) -/

inductive PodState where
  | absent
  | identifying
  | ready
  | degraded
  deriving DecidableEq, Repr

inductive DegradeReason where
  | noAnswer
  | badChecksum
  | badFormat
  | badRange
  deriving DecidableEq, Repr

inductive PodKind where
  | standard
  | highZ
  deriving DecidableEq, Repr

/-- The descriptor values of a pod record (R1, R9). -/
structure Descriptor where
  kind : PodKind
  rangeMin : Int
  rangeMax : Int
  gain : Int
  offset : Int
  latency : Nat
  trims : Vector Int 8
  model : Option (List Byte)
  serial : Option (List Byte)
  deriving DecidableEq, Repr

/-- A sign on a pod bus (R6), in the order of time. -/
inductive BusSign where
  /-- A start condition: the data line falls while the clock line is high. -/
  | start
  /-- One clock with the level that the data line has while the clock line is high. -/
  | clock (level : Bool)
  /-- The pod holds the clock line low past the limit of R7. -/
  | held
  /-- A stop condition: the data line rises while the clock line is high. -/
  | stop
  deriving DecidableEq, Repr

/-- What PRB is doing on the pod bus of a socket (R6, R7). -/
inductive BusPhase where
  | quiet
  /-- A read attempt, with the time at which it started. -/
  | attempt (since : Nat)
  /-- The wait after a failed attempt, with the time at which the next attempt starts. -/
  | retryWait (due : Nat)
  deriving DecidableEq, Repr

/-- One pod record with its socket's debounce timer, sense line and bus (R1, R3). `exchange` holds the signs of the last read
attempt on the bus, from its start condition on (R6, log 19). -/
structure Pod where
  state : PodState
  reason : Option DegradeReason
  desc : Option Descriptor
  requested : Int
  code : Nat
  rangeClamped : Bool
  codeClamped : Bool
  attempts : Nat
  bus : BusPhase
  exchange : List BusSign
  debounce : Option Nat
  sense : Bool
  deriving DecidableEq, Repr

/-! ## The plan (R82, R103, R126, R167, R168) -/

inductive Mode where
  | window
  | fill
  deriving DecidableEq, Repr

inductive RunMode where
  | single
  | repeated
  deriving DecidableEq, Repr

/-- The ACQ section (R168). -/
structure AcqPlan where
  div : Nat
  mask : ChannelWord
  mode : Mode
  run : RunMode
  pre : Nat
  post : Nat
  quota : Nat
  deriving DecidableEq, Repr

/-- The PROBE section (R168). -/
structure ProbePlan where
  thresholds : Quad Int
  userSkews : Vector Int 32
  deriving DecidableEq, Repr

inductive EdgeDir where
  | rising
  | falling
  | either
  deriving DecidableEq, Repr

/-- A trigger condition with the parameters of its kind (R82). -/
inductive Cond where
  | pattern (mask value : ChannelWord) (equal : Bool)
  | edge (mask : ChannelWord) (dir : EdgeDir)
  | pulse (channel : Nat) (high : Bool) (minWidth maxWidth : Nat)
  | laneMatch (lane : Four) (entry : Nat)
  | triggerIn
  deriving DecidableEq, Repr

inductive Combine where
  | none
  | and
  | or
  | resetBy
  deriving DecidableEq, Repr

/-- Timer use with its limit (R82). -/
inductive StageTimer where
  | none
  | within (limit : Nat)
  | after (limit : Nat)
  deriving DecidableEq, Repr

inductive Target where
  | stage (k : Nat)
  | trigger
  deriving DecidableEq, Repr

/-- The actions of a stage; a lane set is absent when its action is not in the set (R82). -/
structure StageActions where
  notify : Bool
  hold : Option LaneSet
  release : Option LaneSet
  pulseOut : Bool
  deriving DecidableEq, Repr

/-- A stage record (R82). -/
structure Stage where
  primary : Cond
  secondary : Option Cond
  combine : Combine
  required : Nat
  timer : StageTimer
  fail : Option Nat
  success : Target
  actions : StageActions
  deriving DecidableEq, Repr

/-- The TRIGGER section: the stage count and eight stage records (R167). -/
structure TriggerPlan where
  count : Nat
  stages : Vector Stage 8
  deriving DecidableEq, Repr

inductive LaneKind where
  | none
  | twoWire
  | clocked
  | async
  | biphase
  deriving DecidableEq, Repr

inductive Parity where
  | none
  | even
  | odd
  deriving DecidableEq, Repr

/-- A lane record of the LANES section (R103). A level is `true` for HIGH. -/
structure LaneCfg where
  kind : LaneKind
  clock : Nat
  data : Nat
  select : Option Nat
  samplingRising : Bool
  selectHigh : Bool
  wordSize : Nat
  bitPeriod : Nat
  dataBits : Nat
  parity : Parity
  stopBits : Nat
  idleHigh : Bool
  halfCell : Nat
  msbFirst : Bool
  limit : Nat
  timeout : Nat
  startHeld : Bool
  deriving DecidableEq, Repr

inductive MatchField where
  | addr
  | wordAt (position : Nat)
  | anyWord
  deriving DecidableEq, Repr

inductive MatchDir where
  | any
  | read
  | write
  deriving DecidableEq, Repr

/-- The actions of a match entry (R126). -/
structure MatchActions where
  mark : Bool
  notify : Bool
  feed : Bool
  hold : Option LaneSet
  release : Option LaneSet
  deriving DecidableEq, Repr

/-- A match entry (R126). -/
structure MatchEntry where
  field : MatchField
  value : BitVec 32
  mask : BitVec 32
  dir : MatchDir
  actions : MatchActions
  deriving DecidableEq, Repr

/-- The plan's five sections, in the order of R167. -/
structure Plan where
  acq : AcqPlan
  probe : ProbePlan
  trigger : TriggerPlan
  lanes : Quad LaneCfg
  matchLists : Quad (List MatchEntry)
  deriving DecidableEq, Repr

/-- The names of the sections, in the order of R167. -/
inductive Section where
  | acq
  | probe
  | trigger
  | lanes
  | matches
  deriving DecidableEq, Repr

/-! ## Captures and the store (R31, R34, R53) -/

/-- A capture's name: its slot and its number (00_scope.md, Conventions). -/
structure CapName where
  slot : Four
  num : Nat
  deriving DecidableEq, Repr

/-- A change record as it lies in the store: its true state word and run length, and which of the 48 data bits of
its store word are flipped (bit `c` for channel `c`, bits 32 to 47 for the run length minus one). -/
structure Rec where
  word : ChannelWord
  run : Nat
  flips : BitVec 48
  deriving DecidableEq, Repr

inductive BlockState where
  | filling
  | sealed
  deriving DecidableEq, Repr

/-- The record of a block that is not FREE, with the records it holds (R31). -/
structure Block where
  state : BlockState
  owner : CapName
  first : Nat
  damaged : Bool
  next : Option Nat
  records : List Rec
  deriving DecidableEq, Repr

inductive TrigSource where
  | stage (k : Nat)
  | force
  | triggerIn
  deriving DecidableEq, Repr

inductive EndReason where
  | postDone
  | stopTaken
  | storeFull
  deriving DecidableEq, Repr

/-- A capture record (R34); its slot is its place in the capture table. -/
structure Capture where
  num : Nat
  complete : Bool
  origin : Option Nat
  div : Nat
  mask : ChannelWord
  mode : Mode
  quota : Nat
  firstGen : BitVec 32
  lastGen : BitVec 32
  trigTime : Option Nat
  trigSource : Option TrigSource
  trigBlock : Option Nat
  shortPre : Bool
  endReason : Option EndReason
  head : Nat
  podLost : List (Four × Nat)
  degradedPods : List Four
  frames : Quad Nat
  errors : Quad Nat
  expired : Nat
  truncated : Nat
  thresholdEdited : Bool
  damaged : Bool
  discard : Bool
  retain : PerPort Bool
  deriving DecidableEq, Repr

inductive ErrLocKind where
  | correctable
  | uncorrectable
  deriving DecidableEq, Repr

/-- The last-error location (R53). -/
structure ErrLoc where
  block : Nat
  record : Nat
  kind : ErrLocKind
  deriving DecidableEq, Repr

inductive TestKind where
  | single
  | double
  deriving DecidableEq, Repr

/-- STO: the block map (a block that is not listed is FREE), the capture table, the number counter and the store
health (R31, R34, R36, R53). -/
structure Store where
  blocks : List (Nat × Block)
  slots : Quad (Option Capture)
  nextNum : Nat
  correctable : Nat
  uncorrectable : Nat
  lastErr : Option ErrLoc
  test : Option TestKind
  deriving DecidableEq, Repr

/-- The run being built (R19). -/
structure Run where
  word : ChannelWord
  len : Nat
  first : Nat
  deriving DecidableEq, Repr

/-- What SMP holds while SAMPLING (R19); `armDone` is the timebase value at which ARM completed (R21). -/
structure Sampling where
  div : Nat
  mask : ChannelWord
  armDone : Nat
  origin : Option Nat
  next : Nat
  lost : List (Four × Nat)
  run : Option Run
  prev : Option ChannelWord
  deriving DecidableEq, Repr

/-! ## Acquisition control (R57, R61, R62) -/

inductive Engine where
  | idle
  | arming
  | armed
  | triggered
  | stopping
  deriving DecidableEq, Repr

/-- The reasons of a PLAN_INVALID refusal, in the order of R61 with those of R102 and R125 in their places (R179). -/
inductive PlanReason where
  | windowQuota
  | dividerChannels (pod : Nat)
  | targetRange
  | noSecondary
  | andSecondary
  | pulseWidth
  | laneKind
  | matchEntry
  | channelMask
  | withinFail
  | laneChannel
  | channelClash
  | bitPeriod
  | cellPeriod
  deriving DecidableEq, Repr

/-- A failing plan consistency check: the section, the stage or lane number, the reason (R61). -/
structure PlanProblem where
  section_ : Section
  number : Option Nat
  reason : PlanReason
  deriving DecidableEq, Repr

/-- Why ARM or a re-arm was refused, with the detail of the answer (R61, R62, R16). -/
inductive ArmRefusal where
  | planInvalid (problem : PlanProblem) (gen : BitVec 32)
  | notReady (pod : Four) (state : PodState)
  | noSlot (complete retained : Nat)
  deriving DecidableEq, Repr

/-- ACQ (R57), with the plan and its generation (R167). `stopPending` is a STOP taken before sample 0 (R68). -/
structure Acq where
  engine : Engine
  active : Option CapName
  copy : Option AcqPlan
  armedAt : Option Nat
  postEnd : Option Nat
  force : Option Engine
  runMode : RunMode
  repeatFlag : Bool
  runCount : Nat
  halt : Option ArmRefusal
  stopPending : Bool
  plan : Plan
  gen : BitVec 32
  deriving DecidableEq, Repr

/-! ## The trigger sequencer (R80) -/

inductive TrgState where
  | standby
  | gated
  | seeking
  | declared
  deriving DecidableEq, Repr

/-- What TRG holds outside STANDBY (R80). -/
structure TrgRun where
  table : List Stage
  stage : Nat
  count : Nat
  entry : Option (Nat × Nat)
  prevPrimary : Bool
  prevSecondary : Bool
  deriving DecidableEq, Repr

/-- The channel history (R83): the levels, and for each channel the raw time at which its level began; `none` is
"since origin". -/
structure ChannelHistory where
  levels : ChannelWord
  starts : Vector (Option Nat) 32
  deriving DecidableEq, Repr

structure Trg where
  state : TrgState
  run : Option TrgRun
  pendingEntry : Option Nat
  history : Option ChannelHistory
  /-- The trigger-in mark with the time of the edge that set it (R84). -/
  mark : Option Nat
  inLevel : Bool
  /-- The end times of the running trigger-out pulses (R98). -/
  pulses : List Nat
  deriving DecidableEq, Repr

/-! ## Decoder lanes (R105) -/

inductive LaneState where
  | off
  | held
  | hunt
  | inFrame
  | draining
  deriving DecidableEq, Repr

/-- The word in progress: the bits in the order taken, and the raw time of the first. -/
structure WordProgress where
  bits : List Bool
  first : Nat
  deriving DecidableEq, Repr

/-- The hunt basis (R108): `qualified`, or the quiet-since or idle-since time. -/
structure HuntBasis where
  qualified : Bool
  since : Option Nat
  deriving DecidableEq, Repr

/-- An ASYNC character in progress: start time `T`, next bit index, the levels read after the start bit, and the
last return of the line to its idle level (R119, R120). -/
structure AsyncChar where
  start : Nat
  next : Nat
  bits : List Bool
  returned : Option Nat
  deriving DecidableEq, Repr

/-- The contexts of the four kinds (R105); cleared when a frame opens and when it is left. -/
structure KindCtx where
  addrNext : Bool
  dirRead : Option Bool
  clockEdge : Option Nat
  selectActive : Option Bool
  char : Option AsyncChar
  waitIdle : Bool
  idleSince : Option Nat
  reference : Option Nat
  shortStart : Option Nat
  deriving DecidableEq, Repr

/-- The cleared kind contexts. -/
def KindCtx.cleared : KindCtx :=
  { addrNext := false, dirRead := none, clockEdge := none, selectActive := none, char := none, waitIdle := false,
    idleSince := none, reference := none, shortStart := none }

/-- The fields of a lane that are absent outside a capture (R105). -/
structure LaneCtx where
  cfg : LaneCfg
  capture : CapName
  wordPos : Nat
  truncated : Bool
  word : Option WordProgress
  /-- Absent outside HUNT, and in HUNT until the entry sample sets it (R108). -/
  hunt : Option HuntBasis
  drainLimit : Option Nat
  lastStart : Option Int
  kctx : KindCtx
  deriving DecidableEq, Repr

/-- A hold or release that has not been applied, with the index it carries (R107). -/
structure LaneReq where
  hold : Bool
  index : Nat
  deriving DecidableEq, Repr

structure Lane where
  state : LaneState
  frame : Nat
  pend : List LaneReq
  ctx : Option LaneCtx
  deriving DecidableEq, Repr

/-! ## The event list (R136, R137) -/

inductive EventKind where
  | start
  | addr
  | word
  | stop
  | error
  | partialFrame
  deriving DecidableEq, Repr

inductive ErrKind where
  | stall
  | shortWord
  | long
  | cell
  deriving DecidableEq, Repr

/-- An event record (R136); the attributes are the bits of R188. -/
structure Event where
  seq : Nat
  cap : CapName
  lane : Four
  kind : EventKind
  frame : Nat
  start : Int
  stop : Int
  value : Option Nat
  attrs : BitVec 8
  err : Option ErrKind
  bits : Option Nat
  matched : List Nat
  deriving DecidableEq, Repr

/-- The state EVL keeps for one port (R137); `primed` is PRIMED, otherwise SPENT. -/
structure EventPort where
  cursor : Nat
  missed : Nat
  threshold : Nat
  primed : Bool
  deriving DecidableEq, Repr

structure Evl where
  events : List Event
  nextSeq : Nat
  port : PerPort EventPort
  deriving DecidableEq, Repr

/-! ## View rendering (R149) -/

inductive RenderState where
  | idle
  | running
  | waiting
  | finished
  deriving DecidableEq, Repr

inductive RenderEnd where
  | done
  | cancelled
  | replaced
  | gone
  deriving DecidableEq, Repr

inductive ViewLevel where
  | low
  | high
  | unknown
  deriving DecidableEq, Repr

/-- One channel's entry in a column item (R158). -/
structure ColumnEntry where
  start : ViewLevel
  stop : ViewLevel
  count : Nat
  deriving DecidableEq, Repr

/-- The items of a render queue (R157, R160). -/
inductive Item where
  | column (index : Nat) (void beyond damaged : Bool) (entries : List ColumnEntry)
  | annotation (seq : Nat) (lane : Four) (kind : EventKind) (value : Option Nat) (startCol endCol : Nat)
      (clipL clipR : Bool)
  deriving DecidableEq, Repr

/-- The parameters and progress of a render (R149). -/
structure Render where
  cap : CapName
  start : Nat
  width : Nat
  columns : Nat
  channels : List Nat
  lanes : LaneSet
  skews : List Int
  nextCol : Nat
  mark : Option Nat
  deriving DecidableEq, Repr

/-- A render context (R149). -/
structure RenderCtx where
  state : RenderState
  render : Option Render
  queue : List Item
  lastEnd : Option RenderEnd
  deriving DecidableEq, Repr

/-- VRN: the two contexts and the context that holds the renderer's turn (R149, R154). -/
structure Vrn where
  ctx : PerPort RenderCtx
  turn : Option Port
  deriving DecidableEq, Repr

/-! ## Answers (R179, R180 and the owning rules) -/

/-- The status codes of R180. -/
inductive Status where
  | ok
  | busy
  | stale
  | active
  | wrongState
  | invalid
  | planInvalid
  | noSlot
  | retained
  | gone
  | notReady
  | unknown
  | malformed
  deriving DecidableEq, Repr

/-- A plan section's contents (R169). -/
inductive SectionContents where
  | acq (x : AcqPlan)
  | probe (x : ProbePlan)
  | trigger (x : TriggerPlan)
  | lanes (x : Quad LaneCfg)
  | matches (x : Quad (List MatchEntry))
  deriving DecidableEq, Repr

/-- The items of a STATUS answer (R77). -/
structure StatusReport where
  timebase : Nat
  engine : Engine
  active : Option CapName
  gen : BitVec 32
  copy : Option AcqPlan
  armedAt : Option Nat
  postEnd : Option Nat
  force : Option Engine
  trig : Option (Nat × Nat × Option Nat)
  runMode : RunMode
  repeatFlag : Bool
  runCount : Nat
  halt : Option ArmRefusal
  nextSample : Option Nat
  freeBlocks : Nat
  heldCaptures : Nat
  deriving DecidableEq, Repr

/-- A CAPTURE_LIST entry that is not EMPTY: the record, the held sample count, the chain's block count (R78). -/
structure ListEntry where
  record : Capture
  held : Nat
  blocks : Nat
  deriving DecidableEq, Repr

/-- The items of a CAPTURE_INFO answer (R79); the times are absent before sample 0 (log 24). -/
structure InfoReport where
  name : CapName
  record : Capture
  oldestIndex : Nat
  oldestTime : Option Nat
  lastIndex : Option Nat
  lastTime : Option Nat
  held : Nat
  writtenEnd : Nat
  chain : List Nat
  engine : Option Engine
  deriving DecidableEq, Repr

/-- A change record as READ_RECORDS returns it (R50). -/
structure ReadRec where
  first : Nat
  word : ChannelWord
  run : Nat
  damaged : Bool
  deriving DecidableEq, Repr

/-- The items of a POD_INFO answer (R15). -/
structure PodReport where
  record : Pod
  skews : List Int
  lost : Bool
  deriving DecidableEq, Repr

/-- What a refused RENDER_START names (R151). -/
inductive RenderFault where
  | slot
  | columns
  | width
  | window
  | channelList
  | channel (c : Nat)
  | laneSet
  deriving DecidableEq, Repr

/-- The answers of the part: status and contents of a response (R176, R180). -/
inductive Answer where
  /-- A status with an empty body. -/
  | plain (st : Status)
  | ident (p : Port) (timebase : Nat)
  | planRead (contents : SectionContents) (gen : BitVec 32)
  | edited (gen : BitVec 32)
  | stale (gen : BitVec 32)
  | noSection (sec : Byte)
  | fieldRange (sec : Section) (field : Nat) (number : Option Nat) (gen : BitVec 32)
  | editActive (engine : Engine) (gen : BitVec 32)
  | editBusy (lane : Four) (state : LaneState) (gen : BitVec 32)
  | armed (name : CapName) (gen : BitVec 32)
  | armRefused (why : ArmRefusal)
  | status (r : StatusReport)
  | captureList (entries : Quad (Option ListEntry))
  | captureInfo (r : InfoReport)
  | records (oldest written : Nat) (trimmed atEnd : Bool) (recs : List ReadRec)
  | events (evs : List Event) (missed backlog next : Nat)
  | seek (noneFound : Bool) (cursor backlog : Nat)
  | threshold (value backlog : Nat)
  | renderStarted (skews : List Int) (oldest last : Option Nat)
  | renderInvalid (what : RenderFault)
  | items (list : List Item) (state : RenderState) (lastEnd : Option RenderEnd) (nextCol : Option Nat) (left : Nat)
  | notices (set enables : BitVec 12)
  | enabled (enables set : BitVec 12)
  | pod (r : PodReport)
  | health (correctable uncorrectable : Nat) (loc : Option ErrLoc) (test : Option TestKind)
  | retainedBy (caps : List CapName)
  deriving DecidableEq, Repr

/-! ## Service ports (R176, R182) -/

/-- The notice classes, in the order of their bits (R182). -/
inductive Notice where
  | planChanged
  | engineState
  | triggered
  | captureEnded
  | captureReclaimed
  | laneMatch
  | eventsReady
  | renderData
  | renderEnded
  | podChanged
  | storeError
  | repeatHalted
  deriving DecidableEq, Repr

/-- A request slot (R176): TAKEN holds the request passed on, ANSWERED the tag and the response. -/
inductive Slot where
  | free
  | taken (c : Instr)
  | answered (tag : Byte) (answer : Answer)
  deriving DecidableEq, Repr

/-- A port controller; `driven` is what the port drove after the kind byte of its last transaction. -/
structure PortCtl where
  slot : Slot
  overrun : Bool
  notices : BitVec 12
  enables : BitVec 12
  driven : List Byte
  deriving DecidableEq, Repr

end Sys2Proof.Machine

namespace Sys2Proof.Machine

/-- The whole part. `freeIx` counts the free choices used (log 9); `pending` is the queue of waiting commands. -/
structure State where
  timebase : Nat
  pods : Quad Pod
  smp : Option Sampling
  sto : Store
  acq : Acq
  trg : Trg
  lanes : Quad Lane
  evl : Evl
  vrn : Vrn
  ports : PerPort PortCtl
  freeIx : Nat
  pending : List Instr
  deriving DecidableEq, Repr

namespace State

def setTimebase (s : State) (x : Nat) : State := { s with timebase := x }
def setPods (s : State) (x : Quad Pod) : State := { s with pods := x }
def setSmp (s : State) (x : Option Sampling) : State := { s with smp := x }
def setSto (s : State) (x : Store) : State := { s with sto := x }
def setAcq (s : State) (x : Acq) : State := { s with acq := x }
def setTrg (s : State) (x : Trg) : State := { s with trg := x }
def setLanes (s : State) (x : Quad Lane) : State := { s with lanes := x }
def setEvl (s : State) (x : Evl) : State := { s with evl := x }
def setVrn (s : State) (x : Vrn) : State := { s with vrn := x }
def setPorts (s : State) (x : PerPort PortCtl) : State := { s with ports := x }
def setFreeIx (s : State) (x : Nat) : State := { s with freeIx := x }
def setPending (s : State) (x : List Instr) : State := { s with pending := x }

end State

/-! ## Reset values -/

/-- A pod record at power-on (R2); the sense line is an input (log 8). -/
def Pod.reset (sense : Bool) : Pod :=
  { state := .absent, reason := none, desc := none, requested := 1400, code := 2048, rangeClamped := false,
    codeClamped := false, attempts := 0, bus := .quiet, exchange := [], debounce := if sense then some 0 else none, sense := sense }

/-- The ACQ section at power-on (R167). -/
def AcqPlan.reset : AcqPlan :=
  { div := 2, mask := 0xFF, mode := .window, run := .single, pre := 0, post := 1000000, quota := 2048 }

/-- A stage record at power-on (R167). -/
def Stage.reset : Stage :=
  { primary := .pattern 0 0 true, secondary := none, combine := .none, required := 1, timer := .none, fail := none,
    success := .trigger, actions := { notify := false, hold := none, release := none, pulseOut := false } }

/-- A lane record at power-on (R167). -/
def LaneCfg.reset : LaneCfg :=
  { kind := .none, clock := 0, data := 1, select := none, samplingRising := true, selectHigh := false, wordSize := 8,
    bitPeriod := 1000, dataBits := 8, parity := .none, stopBits := 1, idleHigh := true, halfCell := 500,
    msbFirst := true, limit := 255, timeout := 1000000, startHeld := false }

/-- The plan at power-on (R167). -/
def Plan.reset : Plan :=
  { acq := .reset
    probe := { thresholds := .all 1400, userSkews := Vector.replicate 32 0 }
    trigger := { count := 1, stages := Vector.replicate 8 .reset }
    lanes := .all .reset
    matchLists := .all [] }

/-- STO at power-on (R55). -/
def Store.reset : Store :=
  { blocks := [], slots := .all none, nextNum := 1, correctable := 0, uncorrectable := 0, lastErr := none, test := none }

/-- ACQ at power-on (R57, R167). -/
def Acq.reset : Acq :=
  { engine := .idle, active := none, copy := none, armedAt := none, postEnd := none, force := none, runMode := .single,
    repeatFlag := false, runCount := 0, halt := none, stopPending := false, plan := .reset, gen := 1 }

/-- TRG at power-on (R80); the trigger-in level is as read (log 8). -/
def Trg.reset (inLevel : Bool) : Trg :=
  { state := .standby, run := none, pendingEntry := none, history := none, mark := none, inLevel := inLevel, pulses := [] }

/-- A lane at power-on and after ENGINE_RESET (R105). -/
def Lane.reset : Lane := { state := .off, frame := 0, pend := [], ctx := none }

/-- A port's EVL state at power-on (R137). -/
def EventPort.reset : EventPort := { cursor := 1, missed := 0, threshold := 1, primed := true }

/-- EVL at power-on (R137). -/
def Evl.reset : Evl := { events := [], nextSeq := 1, port := ⟨.reset, .reset⟩ }

/-- A render context at power-on (R149). -/
def RenderCtx.reset : RenderCtx := { state := .idle, render := none, queue := [], lastEnd := none }

/-- VRN at power-on (R149). -/
def Vrn.reset : Vrn := { ctx := ⟨.reset, .reset⟩, turn := none }

/-- A port controller at power-on (R186). -/
def PortCtl.reset : PortCtl := { slot := .free, overrun := false, notices := 0, enables := 0, driven := [] }

/-- The part right after the release of NRST, with every sense line absent and trigger-in low (log 8). -/
def State.reset : State :=
  { timebase := 0
    pods := .all (.reset false)
    smp := none
    sto := .reset
    acq := .reset
    trg := .reset false
    lanes := .all .reset
    evl := .reset
    vrn := .reset
    ports := ⟨.reset, .reset⟩
    freeIx := 0
    pending := [] }

end Sys2Proof.Machine
end

