-- ==== Sys2Proof/Machine/Flags.lean ====
section
/-! DEFINITION. Flags and lines: the notice sets (R182), the ready and notice lines (R178, R182), the trigger-out line
(R98), and the two clamp flags with the threshold code they belong to (R11). -/

namespace Sys2Proof.Machine

open Sys2Proof

/-- The bit of a notice class (R182). -/
def noticeBit : Notice → Nat
  | .planChanged => 0
  | .engineState => 1
  | .triggered => 2
  | .captureEnded => 3
  | .captureReclaimed => 4
  | .laneMatch => 5
  | .eventsReady => 6
  | .renderData => 7
  | .renderEnded => 8
  | .podChanged => 9
  | .storeError => 10
  | .repeatHalted => 11

/-- The notice set that holds one class. -/
def noticeMask (n : Notice) : BitVec 12 := BitVec.ofNat 12 (2 ^ noticeBit n)

/-- Is the class pending for the port? -/
def State.hasNotice (s : State) (p : Port) (n : Notice) : Bool := (s.ports.get p).notices.getLsbD (noticeBit n)

/-- Replace what the port controller of `p` holds. -/
def State.setPort (s : State) (p : Port) (x : PortCtl) : State := s.setPorts (s.ports.set p x)

/-- A block raises a class to a port: the class joins the port's notice set (R182). -/
def State.raise (s : State) (p : Port) (n : Notice) : State :=
  let x := s.ports.get p
  s.setPort p { x with notices := x.notices ||| noticeMask n }

/-- A block raises a class to both ports. -/
def State.raiseBoth (s : State) (n : Notice) : State := (s.raise .a n).raise .b n

/-- The ready line: asserted from the placing of a response until it is read (R178). -/
def State.readyLine (s : State) (p : Port) : Bool :=
  match (s.ports.get p).slot with
  | .answered _ _ => true
  | _ => false

/-- The notice line: the notice set and the enable set have a class in common (R182). -/
def State.noticeLine (s : State) (p : Port) : Bool := (s.ports.get p).notices &&& (s.ports.get p).enables != 0

/-- The trigger-out line is high while a pulse runs (R98). -/
def State.triggerOutLine (s : State) : Bool := !s.trg.pulses.isEmpty

/-- A socket's threshold DAC drives the record's applied code at all times (R1). -/
def State.dacCode (s : State) (pod : Four) : Nat := (s.pods.get pod).code

/-- The quotient of R11, rounded to nearest with halves away from zero. -/
def roundedCodes (n : Int) : Int :=
  let magnitude : Nat := (n.natAbs + 25165824) / 50331648
  if n < 0 then -(magnitude : Int) else magnitude

/-- A threshold computation: code, RANGE_CLAMPED, CODE_CLAMPED (R11). -/
def thresholdCode (requested rangeMin rangeMax gain offset : Int) : Nat × Bool × Bool :=
  let v := if requested < rangeMin then rangeMin else if rangeMax < requested then rangeMax else requested
  let n := 16 * v * (1048576 + gain) + 3145728 * offset
  let code := 2048 + roundedCodes n
  (if code < 0 then 0 else if 4095 < code then 4095 else code.toNat,
   decide (requested < rangeMin ∨ rangeMax < requested), decide (code < 0 ∨ 4095 < code))

/-- Addition that stops at a maximum (00_scope.md, Conventions). -/
def satAdd (top a b : Nat) : Nat := min top (a + b)

/-- A port's ready state and whether EVENTS_READY is raised, when EVL checks it against a backlog (R145). -/
def readyCheck (x : EventPort) (backlog : Nat) : EventPort × Bool :=
  if x.primed && x.threshold ≤ backlog then ({ x with primed := false }, true) else (x, false)

/-- The re-arming of R145 at the end of a request: PRIMED when the backlog is below the threshold. -/
def readyRearm (x : EventPort) (backlog : Nat) : EventPort :=
  if backlog < x.threshold then { x with primed := true } else x

end Sys2Proof.Machine
end

