-- ==== Sys2Proof/Machine/Ops.lean ====
section
/-! DEFINITION. The shared operations over the store, the capture table, the event list and the renders: lookups, held quantities
(R23), removal of a capture (R45, R142, R164), reclaim (R40), the entry of an event (R138 to R140), skews (R13),
and time. -/

namespace Sys2Proof.Machine

open Sys2Proof

/-! ## Time -/

/-- The timebase at an event that comes at `t` or, where `t` has passed, now (logs 2 and 3). -/
def State.advanceTo (s : State) (t : Nat) : State := s.setTimebase (max s.timebase t)

/-! ## The block map (R31 to R33) -/

/-- The record of block `n`; `none` for a FREE block. -/
def lookupBlock : List (Nat × Block) → Nat → Option Block
  | [], _ => none
  | (m, b) :: rest, n => if m = n then some b else lookupBlock rest n

/-- The block map with block `n` holding `b`, in rising order of block numbers. -/
def insertBlock : List (Nat × Block) → Nat → Block → List (Nat × Block)
  | [], n, b => [(n, b)]
  | (m, c) :: rest, n, b =>
    if n < m then (n, b) :: (m, c) :: rest
    else if n = m then (n, b) :: rest
    else (m, c) :: insertBlock rest n b

/-- The block map's canonical form: numbers strictly rising and below 2048. -/
def blocksSorted : List (Nat × Block) → Bool
  | [] => true
  | [(n, _)] => n < Config.blockCount
  | (m, _) :: (n, b) :: rest => m < n && blocksSorted ((n, b) :: rest)

/-- The store is in its canonical form. -/
def Store.wf (x : Store) : Bool := blocksSorted x.blocks

/-- The lowest FREE block from `k` on, looking at `fuel` blocks. -/
def lowestFreeFrom (blocks : List (Nat × Block)) : Nat → Nat → Option Nat
  | 0, _ => none
  | fuel + 1, k => if (lookupBlock blocks k).isNone then some k else lowestFreeFrom blocks fuel (k + 1)

/-- The lowest-numbered FREE block (R37, R39). -/
def Store.lowestFree (x : Store) : Option Nat := lowestFreeFrom x.blocks Config.blockCount 0

/-- The number of FREE blocks (R77). -/
def Store.freeCount (x : Store) : Nat := Config.blockCount - x.blocks.length

/-- The blocks of a chain from a block number on, following the next fields (R33). -/
def chainFrom (blocks : List (Nat × Block)) : Nat → Option Nat → List (Nat × Block)
  | 0, _ => []
  | _ + 1, none => []
  | fuel + 1, some n =>
    match lookupBlock blocks n with
    | none => []
    | some b => (n, b) :: chainFrom blocks fuel b.next

/-- The chain of a capture, oldest block first (R33). -/
def Store.chain (x : Store) (c : Capture) : List (Nat × Block) := chainFrom x.blocks Config.blockCount (some c.head)

/-- Number of records in a block (R31). -/
def Block.recordCount (b : Block) : Nat := b.records.length

/-- Sum of the run lengths of a block's records (R31). -/
def Block.sampleCount (b : Block) : Nat := (b.records.map Rec.run).sum

/-- The block of a capture that is FILLING (R33: at most one). -/
def Store.filling (x : Store) (name : CapName) : Option (Nat × Block) :=
  x.blocks.find? fun e => e.2.owner = name ∧ e.2.state = .filling

/-- The number of blocks a capture holds (R39). -/
def Store.ownedCount (x : Store) (name : CapName) : Nat := (x.blocks.filter fun e => e.2.owner = name).length

/-! ## The capture table (R34, R35) -/

/-- The capture a name stands for; `none` when it is gone (R35). -/
def Store.capture (x : Store) (name : CapName) : Option Capture :=
  match x.slots.get name.slot with
  | some c => if c.num = name.num then some c else none
  | none => none

/-- The name of the capture a slot holds. -/
def Store.nameAt (x : Store) (i : Four) : Option CapName := (x.slots.get i).map fun c => ⟨i, c.num⟩

/-- Change the record of the named capture, if it is held. -/
def Store.modify (x : Store) (name : CapName) (f : Capture → Capture) : Store :=
  match x.capture name with
  | some c => { x with slots := x.slots.set name.slot (some (f c)) }
  | none => x

/-- Change the record of the named capture, if it is held. -/
def State.modifyCapture (s : State) (name : CapName) (f : Capture → Capture) : State := s.setSto (s.sto.modify name f)

/-- Change the ACTIVE capture's record, if there is one. -/
def State.modifyActive (s : State) (f : Capture → Capture) : State :=
  match s.acq.active with
  | some name => s.modifyCapture name f
  | none => s

/-- The ACTIVE capture's record. -/
def State.activeCapture (s : State) : Option Capture := s.acq.active.bind s.sto.capture

/-! ## Held quantities (R23) -/

/-- First sample index held. MODEL'S CHOICE (log 24): from ARM's completion to sample 0, where R37 has not yet set the head block's
first index, it is 0. -/
def Store.oldestIndex (x : Store) (c : Capture) : Nat :=
  match lookupBlock x.blocks c.head with
  | some b => b.first
  | none => 0

/-- Held sample count. -/
def Store.heldCount (x : Store) (c : Capture) : Nat := ((x.chain c).map fun e => e.2.sampleCount).sum

/-- The first index not held. MODEL'S CHOICE (log 24): 0 while no sample is held. -/
def Store.writtenEnd (x : Store) (c : Capture) : Nat := x.oldestIndex c + x.heldCount c

/-- Last sample index; absent while no sample is held (log 24). -/
def Store.lastIndex (x : Store) (c : Capture) : Option Nat :=
  if x.heldCount c = 0 then none else some (x.writtenEnd c - 1)

/-- The raw time of a sample index; absent before the origin is known. -/
def Capture.timeOf (c : Capture) (n : Nat) : Option Nat := c.origin.map fun o => o + n * c.div

/-- Oldest held time. -/
def Store.oldestTime (x : Store) (c : Capture) : Option Nat := c.timeOf (x.oldestIndex c)

/-- Last sample time. -/
def Store.lastTime (x : Store) (c : Capture) : Option Nat := (x.lastIndex c).bind c.timeOf

/-- First time of a block: the raw time of its first sample index (R31). -/
def Block.firstTime (b : Block) (c : Capture) : Option Nat := c.timeOf b.first

/-! ## Skew (R13) -/

/-- The pod that carries a channel (section 1.1). -/
def podOf (channel : Nat) : Four := Fin.ofNat 4 (channel / 8)

/-- Latency of a pod: its descriptor's, and 0 where it holds none (R13). -/
def Pod.latency (x : Pod) : Int := match x.desc with | some d => (d.latency : Int) | none => 0

/-- Trim of an input of a pod: its descriptor's, and 0 where it holds none (R13). -/
def Pod.trim (x : Pod) (input : Fin 8) : Int := match x.desc with | some d => d.trims[input] | none => 0

/-- The user skew of a channel in the PROBE section. -/
def ProbePlan.userSkew (x : ProbePlan) (channel : Nat) : Int := x.userSkews[Fin.ofNat 32 channel]

/-- The skew of a channel as PRB gives it now (R13). -/
def State.skewOf (s : State) (channel : Nat) : Int :=
  (s.pods.get (podOf channel)).latency + (s.pods.get (podOf channel)).trim (Fin.ofNat 8 channel) +
    s.acq.plan.probe.userSkew channel

/-- Does a channel mask hold a channel of the pod? -/
def maskHasPod (mask : ChannelWord) (pod : Four) : Bool := (mask >>> (8 * pod.val)) &&& 0xFF != 0

/-! ## Renders: turns and ends (R150, R154) -/

/-- Who takes the next turn after one of `p`'s ends: the other context if RUNNING, else the same, else none (R154). -/
def Vrn.nextTurn (v : Vrn) (p : Port) : Option Port :=
  if (v.ctx.get p.other).state = .running then some p.other
  else if (v.ctx.get p).state = .running then some p
  else none

/-- The turn of `p`, if it holds one, ends (R154). -/
def Vrn.endTurn (v : Vrn) (p : Port) : Vrn := if v.turn = some p then { v with turn := v.nextTurn p } else v

/-- A context has become RUNNING: it takes the turn if the renderer rests (R154). -/
def Vrn.claimTurn (v : Vrn) (p : Port) : Vrn := if v.turn = none then { v with turn := some p } else v

/-- Replace a context. -/
def Vrn.setCtx (v : Vrn) (p : Port) (x : RenderCtx) : Vrn := { v with ctx := v.ctx.set p x }

/-- A render in progress ends: the queue is discarded, the fields become absent, the turn passes on (R150). -/
def Vrn.endRender (v : Vrn) (p : Port) (why : RenderEnd) : Vrn :=
  (v.setCtx p { state := .idle, render := none, queue := [], lastEnd := some why }).endTurn p

/-- Is a render of the context in progress? -/
def RenderCtx.inProgress (x : RenderCtx) : Bool := x.state != .idle

/-- Does the context's render name the capture? -/
def RenderCtx.names (x : RenderCtx) (name : CapName) : Bool :=
  x.inProgress && (match x.render with | some r => r.cap = name | none => false)

/-- The context of one port ends GONE with RENDER_ENDED (R164). -/
def State.renderGone (s : State) (p : Port) : State := (s.setVrn (s.vrn.endRender p .gone)).raise p .renderEnded

/-- STO tells VRN that a capture is removed (R164). -/
def State.rendersGone (s : State) (name : CapName) : State :=
  allPorts.foldl (fun s p => if (s.vrn.ctx.get p).names name then s.renderGone p else s) s

/-! ## Events leaving the list (R141 to R143) -/

/-- How many of the removed events lay at or above a port's cursor (R143). -/
def missedBy (removed : List Event) (x : EventPort) : Nat := (removed.filter fun e => x.cursor ≤ e.seq).length

/-- A port's missed count after a removal (R143). -/
def EventPort.miss (x : EventPort) (removed : List Event) : EventPort :=
  { x with missed := satAdd Config.max16 x.missed (missedBy removed x) }

/-- Remove the events that `gone` picks, with the missed counts of R143. -/
def Evl.remove (e : Evl) (gone : Event → Bool) : Evl :=
  let removed := e.events.filter gone
  { e with events := e.events.filter fun x => !gone x, port := ⟨e.port.a.miss removed, e.port.b.miss removed⟩ }

/-- The expiry of R141: events of the capture that start before its new oldest held time leave. -/
def State.expireEvents (s : State) (name : CapName) (oldest : Nat) : State :=
  let gone := fun e : Event => e.cap = name ∧ e.start < (oldest : Int)
  let k := (s.evl.events.filter fun e => gone e).length
  (s.setEvl (s.evl.remove fun e => gone e)).modifyCapture name
    fun c => { c with expired := satAdd Config.max32 c.expired k }

/-! ## Removing a capture (R40, R45) -/

/-- The capture in a slot is removed: its blocks become FREE, the slot EMPTY, its events leave the list, a render
of it ends GONE (R32, R45, R142, R164). -/
def State.removeCapture (s : State) (i : Four) : State :=
  match s.sto.nameAt i with
  | none => s
  | some name =>
    ((s.setSto { s.sto with
        blocks := s.sto.blocks.filter fun e => e.2.owner ≠ name, slots := s.sto.slots.set i none }).setEvl
      (s.evl.remove fun e => e.cap = name)).rendersGone name

/-- Is the slot's capture COMPLETE and retained by no port? Its origin if so (R40). -/
def Store.reclaimable (x : Store) (i : Four) : Option Nat :=
  match x.slots.get i with
  | some c => if c.complete && !c.retain.a && !c.retain.b then some (c.origin.getD 0) else none
  | none => none

/-- The victim of a reclaim: the slot of the oldest unretained COMPLETE capture (R40). -/
def Store.victim (x : Store) : Option Four :=
  (allFour.foldl (fun (best : Option (Four × Nat)) i =>
    match x.reclaimable i with
    | none => best
    | some o =>
      match best with
      | some (j, o') => if o < o' then some (i, o) else some (j, o')
      | none => some (i, o)) none).map Prod.fst

/-- A reclaim; `none` when there is nothing to reclaim (R40). -/
def State.reclaim (s : State) : Option State := s.sto.victim.map fun i => (s.removeCapture i).raiseBoth .captureReclaimed

/-! ## Entering an event (R138 to R140, R145) -/

/-- A port's backlog: the events at or above its cursor (R137). -/
def Evl.backlog (e : Evl) (p : Port) : Nat := (e.events.filter fun x => (e.port.get p).cursor ≤ x.seq).length

/-- EVL checks the ready state of one port (R145). -/
def State.checkReady (s : State) (p : Port) : State :=
  let r := readyCheck (s.evl.port.get p) (s.evl.backlog p)
  let s' := s.setEvl { s.evl with port := s.evl.port.set p r.1 }
  if r.2 then s'.raise p .eventsReady else s'

/-- The re-arming and the check at the end of a request of EVL (R145). -/
def State.rearmReady (s : State) (p : Port) : State :=
  (s.setEvl { s.evl with port := s.evl.port.set p (readyRearm (s.evl.port.get p) (s.evl.backlog p)) }).checkReady p

/-- The entry itself: the next sequence, the end of the list, both ready checks (R138). -/
def State.appendEvent (s : State) (e : Event) : State :=
  ((s.setEvl { s.evl with
      events := s.evl.events ++ [{ e with seq := s.evl.nextSeq }], nextSeq := s.evl.nextSeq + 1 }).checkReady .a).checkReady .b

/-- The room test of R140 and what follows it; `fuel` is one more than the captures that can be reclaimed. -/
def State.enterWithRoom : Nat → Event → State → State
  | fuel, e, s =>
    if s.evl.events.length < Config.eventCapacity then s.appendEvent e
    else
      match fuel, s.reclaim with
      | fuel + 1, some s' => State.enterWithRoom fuel e s'
      | _, _ => s.modifyCapture e.cap fun c => { c with truncated := satAdd Config.max32 c.truncated 1 }

/-- The event starts before its capture's oldest held time (R139). -/
def Store.alreadyExpired (x : Store) (c : Capture) (e : Event) : Bool :=
  match x.oldestTime c with
  | some t => decide (e.start < (t : Int))
  | none => false

/-- EVL takes an event from a lane (R138): it must name a held capture, must not be already expired (R139), and must
find room (R140). -/
def State.enterEvent (s : State) (e : Event) : State :=
  match s.sto.capture e.cap with
  | none => s
  | some c =>
    if s.sto.alreadyExpired c e then
      s.modifyCapture e.cap fun c => { c with expired := satAdd Config.max32 c.expired 1 }
    else s.enterWithRoom 5 e

/-- EVL takes the events that the lanes emitted on one sample: each lane's in order; where two or more lanes have
events waiting, which comes next is a free choice (R138, log 9). -/
def State.enterAll : Nat → Quad (List Event) → State → State
  | 0, _, s => s
  | fuel + 1, q, s =>
    match allFour.filter fun i => !(q.get i).isEmpty with
    | [] => s
    | [i] => State.enterAll fuel (q.set i (q.get i).tail) ((q.get i).head?.elim s s.enterEvent)
    | i :: rest =>
      let j := (i :: rest).getD (Config.laneChoice s.freeIx % (rest.length + 1)) i
      State.enterAll fuel (q.set j (q.get j).tail)
        ((q.get j).head?.elim (s.setFreeIx (s.freeIx + 1)) (s.setFreeIx (s.freeIx + 1)).enterEvent)

/-! ## Requests (R176, R177, R180) -/

/-- Place a response in the slot of `p` (R176). -/
def State.answer (s : State) (p : Port) (tag : Byte) (x : Answer) : State :=
  s.setPort p { s.ports.get p with slot := .answered tag x }

/-- A frame that finds the slot not FREE is discarded whole and sets the overrun flag (R177). -/
def State.discardFrame (s : State) (p : Port) : State := s.setPort p { s.ports.get p with overrun := true }

/-- The request `c` of port `p` comes to its owning block, which makes the answer `f` gives (R176, R180).
If the slot already holds this request (a SEND transaction delivered it), the owner takes it. If the slot is FREE, the
command brings its own frame: it is received, taken and answered in one step. If the slot holds anything else, the
frame that the command brings is discarded by R177 (log 6). -/
def State.request (s : State) (c : Instr) (p : Port) (tag : Byte) (f : State → State × Answer) :
    Host.Outcome State Fault Refusal :=
  let take := fun s : State => .next ((f s).1.answer p tag (f s).2)
  match (s.ports.get p).slot with
  | .taken c' => if c' = c then take s else .next (s.discardFrame p)
  | .free =>
    if bodyFits c then take (s.setPort p { s.ports.get p with slot := .taken c })
    else .next (s.answer p tag (.plain .malformed))
  | .answered _ _ => .next (s.discardFrame p)

/-- The capture slot a byte names; `none` outside 0 to 3 (R35). -/
def slotOf (x : Byte) : Option Four := if h : x.toNat < 4 then some ⟨x.toNat, h⟩ else none

end Sys2Proof.Machine
end

