-- ==== Sys2Proof/Machine/Operands.lean ====
section
/-! DEFINITION. The plan sections on the wire: the contents of a PLAN_EDIT read field by field in wire order, the first field out
of range named (R168, R171, R82, R103, R126), and the contents a PLAN_READ sends (R169, R179). -/

namespace Sys2Proof.Machine

open Sys2Proof

/-- The field out of range and its pod, channel, stage, lane or entry number (R171, log 13). -/
abbrev FieldFault := Nat × Option Nat

/-- A field is in range, or is named. -/
def need {α : Type} (field : Nat) (number : Option Nat) : Option α → Except FieldFault α
  | some x => .ok x
  | none => .error (field, number)

/-- A number in a range. -/
def inRange (lo hi x : Nat) : Option Nat := if lo ≤ x ∧ x ≤ hi then some x else none

/-- A signed number in a range. -/
def inRangeInt (lo hi x : Int) : Option Int := if lo ≤ x ∧ x ≤ hi then some x else none

/-- One of two named values, numbered 1 and 2 (R179). -/
def oneOfTwo {α : Type} (x y : α) : Nat → Option α
  | 1 => some x
  | 2 => some y
  | _ => none

/-- An optional field: the presence byte and what it announces (R179). -/
def optionalField {α : Type} (presence : Nat) (x : Option α) : Option (Option α) :=
  match presence with
  | 0 => some none
  | 1 => x.map some
  | _ => none

/-- A set of lanes from its byte (R179). -/
def laneSetOf (x : Nat) : Option LaneSet := if x < 16 then some (BitVec.ofNat 4 x) else none

/-- The longest time a plan field can hold, 2^40 - 1 ns. -/
def maxPlanTime : Nat := 2 ^ 40 - 1

/-! ## Reading -/

/-- The ACQ section (R168). -/
def decodeAcq (bs : List Byte) : Except FieldFault AcqPlan := do
  let div ← need 1 none (inRange 1 16777216 (fieldAt bs 0 4))
  let mask ← need 2 none (inRange 1 (2 ^ 32 - 1) (fieldAt bs 4 4))
  let mode ← need 3 none (oneOfTwo Mode.window .fill (fieldAt bs 8 1))
  let run ← need 4 none (oneOfTwo RunMode.single .repeated (fieldAt bs 9 1))
  let pre ← need 5 none (inRange 0 maxPlanTime (fieldAt bs 10 8))
  let post ← need 6 none (inRange 0 maxPlanTime (fieldAt bs 18 8))
  let quota ← need 7 none (inRange 1 2048 (fieldAt bs 26 2))
  return { div, mask := BitVec.ofNat 32 mask, mode, run, pre, post, quota }

/-- The lowest of the numbers `k`, `k + 1`, … (`n` of them) that fails a test. -/
def firstFailing (ok : Nat → Bool) : Nat → Nat → Option Nat
  | 0, _ => none
  | n + 1, k => if ok k then firstFailing ok n (k + 1) else some k

/-- The user skew of a channel in a PROBE section's bytes. -/
def skewField (bs : List Byte) (c : Nat) : Int := signedAt bs (8 + c) 1

/-- The PROBE section (R168). -/
def decodeProbe (bs : List Byte) : Except FieldFault ProbePlan := do
  let t := fun k : Nat => need 1 (some k) (inRangeInt (-6000) 6000 (signedAt bs (2 * k) 2))
  let t0 ← t 0
  let t1 ← t 1
  let t2 ← t 2
  let t3 ← t 3
  match firstFailing (fun c => decide (-32 ≤ skewField bs c ∧ skewField bs c ≤ 31)) 32 0 with
  | some c => .error (2, some c)
  | none => .ok { thresholds := ⟨t0, t1, t2, t3⟩, userSkews := Vector.ofFn fun i => skewField bs i.val }

/-- A trigger condition, 35 bytes from `off` (R82, R179). -/
def decodeCond (bs : List Byte) (off : Nat) : Option Cond :=
  match fieldAt bs off 1 with
  | 1 => (oneOfTwo true false (fieldAt bs (off + 9) 1)).map fun e =>
      .pattern (BitVec.ofNat 32 (fieldAt bs (off + 1) 4)) (BitVec.ofNat 32 (fieldAt bs (off + 5) 4)) e
  | 2 =>
    match fieldAt bs (off + 14) 1 with
    | 1 => some (.edge (BitVec.ofNat 32 (fieldAt bs (off + 10) 4)) .rising)
    | 2 => some (.edge (BitVec.ofNat 32 (fieldAt bs (off + 10) 4)) .falling)
    | 3 => some (.edge (BitVec.ofNat 32 (fieldAt bs (off + 10) 4)) .either)
    | _ => none
  | 3 => do
    let c ← inRange 0 31 (fieldAt bs (off + 15) 1)
    let high ← oneOfTwo true false (fieldAt bs (off + 16) 1)
    let lo ← inRange 0 maxPlanTime (fieldAt bs (off + 17) 8)
    let hi ← inRange 0 maxPlanTime (fieldAt bs (off + 25) 8)
    return .pulse c high lo hi
  | 4 => do
    let l ← inRange 0 3 (fieldAt bs (off + 33) 1)
    let e ← inRange 0 15 (fieldAt bs (off + 34) 1)
    return .laneMatch (Fin.ofNat 4 l) e
  | 5 => some .triggerIn
  | _ => none

/-- Combine, numbered in the order of R82. -/
def decodeCombine : Nat → Option Combine
  | 1 => some .none
  | 2 => some .and
  | 3 => some .or
  | 4 => some .resetBy
  | _ => none

/-- A lane set that goes with an action: present when the action is in the set (R179, log 26). -/
def actionLanes (inSet : Bool) (x : Nat) : Option (Option LaneSet) :=
  if inSet then (laneSetOf x).map some else some none

/-- The actions of a stage, 3 bytes from `off` (R82, R179). -/
def decodeStageActions (bs : List Byte) (off : Nat) : Option StageActions := do
  let flags ← inRange 0 15 (fieldAt bs off 1)
  let hold ← actionLanes (flags.testBit 1) (fieldAt bs (off + 1) 1)
  let release ← actionLanes (flags.testBit 2) (fieldAt bs (off + 2) 1)
  return { notify := flags.testBit 0, hold, release, pulseOut := flags.testBit 3 }

/-- Timer use and limit as one value: a limit belongs to WITHIN and AFTER alone (R82, log 12). The error is
`false` for a timer use out of range and `true` for a limit out of range. -/
def decodeTimer (use limit : Nat) : Except Bool StageTimer :=
  match use with
  | 1 => .ok .none
  | 2 => if 1 ≤ limit ∧ limit ≤ maxPlanTime then .ok (.within limit) else .error true
  | 3 => if 1 ≤ limit ∧ limit ≤ maxPlanTime then .ok (.after limit) else .error true
  | _ => .error false

/-- Stage record `k`, 90 bytes from `off` (R82, R179, log 12). The fields are numbered after the stage count. -/
def decodeStage (bs : List Byte) (off k : Nat) : Except FieldFault Stage := do
  let primary ← need 2 (some k) (decodeCond bs off)
  let secondary ← need 3 (some k) (optionalField (fieldAt bs (off + 35) 1) (decodeCond bs (off + 36)))
  let combine ← need 4 (some k) (decodeCombine (fieldAt bs (off + 71) 1))
  let required ← need 5 (some k) (inRange 1 65535 (fieldAt bs (off + 72) 2))
  let timer ← match decodeTimer (fieldAt bs (off + 74) 1) (fieldAt bs (off + 75) 8) with
    | .ok t => Except.ok t
    | .error false => .error (6, some k)
    | .error true => .error (7, some k)
  let fail ← need 8 (some k) (optionalField (fieldAt bs (off + 83) 1) (inRange 0 7 (fieldAt bs (off + 84) 1)))
  let success ← need 9 (some k) (match fieldAt bs (off + 85) 1 with
    | 1 => (inRange 0 7 (fieldAt bs (off + 86) 1)).map Target.stage
    | 2 => some .trigger
    | _ => none)
  let actions ← need 10 (some k) (decodeStageActions bs (off + 87))
  return { primary, secondary, combine, required, timer, fail, success, actions }

/-- The TRIGGER section: the stage count and all eight stage records (R168, R171). -/
def decodeTrigger (bs : List Byte) : Except FieldFault TriggerPlan := do
  let count ← need 1 none (inRange 1 8 (fieldAt bs 0 1))
  let st := fun k : Nat => decodeStage bs (1 + stageLength * k) k
  let s0 ← st 0
  let s1 ← st 1
  let s2 ← st 2
  let s3 ← st 3
  let s4 ← st 4
  let s5 ← st 5
  let s6 ← st 6
  let s7 ← st 7
  return { count, stages := #v[s0, s1, s2, s3, s4, s5, s6, s7] }

/-- A lane's kind, numbered in the order of R103. -/
def decodeLaneKind : Nat → Option LaneKind
  | 1 => some .none
  | 2 => some .twoWire
  | 3 => some .clocked
  | 4 => some .async
  | 5 => some .biphase
  | _ => none

/-- Parity, numbered in the order of R103. -/
def decodeParity : Nat → Option Parity
  | 1 => some .none
  | 2 => some .even
  | 3 => some .odd
  | _ => none

/-- Lane record `k`, 31 bytes from `off` (R103, R179); the frame idle timeout is a time, of 8 bytes. MODEL'S CHOICE (log 29): the bit
period and the half-cell period are integers, of 4 bytes each. -/
def decodeLane (bs : List Byte) (off k : Nat) : Except FieldFault LaneCfg := do
  let kind ← need 1 (some k) (decodeLaneKind (fieldAt bs off 1))
  let clock ← need 2 (some k) (inRange 0 31 (fieldAt bs (off + 1) 1))
  let data ← need 3 (some k) (inRange 0 31 (fieldAt bs (off + 2) 1))
  let select ← need 4 (some k) (optionalField (fieldAt bs (off + 3) 1) (inRange 0 31 (fieldAt bs (off + 4) 1)))
  let samplingRising ← need 5 (some k) (oneOfTwo true false (fieldAt bs (off + 5) 1))
  let selectHigh ← need 6 (some k) (oneOfTwo false true (fieldAt bs (off + 6) 1))
  let wordSize ← need 7 (some k) (inRange 4 32 (fieldAt bs (off + 7) 1))
  let bitPeriod ← need 8 (some k) (inRange 1 4000000000 (fieldAt bs (off + 8) 4))
  let dataBits ← need 9 (some k) (inRange 5 9 (fieldAt bs (off + 12) 1))
  let parity ← need 10 (some k) (decodeParity (fieldAt bs (off + 13) 1))
  let stopBits ← need 11 (some k) (inRange 1 2 (fieldAt bs (off + 14) 1))
  let idleHigh ← need 12 (some k) (oneOfTwo false true (fieldAt bs (off + 15) 1))
  let halfCell ← need 13 (some k) (inRange 1 2000000000 (fieldAt bs (off + 16) 4))
  let msbFirst ← need 14 (some k) (oneOfTwo true false (fieldAt bs (off + 20) 1))
  let limit ← need 15 (some k) (inRange 1 255 (fieldAt bs (off + 21) 1))
  let timeout ← need 16 (some k) (inRange 64 4000000000 (fieldAt bs (off + 22) 8))
  let startHeld ← need 17 (some k) (oneOfTwo false true (fieldAt bs (off + 30) 1))
  return { kind, clock, data, select, samplingRising, selectHigh, wordSize, bitPeriod, dataBits, parity, stopBits,
           idleHigh, halfCell, msbFirst, limit, timeout, startHeld }

/-- The LANES section (R168). -/
def decodeLanes (bs : List Byte) : Except FieldFault (Quad LaneCfg) := do
  let l0 ← decodeLane bs 0 0
  let l1 ← decodeLane bs laneLength 1
  let l2 ← decodeLane bs (2 * laneLength) 2
  let l3 ← decodeLane bs (3 * laneLength) 3
  return ⟨l0, l1, l2, l3⟩

/-- The actions of a match entry, 3 bytes from `off` (R126, R179). -/
def decodeMatchActions (bs : List Byte) (off : Nat) : Option MatchActions := do
  let flags ← inRange 0 31 (fieldAt bs off 1)
  let hold ← actionLanes (flags.testBit 3) (fieldAt bs (off + 1) 1)
  let release ← actionLanes (flags.testBit 4) (fieldAt bs (off + 2) 1)
  return { mark := flags.testBit 0, notify := flags.testBit 1, feed := flags.testBit 2, hold, release }

/-- The field of a match entry with its position (R126, R179). -/
def decodeMatchField (kind position : Nat) : Option MatchField :=
  match kind with
  | 1 => some .addr
  | 2 => (inRange 1 255 position).map .wordAt
  | 3 => some .anyWord
  | _ => none

/-- The direction of a match entry, numbered in the order of R126. -/
def decodeMatchDir : Nat → Option MatchDir
  | 1 => some .any
  | 2 => some .read
  | 3 => some .write
  | _ => none

/-- Match entry `k`, 14 bytes from `off` (R126, R179). -/
def decodeEntry (bs : List Byte) (off k : Nat) : Except FieldFault MatchEntry := do
  let field ← need 3 (some k) (decodeMatchField (fieldAt bs off 1) (fieldAt bs (off + 1) 1))
  let dir ← need 6 (some k) (decodeMatchDir (fieldAt bs (off + 10) 1))
  let actions ← need 7 (some k) (decodeMatchActions bs (off + 11))
  return { field, value := BitVec.ofNat 32 (fieldAt bs (off + 2) 4), mask := BitVec.ofNat 32 (fieldAt bs (off + 6) 4),
           dir, actions }

/-- `n` match entries from entry number `k` on. -/
def decodeEntries (bs : List Byte) : Nat → Nat → Except FieldFault (List MatchEntry)
  | 0, _ => .ok []
  | n + 1, k => do
    let e ← decodeEntry bs (2 + entryLength * k) k
    let rest ← decodeEntries bs n (k + 1)
    return e :: rest

/-- One lane's match list: lane, entry count, entries (R134, R171). -/
def decodeMatch (bs : List Byte) : Except FieldFault (Four × List MatchEntry) := do
  let lane ← need 1 none (inRange 0 3 (fieldAt bs 0 1))
  let n ← need 2 none (inRange 0 16 (fieldAt bs 1 1))
  let es ← decodeEntries bs n 0
  return (Fin.ofNat 4 lane, es)

/-- The section a byte names, numbered in the order of R167. -/
def sectionOf (x : Byte) : Option Section :=
  match x.toNat with
  | 1 => some .acq
  | 2 => some .probe
  | 3 => some .trigger
  | 4 => some .lanes
  | 5 => some .matches
  | _ => none

/-! ## Writing -/

/-- An unsigned field of `k` bytes. -/
def natBytes (k n : Nat) : List Byte := beBytes k n

/-- A signed field of `k` bytes, two's complement (R179). -/
def intBytes (k : Nat) (n : Int) : List Byte := beBytes k (n % (2 ^ (8 * k) : Nat)).toNat

/-- One byte holding a number. -/
def numByte (n : Nat) : List Byte := [BitVec.ofNat 8 n]

/-- A named value among two, numbered 1 and 2. -/
def pick (isFirst : Bool) : List Byte := numByte (if isFirst then 1 else 2)

/-- A group of flags, bit 0 for the first (R179). -/
def flagNat : List Bool → Nat
  | [] => 0
  | x :: rest => x.toNat + 2 * flagNat rest

/-- The byte of a group of flags. -/
def flagByte (x : List Bool) : List Byte := numByte (flagNat x)

/-- An optional field of `k` bytes, with its presence byte (R179). -/
def optBytes {α : Type} (k : Nat) (f : α → List Byte) : Option α → List Byte
  | some x => numByte 1 ++ f x
  | none => numByte 0 ++ List.replicate k 0

/-- A lane set's byte, 0 when its action is absent (R179). -/
def laneSetByte : Option LaneSet → List Byte
  | some x => numByte x.toNat
  | none => numByte 0

/-- Bytes sent as zeros. -/
def zeros (k : Nat) : List Byte := List.replicate k 0

def edgeDirNumber : EdgeDir → Nat
  | .rising => 1
  | .falling => 2
  | .either => 3

def combineNumber : Combine → Nat
  | .none => 1
  | .and => 2
  | .or => 3
  | .resetBy => 4

def laneKindNumber : LaneKind → Nat
  | .none => 1
  | .twoWire => 2
  | .clocked => 3
  | .async => 4
  | .biphase => 5

def parityNumber : Parity → Nat
  | .none => 1
  | .even => 2
  | .odd => 3

def matchDirNumber : MatchDir → Nat
  | .any => 1
  | .read => 2
  | .write => 3

/-- The ACQ section (R168). -/
def encodeAcq (x : AcqPlan) : List Byte :=
  natBytes 4 x.div ++ natBytes 4 x.mask.toNat ++ pick (x.mode == .window) ++ pick (x.run == .single) ++
    natBytes 8 x.pre ++ natBytes 8 x.post ++ natBytes 2 x.quota

/-- The PROBE section (R168). -/
def encodeProbe (x : ProbePlan) : List Byte :=
  x.thresholds.toList.flatMap (intBytes 2) ++ x.userSkews.toList.flatMap (intBytes 1)

/-- A trigger condition: 35 bytes, the parameters of the kinds not carried sent as zeros (R179). -/
def encodeCond : Cond → List Byte
  | .pattern m v e => numByte 1 ++ natBytes 4 m.toNat ++ natBytes 4 v.toNat ++ pick e ++ zeros 25
  | .edge m d => numByte 2 ++ zeros 9 ++ natBytes 4 m.toNat ++ numByte (edgeDirNumber d) ++ zeros 20
  | .pulse c high lo hi => numByte 3 ++ zeros 14 ++ natBytes 1 c ++ pick high ++ natBytes 8 lo ++ natBytes 8 hi ++ zeros 2
  | .laneMatch l e => numByte 4 ++ zeros 32 ++ natBytes 1 l.val ++ natBytes 1 e
  | .triggerIn => numByte 5 ++ zeros 34

/-- Timer use and limit (R82, log 12). -/
def encodeTimer : StageTimer → List Byte
  | .none => numByte 1 ++ natBytes 8 0
  | .within l => numByte 2 ++ natBytes 8 l
  | .after l => numByte 3 ++ natBytes 8 l

/-- The success target (R82, log 12). -/
def encodeTarget : Target → List Byte
  | .stage k => numByte 1 ++ natBytes 1 k
  | .trigger => numByte 2 ++ zeros 1

/-- A stage record (R82, log 12). -/
def encodeStage (x : Stage) : List Byte :=
  encodeCond x.primary ++ optBytes conditionLength encodeCond x.secondary ++ numByte (combineNumber x.combine) ++
    natBytes 2 x.required ++ encodeTimer x.timer ++ optBytes 1 (natBytes 1) x.fail ++ encodeTarget x.success ++
    flagByte [x.actions.notify, x.actions.hold.isSome, x.actions.release.isSome, x.actions.pulseOut] ++
    laneSetByte x.actions.hold ++ laneSetByte x.actions.release

/-- The TRIGGER section (R169). -/
def encodeTrigger (x : TriggerPlan) : List Byte := natBytes 1 x.count ++ x.stages.toList.flatMap encodeStage

/-- A lane record (R103); its periods take 4 bytes each (log 29), its timeout 8. -/
def encodeLane (x : LaneCfg) : List Byte :=
  numByte (laneKindNumber x.kind) ++ natBytes 1 x.clock ++ natBytes 1 x.data ++ optBytes 1 (natBytes 1) x.select ++
    pick x.samplingRising ++ pick (!x.selectHigh) ++ natBytes 1 x.wordSize ++ natBytes 4 x.bitPeriod ++
    natBytes 1 x.dataBits ++ numByte (parityNumber x.parity) ++ natBytes 1 x.stopBits ++ pick (!x.idleHigh) ++
    natBytes 4 x.halfCell ++ pick x.msbFirst ++ natBytes 1 x.limit ++ natBytes 8 x.timeout ++ pick (!x.startHeld)

/-- The field of a match entry with its position (R126, R179). -/
def encodeMatchField : MatchField → List Byte
  | .addr => numByte 1 ++ zeros 1
  | .wordAt p => numByte 2 ++ natBytes 1 p
  | .anyWord => numByte 3 ++ zeros 1

/-- A match entry (R126). -/
def encodeEntry (x : MatchEntry) : List Byte :=
  encodeMatchField x.field ++ natBytes 4 x.value.toNat ++ natBytes 4 x.mask.toNat ++ numByte (matchDirNumber x.dir) ++
    flagByte [x.actions.mark, x.actions.notify, x.actions.feed, x.actions.hold.isSome, x.actions.release.isSome] ++
    laneSetByte x.actions.hold ++ laneSetByte x.actions.release

/-- One lane's match list: the entry count and the entries (R169). -/
def encodeList (x : List MatchEntry) : List Byte := natBytes 1 x.length ++ x.flatMap encodeEntry

/-- A section's contents in a PLAN_READ answer (R169). -/
def encodeContents : SectionContents → List Byte
  | .acq x => encodeAcq x
  | .probe x => encodeProbe x
  | .trigger x => encodeTrigger x
  | .lanes x => x.toList.flatMap encodeLane
  | .matches x => x.toList.flatMap encodeList

end Sys2Proof.Machine
end

