-- ==== Sys2Proof/Machine/Pods.lean ====
section
/-! DEFINITION. PRB: attach and detach, identification, threshold codes, and the pod requests
(01_probe_pods_and_thresholds.md, R1 to R17). -/

namespace Sys2Proof.Machine

open Sys2Proof

/-- Replace one pod record. -/
def State.setPod (s : State) (pod : Four) (x : Pod) : State := s.setPods (s.pods.set pod x)

/-- The record with its threshold code computed from its requested threshold and descriptor values (R11); a record
without descriptor values (ABSENT, IDENTIFYING) keeps its code and flags (R12). -/
def Pod.recompute (x : Pod) : Pod :=
  match x.desc with
  | none => x
  | some d =>
    let r := thresholdCode x.requested d.rangeMin d.rangeMax d.gain d.offset
    { x with code := r.1, rangeClamped := r.2.1, codeClamped := r.2.2 }

/-- The default descriptor values of a DEGRADED pod (R9). -/
def defaultDescriptor : Descriptor :=
  { kind := .standard, rangeMin := -6000, rangeMax := 6000, gain := 0, offset := 0, latency := 0,
    trims := Vector.replicate 8 0, model := none, serial := none }

/-- The descriptor values that 64 bytes spell, by the layout of R190. -/
def descriptorOf (bs : List Byte) : Descriptor :=
  { kind := if fieldAt bs 2 1 = 2 then .highZ else .standard
    rangeMin := signedAt bs 3 2
    rangeMax := signedAt bs 5 2
    gain := signedAt bs 7 2
    offset := signedAt bs 9 2
    latency := fieldAt bs 11 1
    trims := Vector.ofFn fun i => signedAt bs (12 + i.val) 1
    model := some ((bs.drop 20).take 16)
    serial := some ((bs.drop 36).take 8) }

/-- The sum of the bytes modulo 256 is 0 (R8, first check). -/
def checksumOk (bs : List Byte) : Bool := (bs.map BitVec.toNat).sum % 256 == 0

/-- Format 1, eight channels, a known kind (R8, second check). -/
def formatOk (bs : List Byte) : Bool :=
  fieldAt bs 0 1 == 1 && fieldAt bs 1 1 == 8 && (fieldAt bs 2 1 == 1 || fieldAt bs 2 1 == 2)

/-- The values lie in their ranges (R8, third check). -/
def rangesOk (d : Descriptor) : Bool :=
  decide (-6000 ≤ d.rangeMin ∧ d.rangeMin ≤ 6000 ∧ -6000 ≤ d.rangeMax ∧ d.rangeMax ≤ 6000 ∧ d.rangeMin < d.rangeMax ∧
    -2048 ≤ d.offset ∧ d.offset ≤ 2047 ∧ d.latency ≤ 31) &&
  d.trims.toList.all fun x => decide (-16 ≤ x ∧ x ≤ 15)

/-- The first failing check of a descriptor that was read (R8). -/
def descriptorFault (bs : List Byte) : Option DegradeReason :=
  if !checksumOk bs then some .badChecksum
  else if !formatOk bs then some .badFormat
  else if !rangesOk (descriptorOf bs) then some .badRange
  else none

/-- Completion of an identification: state, reason, descriptor values, the threshold code, POD_CHANGED to both
ports; the attempt count is kept (R9, R10). -/
def State.completeIdentification (s : State) (pod : Four) (reason : Option DegradeReason) (d : Descriptor) : State :=
  let x := s.pods.get pod
  (s.setPod pod (Pod.recompute
    { x with state := (if reason.isSome then .degraded else .ready), reason := reason, desc := some d, bus := .quiet })).raiseBoth
    .podChanged

/-! ## The pod bus (R6, R7) -/

/-- A byte on the pod bus: eight clocks, most significant bit first (R6). -/
def busByte (x : Byte) : List BusSign := (List.range 8).map fun i => .clock (x.getLsbD (7 - i))

/-- The ninth clock: the data line low acknowledges (R6). -/
def busAck (acked : Bool) : BusSign := .clock (!acked)

/-- The address byte of a read attempt: the bus address 0x3A and the direction bit 1, read (R6, step 2). -/
def podAddressByte : Byte := 0x3A <<< 1 ||| 1

/-- The address byte with the pod's answer to it (R6, steps 2 and 3). -/
def addressSigns (acked : Bool) : List BusSign := busByte podAddressByte ++ [busAck acked]

/-- The data bytes with PRB's answers: every byte but the last is acknowledged (R6, step 4). -/
def dataSigns : List Byte → List BusSign
  | [] => []
  | [x] => busByte x ++ [busAck false]
  | x :: y :: rest => busByte x ++ busAck true :: dataSigns (y :: rest)

/-- A sign is a clock of the bus. -/
def BusSign.isClock : BusSign → Bool
  | .clock _ => true
  | _ => false

/-- The time that signs take on the bus at 100 kbit/s, with no clock held (R6). -/
def busTime (signs : List BusSign) : Nat := (signs.filter BusSign.isClock).length * Config.busBitTime

/-- The start time of the read attempt in progress; none where none is. -/
def Pod.attemptSince (x : Pod) : Option Nat :=
  match x.state, x.bus with
  | .identifying, .attempt since => some since
  | _, _ => none

/-- A read attempt starts at `now` and is counted: PRB makes a start condition (R6, R7). -/
def Pod.startAttempt (x : Pod) (now : Nat) : Pod :=
  { x with attempts := x.attempts + 1, bus := .attempt now, exchange := [.start] }

/-- Entry to IDENTIFYING with the first read attempt started: the count is 0 on entry and rises by one as the
attempt starts (R3, R7, R14). An exchange in progress is cut off without a stop condition (R14). The requested threshold,
the code and the flags are kept. -/
def Pod.identify (x : Pod) (now : Nat) : Pod :=
  Pod.startAttempt { x with state := .identifying, reason := none, desc := none, attempts := 0, debounce := none } now

/-- A read attempt fails at `t` with the signs it made on the bus since its start condition: PRB makes a stop condition and
waits 10 ms, or after the fourth failure the pod is DEGRADED with NO_ANSWER (R7). -/
def State.failAttempt (s : State) (pod : Four) (signs : List BusSign) (t : Nat) : State :=
  let s := s.advanceTo t
  let x := s.pods.get pod
  if x.attempts < Config.maxAttempts then
    s.setPod pod { x with bus := .retryWait (s.timebase + Config.retryWait), exchange := x.exchange ++ signs ++ [.stop] }
  else (s.setPod pod { x with exchange := x.exchange ++ signs }).completeIdentification pod (some .noAnswer) defaultDescriptor

/-- A read attempt succeeds at `t`: PRB has clocked in the 64 bytes and makes its stop condition, and the checks of R8 decide
(R6, R8). -/
def State.finishAttempt (s : State) (pod : Four) (bytes : List Byte) (t : Nat) : State :=
  let s := s.advanceTo t
  let x := s.pods.get pod
  let s := s.setPod pod { x with exchange := x.exchange ++ addressSigns true ++ dataSigns bytes ++ [.stop] }
  match descriptorFault bytes with
  | some r => s.completeIdentification pod (some r) defaultDescriptor
  | none => s.completeIdentification pod none (descriptorOf bytes)

/-- The raw time of the last sample taken, while SAMPLING. -/
def State.lastRaw (s : State) : Option Nat :=
  match s.smp with
  | some x => if x.next = 0 then none else x.origin.map fun o => o + (x.next - 1) * x.div
  | none => none

/-- The moment of a detach: the time at which the line reads absent, after every sample already taken (R5, R30,
log 3). -/
def State.detachMoment (s : State) (t : Nat) : Nat :=
  max (max s.timebase t) (match s.lastRaw with | some r => r + 1 | none => 0)

/-- The engine is ARMING, ARMED or TRIGGERED. -/
def Engine.sampling : Engine → Bool
  | .arming => true
  | .armed => true
  | .triggered => true
  | _ => false

/-- SMP's and STO's part in a pod loss (R5, R22): the pod joins the lost-pod set and the capture's pod-lost list, once. -/
def State.losePod (s : State) (pod : Four) (moment : Nat) : State :=
  match s.smp, s.activeCapture with
  | some x, some c =>
    if s.acq.engine.sampling && maskHasPod c.mask pod then
      let s := if x.lost.any fun e => e.1 = pod then s else s.setSmp (some { x with lost := x.lost ++ [(pod, moment)] })
      s.modifyActive fun c =>
        if c.podLost.any fun e => e.1 = pod then c else { c with podLost := c.podLost ++ [(pod, moment)] }
    else s
  | _, _ => s

/-- SENSE_PRESENT: a change of the line to present starts the debounce timer of an ABSENT record (R3). -/
def execSensePresent (pod : Four) (t : Nat) (s : State) : Host.Outcome State Fault Refusal :=
  let x := s.pods.get pod
  if x.sense then .next s
  else
    let s := s.advanceTo t
    .next (s.setPod pod
      { x with sense := true, debounce := if x.state = .absent then some s.timebase else x.debounce })

/-- DEBOUNCE_EXPIRY: after 50 ms of present the record goes to IDENTIFYING and the first attempt starts (R3). -/
def execDebounceExpiry (pod : Four) (s : State) : Host.Outcome State Fault Refusal :=
  let x := s.pods.get pod
  match x.state, x.debounce with
  | .absent, some t0 =>
    let s := s.advanceTo (t0 + Config.debounceTime)
    .next (s.setPod pod (x.identify s.timebase))
  | _, _ => .next s

/-- POD_DETACH: in ABSENT the debounce timer stops; otherwise the record goes to ABSENT with POD_CHANGED, an
identification is abandoned with its exchange cut off without a stop condition, and the loss reaches the capture by R5 (R4). -/
def execPodDetach (pod : Four) (t : Nat) (s : State) : Host.Outcome State Fault Refusal :=
  let x := s.pods.get pod
  let moment := s.detachMoment t
  let s := s.setTimebase moment
  match x.state with
  | .absent => .next (s.setPod pod { x with sense := false, debounce := none })
  | _ =>
    .next (((s.setPod pod
      { x with state := .absent, reason := none, desc := none, attempts := 0, bus := .quiet, debounce := none,
               sense := false }).raiseBoth .podChanged).losePod pod moment)

/-- DESCRIPTOR_READ_DONE: the 64 bytes are checked and the identification ends READY or DEGRADED (R8, R9, R10). It comes no
earlier than the clocks of the exchange take (R6, log 19). -/
def execDescriptorReadDone (pod : Four) (bytes : Vector Byte 64) (t : Nat) (s : State) :
    Host.Outcome State Fault Refusal :=
  match (s.pods.get pod).attemptSince with
  | some since =>
    .next (s.finishAttempt pod bytes.toList (max t (since + busTime (addressSigns true ++ dataSigns bytes.toList))))
  | none => .next s

/-- ADDRESS_NAK: nobody pulls the data line low on the ninth clock, and the attempt fails (R6, R7). It comes no earlier than
the nine clocks of the address byte take (log 19). -/
def execAddressNak (pod : Four) (t : Nat) (s : State) : Host.Outcome State Fault Refusal :=
  match (s.pods.get pod).attemptSince with
  | some since => .next (s.failAttempt pod (addressSigns false) (max t (since + busTime (addressSigns false))))
  | none => .next s

/-- CLOCK_HOLD_TIMEOUT: the pod holds the clock low from `t`, or from the attempt's start where that is later, and the attempt
fails at the first nanosecond at which the hold is longer than 25 ms (R7, log 19). -/
def execClockHoldTimeout (pod : Four) (t : Nat) (s : State) : Host.Outcome State Fault Refusal :=
  match (s.pods.get pod).attemptSince with
  | some since => .next (s.failAttempt pod [.held] (max t since + Config.clockHoldLimit + 1))
  | none => .next s

/-- RETRY_WAIT_EXPIRY: the next attempt starts and is counted (R7). -/
def execRetryWaitExpiry (pod : Four) (s : State) : Host.Outcome State Fault Refusal :=
  let x := s.pods.get pod
  match x.state, x.bus with
  | .identifying, .retryWait due =>
    let s := s.advanceTo due
    .next (s.setPod pod (x.startAttempt s.timebase))
  | _, _ => .next s

/-- The eight channels of a pod. -/
def podChannels (pod : Four) : List Nat := (List.range 8).map fun i => 8 * pod.val + i

/-- The LOST flag of POD_INFO (R15). -/
def State.podLostFlag (s : State) (pod : Four) : Bool :=
  match s.activeCapture with
  | some c => c.podLost.any fun e => e.1 = pod
  | none => false

/-- PRB's answer to POD_INFO (R15). -/
def podInfoAnswer (pod : Byte) (s : State) : State × Answer :=
  match slotOf pod with
  | none => (s, .plain .invalid)
  | some k => (s, .pod { record := s.pods.get k, skews := (podChannels k).map s.skewOf, lost := s.podLostFlag k })

/-- POD_INFO (R15). -/
def execPodInfo (p : Port) (tag pod : Byte) (s : State) : Host.Outcome State Fault Refusal :=
  s.request (.podInfo p tag pod) p tag (podInfoAnswer pod)

/-- The engine is not IDLE and the active capture's mask holds a channel of the pod (R14). -/
def State.podInUse (s : State) (pod : Four) : Bool :=
  s.acq.engine != .idle && (match s.activeCapture with | some c => maskHasPod c.mask pod | none => false)

/-- PRB's answer to POD_RESCAN (R14). -/
def podRescanAnswer (pod : Byte) (s : State) : State × Answer :=
  match slotOf pod with
  | none => (s, .plain .invalid)
  | some k =>
    if (s.pods.get k).state = .absent then (s, .plain .wrongState)
    else if s.podInUse k then (s, .plain .active)
    else (s.setPod k ((s.pods.get k).identify s.timebase), .plain .ok)

/-- POD_RESCAN (R14). -/
def execPodRescan (p : Port) (tag pod : Byte) (s : State) : Host.Outcome State Fault Refusal :=
  s.request (.podRescan p tag pod) p tag (podRescanAnswer pod)

end Sys2Proof.Machine
end

