-- ==== Sys2Proof/Machine/Store.lean ====
section
/-! DEFINITION. STO: placing and extending records, allocation and recycling, the checks of a read, and the store's requests
(03_the_sample_store_and_capture_table.md, R31 to R56). -/

namespace Sys2Proof.Machine

open Sys2Proof

/-! ## Placing records (R38 to R42) -/

/-- The bits that a pending store-test request flips in the next record placed (R54). -/
def testFlips : Option TestKind → BitVec 48
  | none => 0
  | some .single => 1
  | some .double => 3

/-- A block with a record appended; the first record sets the block's first sample index (R38). -/
def Block.append (b : Block) (r : Rec) (index : Nat) : Block :=
  { b with records := b.records ++ [r], first := if b.records.isEmpty then index else b.first }

/-- Append a record of run length 1 to block `n`; a store-test request is used up (R38, R54). -/
def Store.appendRecord (x : Store) (n : Nat) (b : Block) (word : ChannelWord) (index : Nat) : Store :=
  { x with blocks := insertBlock x.blocks n (b.append (Rec.mk word 1 (testFlips x.test)) index), test := none }

/-- Change one block's record. -/
def Store.modifyBlock (x : Store) (n : Nat) (f : Block → Block) : Store :=
  match lookupBlock x.blocks n with
  | some b => { x with blocks := insertBlock x.blocks n (f b) }
  | none => x

/-- Seal a block (R32). -/
def Store.seal (x : Store) (n : Nat) : Store := x.modifyBlock n fun b => { b with state := .sealed }

/-- Put block `n` at the tail of the capture's chain as its FILLING block (R32). -/
def Store.appendBlock (x : Store) (name : CapName) (c : Capture) (n index : Nat) : Store :=
  let x := match (x.chain c).getLast? with
    | some (t, _) => x.modifyBlock t fun b => { b with next := some n }
    | none => x
  { x with blocks := insertBlock x.blocks n (Block.mk .filling name index false none []) }

/-- Can the capture's head block be recycled (R41)? -/
def Store.canRecycle (x : Store) (c : Capture) : Bool :=
  match lookupBlock x.blocks c.head with
  | some b => b.state = .sealed && b.next.isSome && c.trigBlock != some c.head
  | none => false

/-- The head block leaves the head of the chain and is appended, empty, at its tail (R41, steps 1 and 2). -/
def Store.recycle (x : Store) (name : CapName) (c : Capture) (index : Nat) : Store :=
  match lookupBlock x.blocks c.head with
  | some b =>
    match b.next with
    | some h =>
      let c' := { c with head := h }
      let x := { x with blocks := x.blocks.filter (fun e => e.1 ≠ c.head) }
      (x.modify name fun c => { c with head := h }).appendBlock name c' c.head index
    | none => x
  | none => x

/-- The recycle with its expiry (R41, step 3). -/
def State.recycle (s : State) (name : CapName) (c : Capture) (index : Nat) : State :=
  let s := s.setSto (s.sto.recycle name c index)
  match s.sto.capture name with
  | some c' => match s.sto.oldestTime c' with
    | some t => s.expireEvents name t
    | none => s
  | none => s

/-- The next block of a capture whose FILLING block has filled (R39): a FREE block below quota, after one reclaim
where none is FREE; else the capture's own head in WINDOW mode; else none. -/
def State.nextBlock (s : State) (name : CapName) (c : Capture) (index : Nat) : Option State :=
  let recycled := if c.mode = .window && s.sto.canRecycle c then some (s.recycle name c index) else none
  if s.sto.ownedCount name < c.quota then
    match s.sto.lowestFree with
    | some n => some (s.setSto (s.sto.appendBlock name c n index))
    | none =>
      match s.reclaim with
      | some s' =>
        match s'.sto.lowestFree with
        | some n => some (s'.setSto (s'.sto.appendBlock name c n index))
        | none => recycled
      | none => recycled
  else recycled

/-- Place a record for the capture (R38). `false` when no block is found: the full block is sealed and the record
is not placed (R42). -/
def State.placeRecord (s : State) (name : CapName) (word : ChannelWord) (index : Nat) : State × Bool :=
  match s.sto.filling name, s.sto.capture name with
  | some (n, b), some c =>
    if b.recordCount < Config.recordsPerBlock then (s.setSto (s.sto.appendRecord n b word index), true)
    else
      let s := s.setSto (s.sto.seal n)
      match s.nextBlock name c index with
      | some s' =>
        match s'.sto.filling name with
        | some (m, b') => (s'.setSto (s'.sto.appendRecord m b' word index), true)
        | none => (s', false)
      | none => (s, false)
  | _, _ => (s, false)

/-- Change the last element of a list. -/
def modifyLast {α : Type} (f : α → α) : List α → List α
  | [] => []
  | [x] => [f x]
  | x :: y :: rest => x :: modifyLast f (y :: rest)

/-- Extend the open record by one sample (R25, R38). -/
def Store.extendRecord (x : Store) (name : CapName) : Store :=
  match x.filling name with
  | some (n, b) =>
    { x with blocks := insertBlock x.blocks n { b with records := modifyLast (fun r => { r with run := r.run + 1 }) b.records } }
  | none => x

/-! ## Reading records (R49 to R52) -/

/-- The number of flipped bits of a store word. -/
def flipCount (f : BitVec 48) : Nat := ((List.range 48).filter fun k => f.getLsbD k).length

/-- What the check of a read finds (R51, R52; three or more flipped bits: log 18). -/
def checkOf (r : Rec) : Option ErrLocKind :=
  if flipCount r.flips = 0 then none
  else if flipCount r.flips = 1 then some .correctable
  else some .uncorrectable

/-- The state word a read returns: corrected, or as read with the DAMAGED mark. -/
def Rec.wordRead (r : Rec) : ChannelWord :=
  if checkOf r = some .uncorrectable then r.word ^^^ r.flips.setWidth 32 else r.word

/-- The run length a read returns: corrected, or as read with the DAMAGED mark. -/
def Rec.runRead (r : Rec) : Nat :=
  if checkOf r = some .uncorrectable then
    (BitVec.ofNat 16 (r.run - 1) ^^^ (r.flips >>> 32).setWidth 16).toNat + 1
  else r.run

/-- One read of a record: where it lies, what is returned, what the check finds. -/
structure ReadEntry where
  block : Nat
  number : Nat
  read : ReadRec
  check : Option ErrLocKind
  deriving DecidableEq, Repr

/-- The reads of a block's records in order, each first index reckoned from the run lengths read before it (R50). -/
def reckon (block : Nat) : Nat → Nat → List Rec → List ReadEntry
  | _, _, [] => []
  | number, first, r :: rest =>
    { block, number, check := checkOf r
      read := { first, word := r.wordRead, run := r.runRead, damaged := checkOf r = some .uncorrectable } } ::
      reckon block (number + 1) (first + r.runRead) rest

/-- The reads of a whole block. -/
def readsOf (e : Nat × Block) : List ReadEntry := reckon e.1 0 e.2.first e.2.records

/-- The last index of a block and one: the first index after it. -/
def Block.endIndex (b : Block) : Nat := b.first + b.sampleCount

/-- The consequences of one read's check for the capture named (R51, R52). -/
def State.noteRead (name : CapName) (s : State) (e : ReadEntry) : State :=
  match e.check with
  | none => s
  | some .correctable =>
    s.setSto { s.sto with
      correctable := satAdd Config.max16 s.sto.correctable 1
      lastErr := some { block := e.block, record := e.number, kind := .correctable } }
  | some .uncorrectable =>
    ((s.setSto ({ s.sto with
        uncorrectable := satAdd Config.max16 s.sto.uncorrectable 1
        lastErr := some { block := e.block, record := e.number, kind := .uncorrectable } }.modifyBlock e.block
      fun b => { b with damaged := true })).modifyCapture name fun c => { c with damaged := true }).raiseBoth .storeError

/-- The consequences of a list of reads, in order. -/
def State.noteReads (s : State) (name : CapName) (es : List ReadEntry) : State := es.foldl (State.noteRead name) s

/-- What a request that names a capture finds: the capture, INVALID for a slot outside 0 to 3, or GONE (R35). -/
def State.named (s : State) (slot : Byte) (num : BitVec 16) : Except Answer (CapName × Capture) :=
  match slotOf slot with
  | none => .error (.plain .invalid)
  | some i =>
    match s.sto.capture ⟨i, num.toNat⟩ with
    | some c => .ok (⟨i, num.toNat⟩, c)
    | none => .error (.plain .gone)

/-- The reads of READ_RECORDS from a start index at or above the oldest: those passed over to reckon the start
record's place in its block (log 16), and those returned (R49). -/
def readFrom (chain : List (Nat × Block)) (start count : Nat) : List ReadEntry × List ReadEntry :=
  let all := (chain.dropWhile fun e => e.2.endIndex ≤ start).flatMap readsOf
  let passed := all.takeWhile fun e => e.read.first + e.read.run ≤ start
  (passed, (all.drop passed.length).take count)

/-- STO's answer to READ_RECORDS (R49, R50). -/
def readRecordsAnswer (slot : Byte) (num : BitVec 16) (start : BitVec 64) (count : Byte) (s : State) : State × Answer :=
  if count.toNat < 1 ∨ 128 < count.toNat then (s, .plain .invalid)
  else
    match s.named slot num with
    | .error a => (s, a)
    | .ok (name, c) =>
      let oldest := s.sto.oldestIndex c
      let written := s.sto.writtenEnd c
      if written ≤ start.toNat then (s, .records oldest written false true [])
      else
        let chain := s.sto.chain c
        let r := readFrom chain (max start.toNat oldest) count.toNat
        let remaining := ((chain.dropWhile fun e => e.2.endIndex ≤ max start.toNat oldest).flatMap readsOf).length
        (s.noteReads name (r.1 ++ r.2),
          .records oldest written (start.toNat < oldest) (r.1.length + r.2.length = remaining) (r.2.map ReadEntry.read))

/-- READ_RECORDS (R49). -/
def execReadRecords (p : Port) (tag slot : Byte) (num : BitVec 16) (start : BitVec 64) (count : Byte) (s : State) :
    Host.Outcome State Fault Refusal :=
  s.request (.readRecords p tag slot num start count) p tag (readRecordsAnswer slot num start count)

/-! ## Retains (R46 to R48) -/

/-- STO's answer to RETAIN (R47). -/
def retainAnswer (p : Port) (slot : Byte) (num : BitVec 16) (s : State) : State × Answer :=
  match s.named slot num with
  | .error a => (s, a)
  | .ok (name, c) =>
    if c.complete then (s.modifyCapture name fun c => { c with retain := c.retain.set p true }, .plain .ok)
    else (s, .plain .active)

/-- RETAIN (R47). -/
def execRetain (p : Port) (tag slot : Byte) (num : BitVec 16) (s : State) : Host.Outcome State Fault Refusal :=
  s.request (.retain p tag slot num) p tag (retainAnswer p slot num)

/-- STO's answer to RELEASE (R48). -/
def releaseAnswer (p : Port) (slot : Byte) (num : BitVec 16) (s : State) : State × Answer :=
  match s.named slot num with
  | .error a => (s, a)
  | .ok (name, c) =>
    if c.complete then (s.modifyCapture name fun c => { c with retain := c.retain.set p false }, .plain .ok)
    else (s, .plain .ok)

/-- RELEASE (R48). -/
def execRelease (p : Port) (tag slot : Byte) (num : BitVec 16) (s : State) : Host.Outcome State Fault Refusal :=
  s.request (.release p tag slot num) p tag (releaseAnswer p slot num)

/-! ## Store health and store test (R53, R54) -/

/-- STO's answer to STORE_HEALTH; the clear option is 1 for yes and 2 for no (log 15). -/
def storeHealthAnswer (clear : Byte) (s : State) : State × Answer :=
  let a := Answer.health s.sto.correctable s.sto.uncorrectable s.sto.lastErr s.sto.test
  match clear.toNat with
  | 1 => (s.setSto { s.sto with correctable := 0, uncorrectable := 0, lastErr := none }, a)
  | 2 => (s, a)
  | _ => (s, .plain .invalid)

/-- STORE_HEALTH (R53). -/
def execStoreHealth (p : Port) (tag clear : Byte) (s : State) : Host.Outcome State Fault Refusal :=
  s.request (.storeHealth p tag clear) p tag (storeHealthAnswer clear)

/-- STO's answer to STORE_TEST (R54). -/
def storeTestAnswer (kind : Byte) (s : State) : State × Answer :=
  match kind.toNat with
  | 1 => (s.setSto { s.sto with test := some .single }, .plain .ok)
  | 2 => (s.setSto { s.sto with test := some .double }, .plain .ok)
  | _ => (s, .plain .invalid)

/-- STORE_TEST (R54). -/
def execStoreTest (p : Port) (tag kind : Byte) (s : State) : Host.Outcome State Fault Refusal :=
  s.request (.storeTest p tag kind) p tag (storeTestAnswer kind)

end Sys2Proof.Machine
end

