-- ==== Sys2Proof/Machine/EventList.lean ====
section
/-! DEFINITION. EVL's requests (08_the_event_list.md, R145 to R148). -/

namespace Sys2Proof.Machine

open Sys2Proof

/-- Change the state EVL keeps for one port. -/
def State.modifyEventPort (s : State) (p : Port) (f : EventPort → EventPort) : State :=
  s.setEvl { s.evl with port := s.evl.port.set p (f (s.evl.port.get p)) }

/-- EVL's answer to EVENTS_READ (R146): at most `n` events from the cursor on, the missed count, the backlog left,
the next sequence; the cursor moves past the last event returned. -/
def eventsReadAnswer (p : Port) (count : Byte) (s : State) : State × Answer :=
  if count.toNat < 1 ∨ 16 < count.toNat then (s, .plain .invalid)
  else
    let x := s.evl.port.get p
    let evs := (s.evl.events.filter fun e => x.cursor ≤ e.seq).take count.toNat
    let cursor := match evs.getLast? with | some e => e.seq + 1 | none => x.cursor
    let s := s.modifyEventPort p fun x => { x with cursor := cursor, missed := 0 }
    (s.rearmReady p, .events evs x.missed (s.evl.backlog p) s.evl.nextSeq)

/-- EVENTS_READ (R146). -/
def execEventsRead (p : Port) (tag count : Byte) (s : State) : Host.Outcome State Fault Refusal :=
  s.request (.eventsRead p tag count) p tag (eventsReadAnswer p count)

/-- Set the cursor of `p` to what was found, or to the next sequence (R147). -/
def seekTo (p : Port) (found : Option Event) (s : State) : State × Answer :=
  let cursor := match found with | some e => e.seq | none => s.evl.nextSeq
  let s := s.modifyEventPort p fun x => { x with cursor := cursor }
  (s.rearmReady p, .seek found.isNone cursor (s.evl.backlog p))

/-- EVL's answer to EVENTS_SEEK (R147). NEWEST finds what it asks for. MODEL'S CHOICE (log 30): one that is refused changes nothing, the
ready state included. -/
def eventsSeekAnswer (p : Port) (target : SeekTarget) (s : State) : State × Answer :=
  match target with
  | .firstOf slot num =>
    match s.named slot num with
    | .error a => (s, a)
    | .ok (name, _) => seekTo p (s.evl.events.find? fun e => e.cap = name) s
  | .atTime slot num time =>
    match s.named slot num with
    | .error a => (s, a)
    | .ok (name, _) => seekTo p (s.evl.events.find? fun e => e.cap = name ∧ (time.toNat : Int) ≤ e.start) s
  | .newest =>
    let s := s.modifyEventPort p fun x => { x with cursor := s.evl.nextSeq }
    (s.rearmReady p, .seek false s.evl.nextSeq (s.evl.backlog p))
  | .other _ _ => (s, .plain .invalid)

/-- EVENTS_SEEK (R147). -/
def execEventsSeek (p : Port) (tag : Byte) (target : SeekTarget) (s : State) : Host.Outcome State Fault Refusal :=
  s.request (.eventsSeek p tag target) p tag (eventsSeekAnswer p target)

/-- EVL's answer to EVENTS_THRESHOLD (R148). -/
def eventsThresholdAnswer (p : Port) (threshold : BitVec 16) (s : State) : State × Answer :=
  if threshold.toNat < 1 ∨ 8192 < threshold.toNat then (s, .plain .invalid)
  else
    let s := s.modifyEventPort p fun x => { x with threshold := threshold.toNat }
    (s.rearmReady p, .threshold threshold.toNat (s.evl.backlog p))

/-- EVENTS_THRESHOLD (R148). -/
def execEventsThreshold (p : Port) (tag : Byte) (threshold : BitVec 16) (s : State) :
    Host.Outcome State Fault Refusal :=
  s.request (.eventsThreshold p tag threshold) p tag (eventsThresholdAnswer p threshold)

end Sys2Proof.Machine
end

