-- ==== Sys2Proof/Machine/Lanes.lean ====
section
/-! DEFINITION. LN0 to LN3: how a lane handles one delivered sample (06_decoder_lanes.md, R104 to R123). A lane reads nothing but
its own state and the sample; what it emits is handed on by Machine/Matching.lean. -/

namespace Sys2Proof.Machine

open Sys2Proof

/-- A sample as SMP delivers it (R26): the capture, the index, the raw time, the state word, and the channels that rose or
fell. -/
structure SampleItem where
  cap : CapName
  index : Nat
  raw : Nat
  word : ChannelWord
  rise : ChannelWord
  fall : ChannelWord
  deriving DecidableEq, Repr

def SampleItem.level (it : SampleItem) (c : Nat) : Bool := it.word.getLsbD c
def SampleItem.rises (it : SampleItem) (c : Nat) : Bool := it.rise.getLsbD c
def SampleItem.falls (it : SampleItem) (c : Nat) : Bool := it.fall.getLsbD c
def SampleItem.changes (it : SampleItem) (c : Nat) : Bool := it.rises c || it.falls c

/-- An event as a lane emits it, with raw times and the word position it completed at (R110). -/
structure Emission where
  kind : EventKind
  frame : Nat
  pos : Nat
  value : Option Nat
  attrs : BitVec 8
  err : Option ErrKind
  bits : Option Nat
  rawStart : Nat
  rawEnd : Nat
  deriving DecidableEq, Repr

/-- What can come about on a sample, as the rows of the opcode table name it (log 4). -/
inductive Happening where
  | armedEntry
  | withinExpiry
  | stageSatisfied
  | postDone
  | twoWireStall (lane : Four)
  | clockedIdleEnd (lane : Four)
  | asyncIdleEnd (lane : Four)
  | biphaseIdleEnd (lane : Four)
  | drainLimit (lane : Four)
  deriving DecidableEq, Repr

/-- A lane at work on a sample: its state, what it has emitted, what has come about. -/
structure LaneWork where
  ix : Four
  state : LaneState
  frame : Nat
  ctx : LaneCtx
  out : List Emission
  came : List Happening
  deriving DecidableEq, Repr

/-! ## Attributes (R188) -/

def attrAck : BitVec 8 := 0x01
def attrNak : BitVec 8 := 0x02
def attrRead : BitVec 8 := 0x04
def attrWrite : BitVec 8 := 0x08
def attrRepeated : BitVec 8 := 0x10
def attrParityBad : BitVec 8 := 0x20
def attrFramingBad : BitVec 8 := 0x40
def attrTruncated : BitVec 8 := 0x80

/-- An attribute that is set when a condition holds. -/
def attrIf (b : Bool) (x : BitVec 8) : BitVec 8 := if b then x else 0

/-- READ or WRITE, by a frame direction; none before an address (R115). -/
def attrDir : Option Bool → BitVec 8
  | some true => attrRead
  | some false => attrWrite
  | none => 0

/-! ## Frames and words (R110, R111, R123) -/

/-- Emit an event on the sample at hand (R110). -/
def LaneWork.emit (w : LaneWork) (kind : EventKind) (value : Option Nat) (attrs : BitVec 8) (err : Option ErrKind)
    (bits : Option Nat) (rawStart rawEnd : Nat) : LaneWork :=
  { w with out := w.out ++ [{ kind, frame := w.frame, pos := w.ctx.wordPos, value, attrs, err, bits, rawStart, rawEnd }] }

/-- Record that something has come about. -/
def LaneWork.note (w : LaneWork) (h : Happening) : LaneWork := { w with came := w.came ++ [h] }

/-- Change the lane's context. -/
def LaneWork.withCtx (w : LaneWork) (f : LaneCtx → LaneCtx) : LaneWork := { w with ctx := f w.ctx }

/-- Change the lane's kind context. -/
def LaneWork.withKind (w : LaneWork) (f : KindCtx → KindCtx) : LaneWork :=
  { w with ctx := { w.ctx with kctx := f w.ctx.kctx } }

/-- The lane is in a frame. -/
def LaneState.inside : LaneState → Bool
  | .inFrame => true
  | .draining => true
  | _ => false

/-- A frame opens: the next frame number, position 0, cleared contexts, START (R110). -/
def LaneWork.openFrame (w : LaneWork) (t : Nat) : LaneWork :=
  ({ w with
      state := .inFrame
      frame := (w.frame + 1) % 65536
      ctx := { w.ctx with
        wordPos := 0, truncated := false, word := none, hunt := none, kctx := .cleared } }).emit .start none 0 none none t t

/-- The lane leaves its frame: to HUNT with the given basis, or to HELD from DRAINING (R109, R116 to R122). -/
def LaneWork.leaveFrame (w : LaneWork) (basis : HuntBasis) : LaneWork :=
  { w with
    state := if w.state = .draining then .held else .hunt
    ctx := { w.ctx with
      word := none, kctx := .cleared, drainLimit := none
      hunt := if w.state = .draining then none else some basis } }

/-- TRUNCATED, when the frame's flag is set (R111). -/
def LaneWork.truncatedAttr (w : LaneWork) : BitVec 8 := attrIf w.ctx.truncated attrTruncated

/-- STOP at a time (R110, R111). -/
def LaneWork.emitStop (w : LaneWork) (t : Nat) : LaneWork := w.emit .stop none w.truncatedAttr none none t t

/-- PARTIAL at a time, with the word position as its value (R123). -/
def LaneWork.emitPartial (w : LaneWork) (t : Nat) : LaneWork :=
  w.emit .partialFrame (some w.ctx.wordPos) w.truncatedAttr none none t t

/-- The value of bits in the order taken (R103). -/
def bitsValue (msbFirst : Bool) (bits : List Bool) : Nat :=
  (if msbFirst then bits else bits.reverse).foldl (fun acc b => 2 * acc + b.toNat) 0

/-- The bits held in the word in progress. -/
def LaneWork.heldBits (w : LaneWork) : List Bool := match w.ctx.word with | some x => x.bits | none => []

/-- Take a bit whose time is `t` into the word in progress. -/
def LaneWork.takeBit (w : LaneWork) (b : Bool) (t : Nat) : LaneWork :=
  w.withCtx fun c => { c with word := match c.word with
    | some x => some { x with bits := x.bits ++ [b] }
    | none => some { bits := [b], first := t } }

/-- A word completes: the position rises; the word is emitted up to the limit, ERROR(LONG) takes the place of the
next one, and later words emit nothing (R110, R111). The word in progress is cleared. -/
def LaneWork.completeWord (w : LaneWork) (kind : EventKind) (value : Nat) (attrs : BitVec 8) (t0 t1 : Nat) : LaneWork :=
  let w := w.withCtx fun c => { c with wordPos := satAdd Config.max16 c.wordPos 1, word := none }
  if w.ctx.wordPos ≤ w.ctx.cfg.limit then w.emit kind (some value) attrs none none t0 t1
  else if w.ctx.wordPos = w.ctx.cfg.limit + 1 then
    (w.emit .error none 0 (some .long) none t0 t1).withCtx fun c => { c with truncated := true }
  else w

/-- ERROR(SHORT_WORD) for the bits held, when there are at least `least` of them; the bits are dropped (R116, R117). -/
def LaneWork.disposeWord (w : LaneWork) (msbFirst : Bool) (least t : Nat) : LaneWork :=
  let w' := match w.ctx.word with
    | some x =>
      if least ≤ x.bits.length then
        w.emit .error (some (bitsValue msbFirst x.bits)) 0 (some .shortWord) (some x.bits.length) x.first t
      else w
    | none => w
  w'.withCtx fun c => { c with word := none }

/-! ## TWO_WIRE (R114 to R116) -/

/-- A byte completes with its ninth bit (R115). -/
def LaneWork.twoWireByte (w : LaneWork) (x : WordProgress) (t : Nat) : LaneWork :=
  let byte := bitsValue true (x.bits.take 8)
  let ack := if x.bits.getD 8 true then attrNak else attrAck
  if w.ctx.kctx.addrNext then
    let read := byte % 2 == 1
    (w.withKind fun k => { k with addrNext := false, dirRead := some read }).completeWord .addr (byte / 2)
      (ack ||| attrDir (some read)) x.first t
  else w.completeWord .word byte (ack ||| attrDir w.ctx.kctx.dirRead) x.first t

/-- A sample in a TWO_WIRE frame (R114 to R116). -/
def LaneWork.twoWireFrame (w : LaneWork) (it : SampleItem) : LaneWork :=
  let clk := w.ctx.cfg.clock
  let dat := w.ctx.cfg.data
  let w := if it.changes clk then w.withKind fun k => { k with clockEdge := some it.raw } else w
  let w := if it.rises clk then
      let w := w.takeBit (it.level dat) it.raw
      match w.ctx.word with
      | some x => if x.bits.length = 9 then w.twoWireByte x it.raw else w
      | none => w
    else w
  let steady := !it.changes clk && it.level clk
  let w := if it.falls dat && steady then
      ((w.disposeWord true 2 it.raw).emit .start none attrRepeated none none it.raw it.raw).withKind
        fun k => { k with addrNext := true }
    else if it.rises dat && steady then
      ((w.disposeWord true 2 it.raw).emitStop it.raw).leaveFrame { qualified := true, since := none }
    else w
  match w.ctx.kctx.clockEdge with
  | some e =>
    if w.state.inside && !it.changes clk && e + w.ctx.cfg.timeout ≤ it.raw then
      ((w.emit .error none 0 (some .stall) none it.raw it.raw).leaveFrame { qualified := true, since := none }).note
        (.twoWireStall w.ix)
    else w
  | none => w

/-- A sample in TWO_WIRE HUNT: a START condition opens a frame (R114). -/
def LaneWork.twoWireHunt (w : LaneWork) (it : SampleItem) : LaneWork :=
  if it.falls w.ctx.cfg.data && !it.changes w.ctx.cfg.clock && it.level w.ctx.cfg.clock then
    (w.openFrame it.raw).withKind fun k => { k with addrNext := true, clockEdge := some it.raw }
  else w

/-! ## CLOCKED (R117, R118) -/

/-- The select is active on the sample; a lane without a select channel needs none (R117, R118). -/
def selectActiveOn (cfg : LaneCfg) (it : SampleItem) : Bool :=
  match cfg.select with
  | some c => it.level c == cfg.selectHigh
  | none => true

/-- The sample carries the sampling edge (R117). -/
def samplingEdgeOn (cfg : LaneCfg) (it : SampleItem) : Bool :=
  if cfg.samplingRising then it.rises cfg.clock else it.falls cfg.clock

/-- Bits and words of a CLOCKED frame on a sample (R117). -/
def LaneWork.clockedBit (w : LaneWork) (it : SampleItem) : LaneWork :=
  let cfg := w.ctx.cfg
  let w := w.withKind fun k => { k with
    selectActive := cfg.select.map fun _ => selectActiveOn cfg it
    clockEdge := if it.changes cfg.clock then some it.raw else k.clockEdge }
  if samplingEdgeOn cfg it && selectActiveOn cfg it then
    let w := w.takeBit (it.level cfg.data) it.raw
    match w.ctx.word with
    | some x =>
      if x.bits.length = cfg.wordSize then w.completeWord .word (bitsValue cfg.msbFirst x.bits) 0 x.first it.raw else w
    | none => w
  else w

/-- A sample in a CLOCKED frame (R117, R118). -/
def LaneWork.clockedFrame (w : LaneWork) (it : SampleItem) : LaneWork :=
  let cfg := w.ctx.cfg
  let w := w.clockedBit it
  match cfg.select with
  | some c =>
    if it.changes c && !selectActiveOn cfg it then
      ((w.disposeWord cfg.msbFirst 1 it.raw).emitStop it.raw).leaveFrame { qualified := true, since := none }
    else w
  | none =>
    match w.ctx.kctx.clockEdge with
    | some e =>
      if !it.changes cfg.clock && e + cfg.timeout ≤ it.raw then
        (((w.disposeWord cfg.msbFirst 1 it.raw).emitStop it.raw).leaveFrame { qualified := false, since := some e }).note
          (.clockedIdleEnd w.ix)
      else w
    | none => w

/-- A sample in CLOCKED HUNT with its hunt basis (R108, R117, R118). -/
def LaneWork.clockedHunt (w : LaneWork) (basis : HuntBasis) (it : SampleItem) : LaneWork :=
  let cfg := w.ctx.cfg
  match cfg.select with
  | some c => if it.changes c && selectActiveOn cfg it then (w.openFrame it.raw).clockedBit it else w
  | none =>
    if it.changes cfg.clock then
      match basis.since with
      | some q =>
        if q + cfg.timeout ≤ it.raw then (w.openFrame it.raw).clockedBit it
        else w.withCtx fun c => { c with hunt := some { basis with since := some it.raw } }
      | none => w.withCtx fun c => { c with hunt := some { basis with since := some it.raw } }
    else w

/-! ## ASYNC (R119, R120) -/

/-- Bits of a character, the start bit included (R108). -/
def asyncBits (cfg : LaneCfg) : Nat := 1 + cfg.dataBits + (if cfg.parity = .none then 0 else 1) + cfg.stopBits

/-- Is bit `k` of a character that started at `start` read on a sample of raw time `t` (R119)? `D` is the period. -/
def readsBit (start period D k t : Nat) : Bool :=
  decide (2 * (t - start) ≤ (2 * k + 1) * period ∧ (2 * k + 1) * period < 2 * (t - start) + 2 * D)

/-- The data line is at its idle level on the sample. -/
def atIdle (cfg : LaneCfg) (it : SampleItem) : Bool := it.level cfg.data == cfg.idleHigh

/-- The parity of a character is as its lane's parity asks (R120). -/
def parityOk (parity : Parity) (bits : List Bool) : Bool :=
  match parity with
  | .none => true
  | .even => (bits.filter id).length % 2 == 0
  | .odd => (bits.filter id).length % 2 == 1

/-- A character completes with its last stop bit read at level `last` (R120). -/
def LaneWork.asyncComplete (w : LaneWork) (ch : AsyncChar) (it : SampleItem) : LaneWork :=
  let cfg := w.ctx.cfg
  let parityBits := if cfg.parity = .none then 0 else 1
  let stops := ch.bits.drop (cfg.dataBits + parityBits)
  let attrs := attrIf (!parityOk cfg.parity (ch.bits.take (cfg.dataBits + parityBits))) attrParityBad |||
    attrIf (!stops.all fun b => b == cfg.idleHigh) attrFramingBad
  let w := w.completeWord .word (bitsValue cfg.msbFirst (ch.bits.take cfg.dataBits)) attrs ch.start it.raw
  if atIdle cfg it then w.withKind fun k => { k with char := none, idleSince := some it.raw }
  else w.withKind fun k => { k with char := none, waitIdle := true }

/-- A character in progress on a sample of a frame: its next bit, if this sample reads it (R119, R120). -/
def LaneWork.asyncRead (w : LaneWork) (ch : AsyncChar) (D : Nat) (it : SampleItem) : LaneWork :=
  let cfg := w.ctx.cfg
  let ch := if it.changes cfg.data && atIdle cfg it then { ch with returned := some it.raw } else ch
  if readsBit ch.start cfg.bitPeriod D ch.next it.raw then
    if ch.next = 0 then
      if atIdle cfg it then w.withKind fun k => { k with char := none, idleSince := some (ch.returned.getD it.raw) }
      else w.withKind fun k => { k with char := some { ch with next := 1 } }
    else
      let ch := { ch with bits := ch.bits ++ [it.level cfg.data], next := ch.next + 1 }
      if ch.next = asyncBits cfg then w.asyncComplete ch it
      else w.withKind fun k => { k with char := some ch }
  else w.withKind fun k => { k with char := some ch }

/-- A character that starts on the sample (R119). -/
def newChar (it : SampleItem) : AsyncChar := { start := it.raw, next := 0, bits := [], returned := none }

/-- A sample in an ASYNC frame with no character in progress: the wait for idle, or a start bit (R119, R120). -/
def LaneWork.asyncGap (w : LaneWork) (it : SampleItem) : LaneWork :=
  let cfg := w.ctx.cfg
  if it.changes cfg.data && atIdle cfg it && w.ctx.kctx.waitIdle then
    w.withKind fun k => { k with waitIdle := false, idleSince := some it.raw }
  else if it.changes cfg.data && !atIdle cfg it && !w.ctx.kctx.waitIdle then
    w.withKind fun k => { k with char := some (newChar it) }
  else w

/-- A sample in an ASYNC frame; the idle end is judged last (R119, R120, log 25). -/
def LaneWork.asyncFrame (w : LaneWork) (D : Nat) (it : SampleItem) : LaneWork :=
  let cfg := w.ctx.cfg
  let w := match w.ctx.kctx.char with
    | some ch => w.asyncRead ch D it
    | none => w.asyncGap it
  match w.ctx.kctx.char, w.ctx.kctx.idleSince with
  | none, some q =>
    if atIdle cfg it && !w.ctx.kctx.waitIdle && q + cfg.timeout ≤ it.raw then
      ((w.emitStop it.raw).leaveFrame { qualified := true, since := none }).note (.asyncIdleEnd w.ix)
    else w
  | _, _ => w

/-- A sample in ASYNC HUNT with its hunt basis (R108, R119). -/
def LaneWork.asyncHunt (w : LaneWork) (basis : HuntBasis) (D : Nat) (it : SampleItem) : LaneWork :=
  let cfg := w.ctx.cfg
  let toIdle := it.changes cfg.data && atIdle cfg it
  let w := if toIdle then w.withCtx fun c => { c with hunt := some { basis with since := some it.raw } } else w
  match w.ctx.kctx.char with
  | some ch =>
    if readsBit ch.start cfg.bitPeriod D 0 it.raw then
      if atIdle cfg it then w.withKind fun k => { k with char := none }
      else (w.openFrame ch.start).withKind fun k => { k with char := some { ch with next := 1 } }
    else w
  | none =>
    if it.changes cfg.data && !atIdle cfg it then
      let ready := basis.qualified || (match basis.since with
        | some q => decide (q + asyncBits cfg * cfg.bitPeriod ≤ it.raw)
        | none => false)
      if ready then w.withKind fun k => { k with char := some (newChar it) } else w
    else w

/-! ## BIPHASE (R121, R122) -/

/-- The class of an interval `v` for a half-cell `h` (R121): `some true` long, `some false` short, `none` other. -/
def biphaseClass (h v : Nat) : Option Bool :=
  if h ≤ 2 * v ∧ 2 * v < 3 * h then some false
  else if 3 * h ≤ 2 * v ∧ 2 * v < 5 * h then some true
  else none

/-- A bit of a BIPHASE frame whose cell starts at `cell`, on a transition at `t` (R121). -/
def LaneWork.biphaseBit (w : LaneWork) (b : Bool) (cell t : Nat) : LaneWork :=
  let w := w.takeBit b cell
  match w.ctx.word with
  | some x =>
    if x.bits.length = w.ctx.cfg.wordSize then
      w.completeWord .word (bitsValue w.ctx.cfg.msbFirst x.bits) 0 x.first t
    else w
  | none => w

/-- A CELL error ends the frame (R122). -/
def LaneWork.biphaseError (w : LaneWork) (t : Nat) : LaneWork :=
  (((w.emit .error none 0 (some .cell) none t t).withCtx fun c => { c with word := none }).emitStop t).leaveFrame
    { qualified := false, since := some t }

/-- A sample in a BIPHASE frame (R121, R122). -/
def LaneWork.biphaseFrame (w : LaneWork) (it : SampleItem) : LaneWork :=
  let cfg := w.ctx.cfg
  match w.ctx.kctx.reference with
  | none => w
  | some r =>
    if it.changes cfg.data then
      let w := w.withKind fun k => { k with reference := some it.raw }
      match biphaseClass cfg.halfCell (it.raw - r), w.ctx.kctx.shortStart with
      | some true, none => w.biphaseBit false r it.raw
      | some false, none => w.withKind fun k => { k with shortStart := some r }
      | some false, some c => (w.withKind fun k => { k with shortStart := none }).biphaseBit true c it.raw
      | _, _ => w.biphaseError it.raw
    else if r + cfg.timeout ≤ it.raw then
      (((w.disposeWord cfg.msbFirst 1 it.raw).emitStop it.raw).leaveFrame { qualified := false, since := some r }).note
        (.biphaseIdleEnd w.ix)
    else w

/-- A sample in BIPHASE HUNT with its hunt basis (R108, R121). -/
def LaneWork.biphaseHunt (w : LaneWork) (basis : HuntBasis) (it : SampleItem) : LaneWork :=
  let cfg := w.ctx.cfg
  if it.changes cfg.data then
    match basis.since with
    | some q =>
      if q + cfg.timeout ≤ it.raw then (w.openFrame it.raw).withKind fun k => { k with reference := some it.raw }
      else w.withCtx fun c => { c with hunt := some { basis with since := some it.raw } }
    | none => w.withCtx fun c => { c with hunt := some { basis with since := some it.raw } }
  else w

/-! ## A lane and a sample (R106 to R109) -/

/-- A hold, applied on a sample of raw time `t` (R106, R109). -/
def LaneWork.applyHold (w : LaneWork) (t : Nat) : LaneWork :=
  match w.state with
  | .hunt => { w with state := .held, ctx := { w.ctx with hunt := none, kctx := .cleared } }
  | .inFrame => { w with state := .draining, ctx := { w.ctx with drainLimit := some (t + w.ctx.cfg.timeout) } }
  | _ => w

/-- A release (R106); HUNT entered from HELD has no basis until its entry sample sets it. -/
def LaneWork.applyRelease (w : LaneWork) : LaneWork :=
  match w.state with
  | .held => { w with state := .hunt, ctx := { w.ctx with hunt := none, kctx := .cleared } }
  | .draining => { w with state := .inFrame, ctx := { w.ctx with drainLimit := none } }
  | _ => w

/-- The basis that the entry sample gives a hunt entered from HELD or at ARM (R108). -/
def entryBasis (cfg : LaneCfg) (it : SampleItem) : HuntBasis :=
  match cfg.kind with
  | .clocked => { qualified := false, since := if cfg.select.isSome then none else some it.raw }
  | .biphase => { qualified := false, since := some it.raw }
  | .async => { qualified := false, since := if atIdle cfg it then some it.raw else none }
  | _ => { qualified := false, since := none }

/-- The sample by the rules of the lane's kind in HUNT (R108). -/
def LaneWork.hunt (w : LaneWork) (D : Nat) (it : SampleItem) : LaneWork :=
  let basis := w.ctx.hunt.getD (entryBasis w.ctx.cfg it)
  let w := w.withCtx fun c => { c with hunt := some basis }
  match w.ctx.cfg.kind with
  | .none => w
  | .twoWire => w.twoWireHunt it
  | .clocked => w.clockedHunt basis it
  | .async => w.asyncHunt basis D it
  | .biphase => w.biphaseHunt basis it

/-- The sample by the rules of the lane's kind in a frame. -/
def LaneWork.inside (w : LaneWork) (D : Nat) (it : SampleItem) : LaneWork :=
  match w.ctx.cfg.kind with
  | .none => w
  | .twoWire => w.twoWireFrame it
  | .clocked => w.clockedFrame it
  | .async => w.asyncFrame D it
  | .biphase => w.biphaseFrame it

/-- A drain still open at its limit is cut off with PARTIAL (R109). -/
def LaneWork.cutDrain (w : LaneWork) (it : SampleItem) : LaneWork :=
  match w.state, w.ctx.drainLimit with
  | .draining, some limit =>
    if limit ≤ it.raw then
      ((w.emitPartial it.raw).leaveFrame { qualified := false, since := none }).note (.drainLimit w.ix)
    else w
  | _, _ => w

/-- A lane handles a sample: the requests carrying an earlier index, every hold and then every release (R107), then
the sample by its state (R105), then the drain limit (R109). A lane that is OFF or HELD takes no action on it. -/
def laneHandle (ix : Four) (x : Lane) (D : Nat) (it : SampleItem) : Lane × List Emission × List Happening :=
  match x.ctx with
  | none => (x, [], [])
  | some c =>
    if x.state = .off then (x, [], [])
    else
      let due := x.pend.filter fun r => r.index < it.index
      let w : LaneWork := { ix, state := x.state, frame := x.frame, ctx := c, out := [], came := [] }
      let w := if due.any fun r => r.hold then w.applyHold it.raw else w
      let w := if due.any fun r => !r.hold then w.applyRelease else w
      let w := match w.state with
        | .hunt => w.hunt D it
        | .inFrame => w.inside D it
        | .draining => (w.inside D it).cutDrain it
        | _ => w
      ({ state := w.state, frame := w.frame, pend := x.pend.filter fun r => !(r.index < it.index), ctx := some w.ctx },
        w.out, w.came)

/-- The PARTIAL of a lane cut off in a frame at a capture's end (R123). -/
def lanePartial (ix : Four) (x : Lane) (t : Nat) : List Emission :=
  match x.ctx with
  | some c =>
    if x.state.inside then
      (LaneWork.emitPartial { ix, state := x.state, frame := x.frame, ctx := c, out := [], came := [] } t).out
    else []
  | none => []

/-- A lane goes OFF at the end of a capture: every field but the frame number is absent (R105). -/
def Lane.turnOff (x : Lane) : Lane := { state := .off, frame := x.frame, pend := [], ctx := none }

/-- A lane's copy and starting state at ARM completion (R104). -/
def Lane.atArm (cfg : LaneCfg) (name : CapName) : Lane :=
  { state := if cfg.kind = .none then .off else if cfg.startHeld then .held else .hunt
    frame := 0
    pend := []
    ctx := some { cfg, capture := name, wordPos := 0, truncated := false, word := none, hunt := none, drainLimit := none,
                  lastStart := none, kctx := .cleared } }

/-- A hold or release handed to a lane with index `n`; a lane that is OFF is not changed by it (R98, R106). -/
def Lane.request (x : Lane) (hold : Bool) (n : Nat) : Lane :=
  if x.state = .off then x else { x with pend := x.pend ++ [{ hold, index := n }] }

end Sys2Proof.Machine
end

