-- ==== Sys2Proof/Machine/Matching.lean ====
section
/-! DEFINITION. What becomes of the events a lane emits: the match test (R127, R128), the match actions (R129 to R133), the
corrected times (R113), the per-lane counts (R112), and the entry in the event list (R138). -/

namespace Sys2Proof.Machine

open Sys2Proof

/-- The entry's field fits the event (R128, first point). -/
def fieldFits (f : MatchField) (e : Emission) : Bool :=
  match f, e.kind with
  | .addr, .addr => true
  | .anyWord, .word => true
  | .wordAt p, .word => e.pos == p
  | _, _ => false

/-- The event's value and the entry's agree in every bit of the mask (R128, second point). -/
def valueFits (x : MatchEntry) (e : Emission) : Bool :=
  (BitVec.ofNat 32 (e.value.getD 0) ^^^ x.value) &&& x.mask == 0

/-- The entry's direction fits the event; it is tested on TWO_WIRE lanes alone (R128, third point). -/
def directionFits (kind : LaneKind) (d : MatchDir) (e : Emission) : Bool :=
  match kind, d with
  | .twoWire, .read => e.attrs &&& attrRead != 0
  | .twoWire, .write => e.attrs &&& attrWrite != 0
  | _, _ => true

/-- An entry fits an event (R128). -/
def entryFits (kind : LaneKind) (x : MatchEntry) (e : Emission) : Bool :=
  fieldFits x.field e && valueFits x e && directionFits kind x.dir e

/-- The entries of a list from number `k` on that fit an event, with their numbers, in ascending order (R127). -/
def matchesFrom (kind : LaneKind) (e : Emission) : Nat → List MatchEntry → List (Nat × MatchEntry)
  | _, [] => []
  | k, x :: rest => if entryFits kind x e then (k, x) :: matchesFrom kind e (k + 1) rest else matchesFrom kind e (k + 1) rest

/-- The match set of an emitted event: empty unless it is an ADDR or WORD (R127). -/
def matchSet (kind : LaneKind) (entries : List MatchEntry) (e : Emission) : List (Nat × MatchEntry) :=
  match e.kind with
  | .addr => matchesFrom kind e 0 entries
  | .word => matchesFrom kind e 0 entries
  | _ => []

/-- The channel whose skew corrects a lane's events (R113). -/
def timeChannel (cfg : LaneCfg) : Nat :=
  match cfg.kind with
  | .twoWire => cfg.clock
  | .clocked => cfg.clock
  | _ => cfg.data

/-- Corrected start and end of an emitted event (R113): less the skew, the start raised to the lane's last start time
and the end to the start. -/
def correctedTimes (skew : Int) (lastStart : Option Int) (e : Emission) : Int × Int :=
  let s0 := (e.rawStart : Int) - skew
  let s := match lastStart with | some l => max s0 l | none => s0
  (s, max ((e.rawEnd : Int) - skew) s)

/-- The union of the lane sets that a match set's entries carry with an action (R133). -/
def unionLanes (f : MatchActions → Option LaneSet) (ms : List (Nat × MatchEntry)) : LaneSet :=
  ms.foldl (fun acc m => acc ||| (f m.2.actions).getD 0) 0

/-- What the events of one lane on one sample do outside the lane. -/
structure LaneEffects where
  lastStart : Option Int
  events : List Event
  offers : List (Four × Nat)
  hold : LaneSet
  release : LaneSet
  notify : Bool
  frames : Nat
  errors : Nat
  deriving DecidableEq, Repr

/-- One emitted event, after those before it (R112, R113, R129). -/
def effectOf (ix : Four) (c : LaneCtx) (entries : List MatchEntry) (skew : Int) (x : LaneEffects) (e : Emission) :
    LaneEffects :=
  let ms := matchSet c.cfg.kind entries e
  let t := correctedTimes skew x.lastStart e
  { lastStart := some t.1
    events := x.events ++ [{
      seq := 0, cap := c.capture, lane := ix, kind := e.kind, frame := e.frame, start := t.1, stop := t.2, value := e.value,
      attrs := e.attrs, err := e.err, bits := e.bits, matched := (ms.filter fun m => m.2.actions.mark).map Prod.fst }]
    offers := x.offers ++ (ms.filter fun m => m.2.actions.feed).map fun m => (ix, m.1)
    hold := x.hold ||| unionLanes MatchActions.hold ms
    release := x.release ||| unionLanes MatchActions.release ms
    notify := x.notify || ms.any fun m => m.2.actions.notify
    frames := x.frames + (if e.kind = .stop ∨ e.kind = .partialFrame then 1 else 0)
    errors := x.errors + (if e.kind = .error then 1 else 0) }

/-- All events that a lane emits on one sample. -/
def laneEffects (ix : Four) (c : LaneCtx) (entries : List MatchEntry) (skew : Int) (out : List Emission) : LaneEffects :=
  out.foldl (effectOf ix c entries skew)
    { lastStart := c.lastStart, events := [], offers := [], hold := 0, release := 0, notify := false, frames := 0, errors := 0 }

/-- The effects of a lane that holds a context; none for a lane that holds none. -/
def State.effectsOfLane (s : State) (ix : Four) (x : Lane) (out : List Emission) : LaneEffects :=
  match x.ctx with
  | some c => laneEffects ix c (s.acq.plan.matchLists.get ix) (s.skewOf (timeChannel c.cfg)) out
  | none =>
    { lastStart := none, events := [], offers := [], hold := 0, release := 0, notify := false, frames := 0, errors := 0 }

/-- A lane with the last start time that its events leave (R113). -/
def Lane.withLastStart (x : Lane) (l : Option Int) : Lane :=
  { x with ctx := x.ctx.map fun c => { c with lastStart := l } }

/-- The four lanes numbered. -/
def numbered : Quad Four := ⟨0, 1, 2, 3⟩

/-- Hand holds and then releases with index `n` to the lanes named (R98, R133). -/
def requestLanes (lanes : Quad Lane) (hold release : LaneSet) (n : Nat) : Quad Lane :=
  numbered.map fun i =>
    let x := lanes.get i
    let x := if hold.getLsbD i.val then x.request true n else x
    if release.getLsbD i.val then x.request false n else x

/-- The effects of the four lanes, from what each emitted (R129). -/
def State.allEffects (s : State) (lanes : Quad Lane) (out : Quad (List Emission)) : Quad LaneEffects :=
  numbered.map fun i => s.effectsOfLane i (lanes.get i) (out.get i)

/-- The lanes with their last start times and the holds and releases that the effects of index `n` bring (R113, R133). -/
def lanesAfter (lanes : Quad Lane) (fx : Quad LaneEffects) (n : Nat) : Quad Lane :=
  requestLanes (numbered.map fun i => (lanes.get i).withLastStart (fx.get i).lastStart)
    (fx.toList.foldl (fun acc x => acc ||| x.hold) 0) (fx.toList.foldl (fun acc x => acc ||| x.release) 0) n

/-- A capture's counts of frames and errors for the four lanes rise, saturating (R112). -/
def Capture.countLanes (c : Capture) (fx : Quad LaneEffects) : Capture :=
  { c with
    frames := numbered.map fun i => satAdd Config.max16 (c.frames.get i) (fx.get i).frames
    errors := numbered.map fun i => satAdd Config.max16 (c.errors.get i) (fx.get i).errors }

/-- LANE_MATCH, when an event's match asks for it (R131). -/
def State.noteMatches (s : State) (fx : Quad LaneEffects) : State :=
  if fx.toList.any fun x => x.notify then s.raiseBoth .laneMatch else s

/-- The events of the four lanes come to EVL (R138). -/
def State.enterEvents (s : State) (fx : Quad LaneEffects) : State :=
  s.enterAll ((fx.map fun x => x.events).toList.map List.length).sum (fx.map fun x => x.events)

/-- What the four lanes' events do: the lanes' last start times, the holds and releases, the counts of the active capture,
LANE_MATCH, and the entries in the event list; the offers to TRG stand beside (R112, R129). `out` holds what each lane
emitted. -/
def State.handOn (s : State) (lanes : Quad Lane) (out : Quad (List Emission)) (n : Nat) : State × List (Four × Nat) :=
  let fx := s.allEffects lanes out
  (((((s.setLanes (lanesAfter lanes fx n)).modifyActive fun c => c.countLanes fx).noteMatches fx).enterEvents fx),
    fx.toList.flatMap fun x => x.offers)

/-- How the four lanes handle a sample, each by itself (R26). -/
def State.lanesHandle (s : State) (D : Nat) (it : SampleItem) : Quad (Lane × List Emission × List Happening) :=
  numbered.map fun i => laneHandle i (s.lanes.get i) D it

/-- Every lane handles a sample, and what they emit is handed on; the offers to TRG and what came about (R26, R129). -/
def State.lanesSample (s : State) (D : Nat) (it : SampleItem) : State × List (Four × Nat) × List Happening :=
  let r := s.lanesHandle D it
  let h := s.handOn (r.map fun x => x.1) (r.map fun x => x.2.1) it.index
  (h.1, h.2, r.toList.flatMap fun x => x.2.2)

/-- The PARTIAL of each lane that a capture's end cuts off in a frame (R70, R123). -/
def State.partials (s : State) (t : Nat) : Quad (List Emission) := numbered.map fun i => lanePartial i (s.lanes.get i) t

/-- Every lane goes OFF (R105). -/
def State.lanesOut (s : State) : State := s.setLanes (s.lanes.map Lane.turnOff)

/-- Each lane in a frame emits its PARTIAL, with the raw time `t` of the last held sample, and every lane goes
OFF (R70, R123). -/
def State.lanesStop (s : State) (t n : Nat) : State := (s.handOn s.lanes (s.partials t) n).1.lanesOut

end Sys2Proof.Machine
end

