-- ==== Sys2Proof/Machine/Trigger.lean ====
section
/-! DEFINITION. TRG: conditions, combining, timers, the evaluation of a sample, actions, the declaration, and the trigger lines
(05_trigger_sequencer.md, R80 to R101). -/

namespace Sys2Proof.Machine

open Sys2Proof

/-! ## What TRG observes (R83, R84) -/

/-- The channel history that sample 0 starts (R83). -/
def ChannelHistory.start (w : ChannelWord) : ChannelHistory := { levels := w, starts := Vector.replicate 32 none }

/-- The history after a sample: each channel in the change set takes its level and the sample's time (R83). -/
def ChannelHistory.apply (h : ChannelHistory) (it : SampleItem) : ChannelHistory :=
  { levels := it.word, starts := Vector.ofFn fun c => if it.changes c.val then some it.raw else h.starts[c] }

/-- The start of a channel's level before the sample (R87); `none` is "since origin". -/
def ChannelHistory.startOf (h : ChannelHistory) (c : Nat) : Option Nat := h.starts[Fin.ofNat 32 c]

/-! ## Conditions (R85 to R89) -/

/-- The truth of a PATTERN condition on a sample (R85); other kinds have none. -/
def Cond.truth (x : Cond) (it : SampleItem) : Bool :=
  match x with
  | .pattern mask value equal => ((it.word ^^^ value) &&& mask == 0) == equal
  | _ => false

/-- What one sample brings to the conditions: the history before it, the trigger-in arrival, the lanes' offers. -/
structure Observed where
  it : SampleItem
  history : Option ChannelHistory
  arrival : Bool
  offers : List (Four × Nat)
  deriving DecidableEq, Repr

/-- An EDGE condition occurs (R86). -/
def edgeOccurs (mask : ChannelWord) (dir : EdgeDir) (it : SampleItem) : Bool :=
  match dir with
  | .rising => it.rise &&& mask != 0
  | .falling => it.fall &&& mask != 0
  | .either => (it.rise ||| it.fall) &&& mask != 0

/-- A PULSE condition occurs: the level ends on the sample, its start is known, its width is in the window (R87). -/
def pulseOccurs (c : Nat) (high : Bool) (lo hi : Nat) (o : Observed) : Bool :=
  (if high then o.it.falls c else o.it.rises c) &&
  (match o.history.bind fun h => h.startOf c with
   | some t => decide (lo ≤ o.it.raw - t ∧ o.it.raw - t ≤ hi)
   | none => false)

/-- A condition occurs on the sample, given its previous-truth flag (R85 to R89). -/
def Cond.occurs (x : Cond) (prev : Bool) (o : Observed) : Bool :=
  match x with
  | .pattern m v e => (Cond.pattern m v e).truth o.it && !prev
  | .edge m d => edgeOccurs m d o.it
  | .pulse c high lo hi => pulseOccurs c high lo hi o
  | .laneMatch l e => o.offers.any fun f => f.1 = l && f.2 == e
  | .triggerIn => o.arrival

/-- Is the condition a TRIGGER_IN? -/
def Cond.isTriggerIn : Cond → Bool
  | .triggerIn => true
  | _ => false

/-! ## Combining and timing (R90 to R94) -/

/-- The result of a stage on one sample: is the count set to 0, is an occurrence counted (R90 to R92). -/
structure Combined where
  reset : Bool
  counted : Bool
  deriving DecidableEq, Repr

/-- The combine of a stage (R90 to R92). `po` and `so` are the occurrences, `st` the secondary's truth. -/
def combineResult (c : Combine) (po so st : Bool) : Combined :=
  match c with
  | .none => { reset := false, counted := po }
  | .or => { reset := false, counted := po || so }
  | .and => { reset := false, counted := po && st }
  | .resetBy => { reset := so, counted := po }

/-- The count after a sample: the reset first, then the occurrence (R92, R95). -/
def nextCount (count : Nat) (r : Combined) : Nat := (if r.reset then 0 else count) + (if r.counted then 1 else 0)

/-- The WITHIN limit of a stage has passed at `t` (R93). -/
def Stage.expired (x : Stage) (entered t : Nat) : Bool :=
  match x.timer with
  | .within l => decide (entered + l < t)
  | _ => false

/-- The sample at `t` lies in the stretch that AFTER ignores (R94). -/
def Stage.ignores (x : Stage) (entered t : Nat) : Bool :=
  match x.timer with
  | .after l => decide (t ≤ entered + l)
  | _ => false

/-! ## Evaluating a sample (R95, R96) -/

/-- Entering stage `k` on a sample (R96). -/
def TrgRun.enter (r : TrgRun) (k : Nat) (it : SampleItem) : TrgRun :=
  { r with stage := k, count := 0, entry := some (it.index, it.raw), prevPrimary := false, prevSecondary := false }

/-- What an evaluation finds: the stage it satisfied with the trigger source its occurrence would give, or an expiry
(R93, R95, R99). -/
structure Evaluated where
  run : TrgRun
  pendingEntry : Option Nat
  expired : Bool
  satisfied : Option (Stage × TrigSource)
  deriving DecidableEq, Repr

/-- The source of a declaration (R99): TRIGGER_IN when the occurrence counted includes one of a TRIGGER_IN condition. -/
def sourceOf (x : Stage) (k : Nat) (po so : Bool) : TrigSource :=
  if (x.primary.isTriggerIn && po) ||
     (x.combine == .or && so && (match x.secondary with | some c => c.isTriggerIn | none => false)) then .triggerIn
  else .stage k

/-- The pending entry, or stage 0's entry sample (R95, step 1). -/
def TrgRun.atEntry (r : TrgRun) (pendingEntry : Option Nat) (it : SampleItem) : TrgRun :=
  match pendingEntry with
  | some k => r.enter k it
  | none => if r.entry.isNone then { r with entry := some (it.index, it.raw) } else r

/-- Steps 3 to 7 of R95 for the current stage. -/
def TrgRun.countSample (r : TrgRun) (x : Stage) (entered : Nat) (o : Observed) : Evaluated :=
  let po := x.primary.occurs r.prevPrimary o
  let so := match x.combine, x.secondary with
    | .none, _ => false
    | _, some c => c.occurs r.prevSecondary o
    | _, none => false
  let st := match x.secondary with | some c => c.truth o.it | none => false
  let res := if x.ignores entered o.it.raw then { reset := false, counted := false } else combineResult x.combine po so st
  let r' := { r with
    count := nextCount r.count res
    prevPrimary := x.primary.truth o.it
    prevSecondary := if x.combine = .none then r.prevSecondary else st }
  if r'.count = x.required then
    { run := r', expired := false, satisfied := some (x, sourceOf x r.stage po so)
      pendingEntry := match x.success with | .stage k => some k | .trigger => none }
  else { run := r', pendingEntry := none, expired := false, satisfied := none }

/-- The evaluation of a sample against the current stage (R95). -/
def TrgRun.evaluate (r : TrgRun) (pendingEntry : Option Nat) (o : Observed) : Evaluated :=
  let r := r.atEntry pendingEntry o.it
  match r.table[r.stage]?, r.entry with
  | some x, some (_, e) =>
    if x.expired e o.it.raw then { run := r, pendingEntry := x.fail, expired := true, satisfied := none }
    else r.countSample x e o
  | _, _ => { run := r, pendingEntry := none, expired := false, satisfied := none }

/-! ## Actions and the declaration (R66, R97 to R100) -/

/-- A pulse begins on the trigger-out line now; the pulses are a set of end times (R98). -/
def State.beginPulse (s : State) : State :=
  let stop := s.timebase + Config.pulseWidth
  if s.trg.pulses.contains stop then s else s.setTrg { s.trg with pulses := s.trg.pulses ++ [stop] }

/-- The actions of a stage satisfied on the sample of index `n`, in the order of R97. -/
def State.stageActions (s : State) (a : StageActions) (n : Nat) : State :=
  let s := if a.notify then s.raiseBoth .engineState else s
  let s := s.setLanes (requestLanes s.lanes (a.hold.getD 0) (a.release.getD 0) n)
  if a.pulseOut then s.beginPulse else s

/-- The trigger is declared on the sample of raw time `t` (R66, R99): the capture's trigger fields, the trigger
block (R43), the post end time, the engine TRIGGERED with its notices, the pulse; TRG goes to DECLARED. -/
def State.declare (s : State) (source : TrigSource) (t : Nat) : State :=
  let short := s.acq.force = some .arming && source = .force
  let s := match s.acq.active with
    | some name =>
      let block := (s.sto.filling name).map Prod.fst
      s.modifyCapture name fun c => { c with
        trigTime := some t, trigSource := some source, trigBlock := block, shortPre := c.shortPre || short }
    | none => s
  let s := s.setAcq { s.acq with
    postEnd := some (t + (s.acq.copy.map AcqPlan.post).getD 0), force := none, engine := .triggered, armedAt := none }
  let s := (s.raiseBoth .engineState).raiseBoth .triggered
  let s := s.setTrg { s.trg with state := .declared, pendingEntry := none }
  s.beginPulse

/-- TRG's handling of an evaluated sample in SEEKING: evaluation, actions, and the declaration, by FORCE on the
forced sample whatever the evaluation gave (R95, R99, R100). -/
def State.seek (s : State) (o : Observed) : State × List Happening :=
  match s.trg.run with
  | none => (s, [])
  | some r =>
    let v := r.evaluate s.trg.pendingEntry o
    let s := s.setTrg { s.trg with run := some v.run, pendingEntry := v.pendingEntry }
    let s := match v.satisfied with
      | some (x, _) => s.stageActions x.actions o.it.index
      | none => s
    let came := (if v.expired then [Happening.withinExpiry] else []) ++
      (if v.satisfied.isSome then [Happening.stageSatisfied] else [])
    if s.acq.force.isSome then (s.declare .force o.it.raw, came)
    else
      match v.satisfied with
      | some (x, source) => (if x.success = .trigger then s.declare source o.it.raw else s, came)
      | none => (s, came)

/-- The engine goes from ARMING to ARMED and TRG from GATED to SEEKING (R64, R81). -/
def State.enterArmed (s : State) : State :=
  ((s.setAcq { s.acq with engine := .armed, armedAt := none }).raiseBoth .engineState).setTrg
    { s.trg with state := .seeking }

/-- The channel history and the trigger-in mark after a sample; whether the sample takes the mark (R83, R84). -/
def State.observe (s : State) (it : SampleItem) : State × Bool :=
  let history := match s.trg.history with
    | some h => h.apply it
    | none => .start it.word
  let live := s.trg.state = .gated ∨ s.trg.state = .seeking
  let arrival := decide live && (match s.trg.mark with | some t => decide (t ≤ it.raw) | none => false)
  (s.setTrg { s.trg with history := some history, mark := if arrival then none else s.trg.mark }, arrival)

/-- TRG and ACQ on a held sample that every lane has handled: the forced sample (R65, R100), the entry to ARMED (R64),
the evaluation (R95). -/
def State.trgSample (s : State) (it : SampleItem) (offers : List (Four × Nat)) : State × List Happening :=
  let history := s.trg.history
  let r := s.observe it
  let s := r.1
  let o : Observed := { it, history, arrival := r.2, offers }
  match s.acq.engine with
  | .arming =>
    if s.acq.force.isSome then (s.declare .force it.raw, [])
    else
      match s.acq.armedAt with
      | some t =>
        if t ≤ it.raw then
          let v := s.enterArmed.seek o
          (v.1, .armedEntry :: v.2)
        else (s, [])
      | none => (s, [])
  | .armed => s.seek o
  | _ => (s, [])

/-- TRG goes to STANDBY (R81); the trigger-in level and the pulses stay. -/
def Trg.toStandby (x : Trg) : Trg :=
  { x with state := .standby, run := none, pendingEntry := none, history := none, mark := none }

/-- TRG at ARM completion (R81): GATED, with the stages 0 to S - 1 of the TRIGGER section. -/
def Trg.atArm (x : Trg) (plan : TriggerPlan) : Trg :=
  { x with
    state := .gated
    run := some { table := plan.stages.toList.take plan.count, stage := 0, count := 0, entry := none,
                  prevPrimary := false, prevSecondary := false }
    pendingEntry := none
    history := none
    mark := none }

/-- TRIGGER_IN_EDGE: the line changes to `level`; a rising edge sets the mark while TRG is GATED or SEEKING (R84). -/
def execTriggerInEdge (level : Bool) (t : Nat) (s : State) : Host.Outcome State Fault Refusal :=
  if s.trg.inLevel = level then .next s
  else
    let s := s.advanceTo t
    let live := s.trg.state = .gated ∨ s.trg.state = .seeking
    .next (s.setTrg { s.trg with
      inLevel := level
      mark := if level && decide live && s.trg.mark.isNone then some s.timebase else s.trg.mark })

/-- TRIGGER_OUT_PULSE_END: the pulse that ends first runs out; the line falls if no other pulse runs (R98). -/
def execTriggerOutPulseEnd (s : State) : Host.Outcome State Fault Refusal :=
  match s.trg.pulses with
  | [] => .next s
  | x :: rest =>
    let first := rest.foldl min x
    let s := s.advanceTo first
    .next (s.setTrg { s.trg with pulses := s.trg.pulses.filter fun e => e ≠ first })

end Sys2Proof.Machine
end

