-- ==== Sys2Proof/Machine/Acquire.lean ====
section
/-! DEFINITION. ACQ: the checks of ARM, its completion, the entry to STOPPING, the final write, ABORT, REPEAT, and the engine's
requests (04_acquisition_control.md, R57 to R79; R16, R37, R102, R125). -/

namespace Sys2Proof.Machine

open Sys2Proof

/-! ## Plan consistency (R61, R102, R125) -/

/-- Every channel of `m` is in `mask`. -/
def maskWithin (m mask : ChannelWord) : Bool := m &&& ~~~mask == 0

/-- A check of the ACQ section with its reason (R61, orders 1 and 2). -/
def acqReason (x : AcqPlan) : Option PlanReason :=
  if x.mode ≠ .fill ∧ x.quota < 2 then some .windowQuota
  else if x.div < 2 ∧ (maskHasPod x.mask 2 ∨ maskHasPod x.mask 3) then
    some (.dividerChannels (if maskHasPod x.mask 2 then 2 else 3))
  else none

/-- A target is TRIGGER or a stage below `S` (R102, check 1). -/
def targetOk (x : Target) (S : Nat) : Bool :=
  match x with
  | .stage k => k < S
  | .trigger => true

/-- The conditions of a stage: the primary, and the secondary where it is present, under NONE too (R102). -/
def Stage.conditions (x : Stage) : List Cond :=
  x.primary :: (match x.secondary with | some c => [c] | none => [])

/-- A PULSE condition's widths agree (R102, check 4). -/
def pulseWidthOk : Cond → Bool
  | .pulse _ _ lo hi => lo ≤ hi
  | _ => true

/-- A LANE_MATCH condition names a lane with a kind (R102, check 5). -/
def laneKindOk (p : Plan) : Cond → Bool
  | .laneMatch l _ => (p.lanes.get l).kind != .none
  | _ => true

/-- A LANE_MATCH condition names an entry that exists with TRIGGER_FEED (R102, check 6). -/
def matchEntryOk (p : Plan) : Cond → Bool
  | .laneMatch l e => (match (p.matchLists.get l)[e]? with | some x => x.actions.feed | none => false)
  | _ => true

/-- The channels a condition names are in the mask (R102, check 7). -/
def channelsOk (mask : ChannelWord) : Cond → Bool
  | .pattern m _ _ => maskWithin m mask
  | .edge m _ => maskWithin m mask
  | .pulse c _ _ _ => mask.getLsbD c
  | _ => true

/-- Does the timer use a limit as WITHIN does (R102, check 8)? -/
def StageTimer.isWithin : StageTimer → Bool
  | .within _ => true
  | _ => false

/-- The first failing check of one stage (R102). -/
def stageReason (p : Plan) (x : Stage) : Option PlanReason :=
  if !(targetOk x.success p.trigger.count && (match x.fail with | some k => decide (k < p.trigger.count) | none => true)) then
    some .targetRange
  else if x.combine ≠ .none ∧ x.secondary.isNone then some .noSecondary
  else if x.combine = .and ∧ !(match x.secondary with | some (.pattern _ _ _) => true | _ => false) then some .andSecondary
  else if !x.conditions.all pulseWidthOk then some .pulseWidth
  else if !x.conditions.all (laneKindOk p) then some .laneKind
  else if !x.conditions.all (matchEntryOk p) then some .matchEntry
  else if !x.conditions.all (channelsOk p.acq.mask) then some .channelMask
  else if x.timer.isWithin && x.fail.isNone then some .withinFail
  else none

/-- The channels that a lane's kind uses (R125, check 1). -/
def LaneCfg.channels (x : LaneCfg) : List Nat :=
  match x.kind with
  | .none => []
  | .twoWire => [x.clock, x.data]
  | .clocked => [x.clock, x.data] ++ (match x.select with | some c => [c] | none => [])
  | .async => [x.data]
  | .biphase => [x.data]

/-- No number stands twice. -/
def allDistinct : List Nat → Bool
  | [] => true
  | x :: rest => !rest.contains x && allDistinct rest

/-- The first failing check of one lane (R125). -/
def laneReason (acq : AcqPlan) (x : LaneCfg) : Option PlanReason :=
  if !x.channels.all fun c => acq.mask.getLsbD c then some .laneChannel
  else if !allDistinct x.channels then some .channelClash
  else if x.kind = .async ∧ x.bitPeriod < 4 * acq.div then some .bitPeriod
  else if x.kind = .biphase ∧ x.halfCell < 2 * acq.div then some .cellPeriod
  else none

/-- The first failing stage from number `k` on. -/
def firstStageProblem (p : Plan) : Nat → List Stage → Option PlanProblem
  | _, [] => none
  | k, x :: rest =>
    match stageReason p x with
    | some r => some { section_ := .trigger, number := some k, reason := r }
    | none => firstStageProblem p (k + 1) rest

/-- The first failing lane. -/
def firstLaneProblem (p : Plan) : Option PlanProblem :=
  allFour.findSome? fun l => (laneReason p.acq (p.lanes.get l)).map fun r =>
    { section_ := .lanes, number := some l.val, reason := r }

/-- The plan consistency checks of ARM, in the order of R61. -/
def Plan.problem (p : Plan) : Option PlanProblem :=
  match acqReason p.acq with
  | some r => some { section_ := .acq, number := none, reason := r }
  | none =>
    match firstStageProblem p 0 (p.trigger.stages.toList.take p.trigger.count) with
    | some x => some x
    | none => firstLaneProblem p

/-! ## Arming (R16, R37, R60 to R63) -/

/-- The lowest-numbered pod with a masked channel that is ABSENT or IDENTIFYING (R16, R62). -/
def State.unreadyPod (s : State) : Option Four :=
  allFour.find? fun i => maskHasPod s.acq.plan.acq.mask i &&
    ((s.pods.get i).state = .absent || (s.pods.get i).state = .identifying)

/-- The pods with a masked channel that are DEGRADED, ascending (R16). -/
def State.degradedUsed (s : State) : List Four :=
  allFour.filter fun i => maskHasPod s.acq.plan.acq.mask i && (s.pods.get i).state = .degraded

/-- A first block for a new capture (R37, step 2): the lowest FREE block, after reclaims where none is FREE. -/
def State.secureBlock : Nat → State → Option (State × Nat)
  | fuel, s =>
    match s.sto.lowestFree with
    | some n => some (s, n)
    | none =>
      match fuel, s.reclaim with
      | fuel + 1, some s' => State.secureBlock fuel s'
      | _, _ => none

/-- A slot and a first block for a new capture (R37). -/
def State.secure (s : State) : Option (State × Four × Nat) :=
  match allFour.find? fun i => (s.sto.slots.get i).isNone with
  | some i => (s.secureBlock 4).map fun r => (r.1, i, r.2)
  | none =>
    match s.sto.victim, s.reclaim with
    | some i, some s' => (s'.secureBlock 4).map fun r => (r.1, i, r.2)
    | _, _ => none

/-- The counter after a capture number is given (R36). -/
def nextCaptureNumber (n : Nat) : Nat := if n = 65535 then 1 else n + 1

/-- The new capture record (R37). -/
def State.newCapture (s : State) (head : Nat) : Capture :=
  let a := s.acq.plan.acq
  { num := s.sto.nextNum, complete := false, origin := none, div := a.div, mask := a.mask, mode := a.mode, quota := a.quota,
    firstGen := s.acq.gen, lastGen := s.acq.gen, trigTime := none, trigSource := none, trigBlock := none,
    shortPre := false, endReason := none, head := head, podLost := [], degradedPods := s.degradedUsed,
    frames := .all 0, errors := .all 0, expired := 0, truncated := 0, thresholdEdited := false, damaged := false,
    discard := false, retain := ⟨false, false⟩ }

/-- ARM completes with slot `i` and first block `n` (R63, R37, R21, R81, R104). The block's first index is not set before sample 0
(R37); until then it is held as 0 (log 24). -/
def State.completeArm (s : State) (i : Four) (n : Nat) : State :=
  let a := s.acq.plan.acq
  let name : CapName := ⟨i, s.sto.nextNum⟩
  let s := s.setSto { s.sto with
    slots := s.sto.slots.set i (some (s.newCapture n))
    blocks := insertBlock s.sto.blocks n (Block.mk .filling name 0 false none [])
    nextNum := nextCaptureNumber s.sto.nextNum }
  let s := s.setTrg (s.trg.atArm s.acq.plan.trigger)
  let s := s.setLanes (s.acq.plan.lanes.map fun cfg => Lane.atArm cfg name)
  let s := s.setSmp (some { div := a.div, mask := a.mask, armDone := s.timebase, origin := none, next := 0, lost := [],
                            run := none, prev := none })
  let s := s.setAcq { s.acq with
    engine := .arming, active := some name, copy := some a, armedAt := none, postEnd := none, force := none,
    stopPending := false }
  s.raiseBoth .engineState

/-- The number of slots whose capture satisfies a test. -/
def Store.countSlots (x : Store) (f : Capture → Bool) : Nat :=
  (allFour.filter fun i => match x.slots.get i with | some c => f c | none => false).length

/-- ARM's steps in their order (R60): consistency, readiness, slot and block, completion. -/
def State.armSteps (s : State) : Except ArmRefusal (State × CapName) :=
  match s.acq.plan.problem with
  | some x => .error (.planInvalid x s.acq.gen)
  | none =>
    match s.unreadyPod with
    | some i => .error (.notReady i (s.pods.get i).state)
    | none =>
      match s.secure with
      | none => .error (.noSlot (s.sto.countSlots Capture.complete)
          (s.sto.countSlots fun c => c.complete && (c.retain.a || c.retain.b)))
      | some (s', i, n) => .ok (s'.completeArm i n, ⟨i, s'.sto.nextNum⟩)

/-- ACQ's answer to ARM (R60 to R63). -/
def armAnswer (s : State) : State × Answer :=
  if s.acq.engine ≠ .idle then (s, .plain .active)
  else
    match s.armSteps with
    | .error r => (s, .armRefused r)
    | .ok (s', name) =>
      let run := s'.acq.plan.acq.run
      (s'.setAcq { s'.acq with runMode := run, repeatFlag := (run == .repeated), runCount := 1, halt := none },
        .armed name s'.acq.gen)

/-- ARM (R60). -/
def execArm (p : Port) (tag : Byte) (s : State) : Host.Outcome State Fault Refusal :=
  s.request (.arm p tag) p tag armAnswer

/-! ## The final write (R44, R71, R74, R75) -/

/-- The re-arm that follows a POST_DONE completion in the same step, or the end of the run (R74, R75). -/
def State.rearm (s : State) : State :=
  match s.armSteps with
  | .ok (s', _) => s'.setAcq { s'.acq with runCount := satAdd Config.max32 s'.acq.runCount 1 }
  | .error r => (s.setAcq { s.acq with repeatFlag := false, halt := some r }).raiseBoth .repeatHalted

/-- The active capture is over: ACQ's fields about it become absent and the engine is IDLE (R71, R72, R76). -/
def Acq.release (x : Acq) : Acq :=
  { x with engine := .idle, active := none, copy := none, armedAt := none, postEnd := none, force := none,
           stopPending := false }

/-- The capture's FILLING block, if it has one, is sealed (R44). -/
def State.sealFilling (s : State) (name : CapName) : State :=
  match s.sto.filling name with
  | some (n, _) => s.setSto (s.sto.seal n)
  | none => s

/-- The final write completes (R44, R45, R71): the FILLING block is sealed, and the capture becomes COMPLETE, or is
discarded where the discard mark is set. -/
def State.finishWrite (s : State) : State :=
  match s.acq.active with
  | none => s
  | some name =>
    let s := s.sealFilling name
    match s.sto.capture name with
    | none => s
    | some c =>
      if c.discard then
        let s := s.removeCapture name.slot
        (s.setAcq s.acq.release).raiseBoth .engineState
      else
        let s := s.modifyCapture name fun c => { c with complete := true }
        let again := s.acq.repeatFlag ∧ c.endReason = some .postDone
        let s := ((s.setAcq s.acq.release).raiseBoth .captureEnded).raiseBoth .engineState
        if again then s.rearm else s

/-- FINAL_WRITE_COMPLETE (R71); outside STOPPING no final write is in progress (log 5). -/
def execFinalWriteComplete (s : State) : Host.Outcome State Fault Refusal :=
  if s.acq.engine = .stopping then .next s.finishWrite else .next s

/-! ## The entry to STOPPING (R70) -/

/-- The index of the last sample taken. -/
def State.lastTaken (s : State) : Nat :=
  match s.smp with
  | some x => x.next - 1
  | none => 0

/-- ACQ's part in the entry to STOPPING; a re-arm follows POST_DONE alone (R68, R69, R70, R74). -/
def State.stopEngine (s : State) (why : EndReason) : State :=
  (s.setAcq { s.acq with
    engine := .stopping, force := none, armedAt := none, stopPending := false,
    repeatFlag := s.acq.repeatFlag && why == .postDone }).raiseBoth .engineState

/-- The final write begins; a capture with no FILLING block has nothing to write, so its final write completes as it
begins (R44, log 22). -/
def State.beginFinalWrite (s : State) : State :=
  match s.acq.active with
  | some name => if (s.sto.filling name).isNone then s.finishWrite else s
  | none => s

/-- The entry to STOPPING (R70). -/
def State.enterStopping (s : State) (why : EndReason) : State :=
  let ended := s.modifyActive fun c => { c with endReason := some why }
  ((((ended.setTrg s.trg.toStandby).lanesStop (s.lastRaw.getD 0) s.lastTaken).setSmp none).stopEngine why).beginFinalWrite

/-- No sample of the active capture has been held yet. -/
def State.beforeSampleZero (s : State) : Bool :=
  match s.smp with
  | some x => x.next == 0
  | none => false

/-- ACQ's answer to STOP (R68). -/
def stopAnswer (s : State) : State × Answer :=
  match s.acq.engine with
  | .idle => (s, .plain .ok)
  | .stopping => (s.setAcq { s.acq with repeatFlag := false }, .plain .ok)
  | _ =>
    if s.beforeSampleZero then (s.setAcq { s.acq with repeatFlag := false, stopPending := true }, .plain .ok)
    else (s.enterStopping .stopTaken, .plain .ok)

/-- STOP (R68). -/
def execStop (p : Port) (tag : Byte) (s : State) : Host.Outcome State Fault Refusal :=
  s.request (.stop p tag) p tag stopAnswer

/-- ACQ's answer to FORCE (R65). -/
def forceAnswer (s : State) : State × Answer :=
  match s.acq.engine with
  | .arming => (if s.acq.force.isSome then s else s.setAcq { s.acq with force := some .arming }, .plain .ok)
  | .armed => (if s.acq.force.isSome then s else s.setAcq { s.acq with force := some .armed }, .plain .ok)
  | _ => (s, .plain .wrongState)

/-- FORCE (R65). -/
def execForce (p : Port) (tag : Byte) (s : State) : Host.Outcome State Fault Refusal :=
  s.request (.force p tag) p tag forceAnswer

/-! ## Abort (R72, R73) -/

/-- The active capture is discarded at once (R29, R45, R72): sampling, TRG and the lanes stop without PARTIAL, STO
removes the capture, the engine is IDLE. The notices are the caller's. -/
def State.discardActive (s : State) : State :=
  let s := ((s.setSmp none).setTrg s.trg.toStandby).lanesOut
  let s := match s.acq.active with
    | some name => s.removeCapture name.slot
    | none => s
  s.setAcq { s.acq.release with repeatFlag := false }

/-- ACQ's answer to ABORT (R72, R73). -/
def abortAnswer (s : State) : State × Answer :=
  match s.acq.engine with
  | .idle => (s, .plain .ok)
  | .stopping =>
    ((s.modifyActive fun c => { c with discard := true }).setAcq { s.acq with repeatFlag := false }, .plain .ok)
  | _ => (s.discardActive.raiseBoth .engineState, .plain .ok)

/-- ABORT (R72, R73). -/
def execAbort (p : Port) (tag : Byte) (s : State) : Host.Outcome State Fault Refusal :=
  s.request (.abort p tag) p tag abortAnswer

/-! ## Status requests (R77 to R79) -/

/-- The trigger stage as STATUS reports it: stage, count and pending entry in ARMED (R77). -/
def State.trigReport (s : State) : Option (Nat × Nat × Option Nat) :=
  if s.acq.engine = .armed then s.trg.run.map fun r => (r.stage, r.count, s.trg.pendingEntry) else none

/-- The STATUS report (R77). -/
def State.statusReport (s : State) : StatusReport :=
  { timebase := s.timebase, engine := s.acq.engine, active := s.acq.active, gen := s.acq.gen, copy := s.acq.copy,
    armedAt := s.acq.armedAt, postEnd := s.acq.postEnd, force := s.acq.force, trig := s.trigReport, runMode := s.acq.runMode,
    repeatFlag := s.acq.repeatFlag, runCount := s.acq.runCount, halt := s.acq.halt, nextSample := s.smp.map Sampling.next,
    freeBlocks := s.sto.freeCount, heldCaptures := s.sto.countSlots fun _ => true }

/-- STATUS (R77). -/
def execStatus (p : Port) (tag : Byte) (s : State) : Host.Outcome State Fault Refusal :=
  s.request (.status p tag) p tag fun s => (s, .status s.statusReport)

/-- A CAPTURE_LIST entry (R78). -/
def Store.listEntry (x : Store) (i : Four) : Option ListEntry :=
  (x.slots.get i).map fun c => { record := c, held := x.heldCount c, blocks := (x.chain c).length }

/-- CAPTURE_LIST (R78). -/
def execCaptureList (p : Port) (tag : Byte) (s : State) : Host.Outcome State Fault Refusal :=
  s.request (.captureList p tag) p tag fun s => (s, .captureList (numbered.map s.sto.listEntry))

/-- The CAPTURE_INFO report of a held capture (R79). -/
def State.infoReport (s : State) (name : CapName) (c : Capture) : InfoReport :=
  { name := name, record := c, oldestIndex := s.sto.oldestIndex c, oldestTime := s.sto.oldestTime c,
    lastIndex := s.sto.lastIndex c, lastTime := s.sto.lastTime c, held := s.sto.heldCount c,
    writtenEnd := s.sto.writtenEnd c, chain := (s.sto.chain c).map Prod.fst,
    engine := if c.complete then none else some s.acq.engine }

/-- ACQ's answer to CAPTURE_INFO (R79). -/
def captureInfoAnswer (slot : Byte) (num : BitVec 16) (s : State) : State × Answer :=
  match s.named slot num with
  | .error a => (s, a)
  | .ok (name, c) => (s, .captureInfo (s.infoReport name c))

/-- CAPTURE_INFO (R79). -/
def execCaptureInfo (p : Port) (tag slot : Byte) (num : BitVec 16) (s : State) : Host.Outcome State Fault Refusal :=
  s.request (.captureInfo p tag slot num) p tag (captureInfoAnswer slot num)

end Sys2Proof.Machine
end

