-- ==== Sys2Proof/Machine/Sampler.lean ====
section
/-! DEFINITION. SMP: the state word (R22), building runs (R24), holding a sample in the store (R25), and the whole sample step with
its delivery to the lanes, TRG and ACQ (R21, R26, R64 to R68). -/

namespace Sys2Proof.Machine

open Sys2Proof

/-- The channels of a pod as a mask. -/
def podMask (pod : Four) : ChannelWord := 0xFF <<< (8 * pod.val)

/-- The channels of the pods lost at or before `raw` (R22). -/
def lostMask (lost : List (Four × Nat)) (raw : Nat) : ChannelWord :=
  lost.foldl (fun acc e => if e.2 ≤ raw then acc ||| podMask e.1 else acc) 0

/-- The state word of a sample, from the comparator outputs `w` at its raw time (R22). -/
def stateWord (mask : ChannelWord) (lost : List (Four × Nat)) (raw : Nat) (w : ChannelWord) : ChannelWord :=
  w &&& mask &&& ~~~lostMask lost raw

/-- The raw time of the next sample: the first nanosecond after ARM completion for sample 0, then one period apart
(R21). -/
def Sampling.nextRaw (x : Sampling) : Nat := x.origin.getD (x.armDone + 1) + x.next * x.div

/-- The run that a sample extends: the current one, with its own state word and room for one more sample (R24). -/
def Sampling.extends? (x : Sampling) (word : ChannelWord) : Option Run :=
  match x.run with
  | some r => if r.word = word ∧ r.len < Config.maxRun then some r else none
  | none => none

/-- SMP after it has held a sample of state word `word`: the run, the previous word and the next index (R19, R24). -/
def Sampling.held (x : Sampling) (word : ChannelWord) : Sampling :=
  { x with
    origin := some (x.origin.getD (x.armDone + 1))
    run := some (match x.extends? word with
      | some r => { r with len := r.len + 1 }
      | none => { word := word, len := 1, first := x.next })
    prev := some word
    next := x.next + 1 }

/-- The sample item that is delivered (R26): its change set is empty for sample 0. -/
def Sampling.item (x : Sampling) (name : CapName) (word : ChannelWord) : SampleItem :=
  let before := x.prev.getD word
  { cap := name, index := x.next, raw := x.nextRaw, word := word, rise := word &&& ~~~before, fall := before &&& ~~~word }

/-- What sample 0 sets: the capture's origin and the arm-to-armed time (R21, R63). -/
def State.setOrigin (s : State) (x : Sampling) : State :=
  if x.next = 0 then
    let origin := x.nextRaw
    (s.modifyActive fun c => { c with origin := some origin }).setAcq
      { s.acq with armedAt := some (origin + (s.acq.copy.map AcqPlan.pre).getD 0) }
  else s

/-- STO holds the sample: the open record grows, or a record is placed (R25). `false` when no block is found. -/
def State.holdSample (s : State) (x : Sampling) (name : CapName) (word : ChannelWord) : State × Bool :=
  match x.extends? word with
  | some _ => (s.setSto (s.sto.extendRecord name), true)
  | none => s.placeRecord name word x.next

/-- ACQ's test of the post-trigger length on a held sample of raw time `raw`, after TRG's evaluation (R67). -/
def State.postTest (s : State) (raw : Nat) (came : List Happening) : State × List Happening :=
  match s.acq.engine, s.acq.postEnd with
  | .triggered, some e => if e ≤ raw then (s.enterStopping .postDone, came ++ [.postDone]) else (s, came)
  | _, _ => (s, came)

/-- A held sample is delivered: to every lane, then to TRG, then ACQ makes its test (R26, R67). A STOP taken before
sample 0 was held ends the capture on it: no forced sample and no test of R64 is made (R68). -/
def State.deliver (s : State) (D : Nat) (it : SampleItem) : State × List Happening :=
  let r := s.lanesSample D it
  if s.acq.stopPending then (((r.1.observe it).1).enterStopping .stopTaken, r.2.2)
  else
    let v := r.1.trgSample it r.2.1
    v.1.postTest it.raw (r.2.2 ++ v.2)

/-- The sample step: SMP takes its next sample, whose comparator outputs are `w`. It is held and delivered, or no block
is found for it and the capture ends with STORE_FULL (R21, R24, R25, R42). Nothing happens while SMP is STOPPED.
The second component is what came about on the sample (log 4). -/
def State.takeSample (s : State) (w : ChannelWord) : State × List Happening :=
  match s.smp, s.acq.active with
  | some x, some name =>
    let raw := x.nextRaw
    let word := stateWord x.mask x.lost raw w
    let s := (s.advanceTo raw).setOrigin x
    let h := s.holdSample x name word
    if h.2 then (h.1.setSmp (some (x.held word))).deliver x.div (x.item name word)
    else (h.1.enterStopping .storeFull, [])
  | _, _ => (s, [])

/-- No sample is held yet, and SMP is SAMPLING. -/
def State.awaitsFirst (s : State) : Bool := s.beforeSampleZero

/-- A sample after sample 0 is due. -/
def State.awaitsLater (s : State) : Bool :=
  match s.smp with
  | some x => x.next != 0
  | none => false

/-- The sample step on which `h` comes about; nothing where `h` does not come about on the next sample (logs 4, 5). -/
def State.sampleWith (s : State) (h : Happening) (w : ChannelWord) : State :=
  let r := s.takeSample w
  if r.2.contains h then r.1 else s

/-- FIRST_SAMPLE: sample 0 (R21). -/
def execFirstSample (w : ChannelWord) (s : State) : Host.Outcome State Fault Refusal :=
  .next (if s.awaitsFirst then (s.takeSample w).1 else s)

/-- SAMPLE: the next sample after sample 0 (R24). -/
def execSample (w : ChannelWord) (s : State) : Host.Outcome State Fault Refusal :=
  .next (if s.awaitsLater then (s.takeSample w).1 else s)

/-- ARMED_ENTRY: the sample on which the engine becomes ARMED (R64). -/
def execArmedEntry (w : ChannelWord) (s : State) : Host.Outcome State Fault Refusal := .next (s.sampleWith .armedEntry w)

/-- WITHIN_EXPIRY: the sample on which a WITHIN stage fails (R93). -/
def execWithinExpiry (w : ChannelWord) (s : State) : Host.Outcome State Fault Refusal :=
  .next (s.sampleWith .withinExpiry w)

/-- STAGE_SATISFIED: the sample on which the current stage is satisfied (R95). -/
def execStageSatisfied (w : ChannelWord) (s : State) : Host.Outcome State Fault Refusal :=
  .next (s.sampleWith .stageSatisfied w)

/-- POST_DONE: the sample on which the post-trigger length is complete (R67). -/
def execPostDone (w : ChannelWord) (s : State) : Host.Outcome State Fault Refusal := .next (s.sampleWith .postDone w)

/-- TWO_WIRE_STALL: the sample on which a lane's TWO_WIRE frame stalls (R116). -/
def execTwoWireStall (lane : Four) (w : ChannelWord) (s : State) : Host.Outcome State Fault Refusal :=
  .next (s.sampleWith (.twoWireStall lane) w)

/-- CLOCKED_IDLE_END: the sample on which a lane's CLOCKED frame ends by idle (R118). -/
def execClockedIdleEnd (lane : Four) (w : ChannelWord) (s : State) : Host.Outcome State Fault Refusal :=
  .next (s.sampleWith (.clockedIdleEnd lane) w)

/-- ASYNC_IDLE_END: the sample on which a lane's ASYNC frame ends by idle (R120). -/
def execAsyncIdleEnd (lane : Four) (w : ChannelWord) (s : State) : Host.Outcome State Fault Refusal :=
  .next (s.sampleWith (.asyncIdleEnd lane) w)

/-- BIPHASE_IDLE_END: the sample on which a lane's BIPHASE frame ends by idle (R122). -/
def execBiphaseIdleEnd (lane : Four) (w : ChannelWord) (s : State) : Host.Outcome State Fault Refusal :=
  .next (s.sampleWith (.biphaseIdleEnd lane) w)

/-- DRAIN_LIMIT: the sample on which a lane's drain is cut off (R109). -/
def execDrainLimit (lane : Four) (w : ChannelWord) (s : State) : Host.Outcome State Fault Refusal :=
  .next (s.sampleWith (.drainLimit lane) w)

end Sys2Proof.Machine
end

