-- ==== Sys2Proof/Machine/Render.lean ====
section
/-! DEFINITION. VRN: starting and cancelling a render, the renderer's column and annotation items, and fetching
(09_view_rendering.md, R149 to R166). -/

namespace Sys2Proof.Machine

open Sys2Proof

/-! ## Starting, cancelling, fetching (R151 to R153, R163) -/

/-- The checks of RENDER_START after the capture has been found (R151, checks 3 to 8), in their order. -/
def renderFault (c : Capture) (start width columns : Nat) (channels : List Nat) (lanes : Nat) : Option RenderFault :=
  if columns < 1 ∨ 1024 < columns then some .columns
  else if width < 64 ∨ 2 ^ 40 < width then some .width
  else if 256 * (2 ^ 64 - 1) < 256 * start + columns * width then some .window
  else if channels.length < 1 ∨ 32 < channels.length ∨ (channels.any fun x => decide (31 < x)) ∨ !allDistinct channels then
    some .channelList
  else
    match channels.find? fun x => !c.mask.getLsbD x with
    | some x => some (.channel x)
    | none => if 15 < lanes then some .laneSet else none

/-- The context that an accepted start leaves (R150, R152): RUNNING, with an empty queue; a render in progress ends
REPLACED. -/
def RenderCtx.started (x : RenderCtx) (r : Render) : RenderCtx :=
  { state := .running, render := some r, queue := [], lastEnd := if x.inProgress then some .replaced else x.lastEnd }

/-- VRN's answer to RENDER_START (R151, R152). A turn that the replaced render held is not carried over (R154). -/
def renderStartAnswer (p : Port) (slot : Byte) (num : BitVec 16) (start width : BitVec 64) (columns : BitVec 16)
    (channels : List Byte) (lanes : Byte) (s : State) : State × Answer :=
  match s.named slot num with
  | .error (.plain .gone) => (s, .plain .gone)
  | .error _ => (s, .renderInvalid .slot)
  | .ok (name, c) =>
    let list := channels.map BitVec.toNat
    match renderFault c start.toNat width.toNat columns.toNat list lanes.toNat with
    | some f => (s, .renderInvalid f)
    | none =>
      let skews := list.map s.skewOf
      let r : Render :=
        { cap := name, start := start.toNat, width := width.toNat, columns := columns.toNat, channels := list,
          lanes := BitVec.ofNat 4 lanes.toNat, skews := skews, nextCol := 0, mark := none }
      let v := ((s.vrn.setCtx p ((s.vrn.ctx.get p).started r)).endTurn p).claimTurn p
      (s.setVrn v, .renderStarted skews (if s.sto.heldCount c = 0 then none else s.sto.oldestTime c) (s.sto.lastTime c))

/-- RENDER_START (R151). -/
def execRenderStart (p : Port) (tag slot : Byte) (num : BitVec 16) (start width : BitVec 64) (columns : BitVec 16)
    (channels : List Byte) (lanes : Byte) (s : State) : Host.Outcome State Fault Refusal :=
  s.request (.renderStart p tag slot num start width columns channels lanes) p tag
    (renderStartAnswer p slot num start width columns channels lanes)

/-- What follows the taking of items from the queue (R163): a WAITING context that gave items becomes RUNNING, a
FINISHED one that is empty ends DONE with RENDER_ENDED. -/
def State.afterFetch (s : State) (p : Port) (taken : Nat) : State :=
  let x := s.vrn.ctx.get p
  match x.state with
  | .waiting => if taken = 0 then s else s.setVrn ((s.vrn.setCtx p { x with state := .running }).claimTurn p)
  | .finished => if x.queue.isEmpty then (s.setVrn (s.vrn.endRender p .done)).raise p .renderEnded else s
  | _ => s

/-- An OK answer to RENDER_FETCH: the items, and the context as the fetch leaves it (R163). -/
def RenderCtx.itemsAnswer (x : RenderCtx) (items : List Item) : Answer :=
  .items items x.state x.lastEnd (x.render.map Render.nextCol) x.queue.length

/-- VRN's answer to RENDER_FETCH (R163). -/
def renderFetchAnswer (p : Port) (count : Byte) (s : State) : State × Answer :=
  if count.toNat < 1 ∨ 16 < count.toNat then (s, .plain .invalid)
  else
    let x := s.vrn.ctx.get p
    if x.inProgress then
      let items := x.queue.take count.toNat
      let s := (s.setVrn (s.vrn.setCtx p { x with queue := x.queue.drop count.toNat })).afterFetch p items.length
      (s, (s.vrn.ctx.get p).itemsAnswer items)
    else if x.lastEnd = some .gone then (s, .plain .gone)
    else (s, x.itemsAnswer [])

/-- RENDER_FETCH (R163). -/
def execRenderFetch (p : Port) (tag count : Byte) (s : State) : Host.Outcome State Fault Refusal :=
  s.request (.renderFetch p tag count) p tag (renderFetchAnswer p count)

/-- The render of a port, if one is in progress, ends CANCELLED (R153, R165). -/
def State.cancelRender (s : State) (p : Port) : State :=
  if (s.vrn.ctx.get p).inProgress then s.setVrn (s.vrn.endRender p .cancelled) else s

/-- VRN's answer to RENDER_CANCEL (R153). -/
def renderCancelAnswer (p : Port) (s : State) : State × Answer := (s.cancelRender p, .plain .ok)

/-- RENDER_CANCEL (R153). -/
def execRenderCancel (p : Port) (tag : Byte) (s : State) : Host.Outcome State Fault Refusal :=
  s.request (.renderCancel p tag) p tag (renderCancelAnswer p)

/-! ## Queueing (R162) -/

/-- An item joins the tail of a context's queue, with RENDER_DATA when the queue was empty (R162). -/
def State.queueItem (s : State) (p : Port) (x : RenderCtx) (item : Item) : State :=
  let s' := s.setVrn (s.vrn.setCtx p { x with queue := x.queue ++ [item] })
  if x.queue.isEmpty then s'.raise p .renderData else s'

/-- An item is due while the queue is full: the context goes to WAITING and its turn ends (R162, R154). -/
def State.waitRender (s : State) (p : Port) (x : RenderCtx) : State :=
  s.setVrn ((s.vrn.setCtx p { x with state := .waiting }).endTurn p)

/-- The context that holds the renderer's turn, with its render (R154). -/
def Vrn.atWork (v : Vrn) : Option (Port × RenderCtx × Render) :=
  match v.turn with
  | none => none
  | some p =>
    let x := v.ctx.get p
    match x.state, x.render with
    | .running, some r => some (p, x, r)
    | _, _ => none

/-! ## Annotations (R160, R161) -/

/-- The offset of a corrected time from the view start, in 1/256 ns (section 9.4). -/
def Render.offset (r : Render) (t : Int) : Int := 256 * (t - (r.start : Int))

/-- The offset of the window's right end. -/
def Render.windowEnd (r : Render) : Int := (r.columns : Int) * (r.width : Int)

/-- An event is annotatable: some part of it lies in the window (R160). -/
def Render.annotatable (r : Render) (e : Event) : Bool :=
  decide (0 ≤ r.offset e.stop ∧ r.offset e.start < r.windowEnd)

/-- The start column with CLIP_L (R160). -/
def Render.startColumn (r : Render) (e : Event) : Nat × Bool :=
  if 0 ≤ r.offset e.start then ((r.offset e.start / (r.width : Int)).toNat, false) else (0, true)

/-- The end column with CLIP_R (R160). -/
def Render.endColumn (r : Render) (e : Event) : Nat × Bool :=
  if r.offset e.stop < r.windowEnd then ((r.offset e.stop / (r.width : Int)).toNat, false) else (r.columns - 1, true)

/-- An event is due as an annotation of the next column (R161). -/
def Render.dueEvent (r : Render) (e : Event) : Bool :=
  decide (e.cap = r.cap) && r.lanes.getLsbD e.lane.val && r.annotatable e && (r.startColumn e).1 == r.nextCol &&
    (match r.mark with | some m => decide (m < e.seq) | none => true)

/-- The annotation that is due: the lowest sequence (R161), the list being in sequence order (R137). -/
def Evl.dueAnnotation (e : Evl) (r : Render) : Option Event := e.events.find? r.dueEvent

/-- The annotation item of an event (R160). -/
def Render.annotation (r : Render) (e : Event) : Item :=
  .annotation e.seq e.lane e.kind e.value (r.startColumn e).1 (r.endColumn e).1 (r.startColumn e).2 (r.endColumn e).2

/-- ANNOTATION_ITEM: the renderer makes the annotation item that is due for the context at work, or the context goes
WAITING on a full queue; nothing happens where none is due (R161, R162, logs 5, 27). -/
def execAnnotationItem (s : State) : Host.Outcome State Fault Refusal :=
  match s.vrn.atWork with
  | none => .next s
  | some (p, x, r) =>
    match s.evl.dueAnnotation r with
    | none => .next s
    | some e =>
      if x.queue.length < Config.queueCapacity then
        .next (s.queueItem p { x with render := some { r with mark := some e.seq } } (r.annotation e))
      else .next (s.waitRender p x)

/-! ## Columns (R156 to R159) -/

/-- The held samples of the rendered capture as a column sees them (R156): origin, period, first and last index. -/
structure HeldSpan where
  origin : Nat
  div : Nat
  oldest : Nat
  last : Nat
  deriving DecidableEq, Repr

/-- The held samples of a capture; `none` when it holds none. -/
def Store.heldSpan (x : Store) (c : Capture) : Option HeldSpan :=
  match c.origin, x.lastIndex c with
  | some o, some l => some { origin := o, div := c.div, oldest := x.oldestIndex c, last := l }
  | _, _ => none

/-- The offset of sample `n` for a channel of skew `k` (section 9.4). -/
def HeldSpan.offset (h : HeldSpan) (r : Render) (k : Int) (n : Nat) : Int :=
  r.offset ((h.origin : Int) + (n : Int) * (h.div : Int) - k)

/-- The class of a channel in a column (R157). -/
inductive ColumnClass where
  | before
  | after
  | inView
  deriving DecidableEq, Repr

/-- The left edge of column `j`. -/
def Render.leftEdge (r : Render) (j : Nat) : Int := (j : Int) * (r.width : Int)

/-- The right edge of column `j`. -/
def Render.rightEdge (r : Render) (j : Nat) : Int := ((j : Int) + 1) * (r.width : Int)

/-- The class of a channel of skew `k` in column `j` (R157). -/
def columnClass (held : Option HeldSpan) (r : Render) (j : Nat) (k : Int) : ColumnClass :=
  match held with
  | none => .after
  | some h =>
    if r.rightEdge j ≤ h.offset r k h.oldest then .before
    else if h.offset r k h.last < r.leftEdge j then .after
    else .inView

/-- The least index whose offset is at or above `edge`: `offset n = offset 0 + 256 n D`. -/
def HeldSpan.firstFrom (h : HeldSpan) (r : Render) (k edge : Int) : Nat :=
  let need := edge - h.offset r k 0
  max h.oldest (if need ≤ 0 then 0 else ((need + 256 * (h.div : Int) - 1) / (256 * (h.div : Int))).toNat)

/-- The samples an IN_VIEW channel needs in a column (R158): the first index at or above the left edge, the index that
gives the start level if one is held, and the index that gives the end level. -/
structure Needed where
  firstIn : Nat
  start : Option Nat
  stop : Nat
  deriving DecidableEq, Repr

/-- What an IN_VIEW channel of skew `k` needs in column `j` (R158). -/
def HeldSpan.needed (h : HeldSpan) (r : Render) (j : Nat) (k : Int) : Needed :=
  let first := h.firstFrom r k (r.leftEdge j)
  let onEdge := decide (h.offset r k first = r.leftEdge j)
  { firstIn := first
    start := if onEdge then some first else if h.oldest < first then some (first - 1) else none
    stop := min h.last (h.firstFrom r k (r.rightEdge j) - 1) }

/-- The lowest index read for a channel: the sample before the first of the column is needed for the count (log 17). -/
def Needed.low (n : Needed) (oldest : Nat) : Nat := max oldest (n.firstIn - 1)

/-- The reads of one block for a column: the records up to the last one that holds a needed sample (R159, log 16). -/
def columnReadsOf (ranges : List (Nat × Nat)) (e : Nat × Block) : List ReadEntry :=
  let here := ranges.filter fun x => decide (x.1 < e.2.endIndex ∧ e.2.first ≤ x.2)
  if here.isEmpty then []
  else
    let top := here.foldl (fun acc x => max acc x.2) 0
    (readsOf e).takeWhile fun y => decide (y.read.first ≤ top)

/-- The level of a channel at index `n`, by the records as read: that of the last record that starts at or below `n`. -/
def levelAt (es : List ReadEntry) (channel n : Nat) : Bool :=
  (es.foldl (fun (acc : ChannelWord) e => if e.read.first ≤ n then e.read.word else acc) 0).getLsbD channel

/-- A level as an entry shows it (R158). -/
def viewLevel (b : Bool) : ViewLevel := if b then .high else .low

/-- Transitions of a channel at records that start in `lo` to `hi`: each against the record before it (R158). -/
def transitions (channel lo hi : Nat) : List ReadEntry → Nat
  | [] => 0
  | [_] => 0
  | x :: y :: rest =>
    (if lo ≤ y.read.first ∧ y.read.first ≤ hi ∧ x.read.word.getLsbD channel ≠ y.read.word.getLsbD channel then 1 else 0) +
      transitions channel lo hi (y :: rest)

/-- The entry of a channel that shows nothing (R157, R158). -/
def ColumnEntry.unknown : ColumnEntry := { start := .unknown, stop := .unknown, count := 0 }

/-- The entry of an IN_VIEW channel (R158). -/
def Needed.entry (n : Needed) (es : List ReadEntry) (channel : Nat) : ColumnEntry :=
  { start := match n.start with | some i => viewLevel (levelAt es channel i) | none => .unknown
    stop := viewLevel (levelAt es channel n.stop)
    count := min 255 (transitions channel n.firstIn n.stop es) }

/-- What a listed channel with its skew needs in column `j`: `none` unless it is IN_VIEW. -/
def neededOf (held : Option HeldSpan) (r : Render) (j : Nat) (x : Nat × Int) : Option Needed :=
  match held with
  | none => none
  | some h => if columnClass held r j x.2 = .inView then some (h.needed r j x.2) else none

/-- The column item of column `j` of a render, and the reads it makes (R157 to R159). -/
def columnOf (sto : Store) (r : Render) (j : Nat) : Item × List ReadEntry :=
  let held := (sto.capture r.cap).bind sto.heldSpan
  let chain := match sto.capture r.cap with | some c => sto.chain c | none => []
  let listed := r.channels.zip r.skews
  let classes := listed.map fun x => columnClass held r j x.2
  if classes.contains .inView then
    let oldest := match held with | some h => h.oldest | none => 0
    let ranges := listed.filterMap fun x => (neededOf held r j x).map fun n => (n.low oldest, n.stop)
    let es := chain.flatMap (columnReadsOf ranges)
    let entries := listed.map fun x =>
      match neededOf held r j x with
      | some n => n.entry es x.1
      | none => .unknown
    (.column j false false (es.any fun e => e.read.damaged) entries, es)
  else
    let beyond := classes.contains .after
    (.column j (!beyond) beyond false (listed.map fun _ => .unknown), [])

/-- The context after its next column item is queued (R155): the next column, no mark; FINISHED after the last, with
the next column at C (log 28). -/
def RenderCtx.columnDone (x : RenderCtx) (r : Render) : RenderCtx :=
  { x with
    state := if r.nextCol + 1 < r.columns then .running else .finished
    render := some { r with nextCol := r.nextCol + 1, mark := none } }

/-- COLUMN_ITEM: the renderer makes the column item of the context at work, unless an annotation of that column is due
first; on a full queue the context goes WAITING (R155, R157, R162, logs 5, 27). -/
def execColumnItem (s : State) : Host.Outcome State Fault Refusal :=
  match s.vrn.atWork with
  | none => .next s
  | some (p, x, r) =>
    if (s.evl.dueAnnotation r).isSome then .next s
    else if x.queue.length < Config.queueCapacity then
      let col := columnOf s.sto r r.nextCol
      let s := (s.noteReads r.cap col.2).queueItem p (x.columnDone r) col.1
      .next (s.setVrn (s.vrn.endTurn p))
    else .next (s.waitRender p x)

end Sys2Proof.Machine
end

