-- ==== Sys2Proof/Machine/PlanEdit.lean ====
section
/-! DEFINITION. ACQ: reading and editing the shared plan (10_the_shared_plan.md, R167 to R174; R134; R12). -/

namespace Sys2Proof.Machine

open Sys2Proof

/-- A section's contents (R169). -/
def Plan.contents (x : Plan) : Section → SectionContents
  | .acq => .acq x.acq
  | .probe => .probe x.probe
  | .trigger => .trigger x.trigger
  | .lanes => .lanes x.lanes
  | .matches => .matches x.matchLists

/-- ACQ's answer to PLAN_READ (R169). -/
def planReadAnswer (sec : Byte) (s : State) : State × Answer :=
  match sectionOf sec with
  | none => (s, .plain .invalid)
  | some x => (s, .planRead (s.acq.plan.contents x) s.acq.gen)

/-- PLAN_READ (R169). -/
def execPlanRead (p : Port) (tag sec : Byte) (s : State) : Host.Outcome State Fault Refusal :=
  s.request (.planRead p tag sec) p tag (planReadAnswer sec)

/-- The record with its code recomputed if it is READY or DEGRADED (R12). -/
def Pod.retune (x : Pod) : Pod :=
  match x.state with
  | .ready => x.recompute
  | .degraded => x.recompute
  | _ => x

/-- PRB copies the thresholds of the PROBE section and recomputes the codes (R12). -/
def State.copyThresholds (s : State) : State :=
  s.setPods (numbered.map fun i => Pod.retune { s.pods.get i with requested := s.acq.plan.probe.thresholds.get i })

/-- The edit is accepted (R173, steps 1 to 3): the section is replaced, the generation advances, the other port has
PLAN_CHANGED. -/
def State.acceptPlan (s : State) (p : Port) (plan : Plan) : State :=
  (s.setAcq { s.acq with plan := plan, gen := s.acq.gen + 1 }).raise p.other .planChanged

/-- An edit of a section that only an IDLE engine lets change (R172). -/
def State.editIdle (s : State) (p : Port) (plan : Plan) : State × Answer :=
  if s.acq.engine ≠ .idle then (s, .editActive s.acq.engine s.acq.gen)
  else (s.acceptPlan p plan, .edited (s.acq.gen + 1))

/-- An accepted PROBE edit with its live effects (R174, R12). -/
def State.editProbe (s : State) (p : Port) (x : ProbePlan) : State × Answer :=
  let s' := (s.acceptPlan p { s.acq.plan with probe := x }).copyThresholds
  (s'.modifyActive fun c => if c.complete then c else { c with thresholdEdited := true, lastGen := s'.acq.gen },
    .edited (s.acq.gen + 1))

/-- A MATCH edit that has passed its checks, judged by the state of its lane (R134), with its live effect (R174). -/
def State.editMatch (s : State) (p : Port) (lane : Four) (entries : List MatchEntry) : State × Answer :=
  if (s.lanes.get lane).state.inside then (s, .editBusy lane (s.lanes.get lane).state s.acq.gen)
  else
    let s' := s.acceptPlan p { s.acq.plan with matchLists := s.acq.plan.matchLists.set lane entries }
    (s'.modifyActive fun c => if c.complete then c else { c with lastGen := s'.acq.gen }, .edited (s.acq.gen + 1))

/-- The range check of R171 and what follows it: the answer names the first field out of range. -/
def State.inRangeOr {α : Type} (s : State) (sec : Section) (r : Except FieldFault α) (f : α → State × Answer) :
    State × Answer :=
  match r with
  | .error e => (s, .fieldRange sec e.1 e.2 s.acq.gen)
  | .ok x => f x

/-- ACQ's answer to PLAN_EDIT: the generation (R170), the section (R170), the ranges (R171), the engine or lane
(R172, R134), acceptance (R173, R174). -/
def planEditAnswer (p : Port) (sec : Byte) (expected : BitVec 32) (contents : List Byte) (s : State) : State × Answer :=
  if expected ≠ s.acq.gen then (s, .stale s.acq.gen)
  else
    match sectionOf sec with
    | none => (s, .noSection sec)
    | some .acq => s.inRangeOr .acq (decodeAcq contents) fun x => s.editIdle p { s.acq.plan with acq := x }
    | some .probe => s.inRangeOr .probe (decodeProbe contents) (s.editProbe p)
    | some .trigger => s.inRangeOr .trigger (decodeTrigger contents) fun x => s.editIdle p { s.acq.plan with trigger := x }
    | some .lanes => s.inRangeOr .lanes (decodeLanes contents) fun x => s.editIdle p { s.acq.plan with lanes := x }
    | some .matches => s.inRangeOr .matches (decodeMatch contents) fun x => s.editMatch p x.1 x.2

/-- PLAN_EDIT (R173). -/
def execPlanEdit (p : Port) (tag sec : Byte) (expected : BitVec 32) (contents : List Byte) (s : State) :
    Host.Outcome State Fault Refusal :=
  s.request (.planEdit p tag sec expected contents) p tag (planEditAnswer p sec expected contents)

end Sys2Proof.Machine
end

