-- ==== Sys2Proof/Machine/Wire.lean ====
section
/-! DEFINITION. Responses on the wire: status codes (R180), bodies by the encoding of R179, and the layouts of section 11.7 (R187 to
R190). -/

namespace Sys2Proof.Machine

open Sys2Proof

/-! ## Status (R180) -/

/-- The status code of a response (R180). -/
def statusCode : Status → Nat
  | .ok => 0
  | .busy => 1
  | .stale => 2
  | .active => 3
  | .wrongState => 4
  | .invalid => 5
  | .planInvalid => 6
  | .noSlot => 7
  | .retained => 8
  | .gone => 9
  | .notReady => 10
  | .unknown => 11
  | .malformed => 12

/-- The status of a refused ARM (R60). -/
def ArmRefusal.status : ArmRefusal → Status
  | .planInvalid _ _ => .planInvalid
  | .notReady _ _ => .notReady
  | .noSlot _ _ => .noSlot

/-- The status an answer carries. -/
def Answer.statusOf : Answer → Status
  | .plain st => st
  | .ident _ _ => .ok
  | .planRead _ _ => .ok
  | .edited _ => .ok
  | .stale _ => .stale
  | .noSection _ => .invalid
  | .fieldRange _ _ _ _ => .invalid
  | .editActive _ _ => .active
  | .editBusy _ _ _ => .busy
  | .armed _ _ => .ok
  | .armRefused r => r.status
  | .status _ => .ok
  | .captureList _ => .ok
  | .captureInfo _ => .ok
  | .records _ _ _ _ _ => .ok
  | .events _ _ _ _ => .ok
  | .seek _ _ _ => .ok
  | .threshold _ _ => .ok
  | .renderStarted _ _ _ => .ok
  | .renderInvalid _ => .invalid
  | .items _ _ _ _ _ => .ok
  | .notices _ _ => .ok
  | .enabled _ _ => .ok
  | .pod _ => .ok
  | .health _ _ _ _ => .ok
  | .retainedBy _ => .retained

/-! ## Numbers of named values (R179: from 1 in the order of the rule, 0 for absent) -/

def engineNumber : Engine → Nat
  | .idle => 1
  | .arming => 2
  | .armed => 3
  | .triggered => 4
  | .stopping => 5

def laneStateNumber : LaneState → Nat
  | .off => 1
  | .held => 2
  | .hunt => 3
  | .inFrame => 4
  | .draining => 5

def podStateNumber : PodState → Nat
  | .absent => 1
  | .identifying => 2
  | .ready => 3
  | .degraded => 4

def degradeNumber : Option DegradeReason → Nat
  | none => 0
  | some .noAnswer => 1
  | some .badChecksum => 2
  | some .badFormat => 3
  | some .badRange => 4

def sectionNumber : Section → Nat
  | .acq => 1
  | .probe => 2
  | .trigger => 3
  | .lanes => 4
  | .matches => 5

def endReasonNumber : Option EndReason → Nat
  | none => 0
  | some .postDone => 1
  | some .stopTaken => 2
  | some .storeFull => 3

def renderStateNumber : RenderState → Nat
  | .idle => 1
  | .running => 2
  | .waiting => 3
  | .finished => 4

def renderEndNumber : Option RenderEnd → Nat
  | none => 0
  | some .done => 1
  | some .cancelled => 2
  | some .replaced => 3
  | some .gone => 4

def testNumber : Option TestKind → Nat
  | none => 1
  | some .single => 2
  | some .double => 3

def viewLevelNumber : ViewLevel → Nat
  | .low => 0
  | .high => 1
  | .unknown => 2

/-- The kinds of an event record and of an annotation (R188, R189). -/
def eventKindNumber : EventKind → Nat
  | .start => 1
  | .addr => 2
  | .word => 3
  | .stop => 4
  | .error => 5
  | .partialFrame => 6

/-- The error kinds of an event record (R188). -/
def errKindNumber : Option ErrKind → Nat
  | none => 0
  | some .stall => 1
  | some .shortWord => 2
  | some .long => 3
  | some .cell => 4

/-- A PLAN_INVALID reason with its pod: R61's table, R102's reasons in its third row's place, R125's in its fourth's. -/
def planReasonBytes : PlanReason → List Byte
  | .windowQuota => numByte 1 ++ numByte 0
  | .dividerChannels pod => numByte 2 ++ numByte pod
  | .targetRange => numByte 3 ++ numByte 0
  | .noSecondary => numByte 4 ++ numByte 0
  | .andSecondary => numByte 5 ++ numByte 0
  | .pulseWidth => numByte 6 ++ numByte 0
  | .laneKind => numByte 7 ++ numByte 0
  | .matchEntry => numByte 8 ++ numByte 0
  | .channelMask => numByte 9 ++ numByte 0
  | .withinFail => numByte 10 ++ numByte 0
  | .laneChannel => numByte 11 ++ numByte 0
  | .channelClash => numByte 12 ++ numByte 0
  | .bitPeriod => numByte 13 ++ numByte 0
  | .cellPeriod => numByte 14 ++ numByte 0

/-- What a refused RENDER_START names (R151, log 13). -/
def renderFaultBytes : RenderFault → List Byte
  | .slot => numByte 1 ++ numByte 0
  | .columns => numByte 2 ++ numByte 0
  | .width => numByte 3 ++ numByte 0
  | .window => numByte 4 ++ numByte 0
  | .channelList => numByte 5 ++ numByte 0
  | .channel c => numByte 6 ++ numByte c
  | .laneSet => numByte 7 ++ numByte 0

/-- A trigger source with its stage (R34). -/
def trigSourceBytes : Option TrigSource → List Byte
  | none => numByte 0 ++ numByte 0
  | some (.stage k) => numByte 1 ++ numByte k
  | some .force => numByte 2 ++ numByte 0
  | some .triggerIn => numByte 3 ++ numByte 0

/-! ## Records -/

/-- A capture's name: slot and number (R179). -/
def nameBytes (x : CapName) : List Byte := numByte x.slot.val ++ natBytes 2 x.num

/-- A list of varying length with a count of `k` bytes (R179). -/
def listBytes {α : Type} (k : Nat) (f : α → List Byte) (x : List α) : List Byte := natBytes k x.length ++ x.flatMap f

/-- A notice set or an enable set (R179). -/
def noticeBytes (x : BitVec 12) : List Byte := natBytes 2 x.toNat

/-- The details of a refused ARM: each of the three kinds' own fields (R61, R62, R16). -/
def ArmRefusal.detail : ArmRefusal → List Byte
  | .planInvalid x gen =>
    numByte (sectionNumber x.section_) ++ optBytes 1 numByte x.number ++ planReasonBytes x.reason ++ natBytes 4 gen.toNat
  | .notReady pod st => numByte pod.val ++ numByte (podStateNumber st)
  | .noSlot complete retained => numByte complete ++ numByte retained

/-- A halt status: absent, or one of the three with the fields of all three, those not carried sent as zeros (R57,
R179). -/
def haltBytes : Option ArmRefusal → List Byte
  | none => numByte 0 ++ zeros 13
  | some (.planInvalid x gen) => numByte 1 ++ (ArmRefusal.planInvalid x gen).detail ++ zeros 4
  | some (.notReady pod st) => numByte 2 ++ zeros 9 ++ (ArmRefusal.notReady pod st).detail ++ zeros 2
  | some (.noSlot complete retained) => numByte 3 ++ zeros 11 ++ (ArmRefusal.noSlot complete retained).detail

/-- A force request: none, or pending with the state in which it was taken (R57, log 14). -/
def forceBytes : Option Engine → List Byte
  | none => numByte 1 ++ numByte 0
  | some e => numByte 2 ++ numByte (engineNumber e)

/-- The plan copy as STATUS reports it (R77). -/
def copyBytes (x : AcqPlan) : List Byte := natBytes 8 x.pre ++ natBytes 8 x.post ++ pick (x.mode == .window) ++ pick (x.run == .single)

/-- The trigger stage as STATUS reports it (R77). -/
def trigBytes (x : Nat × Nat × Option Nat) : List Byte := numByte x.1 ++ natBytes 2 x.2.1 ++ optBytes 1 numByte x.2.2

/-- The body of a STATUS answer (R77, log 14). -/
def statusBytes (r : StatusReport) : List Byte :=
  natBytes 8 r.timebase ++ numByte (engineNumber r.engine) ++ optBytes 3 nameBytes r.active ++ natBytes 4 r.gen.toNat ++
    optBytes 18 copyBytes r.copy ++ optBytes 8 (natBytes 8) r.armedAt ++ optBytes 8 (natBytes 8) r.postEnd ++
    forceBytes r.force ++ optBytes 5 trigBytes r.trig ++ pick (r.runMode == .single) ++ flagByte [r.repeatFlag] ++
    natBytes 4 r.runCount ++ haltBytes r.halt ++ optBytes 8 (natBytes 8) r.nextSample ++ natBytes 2 r.freeBlocks ++
    numByte r.heldCaptures

/-- A capture's state: EMPTY is 1, ACTIVE 2, COMPLETE 3 (R34). -/
def captureStateByte (complete : Bool) : List Byte := numByte (if complete then 3 else 2)

/-- A retain set: bit 0 for Port A, bit 1 for Port B. -/
def retainByte (x : PerPort Bool) : List Byte := flagByte [x.a, x.b]

/-- A CAPTURE_LIST entry, 29 bytes; an EMPTY slot's has no number and says EMPTY in the state's place, and what it does not
hold is sent as zeros (R78, R179, log 14). -/
def listEntryBytes : Option ListEntry → List Byte
  | none => natBytes 2 0 ++ numByte 1 ++ zeros 26
  | some x =>
    natBytes 2 x.record.num ++ captureStateByte x.record.complete ++ optBytes 8 (natBytes 8) x.record.origin ++
      pick (x.record.mode == .window) ++ natBytes 2 x.record.quota ++ flagByte [x.record.trigTime.isSome] ++
      numByte (endReasonNumber x.record.endReason) ++ retainByte x.record.retain ++ natBytes 8 x.held ++
      natBytes 2 x.blocks ++ flagByte [x.record.damaged, !x.record.complete && x.record.discard]

/-- A capture record's fields, in the order of R34 (R79, log 14). -/
def recordBytes (r : InfoReport) : List Byte :=
  let c := r.record
  nameBytes r.name ++ captureStateByte c.complete ++ optBytes 8 (natBytes 8) c.origin ++ natBytes 4 c.div ++
    natBytes 4 c.mask.toNat ++ pick (c.mode == .window) ++ natBytes 2 c.quota ++ natBytes 4 c.firstGen.toNat ++
    natBytes 4 c.lastGen.toNat ++ optBytes 8 (natBytes 8) c.trigTime ++ trigSourceBytes c.trigSource ++
    optBytes 2 (natBytes 2) c.trigBlock ++ flagByte [c.shortPre] ++ numByte (endReasonNumber c.endReason) ++
    natBytes 2 c.head ++ natBytes 8 r.oldestIndex ++ optBytes 8 (natBytes 8) r.oldestTime ++
    optBytes 8 (natBytes 8) r.lastTime ++ natBytes 8 r.held ++
    listBytes 1 (fun e => numByte e.1.val ++ natBytes 8 e.2) c.podLost ++ listBytes 1 (fun e => numByte e.val) c.degradedPods ++
    allFour.flatMap (fun i => natBytes 2 (c.frames.get i) ++ natBytes 2 (c.errors.get i)) ++ natBytes 4 c.expired ++
    natBytes 4 c.truncated ++ flagByte [c.thresholdEdited] ++ flagByte [c.damaged] ++ flagByte [c.discard] ++
    retainByte c.retain

/-- The body of a CAPTURE_INFO answer (R79, log 14). -/
def infoBytes (r : InfoReport) : List Byte :=
  recordBytes r ++ natBytes 8 r.oldestIndex ++ optBytes 8 (natBytes 8) r.oldestTime ++
    optBytes 8 (natBytes 8) r.lastIndex ++ optBytes 8 (natBytes 8) r.lastTime ++ natBytes 8 r.writtenEnd ++
    listBytes 2 (natBytes 2) r.chain ++ optBytes 2 (natBytes 2) r.record.trigBlock ++ natBytes 4 r.record.firstGen.toNat ++
    natBytes 4 r.record.lastGen.toNat ++ numByte (match r.engine with | some e => engineNumber e | none => 0)

/-- A change record as READ_RECORDS returns it: 16 bytes (R187). -/
def readRecBytes (x : ReadRec) : List Byte :=
  natBytes 8 x.first ++ natBytes 4 x.word.toNat ++ natBytes 2 (x.run - 1) ++ numByte x.damaged.toNat ++ numByte 0

/-- A match list in its bit form (R188). -/
def matchListNat (x : List Nat) : Nat := ((List.range 16).map fun i => if x.contains i then 2 ^ i else 0).sum

/-- An event record: 40 bytes (R188). -/
def eventBytes (x : Event) : List Byte :=
  natBytes 8 x.seq ++ numByte x.cap.slot.val ++ numByte x.lane.val ++ natBytes 2 x.cap.num ++
    numByte (eventKindNumber x.kind) ++ [x.attrs] ++ natBytes 2 x.frame ++ intBytes 8 x.start ++ intBytes 8 x.stop ++
    natBytes 4 (x.value.getD 0) ++ numByte (errKindNumber x.err) ++ numByte (x.bits.getD 0) ++
    natBytes 2 (matchListNat x.matched)

/-- One channel's two bytes of a column item (R189). -/
def columnEntryBytes (x : ColumnEntry) : List Byte :=
  numByte (viewLevelNumber x.start + 4 * viewLevelNumber x.stop) ++ numByte x.count

/-- A render item (R189). -/
def itemBytes : Item → List Byte
  | .column j void beyond damaged entries =>
    numByte 1 ++ flagByte [void, beyond, damaged] ++ natBytes 2 j ++ entries.flatMap columnEntryBytes
  | .annotation seq lane kind value startCol endCol clipL clipR =>
    numByte 2 ++ flagByte [clipL, clipR] ++ numByte lane.val ++ numByte (eventKindNumber kind) ++ natBytes 2 startCol ++
      natBytes 2 endCol ++ natBytes 8 seq ++ natBytes 4 (value.getD 0)

/-- The descriptor values (R1): 36 bytes and a presence byte each for the model text and the serial. -/
def descriptorBytes (d : Descriptor) : List Byte :=
  pick (d.kind == .standard) ++ intBytes 2 d.rangeMin ++ intBytes 2 d.rangeMax ++ intBytes 2 d.gain ++
    intBytes 2 d.offset ++ natBytes 1 d.latency ++ d.trims.toList.flatMap (intBytes 1) ++ optBytes 16 id d.model ++
    optBytes 8 id d.serial

/-- The body of a POD_INFO answer (R15). MODEL'S CHOICE (log 14): the descriptor values are one optional record, with one presence
byte before them and zeros at their full length when the record is not READY or DEGRADED. -/
def podBytes (r : PodReport) : List Byte :=
  numByte (podStateNumber r.record.state) ++ numByte (degradeNumber r.record.reason) ++ natBytes 1 r.record.attempts ++
    optBytes 44 descriptorBytes r.record.desc ++ intBytes 2 r.record.requested ++ natBytes 2 r.record.code ++
    flagByte [r.record.rangeClamped, r.record.codeClamped] ++ r.skews.flatMap (intBytes 1) ++ flagByte [r.lost]

/-- An error location (R53). -/
def errLocBytes (x : ErrLoc) : List Byte :=
  natBytes 2 x.block ++ natBytes 2 x.record ++ pick (x.kind == .correctable)

/-- The vendor text, 8 bytes (R181). -/
def vendorText : List Byte := [0x48, 0x41, 0x46, 0x56, 0x45, 0x4C, 0x54, 0x00]

/-- The part text, 8 bytes (R181). -/
def partText : List Byte := [0x4E, 0x42, 0x4C, 0x33, 0x32, 0x34, 0x30, 0x00]

/-- The body of an IDENT answer (R181). -/
def identBytes (p : Port) (timebase : Nat) : List Byte :=
  vendorText ++ partText ++ numByte 1 ++ pick (p == .a) ++ natBytes 8 timebase ++ numByte 32 ++ numByte 4 ++
    natBytes 2 2048 ++ numByte 4 ++ natBytes 2 8192 ++ numByte 4

/-- The body of an answer, by R179 and the rule that gives the answer. -/
def Answer.body : Answer → List Byte
  | .plain _ => []
  | .ident p t => identBytes p t
  | .planRead x gen => encodeContents x ++ natBytes 4 gen.toNat
  | .edited gen => natBytes 4 gen.toNat
  | .stale gen => natBytes 4 gen.toNat
  | .noSection sec => [sec]
  | .fieldRange sec field number gen =>
    numByte (sectionNumber sec) ++ numByte field ++ optBytes 1 numByte number ++ natBytes 4 gen.toNat
  | .editActive e gen => numByte (engineNumber e) ++ natBytes 4 gen.toNat
  | .editBusy lane st gen => numByte lane.val ++ numByte (laneStateNumber st) ++ natBytes 4 gen.toNat
  | .armed name gen => nameBytes name ++ natBytes 4 gen.toNat
  | .armRefused r => r.detail
  | .status r => statusBytes r
  | .captureList x => x.toList.flatMap listEntryBytes
  | .captureInfo r => infoBytes r
  | .records oldest written trimmed atEnd recs =>
    natBytes 8 oldest ++ natBytes 8 written ++ flagByte [trimmed, atEnd] ++ listBytes 1 readRecBytes recs
  | .events evs missed backlog nextSeq =>
    listBytes 1 eventBytes evs ++ natBytes 2 missed ++ natBytes 2 backlog ++ natBytes 8 nextSeq
  | .seek noneFound cursor backlog => flagByte [noneFound] ++ natBytes 8 cursor ++ natBytes 2 backlog
  | .threshold value backlog => natBytes 2 value ++ natBytes 2 backlog
  | .renderStarted skews oldest last =>
    listBytes 1 (intBytes 1) skews ++ optBytes 8 (natBytes 8) oldest ++ optBytes 8 (natBytes 8) last
  | .renderInvalid f => renderFaultBytes f
  | .items list st lastEnd nextCol remaining =>
    listBytes 1 itemBytes list ++ numByte (renderStateNumber st) ++ numByte (renderEndNumber lastEnd) ++
      optBytes 2 (natBytes 2) nextCol ++ numByte remaining
  | .notices set enables => noticeBytes set ++ noticeBytes enables
  | .enabled enables set => noticeBytes enables ++ noticeBytes set
  | .pod r => podBytes r
  | .health correctable uncorrectable loc test =>
    natBytes 2 correctable ++ natBytes 2 uncorrectable ++ optBytes 5 errLocBytes loc ++ numByte (testNumber test)
  | .retainedBy caps => listBytes 1 nameBytes caps

/-- The response frame that a FETCH drives: header and body (R187). -/
def responseFrame (tag : Byte) (overrun : Bool) (x : Answer) : List Byte :=
  [0xA5, tag] ++ numByte (statusCode x.statusOf) ++ flagByte [overrun] ++ natBytes 2 x.body.length ++ x.body

end Sys2Proof.Machine
end

