-- ==== Sys2Proof/Machine/Ports.lean ====
section
/-! DEFINITION. The service ports: power-on reset, transactions, and the requests that the port controllers answer
(11_service_ports.md, R175 to R178, R181 to R186). -/

namespace Sys2Proof.Machine

open Sys2Proof

/-! ## Power-on (R186) -/

/-- The pods at power-on: the sense lines are as the pins hold them, and a line that reads present starts its
debounce (R2, R3, log 8). -/
def State.podsAtReset (s : State) : Quad Pod := numbered.map fun i => Pod.reset (s.pods.get i).sense

/-- NRST: every block goes to its power-on state and the timebase restarts at 0; the input pins and the queue are not
the part's to change (R2, R18, R19, R55, R57, R80, R105, R137, R149, R167, R186, log 8). -/
def execNrst (s : State) : Host.Outcome State Fault Refusal :=
  .next ((((State.reset.setPods s.podsAtReset).setTrg (.reset s.trg.inLevel)).setFreeIx s.freeIx).setPending s.pending)

/-! ## Transactions (R175 to R178) -/

/-- What the port drives in a transaction after the kind byte. -/
def State.drive (s : State) (p : Port) (bytes : List Byte) : State := s.setPort p { s.ports.get p with driven := bytes }

/-- A frame comes to a FREE slot (R176): dropped with an incomplete header, answered UNKNOWN or MALFORMED by the port
controller, or held as TAKEN. -/
def State.receive (s : State) (p : Port) (bytes : List Byte) : State :=
  match decodeFrame p bytes with
  | none => s
  | some (tag, .unknown) => s.answer p tag (.plain .unknown)
  | some (tag, .malformed) => s.answer p tag (.plain .malformed)
  | some (_, .request c) => s.setPort p { s.ports.get p with slot := .taken c }

/-- The slot is FREE. -/
def Slot.isFree : Slot → Bool
  | .free => true
  | _ => false

/-- The bytes after a SEND kind: the part drives zeros; the frame is received by a FREE slot, and otherwise discarded with the
overrun flag set (R175, R176, R177). -/
def State.sendBytes (s : State) (p : Port) (bytes : List Byte) : State :=
  let s := s.drive p (zeros bytes.length)
  if (s.ports.get p).slot.isFree then s.receive p bytes else s.discardFrame p

/-- The first `n` bytes of what a FETCH drives: the frame and then zeros (R178). -/
def drivenBytes (frame : List Byte) (n : Nat) : List Byte := frame.take n ++ zeros (n - frame.length)

/-- The `n` bytes clocked after a FETCH kind: in ANSWERED the response is driven, and it is read when every byte of it has
been clocked; in FREE or TAKEN zeros are driven and nothing changes (R178). -/
def State.fetchBytes (s : State) (p : Port) (n : Nat) : State :=
  let x := s.ports.get p
  match x.slot with
  | .answered tag a =>
    let frame := responseFrame tag x.overrun a
    let x := { x with driven := drivenBytes frame n }
    if frame.length ≤ n then s.setPort p { x with slot := .free, overrun := false } else s.setPort p x
  | _ => s.drive p (zeros n)

/-- A transaction: its first byte is its kind, and the kind decides what becomes of the bytes that follow (R175). The bytes
after a FETCH kind are ignored but for their number; after another kind all of them are, and zeros are driven. -/
def State.transaction (s : State) (p : Port) (kind : Byte) (bytes : List Byte) : State :=
  match transactionKind kind with
  | .send => s.sendBytes p bytes
  | .fetch => s.fetchBytes p bytes.length
  | .other => s.drive p (zeros bytes.length)

/-- SEND_TRANSACTION: a transaction of kind 0x01 (R175, R176). -/
def execSendTransaction (p : Port) (bytes : List Byte) (s : State) : Host.Outcome State Fault Refusal :=
  .next (s.transaction p sendKind bytes)

/-- FETCH_TRANSACTION: a transaction of kind 0x02 in which `n` more bytes are clocked (R175, R178). -/
def execFetchTransaction (p : Port) (n : Nat) (s : State) : Host.Outcome State Fault Refusal :=
  .next (s.transaction p fetchKind (zeros n))

/-- OTHER_KIND_TRANSACTION: a transaction by its kind byte; with neither of the two kinds its bytes are ignored (R175). -/
def execOtherKindTransaction (p : Port) (kind : Byte) (bytes : List Byte) (s : State) : Host.Outcome State Fault Refusal :=
  .next (s.transaction p kind bytes)

/-! ## Requests of the port controllers (R181, R182) -/

/-- IDENT (R181). -/
def execIdent (p : Port) (tag : Byte) (s : State) : Host.Outcome State Fault Refusal :=
  s.request (.ident p tag) p tag fun s => (s, .ident p s.timebase)

/-- The answer to NOTICE_READ: both sets, and the notice set is emptied (R182). -/
def noticeReadAnswer (p : Port) (s : State) : State × Answer :=
  let x := s.ports.get p
  (s.setPort p { x with notices := 0 }, .notices x.notices x.enables)

/-- NOTICE_READ (R182). -/
def execNoticeRead (p : Port) (tag : Byte) (s : State) : Host.Outcome State Fault Refusal :=
  s.request (.noticeRead p tag) p tag (noticeReadAnswer p)

/-- The answer to NOTICE_ENABLE (R182). -/
def noticeEnableAnswer (p : Port) (enables : BitVec 16) (s : State) : State × Answer :=
  if 4096 ≤ enables.toNat then (s, .plain .invalid)
  else
    let x := s.ports.get p
    (s.setPort p { x with enables := enables.setWidth 12 }, .enabled (enables.setWidth 12) x.notices)

/-- NOTICE_ENABLE (R182). -/
def execNoticeEnable (p : Port) (tag : Byte) (enables : BitVec 16) (s : State) : Host.Outcome State Fault Refusal :=
  s.request (.noticeEnable p tag enables) p tag (noticeEnableAnswer p enables)

/-! ## Resets (R183, R184) -/

/-- A port is removed from the retain set of every capture (R46). -/
def Store.dropRetains (x : Store) (p : Port) : Store :=
  { x with slots := x.slots.map fun c => c.map fun c => { c with retain := c.retain.set p false } }

/-- A port's EVL state after its PORT_RESET (R144). -/
def Evl.portReset (e : Evl) (p : Port) : Evl :=
  { e with port := e.port.set p { cursor := e.nextSeq, missed := 0, threshold := 1, primed := true } }

/-- The effects of PORT_RESET (R183). -/
def portResetAnswer (p : Port) (s : State) : State × Answer :=
  let s := ((s.setSto (s.sto.dropRetains p)).cancelRender p)
  let s := s.setEvl (s.evl.portReset p)
  (s.setPort p { s.ports.get p with notices := 0, enables := 0, overrun := false }, .plain .ok)

/-- PORT_RESET (R183). -/
def execPortReset (p : Port) (tag : Byte) (s : State) : Host.Outcome State Fault Refusal :=
  s.request (.portReset p tag) p tag (portResetAnswer p)

/-- The captures whose retain set holds a port (R184). -/
def Store.retainedBy (x : Store) (p : Port) : List CapName :=
  allFour.filterMap fun i =>
    match x.slots.get i with
    | some c => if c.retain.get p then some ⟨i, c.num⟩ else none
    | none => none

/-- EVL after an ENGINE_RESET (R144). -/
def Evl.engineReset (e : Evl) : Evl :=
  let clear := fun x : EventPort => { x with cursor := e.nextSeq, missed := 0, primed := true }
  { e with events := [], port := ⟨clear e.port.a, clear e.port.b⟩ }

/-- STO after an ENGINE_RESET: every block FREE, every slot EMPTY (R56). -/
def Store.engineReset (x : Store) : Store := { x with blocks := [], slots := .all none }

/-- ACQ after an ENGINE_RESET (R76). -/
def Acq.engineReset (x : Acq) : Acq := { x.release with repeatFlag := false, runCount := 0, halt := none }

/-- A port's render, if in progress, ends GONE with RENDER_ENDED (R165). -/
def State.resetRender (s : State) (p : Port) : State := if (s.vrn.ctx.get p).inProgress then s.renderGone p else s

/-- The effects of an ENGINE_RESET that is not refused (R184). -/
def State.engineReset (s : State) (p : Port) : State :=
  let s := (s.setAcq s.acq.engineReset).raise p.other .engineState
  let s := ((s.setSmp none).setTrg s.trg.toStandby).setLanes (.all .reset)
  let s := (s.setSto s.sto.engineReset).setEvl s.evl.engineReset
  let s := (s.resetRender .a).resetRender .b
  s.setPods (s.pods.map Pod.retune)

/-- The answer to ENGINE_RESET: RETAINED while the other port retains a capture (R184). -/
def engineResetAnswer (p : Port) (s : State) : State × Answer :=
  match s.sto.retainedBy p.other with
  | [] => (s.engineReset p, .plain .ok)
  | caps => (s, .retainedBy caps)

/-- ENGINE_RESET (R184). -/
def execEngineReset (p : Port) (tag : Byte) (s : State) : Host.Outcome State Fault Refusal :=
  s.request (.engineReset p tag) p tag (engineResetAnswer p)

end Sys2Proof.Machine
end

