-- ==== Sys2Proof/Machine/Dispatch.lean ====
section
/-! DEFINITION. The dispatch: one arm per command, one meaning each. -/

namespace Sys2Proof.Machine

open Sys2Proof

def exec (i : Instr) (s : State) : Host.Outcome State Fault Refusal :=
  match i with
  | .nrst => Sys2Proof.Machine.execNrst s
  | .sendTransaction p bytes => Sys2Proof.Machine.execSendTransaction p bytes s
  | .fetchTransaction p n => Sys2Proof.Machine.execFetchTransaction p n s
  | .otherKindTransaction p kind bytes => Sys2Proof.Machine.execOtherKindTransaction p kind bytes s
  | .ident p tag => Sys2Proof.Machine.execIdent p tag s
  | .planRead p tag section_ => Sys2Proof.Machine.execPlanRead p tag section_ s
  | .planEdit p tag section_ expected contents => Sys2Proof.Machine.execPlanEdit p tag section_ expected contents s
  | .arm p tag => Sys2Proof.Machine.execArm p tag s
  | .stop p tag => Sys2Proof.Machine.execStop p tag s
  | .force p tag => Sys2Proof.Machine.execForce p tag s
  | .abort p tag => Sys2Proof.Machine.execAbort p tag s
  | .status p tag => Sys2Proof.Machine.execStatus p tag s
  | .captureList p tag => Sys2Proof.Machine.execCaptureList p tag s
  | .captureInfo p tag slot num => Sys2Proof.Machine.execCaptureInfo p tag slot num s
  | .retain p tag slot num => Sys2Proof.Machine.execRetain p tag slot num s
  | .release p tag slot num => Sys2Proof.Machine.execRelease p tag slot num s
  | .readRecords p tag slot num start count => Sys2Proof.Machine.execReadRecords p tag slot num start count s
  | .eventsRead p tag count => Sys2Proof.Machine.execEventsRead p tag count s
  | .eventsSeek p tag target => Sys2Proof.Machine.execEventsSeek p tag target s
  | .eventsThreshold p tag threshold => Sys2Proof.Machine.execEventsThreshold p tag threshold s
  | .renderStart p tag slot num start width columns channels lanes => Sys2Proof.Machine.execRenderStart p tag slot num start width columns channels lanes s
  | .renderFetch p tag count => Sys2Proof.Machine.execRenderFetch p tag count s
  | .renderCancel p tag => Sys2Proof.Machine.execRenderCancel p tag s
  | .noticeRead p tag => Sys2Proof.Machine.execNoticeRead p tag s
  | .noticeEnable p tag enables => Sys2Proof.Machine.execNoticeEnable p tag enables s
  | .podInfo p tag pod => Sys2Proof.Machine.execPodInfo p tag pod s
  | .podRescan p tag pod => Sys2Proof.Machine.execPodRescan p tag pod s
  | .storeHealth p tag clear => Sys2Proof.Machine.execStoreHealth p tag clear s
  | .storeTest p tag kind => Sys2Proof.Machine.execStoreTest p tag kind s
  | .portReset p tag => Sys2Proof.Machine.execPortReset p tag s
  | .engineReset p tag => Sys2Proof.Machine.execEngineReset p tag s
  | .sensePresent pod t => Sys2Proof.Machine.execSensePresent pod t s
  | .debounceExpiry pod => Sys2Proof.Machine.execDebounceExpiry pod s
  | .podDetach pod t => Sys2Proof.Machine.execPodDetach pod t s
  | .descriptorReadDone pod bytes t => Sys2Proof.Machine.execDescriptorReadDone pod bytes t s
  | .addressNak pod t => Sys2Proof.Machine.execAddressNak pod t s
  | .clockHoldTimeout pod t => Sys2Proof.Machine.execClockHoldTimeout pod t s
  | .retryWaitExpiry pod => Sys2Proof.Machine.execRetryWaitExpiry pod s
  | .triggerInEdge level t => Sys2Proof.Machine.execTriggerInEdge level t s
  | .triggerOutPulseEnd => Sys2Proof.Machine.execTriggerOutPulseEnd s
  | .firstSample w => Sys2Proof.Machine.execFirstSample w s
  | .sample w => Sys2Proof.Machine.execSample w s
  | .armedEntry w => Sys2Proof.Machine.execArmedEntry w s
  | .withinExpiry w => Sys2Proof.Machine.execWithinExpiry w s
  | .stageSatisfied w => Sys2Proof.Machine.execStageSatisfied w s
  | .postDone w => Sys2Proof.Machine.execPostDone w s
  | .twoWireStall lane w => Sys2Proof.Machine.execTwoWireStall lane w s
  | .clockedIdleEnd lane w => Sys2Proof.Machine.execClockedIdleEnd lane w s
  | .asyncIdleEnd lane w => Sys2Proof.Machine.execAsyncIdleEnd lane w s
  | .biphaseIdleEnd lane w => Sys2Proof.Machine.execBiphaseIdleEnd lane w s
  | .drainLimit lane w => Sys2Proof.Machine.execDrainLimit lane w s
  | .finalWriteComplete => Sys2Proof.Machine.execFinalWriteComplete s
  | .columnItem => Sys2Proof.Machine.execColumnItem s
  | .annotationItem => Sys2Proof.Machine.execAnnotationItem s

end Sys2Proof.Machine
end

