-- ==== Sys2Proof/Machine/Step.lean ====
section
/-! DEFINITION. The step: the command at the front of the queue is executed; on an empty queue one nanosecond passes. -/

namespace Sys2Proof.Machine

open Sys2Proof

/-- One step. DESIGN CHOICE (log 1): with no command waiting the timebase counts one nanosecond (R18) and nothing else
changes, because everything else that time brings is a command of the table. -/
def step (s : State) : Host.Outcome State Fault Refusal :=
  match s.pending with
  | [] => .next (s.setTimebase (s.timebase + 1))
  | c :: rest => exec c (s.setPending rest)

/-- The state with the command that a table word spells at the front of its queue; unchanged where the word spells
none, as every word does: the table gives no row any bits. -/
def State.withFetchWord (s : State) (nbits w : Nat) : State :=
  match decodeTableWord nbits w with
  | some c => s.setPending (c :: s.pending)
  | none => s

end Sys2Proof.Machine
end

