-- ==== Sys2Proof/Safety.lean ====
section
/-! DEFINITION. The terms that claims are stated in: what a port holds, when a sample can be held, and the laws of the part that
hold in every state a run reaches. -/

namespace Sys2Proof.Machine

open Sys2Proof

/-! ## Requests and ports -/

/-- The port's slot holds the request, delivered by a SEND transaction and not yet answered (R176). -/
def State.holds (s : State) (p : Port) (c : Instr) : Prop := (s.ports.get p).slot = .taken c

/-- The port and tag of a request command; none for the other commands. -/
def requestOf : Instr → Option (Port × Byte)
  | .ident p tag => some (p, tag)
  | .planRead p tag _ => some (p, tag)
  | .planEdit p tag _ _ _ => some (p, tag)
  | .arm p tag => some (p, tag)
  | .stop p tag => some (p, tag)
  | .force p tag => some (p, tag)
  | .abort p tag => some (p, tag)
  | .status p tag => some (p, tag)
  | .captureList p tag => some (p, tag)
  | .captureInfo p tag _ _ => some (p, tag)
  | .retain p tag _ _ => some (p, tag)
  | .release p tag _ _ => some (p, tag)
  | .readRecords p tag _ _ _ _ => some (p, tag)
  | .eventsRead p tag _ => some (p, tag)
  | .eventsSeek p tag _ => some (p, tag)
  | .eventsThreshold p tag _ => some (p, tag)
  | .renderStart p tag _ _ _ _ _ _ _ => some (p, tag)
  | .renderFetch p tag _ => some (p, tag)
  | .renderCancel p tag => some (p, tag)
  | .noticeRead p tag => some (p, tag)
  | .noticeEnable p tag _ => some (p, tag)
  | .podInfo p tag _ => some (p, tag)
  | .podRescan p tag _ => some (p, tag)
  | .storeHealth p tag _ => some (p, tag)
  | .storeTest p tag _ => some (p, tag)
  | .portReset p tag => some (p, tag)
  | .engineReset p tag => some (p, tag)
  | _ => none

/-- The class is pending for both ports (R182). -/
def State.bothHave (s : State) (n : Notice) : Prop := ∀ q, s.hasNotice q n = true

/-- Neither port has gained or lost the class. -/
def State.sameNotice (s t : State) (n : Notice) : Prop := ∀ q, t.hasNotice q n = s.hasNotice q n

/-- The port on which a command comes in: that of a transaction or of a request; none for the other commands. -/
def portOf : Instr → Option Port
  | .sendTransaction p _ => some p
  | .fetchTransaction p _ => some p
  | .otherKindTransaction p _ _ => some p
  | c => (requestOf c).map Prod.fst

/-- What a step did to the ports: both notice sets gained the classes `ns` and nothing else of a port but its slot changed (R176,
R177, R182). -/
def State.portsGain (s t : State) (ns : List Notice) : Prop :=
  ∀ q, (∀ n, t.hasNotice q n = (s.hasNotice q n || ns.contains n)) ∧ (t.ports.get q).overrun = (s.ports.get q).overrun ∧
    (t.ports.get q).enables = (s.ports.get q).enables ∧ (t.ports.get q).driven = (s.ports.get q).driven

/-- The request of port `p` is answered, and the other port's slot is as it was (R176). -/
def State.answered (s t : State) (p : Port) (tag : Byte) (a : Answer) : Prop :=
  (t.ports.get p).slot = .answered tag a ∧ (t.ports.get p.other).slot = (s.ports.get p.other).slot

/-- Both slots are as they were. -/
def State.slotsKept (s t : State) : Prop := ∀ q, (t.ports.get q).slot = (s.ports.get q).slot

/-- Nothing of PRB, the timebase, the queue or the free choices changed. -/
def State.outsideKept (s t : State) : Prop :=
  t.timebase = s.timebase ∧ t.pods = s.pods ∧ t.pending = s.pending ∧ t.freeIx = s.freeIx

/-- TRG as STANDBY leaves it: the trigger-in level and the pulses stay (R81). -/
def Trg.standbyOf (x t : Trg) : Prop :=
  t = { state := .standby, run := none, pendingEntry := none, history := none, mark := none, inLevel := x.inLevel,
        pulses := x.pulses }

/-- Every lane is OFF with its frame number kept and nothing else held (R105). -/
def State.lanesOffOf (s t : State) : Prop :=
  ∀ l, t.lanes.get l = { state := .off, frame := (s.lanes.get l).frame, pend := [], ctx := none }

/-- The named capture is removed with all its consequences (R32, R45, R142, R143, R164): its blocks are FREE and its slot EMPTY, its
events have left the list with the missed counts of R143, its renders have ended GONE; the rest of STO and EVL and the
other renders are as they were. -/
def State.removed (s t : State) (name : CapName) : Prop :=
  (∀ n, lookupBlock t.sto.blocks n = (lookupBlock s.sto.blocks n).filter fun b => b.owner ≠ name) ∧
  t.sto = { s.sto with blocks := t.sto.blocks, slots := s.sto.slots.set name.slot none } ∧
  t.evl.events = (s.evl.events.filter fun e => e.cap ≠ name) ∧ t.evl.nextSeq = s.evl.nextSeq ∧
  (∀ q, t.evl.port.get q = { s.evl.port.get q with
    missed := min 65535 ((s.evl.port.get q).missed +
      (s.evl.events.filter fun e => e.cap = name ∧ (s.evl.port.get q).cursor ≤ e.seq).length) }) ∧
  (∀ q, t.vrn.ctx.get q = if (s.vrn.ctx.get q).names name then
    { state := .idle, render := none, queue := [], lastEnd := some .gone } else s.vrn.ctx.get q) ∧
  (∀ q, t.hasNotice q .renderEnded = (s.hasNotice q .renderEnded || (s.vrn.ctx.get q).names name))

/-- What a list of reads of the named capture's records did to the store and the ports, every check's consequence in order: the
counts, the last location, the marks of blocks and capture, STORE_ERROR for an uncorrectable one (R51, R52). -/
def State.readsNoted (s t : State) (name : CapName) (es : List ReadEntry) : Prop :=
  let hits := fun (k : ErrLocKind) => es.countP fun e => decide (e.check = some k)
  let bad := fun (n : Nat) => es.any fun e => e.block == n && decide (e.check = some .uncorrectable)
  t.sto.correctable = (if hits .correctable = 0 then s.sto.correctable else min 65535 (s.sto.correctable + hits .correctable)) ∧
  t.sto.uncorrectable =
    (if hits .uncorrectable = 0 then s.sto.uncorrectable else min 65535 (s.sto.uncorrectable + hits .uncorrectable)) ∧
  (hits .correctable = 0 → hits .uncorrectable = 0 → t.sto.lastErr = s.sto.lastErr) ∧
  (∀ before after e k, es = before ++ e :: after → e.check = some k → (∀ y ∈ after, y.check = none) →
    t.sto.lastErr = some (ErrLoc.mk e.block e.number k)) ∧
  (∀ n, lookupBlock t.sto.blocks n =
    (lookupBlock s.sto.blocks n).map fun b => if bad n then { b with damaged := true } else b) ∧
  (∀ c, s.sto.capture name = some c →
    t.sto.capture name = some (if hits .uncorrectable = 0 then c else { c with damaged := true })) ∧
  (∀ i, i ≠ name.slot → t.sto.slots.get i = s.sto.slots.get i) ∧ t.sto.nextNum = s.sto.nextNum ∧ t.sto.test = s.sto.test ∧
  ∀ q, t.hasNotice q .storeError = (s.hasNotice q .storeError || !(hits .uncorrectable == 0))

/-- The completion of an ARM, or of a re-arm, in slot `i` with first block `n`: the capture record, the block, the number counter, the
copies that TRG, the lanes and SMP take are as R63 and R37 lay down, and nothing but ACQ and the ports changes besides
(R21, R32, R36, R81, R104). MODEL'S CHOICE (log 24): the block's first index is held as 0 until sample 0 sets it. -/
def State.armsCapture (s t : State) (i : Four) (n : Nat) : Prop :=
  t.sto.slots.get i = some {
    num := s.sto.nextNum, complete := false, origin := none, div := s.acq.plan.acq.div, mask := s.acq.plan.acq.mask,
    mode := s.acq.plan.acq.mode, quota := s.acq.plan.acq.quota, firstGen := s.acq.gen, lastGen := s.acq.gen,
    trigTime := none, trigSource := none, trigBlock := none, shortPre := false, endReason := none, head := n, podLost := [],
    degradedPods := [0, 1, 2, 3].filter fun k =>
      maskHasPod s.acq.plan.acq.mask k && decide ((s.pods.get k).state = .degraded),
    frames := Quad.mk 0 0 0 0, errors := Quad.mk 0 0 0 0, expired := 0, truncated := 0, thresholdEdited := false,
    damaged := false, discard := false, retain := PerPort.mk false false } ∧
  (∀ j, j ≠ i → t.sto.slots.get j = s.sto.slots.get j) ∧
  lookupBlock t.sto.blocks n = some (Block.mk .filling (CapName.mk i s.sto.nextNum) 0 false none []) ∧
  (∀ m, m ≠ n → lookupBlock t.sto.blocks m = lookupBlock s.sto.blocks m) ∧
  t.sto.nextNum = (if s.sto.nextNum = 65535 then 1 else s.sto.nextNum + 1) ∧
  t.sto = { s.sto with blocks := t.sto.blocks, slots := t.sto.slots, nextNum := t.sto.nextNum } ∧
  t.smp = some {
    div := s.acq.plan.acq.div, mask := s.acq.plan.acq.mask, armDone := s.timebase, origin := none, next := 0, lost := [],
    run := none, prev := none } ∧
  t.trg = { s.trg with
    state := .gated, pendingEntry := none, history := none, mark := none
    run := some {
      table := s.acq.plan.trigger.stages.toList.take s.acq.plan.trigger.count, stage := 0, count := 0, entry := none,
      prevPrimary := false, prevSecondary := false } } ∧
  (∀ l, t.lanes.get l = {
    state :=
      if (s.acq.plan.lanes.get l).kind = .none then .off
      else if (s.acq.plan.lanes.get l).startHeld then .held else .hunt
    frame := 0
    pend := []
    ctx := some {
      cfg := s.acq.plan.lanes.get l, capture := CapName.mk i s.sto.nextNum, wordPos := 0, truncated := false,
      word := none, hunt := none, drainLimit := none, lastStart := none, kctx := KindCtx.cleared } }) ∧
  t.evl = s.evl ∧ t.vrn = s.vrn ∧ s.outsideKept t

/-- Slot `i` is EMPTY and no lower one is (R37, step 1). -/
def Store.firstEmpty (x : Store) (i : Four) : Prop := x.slots.get i = none ∧ ∀ j, j < i → x.slots.get j ≠ none

/-- Block `n` is FREE and no lower one is (R37, R39). -/
def Store.firstFree (x : Store) (n : Nat) : Prop :=
  n < 2048 ∧ lookupBlock x.blocks n = none ∧ ∀ m, m < n → lookupBlock x.blocks m ≠ none

/-- No block is FREE. -/
def Store.noneFree (x : Store) : Prop := ∀ m, m < 2048 → lookupBlock x.blocks m ≠ none

/-- Every pod with a masked channel of the plan is READY or DEGRADED (R62). -/
def State.podsReady (s : State) : Prop :=
  ∀ k, maskHasPod s.acq.plan.acq.mask k = true → (s.pods.get k).state = .ready ∨ (s.pods.get k).state = .degraded

/-- The pulses on the trigger-out line after one has begun that ends at `stop` (R98). -/
def Trg.pulsesWith (x : Trg) (stop : Nat) : List Nat := if stop ∈ x.pulses then x.pulses else x.pulses ++ [stop]

/-! ## Samples -/

/-- The state word of the next sample, from comparator outputs `w` (R22). -/
def Sampling.nextWord (x : Sampling) (w : ChannelWord) : ChannelWord := stateWord x.mask x.lost x.nextRaw w

/-- SMP is SAMPLING for the named capture, which is held and ACTIVE, and whose FILLING block has room, so that the next
sample is held whatever it brings (R25, R38). -/
def State.canHold (s : State) (x : Sampling) (name : CapName) (c : Capture) : Prop :=
  s.smp = some x ∧ s.acq.active = some name ∧ s.sto.capture name = some c ∧ c.complete = false ∧
    ∃ n b, s.sto.filling name = some (n, b) ∧ b.recordCount < Config.recordsPerBlock

/-- The sample step goes on as for a capture without a waiting STOP or FORCE, after sample 0 (R65, R68). -/
def State.plainSample (s : State) (x : Sampling) : Prop :=
  s.acq.stopPending = false ∧ s.acq.force = none ∧ 1 ≤ x.next

/-- The capture's counts of frames and errors fit their 16 bits (R34). -/
def Capture.countsFit (c : Capture) : Prop :=
  ∀ i, c.frames.get i ≤ Config.max16 ∧ c.errors.get i ≤ Config.max16

/-- No lane takes action on samples. -/
def State.lanesOff (s : State) : Prop := ∀ i, (s.lanes.get i).state = .off

/-- The lane is in a frame of the kind, with no request waiting, and the next sample repeats the last state word, so that
no channel changes on it. -/
def State.quietLane (s : State) (x : Sampling) (w : ChannelWord) (l : Four) (k : LaneCtx) : Prop :=
  (s.lanes.get l).ctx = some k ∧ (s.lanes.get l).pend = [] ∧ x.prev = some (x.nextWord w)

/-- The lane state after its frame has ended by itself: HELD from DRAINING, otherwise HUNT (R109). -/
def LaneState.afterFrame : LaneState → LaneState
  | .draining => .held
  | _ => .hunt

/-- The offers to TRG that the lanes make on a sample (R26, R88, R129). -/
def State.offersOn (s : State) (D : Nat) (it : SampleItem) : List (Four × Nat) :=
  let r := s.lanesHandle D it
  (s.allEffects (r.map fun x => x.1) (r.map fun x => x.2.1)).toList.flatMap fun x => x.offers

/-- The lanes after a sample, with the requests that their own events bring (R26, R113, R133). -/
def State.lanesAfterSample (s : State) (D : Nat) (it : SampleItem) : Quad Lane :=
  let r := s.lanesHandle D it
  lanesAfter (r.map fun x => x.1) (s.allEffects (r.map fun x => x.1) (r.map fun x => x.2.1)) it.index

/-- What the next sample brings to TRG (R26, R83, R84, R88). -/
def State.observedOn (s : State) (x : Sampling) (name : CapName) (w : ChannelWord) : Observed :=
  let it := x.item name (x.nextWord w)
  { it, history := s.trg.history
    arrival := (s.trg.state == .gated || s.trg.state == .seeking) && (match s.trg.mark with | some t => decide (t ≤ x.nextRaw) | none => false)
    offers := s.offersOn x.div it }

/-- A lane that has been given a hold, a release or both with index `n`; a lane that is OFF is not changed (R98, R106, R133). -/
def Lane.given (x : Lane) (hold release : Bool) (n : Nat) : Lane :=
  if x.state = .off then x
  else { x with pend := x.pend ++ (if hold then [LaneReq.mk true n] else []) ++ (if release then [LaneReq.mk false n] else []) }

/-- A lane that stage actions have given their holds and releases (R97, R98). -/
def Lane.actedOn (x : Lane) (l : Four) (a : StageActions) (n : Nat) : Lane :=
  x.given (match a.hold with | some m => m.getLsbD l.val | none => false)
    (match a.release with | some m => m.getLsbD l.val | none => false) n

/-! ## Lanes in and out of frames -/

/-- A time that lies a given length back at `raw`; none does not. -/
def timedOut (since : Option Nat) (length raw : Nat) : Bool :=
  match since with
  | some e => decide (e + length ≤ raw)
  | none => false

/-- The lane is IN_FRAME, or DRAINING with its limit not reached at `raw` (R109). -/
def Lane.goesOn (x : Lane) (c : LaneCtx) (raw : Nat) : Bool :=
  x.state == .inFrame || (x.state == .draining && !timedOut c.drainLimit 0 raw)

/-- The bits held in the word in progress (R105). -/
def LaneCtx.bits (c : LaneCtx) : List Bool := match c.word with | some v => v.bits | none => []

/-- The time of the first bit of the word in progress, which is `t` when no bit is held yet (R105). -/
def LaneCtx.firstBit (c : LaneCtx) (t : Nat) : Nat := match c.word with | some v => v.first | none => t

/-- The context with one more bit, of time `t`, in the word in progress (R105). -/
def LaneCtx.withBit (c : LaneCtx) (b : Bool) (t : Nat) : LaneCtx := { c with word := some { bits := c.bits ++ [b], first := c.firstBit t } }

/-- The position of the word that completes next (R110). -/
def LaneCtx.nextPos (c : LaneCtx) : Nat := min 65535 (c.wordPos + 1)

/-- The context after a word has completed (R110, R111). -/
def LaneCtx.afterWord (c : LaneCtx) : LaneCtx :=
  { c with word := none, wordPos := c.nextPos, truncated := c.truncated || c.nextPos == c.cfg.limit + 1 }

/-- What a completed word emits: the word up to the limit, ERROR(LONG) for the next, nothing beyond (R111). -/
def LaneCtx.wordEvents (c : LaneCtx) (frame : Nat) (kind : EventKind) (value : Nat) (attrs : BitVec 8) (t0 t1 : Nat) :
    List Emission :=
  if c.nextPos ≤ c.cfg.limit then [Emission.mk kind frame c.nextPos (some value) attrs none none t0 t1]
  else if c.nextPos = c.cfg.limit + 1 then [Emission.mk .error frame c.nextPos none 0 (some .long) none t0 t1]
  else []

/-- ERROR(SHORT_WORD) for a word in progress of at least `least` bits, at `t` (R116, R117). -/
def LaneCtx.shortWord (c : LaneCtx) (frame : Nat) (msbFirst : Bool) (least t : Nat) : List Emission :=
  if 1 ≤ c.bits.length ∧ least ≤ c.bits.length then
    [Emission.mk .error frame c.wordPos (some (bitsValue msbFirst c.bits)) 0 (some .shortWord) (some c.bits.length) (c.firstBit t) t]
  else []

/-- An event of the lane's frame without a value, at `t` (R110). -/
def LaneCtx.plainEvent (c : LaneCtx) (frame : Nat) (kind : EventKind) (attrs : BitVec 8) (err : Option ErrKind) (t : Nat) : Emission :=
  Emission.mk kind frame c.wordPos none attrs err none t t

/-- The STOP of the lane's frame, with TRUNCATED when the flag is set (R111). -/
def LaneCtx.stopEvent (c : LaneCtx) (frame t : Nat) : Emission := c.plainEvent frame .stop (if c.truncated then 0x80 else 0) none t

/-- The context after the lane's frame has ended by itself, from the given state (R105, R108, R109). -/
def LaneCtx.leftFrame (c : LaneCtx) (st : LaneState) (basis : HuntBasis) : LaneCtx :=
  { c with word := none, kctx := .cleared, drainLimit := none, hunt := if st = .draining then none else some basis }

/-- The context with which a frame opens, before its first bit (R105, R110). -/
def LaneCtx.opened (c : LaneCtx) (k : KindCtx) : LaneCtx :=
  { c with wordPos := 0, truncated := false, word := none, hunt := none, kctx := k }

/-- A lane on which a frame has opened, with START at `t` (R110). -/
def Lane.openedAt (x : Lane) (c : LaneCtx) (t : Nat) : Lane × List Emission × List Happening :=
  let frame := (x.frame + 1) % 65536
  ({ x with state := .inFrame, frame := frame, ctx := some c }, [Emission.mk .start frame 0 none 0 none none t t], [])

/-- The block after a sample that repeats the current run: its open record, the last one, is one sample longer (R24, R25, R38). -/
def Block.extended (b : Block) : Block :=
  { b with records := b.records.dropLast ++ (b.records.getLast?.map fun y => { y with run := y.run + 1 }).toList }

/-! ## The frames that a capture's end cuts off -/

/-- The lanes that are in a frame, IN_FRAME or DRAINING, with the context of each (R70, R105, R123). -/
def cutFrames (lanes : Quad Lane) : List (Four × LaneCtx) :=
  ([0, 1, 2, 3] : List Four).filterMap fun l =>
    match (lanes.get l).ctx with
    | some k => if (lanes.get l).state = .inFrame ∨ (lanes.get l).state = .draining then some (l, k) else none
    | none => none

/-- The PARTIAL of a lane whose frame is cut off at the sample of raw time `raw` (R123): the frame number, the word position as its
value, TRUNCATED where the flag is set, and both times that sample's, less the skew of the lane's time channel and no
earlier than the lane's last start (R113); it is not tested against a match list (R110). -/
def State.partialEvent (s : State) (lanes : Quad Lane) (raw seq : Nat) (f : Four × LaneCtx) : Event :=
  let k := f.2
  let skew := s.skewOf (if k.cfg.kind = .twoWire ∨ k.cfg.kind = .clocked then k.cfg.clock else k.cfg.data)
  let time := match k.lastStart with | some y => max y ((raw : Int) - skew) | none => (raw : Int) - skew
  { seq, cap := k.capture, lane := f.1, kind := .partialFrame, frame := (lanes.get f.1).frame, start := time, stop := time,
    value := some k.wordPos, attrs := if k.truncated then 0x80 else 0, err := none, bits := none, matched := [] }

/-- The event starts no earlier than the oldest held time of its capture, so that it is not already expired (R139). -/
def Store.stillHeld (x : Store) (c : Capture) (e : Event) : Bool :=
  match c.origin with
  | some o => decide (((o + x.oldestIndex c * c.div : Nat) : Int) ≤ e.start)
  | none => true

/-- What the end of the named capture, from `c` to `c'`, at raw time `raw` does with the frames open on `lanes`: every lane in a frame counts
one more frame and hands its PARTIAL on; where the list has room, the PARTIALs that are not already expired stand at the end of the
list, one for each lane, in an order that R138 leaves open (log 9), each expired one is counted as such, each port's ready
state is checked when one is entered, and nothing else of EVL or VRN changes. With no lane in a frame EVL is as it was
(R70, R112, R113, R123, R138, R139, R145). -/
def State.partialsEntered (s t : State) (lanes : Quad Lane) (name : CapName) (c c' : Capture) (raw : Nat) : Prop :=
  let cut := cutFrames lanes
  let kept := cut.filter fun f => t.sto.stillHeld c' (s.partialEvent lanes raw 0 f)
  (∀ l, c'.frames.get l = min 65535 (c.frames.get l + if l ∈ cut.map Prod.fst then 1 else 0)) ∧
  (∀ l, c'.errors.get l = min 65535 (c.errors.get l)) ∧
  ((∀ f ∈ cut, f.2.capture = name) →
    s.evl.events.length + kept.length ≤ 8192 →
    (∃ order : List (Four × LaneCtx), order.Perm kept ∧
      t.evl.events = s.evl.events ++ order.zipIdx.map fun f => s.partialEvent lanes raw (s.evl.nextSeq + f.2) f.1) ∧
    t.evl.nextSeq = s.evl.nextSeq + kept.length ∧
    c'.expired = (if kept = cut then c.expired else min 4294967295 (c.expired + (cut.length - kept.length))) ∧
    c'.truncated = c.truncated ∧
    (∀ q,
      let p := s.evl.port.get q
      let reached := kept ≠ [] ∧ p.threshold ≤ (t.evl.events.filter fun e => p.cursor ≤ e.seq).length
      t.evl.port.get q = { p with primed := p.primed && !decide reached } ∧
      t.hasNotice q .eventsReady = (s.hasNotice q .eventsReady || (p.primed && decide reached))) ∧
    t.vrn = s.vrn ∧ t.freeIx = s.freeIx + (cut.length - 1))

/-- The record that is placed next, of one sample with the word: a pending store-test request corrupts it, SINGLE in channel 0 and
DOUBLE in channels 0 and 1 (R38, R54). -/
def Store.newRecord (x : Store) (word : ChannelWord) : Rec :=
  Rec.mk word 1 (match x.test with | none => 0 | some .single => 0b1 | some .double => 0b11)

/-- The records of a block as they were written, each with its first sample index (R23, R31). -/
def plainRecords : Nat → List Rec → List ReadRec
  | _, [] => []
  | first, r :: rest => { first := first, word := r.word, run := r.run, damaged := false } :: plainRecords (first + r.run) rest

/-- The engine is TRIGGERED, no STOP waits, and the next sample lies before the post end time, so that the capture goes on
(R67). -/
def State.runsOn (s : State) (x : Sampling) : Prop :=
  s.acq.engine = .triggered ∧ s.acq.stopPending = false ∧ ∃ e, s.acq.postEnd = some e ∧ x.nextRaw < e

/-- What the sample step from `s` to `t` leaves of the holding of its sample, `u` being `s` after the sample is held (R25, R26): the
capture's blocks, its head and its origin as in `u`, and the store-test request. With no lane at work only the capture's own
record may still change in STO, and EVL and VRN are as in `u`; where the capture runs on too, nothing but the timebase, SMP and
TRG's history and trigger-in mark changes after the holding. -/
def State.deliveredFrom (s u t : State) (x : Sampling) (name : CapName) (c : Capture) (word : ChannelWord) : Prop :=
  t.timebase = max s.timebase x.nextRaw ∧ t.sto.filling name = u.sto.filling name ∧
  (∀ k b, b.owner = name → (lookupBlock t.sto.blocks k = some b ↔ lookupBlock u.sto.blocks k = some b)) ∧
  t.sto.test = u.sto.test ∧
  (∃ d d', u.sto.capture name = some d ∧ t.sto.capture name = some d' ∧ d'.head = d.head ∧ d'.origin = d.origin) ∧
  (s.lanesOff →
    t.sto = { u.sto with slots := t.sto.slots } ∧ (∀ i, i ≠ name.slot → t.sto.slots.get i = u.sto.slots.get i) ∧
    t.evl = u.evl ∧ t.vrn = u.vrn ∧
    (c.countsFit → s.runsOn x →
      t = ((u.setTimebase (max s.timebase x.nextRaw)).setSmp (some (x.held word))).setTrg
        { s.trg with history := t.trg.history, mark := t.trg.mark }))

/-! ## Renders -/

/-- The event is due as an annotation of the render's next column (R160, R161), with exact offsets in 1/256 ns. -/
def Render.due (r : Render) (e : Event) : Prop :=
  let a := 256 * (e.start - (r.start : Int))
  let b := 256 * (e.stop - (r.start : Int))
  e.cap = r.cap ∧ r.lanes.getLsbD e.lane.val = true ∧ 0 ≤ b ∧ a < (r.columns : Int) * (r.width : Int) ∧
    (if 0 ≤ a then a / (r.width : Int) = (r.nextCol : Int) else r.nextCol = 0) ∧ ∀ m, r.mark = some m → m < e.seq

/-- The first event of the list, which is in sequence order (R137), that is due as an annotation (R161). -/
def Evl.firstDue (x : Evl) (r : Render) (e : Event) : Prop :=
  ∃ before after, x.events = before ++ e :: after ∧ (∀ f ∈ before, ¬ r.due f) ∧ r.due e

/-- The words of a capture's held samples, oldest first (R23). -/
def Store.samples (x : Store) (c : Capture) : List ChannelWord :=
  (x.chain c).flatMap fun e => e.2.records.flatMap fun r => List.replicate r.run r.word

/-- The capture's chain is as R31 and R33 lay down, with no flipped bit: every record holds a sample, and each block starts
where the one before it ends. -/
def Store.cleanChain (x : Store) (c : Capture) : Prop :=
  (∀ e ∈ x.chain c, ∀ r ∈ e.2.records, r.flips = 0 ∧ 1 ≤ r.run) ∧
    ∀ (i : Nat) (a b : Nat × Block), (x.chain c)[i]? = some a → (x.chain c)[i + 1]? = some b → a.2.endIndex = b.2.first

/-! ## The event list's ports -/

/-- What a request of EVL that leaves the port's cursor, missed count and threshold as in `x` makes of the part (R145): the ready
state is PRIMED exactly when the backlog is below the threshold, and EVENTS_READY is raised when a PRIMED port's backlog
is not. -/
def State.afterEventRequest (s : State) (p : Port) (x : EventPort) : State :=
  let backlog := (s.evl.events.filter fun e => x.cursor ≤ e.seq).length
  let s' := s.setEvl { s.evl with port := s.evl.port.set p { x with primed := decide (backlog < x.threshold) } }
  if x.primed && decide (x.threshold ≤ backlog) then s'.raise p .eventsReady else s'

/-! ## Values in range (R82, R103, R126, R168) -/

def AcqPlan.ranged (x : AcqPlan) : Bool :=
  (1 ≤ x.div && x.div ≤ 16777216) && x.mask != 0 && x.pre ≤ maxPlanTime && x.post ≤ maxPlanTime &&
    (1 ≤ x.quota && x.quota ≤ 2048)

def ProbePlan.ranged (x : ProbePlan) : Bool :=
  (x.thresholds.toList.all fun v => decide (-6000 ≤ v ∧ v ≤ 6000)) && x.userSkews.toList.all fun v => decide (-32 ≤ v ∧ v ≤ 31)

def Cond.ranged : Cond → Bool
  | .pulse c _ lo hi => c ≤ 31 && lo ≤ maxPlanTime && hi ≤ maxPlanTime
  | .laneMatch _ e => e ≤ 15
  | _ => true

def StageTimer.ranged : StageTimer → Bool
  | .none => true
  | .within l => 1 ≤ l && l ≤ maxPlanTime
  | .after l => 1 ≤ l && l ≤ maxPlanTime

def Target.ranged : Target → Bool
  | .stage k => k ≤ 7
  | .trigger => true

def Stage.ranged (x : Stage) : Bool :=
  x.primary.ranged && (match x.secondary with | some c => c.ranged | none => true) &&
    (1 ≤ x.required && x.required ≤ 65535) && x.timer.ranged && (match x.fail with | some k => k ≤ 7 | none => true) &&
    x.success.ranged

def TriggerPlan.ranged (x : TriggerPlan) : Bool := (1 ≤ x.count && x.count ≤ 8) && x.stages.toList.all Stage.ranged

def LaneCfg.ranged (x : LaneCfg) : Bool :=
  x.clock ≤ 31 && x.data ≤ 31 && (match x.select with | some c => c ≤ 31 | none => true) &&
    (4 ≤ x.wordSize && x.wordSize ≤ 32) && (1 ≤ x.bitPeriod && x.bitPeriod ≤ 4000000000) &&
    (5 ≤ x.dataBits && x.dataBits ≤ 9) && (1 ≤ x.stopBits && x.stopBits ≤ 2) &&
    (1 ≤ x.halfCell && x.halfCell ≤ 2000000000) && (1 ≤ x.limit && x.limit ≤ 255) &&
    (64 ≤ x.timeout && x.timeout ≤ 4000000000)

def MatchEntry.ranged (x : MatchEntry) : Bool :=
  match x.field with
  | .wordAt p => 1 ≤ p && p ≤ 255
  | _ => true

/-! ## Fields out of range (R168, R171) -/

/-- The first of a row of checks that fails: its field, with the number of its pod, channel, stage, lane or entry (R171). -/
def firstBad (checks : List (Bool × Nat × Option Nat)) : Option (Nat × Option Nat) := (checks.find? fun x => !x.1).map Prod.snd

/-- The fields of the ACQ section with their ranges (R168). -/
def acqFields (bs : List Byte) : List (Bool × Nat × Option Nat) :=
  [(1 ≤ fieldAt bs 0 4 && fieldAt bs 0 4 ≤ 16777216, 1, none), (fieldAt bs 4 4 != 0, 2, none),
   (fieldAt bs 8 1 == 1 || fieldAt bs 8 1 == 2, 3, none), (fieldAt bs 9 1 == 1 || fieldAt bs 9 1 == 2, 4, none),
   (fieldAt bs 10 8 < 2 ^ 40, 5, none), (fieldAt bs 18 8 < 2 ^ 40, 6, none), (1 ≤ fieldAt bs 26 2 && fieldAt bs 26 2 ≤ 2048, 7, none)]

/-- The fields of the PROBE section with their ranges (R168). -/
def probeFields (bs : List Byte) : List (Bool × Nat × Option Nat) :=
  ((List.range 4).map fun k => (decide (-6000 ≤ signedAt bs (2 * k) 2 ∧ signedAt bs (2 * k) 2 ≤ 6000), 1, some k)) ++
    (List.range 32).map fun c => (decide (-32 ≤ signedAt bs (8 + c) 1 ∧ signedAt bs (8 + c) 1 ≤ 31), 2, some c)

/-- The 35 bytes of a condition hold a kind and values in range for its parameters (R82). -/
def condFits (bs : List Byte) (off : Nat) : Bool :=
  match fieldAt bs off 1 with
  | 1 => fieldAt bs (off + 9) 1 == 1 || fieldAt bs (off + 9) 1 == 2
  | 2 => 1 ≤ fieldAt bs (off + 14) 1 && fieldAt bs (off + 14) 1 ≤ 3
  | 3 => fieldAt bs (off + 15) 1 ≤ 31 && (fieldAt bs (off + 16) 1 == 1 || fieldAt bs (off + 16) 1 == 2) &&
      fieldAt bs (off + 17) 8 < 2 ^ 40 && fieldAt bs (off + 25) 8 < 2 ^ 40
  | 4 => fieldAt bs (off + 33) 1 ≤ 3 && fieldAt bs (off + 34) 1 ≤ 15
  | 5 => true
  | _ => false

/-- The bytes of a set of actions: no flag above `flags`, and a set of lanes for each of the two actions of the set that carry one
(R82, R126, R179). -/
def actionsFit (bs : List Byte) (off flags hold release : Nat) : Bool :=
  fieldAt bs off 1 < flags && (!(fieldAt bs off 1).testBit hold || fieldAt bs (off + 1) 1 < 16) &&
    (!(fieldAt bs off 1).testBit release || fieldAt bs (off + 2) 1 < 16)

/-- The fields of stage record `k` with their ranges (R82). -/
def stageFields (bs : List Byte) (off k : Nat) : List (Bool × Nat × Option Nat) :=
  let use := fieldAt bs (off + 74) 1
  [(condFits bs off, 2, some k),
   (fieldAt bs (off + 35) 1 == 0 || (fieldAt bs (off + 35) 1 == 1 && condFits bs (off + 36)), 3, some k),
   (1 ≤ fieldAt bs (off + 71) 1 && fieldAt bs (off + 71) 1 ≤ 4, 4, some k), (1 ≤ fieldAt bs (off + 72) 2, 5, some k),
   (1 ≤ use && use ≤ 3, 6, some k),
   (use == 1 || (1 ≤ fieldAt bs (off + 75) 8 && fieldAt bs (off + 75) 8 < 2 ^ 40), 7, some k),
   (fieldAt bs (off + 83) 1 == 0 || (fieldAt bs (off + 83) 1 == 1 && fieldAt bs (off + 84) 1 ≤ 7), 8, some k),
   ((fieldAt bs (off + 85) 1 == 1 && fieldAt bs (off + 86) 1 ≤ 7) || fieldAt bs (off + 85) 1 == 2, 9, some k),
   (actionsFit bs (off + 87) 16 1 2, 10, some k)]

/-- The fields of the TRIGGER section with their ranges: the stage count, then all eight stage records (R168, R171). -/
def triggerFields (bs : List Byte) : List (Bool × Nat × Option Nat) :=
  (1 ≤ fieldAt bs 0 1 && fieldAt bs 0 1 ≤ 8, 1, none) :: (List.range 8).flatMap fun k => stageFields bs (1 + 90 * k) k

/-- The fields of lane record `k` with their ranges (R103); its periods take 4 bytes each (log 29), its timeout 8. -/
def laneFields (bs : List Byte) (off k : Nat) : List (Bool × Nat × Option Nat) :=
  let f := fun o n => fieldAt bs (off + o) n
  let two := fun o => f o 1 == 1 || f o 1 == 2
  [(1 ≤ f 0 1 && f 0 1 ≤ 5, 1, some k), (f 1 1 ≤ 31, 2, some k), (f 2 1 ≤ 31, 3, some k),
   (f 3 1 == 0 || (f 3 1 == 1 && f 4 1 ≤ 31), 4, some k), (two 5, 5, some k), (two 6, 6, some k),
   (4 ≤ f 7 1 && f 7 1 ≤ 32, 7, some k), (1 ≤ f 8 4 && f 8 4 ≤ 4000000000, 8, some k), (5 ≤ f 12 1 && f 12 1 ≤ 9, 9, some k),
   (1 ≤ f 13 1 && f 13 1 ≤ 3, 10, some k), (two 14, 11, some k), (two 15, 12, some k),
   (1 ≤ f 16 4 && f 16 4 ≤ 2000000000, 13, some k), (two 20, 14, some k), (1 ≤ f 21 1, 15, some k),
   (64 ≤ f 22 8 && f 22 8 ≤ 4000000000, 16, some k), (two 30, 17, some k)]

/-- The fields of the LANES section with their ranges (R168). -/
def lanesFields (bs : List Byte) : List (Bool × Nat × Option Nat) := (List.range 4).flatMap fun k => laneFields bs (31 * k) k

/-- The fields of match entry `k` with their ranges (R126). -/
def entryFields (bs : List Byte) (off k : Nat) : List (Bool × Nat × Option Nat) :=
  [(fieldAt bs off 1 == 1 || (fieldAt bs off 1 == 2 && 1 ≤ fieldAt bs (off + 1) 1) || fieldAt bs off 1 == 3, 3, some k),
   (1 ≤ fieldAt bs (off + 10) 1 && fieldAt bs (off + 10) 1 ≤ 3, 6, some k), (actionsFit bs (off + 11) 32 3 4, 7, some k)]

/-- The fields of one lane's match list with their ranges: the lane, the entry count, the entries (R168, R171). -/
def matchFields (bs : List Byte) : List (Bool × Nat × Option Nat) :=
  (fieldAt bs 0 1 ≤ 3, 1, none) :: (fieldAt bs 1 1 ≤ 16, 2, none) ::
    (List.range (fieldAt bs 1 1)).flatMap fun k => entryFields bs (2 + 14 * k) k

/-! ## Laws -/

/-- The law of the engine (R58) with the presence of ACQ's, SMP's and TRG's fields (R19, R57, R80, R81): at most one capture
is ACTIVE, the engine is IDLE exactly when none is, and the active capture field names it. -/
def State.engineLaw (s : State) : Prop :=
  (match s.acq.active with
   | none => s.acq.engine = .idle ∧ ∀ i c, s.sto.slots.get i = some c → c.complete = true
   | some name => s.acq.engine ≠ .idle ∧ (∃ c, s.sto.capture name = some c ∧ c.complete = false) ∧
       ∀ i c, s.sto.slots.get i = some c → c.complete = false → i = name.slot) ∧
  (s.acq.copy.isSome ↔ s.acq.engine ≠ .idle) ∧
  (s.smp.isSome ↔ s.acq.engine.sampling = true) ∧
  (∀ x, s.smp = some x → x.next = 0 → s.acq.engine = .arming) ∧
  (s.acq.armedAt.isSome → s.acq.engine = .arming) ∧
  (s.acq.force.isSome → s.acq.engine = .arming ∨ s.acq.engine = .armed) ∧
  (s.acq.engine = .triggered → s.acq.postEnd.isSome) ∧
  (s.acq.postEnd.isSome → s.acq.engine = .triggered ∨ s.acq.engine = .stopping) ∧
  (match s.acq.engine with
   | .arming => s.trg.state = .gated
   | .armed => s.trg.state = .seeking
   | .triggered => s.trg.state = .declared
   | _ => s.trg.state = .standby)

/-- The law of the store and the law of held events, with what keeps them (R31, R33, R139): every block belongs to a held capture, every
held capture's head block is its own and no chain leaves its capture, at most one block is FILLING and it is the ACTIVE
capture's; every listed event belongs to a held capture with an origin and starts no earlier than its oldest held time. -/
def State.heldLaw (s : State) : Prop :=
  s.engineLaw ∧ s.sto.wf = true ∧
  (∀ n b, lookupBlock s.sto.blocks n = some b → s.sto.capture b.owner ≠ none ∧
    (b.state = .filling → s.acq.active = some b.owner) ∧
    ∀ m, b.next = some m → ∃ y, lookupBlock s.sto.blocks m = some y ∧ y.owner = b.owner) ∧
  (∀ m n x y, lookupBlock s.sto.blocks m = some x → lookupBlock s.sto.blocks n = some y → x.state = .filling →
    y.state = .filling → m = n) ∧
  (∀ i c, s.sto.slots.get i = some c → ∃ b, lookupBlock s.sto.blocks c.head = some b ∧ b.owner = CapName.mk i c.num) ∧
  (∀ e ∈ s.evl.events, ∃ c o, s.sto.capture e.cap = some c ∧ c.origin = some o ∧
    ((o + s.sto.oldestIndex c * c.div : Nat) : Int) ≤ e.start) ∧
  (∀ l k, (s.lanes.get l).ctx = some k → s.acq.active = some k.capture ∧ s.smp ≠ none) ∧
  ∀ x name c, s.smp = some x → s.acq.active = some name → s.sto.capture name = some c →
    (c.origin = none ↔ x.next = 0) ∧
    ∀ n b, s.sto.filling name = some (n, b) → b.records = [] → b.first = x.next ∧ x.run = none

/-- The law of sequence (R137): sequence numbers strictly increase in list order and stay below the next sequence, each
port's cursor lies between 1 and the next sequence, and the list holds at most 8192 events. -/
def Evl.lawful (e : Evl) : Prop :=
  (e.events.Pairwise fun x y => x.seq < y.seq) ∧ (∀ x ∈ e.events, 1 ≤ x.seq ∧ x.seq < e.nextSeq) ∧
    (∀ p, 1 ≤ (e.port.get p).cursor ∧ (e.port.get p).cursor ≤ e.nextSeq) ∧ e.events.length ≤ Config.eventCapacity

/-- One render context is as R149 and R150 lay down: no queue longer than 64, nothing held in IDLE, columns left in
RUNNING and WAITING, a full queue in WAITING, items left in FINISHED. -/
def RenderCtx.lawful (x : RenderCtx) : Prop :=
  x.queue.length ≤ Config.queueCapacity ∧
  (match x.state with
   | .idle => x.render = none ∧ x.queue = []
   | .running => ∃ r, x.render = some r ∧ r.nextCol < r.columns
   | .waiting => (∃ r, x.render = some r ∧ r.nextCol < r.columns) ∧ x.queue.length = Config.queueCapacity
   | .finished => (∃ r, x.render = some r ∧ r.nextCol = r.columns) ∧ x.queue ≠ [])

/-- The renderer's law (R154): the turn is held by a RUNNING context, and the renderer rests only when none is RUNNING. -/
def Vrn.lawful (v : Vrn) : Prop :=
  (∀ p, (v.ctx.get p).lawful) ∧
  (match v.turn with
   | some p => (v.ctx.get p).state = .running
   | none => ∀ p, (v.ctx.get p).state ≠ .running)

/-- A pod record is as R1 lays down: descriptor values in READY and DEGRADED alone, a reason in DEGRADED alone, a code of
12 bits, an attempt count of at most 4, and the pod bus in use in IDENTIFYING alone, with a start condition made in an attempt
and a stop condition before a retry wait (R6, R7; held as log 19 says). -/
def Pod.lawful (x : Pod) : Prop :=
  (x.desc.isSome ↔ x.state = .ready ∨ x.state = .degraded) ∧ (x.reason.isSome ↔ x.state = .degraded) ∧
    x.code ≤ 4095 ∧ x.attempts ≤ Config.maxAttempts ∧ (x.state = .absent → x.attempts = 0) ∧
    (match x.bus with
     | .quiet => x.state ≠ .identifying
     | .attempt _ => x.state = .identifying ∧ 1 ≤ x.attempts ∧ x.exchange = [.start]
     | .retryWait _ => x.state = .identifying ∧ 1 ≤ x.attempts ∧ x.attempts < Config.maxAttempts ∧
         x.exchange.getLast? = some .stop) ∧
    (x.debounce.isSome → x.state = .absent ∧ x.sense = true)

/-- A lane is as R105 lays down: a lane without a context is OFF, a drain limit stands in DRAINING alone, a hunt basis in HUNT
alone, and frame number and word position fit 16 bits. -/
def Lane.lawful (x : Lane) : Prop :=
  x.frame ≤ Config.max16 ∧
  (match x.ctx with
   | none => x.state = .off
   | some k => (k.drainLimit.isSome ↔ x.state = .draining) ∧ (k.hunt.isSome → x.state = .hunt) ∧ k.wordPos ≤ Config.max16)

end Sys2Proof.Machine
end

