-- ==== Sys2Proof/Certificates/Slice0/Obligations.lean ====
section
/-! DEFINITION. The statements for the provers. Each docstring names the rules or sections of the spec it formalises; where a
clause is the model's own choice, it names the log entry. -/

open Sys2Proof Sys2Proof.Machine

/-! ## The queue and the whole machine -/

/-- A step runs the command at the front of the queue, with the queue's rest in place (log 1). -/
def Obligations.StepRunsFrontCommand : Prop :=
  ∀ (c : Instr) (rest : List Instr) (s : State), step (s.setPending (c :: rest)) = exec c (s.setPending rest)

/-- The part stops for nothing: every command, in every state, answers a next state; no command touches the queue of the commands
behind it (log 1); the timebase never runs back but at power-on, and a request leaves it unchanged (R18). MODEL'S CHOICES: a
transaction takes no time either (log 2); with no command waiting, a step is one nanosecond of the timebase and nothing
else (log 1). -/
def Obligations.EveryCommandCompletes : Prop :=
  (∀ (c : Instr) (s : State), ∃ t, exec c s = .next t ∧ t.pending = s.pending) ∧
  (∀ s : State, s.pending = [] → step s = .next (s.setTimebase (s.timebase + 1))) ∧
  (∀ (c : Instr) (s t : State), c ≠ .nrst → exec c s = .next t →
      s.timebase ≤ t.timebase ∧ ((portOf c).isSome → t.timebase = s.timebase))

/-- MODEL'S CHOICE (log 6): a request command whose frame the slot does not hold brings its own frame. A FREE slot receives
and answers it at once, as MALFORMED where the body does not fit; a slot that holds anything else discards it with the
overrun flag set (R176, R177 for the frame it brings). -/
def Obligations.RequestsWithoutTheirFrame : Prop :=
  ∀ (c : Instr) (p : Port) (tag : Byte) (s : State), requestOf c = some (p, tag) → ¬ s.holds p c →
    exec c s =
      if (s.ports.get p).slot = .free then
        if bodyFits c = true then exec c (s.setPort p { s.ports.get p with slot := .taken c })
        else .next (s.setPort p { s.ports.get p with slot := .answered tag (.plain .malformed) })
      else .next (s.setPort p { s.ports.get p with overrun := true })

/-- The law of the generation (R173): only a PLAN_EDIT changes the plan generation, by exactly one, and power-on sets it to 1;
the plan changes with it and at no other time. -/
def Obligations.GenerationLaw : Prop :=
  ∀ (c : Instr) (s t : State), exec c s = .next t →
    (t.acq.gen = s.acq.gen ∧ t.acq.plan = s.acq.plan) ∨
    (t.acq.gen = s.acq.gen + 1 ∧ ∃ p tag sec expected contents, c = .planEdit p tag sec expected contents ∧ expected = s.acq.gen) ∨
    (c = .nrst ∧ t.acq.gen = 1)

/-- A port's slot, overrun flag, enable set and driven bytes change by that port's own transactions and requests and by
power-on alone, and a pending notice of a port is lost by that port's own requests and by power-on alone (R176, R177,
R182, R184). -/
def Obligations.OtherPortUntouched : Prop :=
  ∀ (c : Instr) (q : Port) (s t : State), portOf c ≠ some q → c ≠ .nrst → exec c s = .next t →
    (t.ports.get q).slot = (s.ports.get q).slot ∧ (t.ports.get q).overrun = (s.ports.get q).overrun ∧
      (t.ports.get q).enables = (s.ports.get q).enables ∧ (t.ports.get q).driven = (s.ports.get q).driven ∧
      ∀ n, s.hasNotice q n = true → t.hasNotice q n = true

/-! ## Laws kept by every step -/

/-- Every step keeps the law of the engine (R58), with the presence of ACQ's, SMP's and TRG's fields (R19, R57, R81). -/
def Obligations.EngineLawKept : Prop := ∀ s t : State, s.engineLaw → step s = .next t → t.engineLaw

/-- Every step keeps the law of sequence of the event list (R137), and the block map in its canonical form: block numbers strictly
rising and below 2048 (R31). -/
def Obligations.ListFormsKept : Prop :=
  (∀ s t : State, s.evl.lawful → step s = .next t → t.evl.lawful) ∧
  (∀ s t : State, s.sto.wf = true → step s = .next t → t.sto.wf = true)

/-- What the store and the event list hold together: every step keeps, and the state after reset meets, the law of held events and
the ownership of blocks: every block that is not FREE belongs to a held capture, a capture's head block and the blocks that
its chain leads to are its own, at most one block is FILLING and it is the ACTIVE capture's; and every listed event belongs
to a held capture that has its origin and starts no earlier than that capture's oldest held time (R31, R33, R139, R141, R142). An
empty FILLING block's first index is that of the next sample; MODEL'S CHOICE (log 24): before sample 0 it is held as 0. -/
def Obligations.HeldLawsKept : Prop := (∀ s t : State, s.heldLaw → step s = .next t → t.heldLaw) ∧ State.reset.heldLaw

/-- Every step keeps the render contexts and the renderer's turn lawful (R149, R150, R154, R162, R163). MODEL'S CHOICE (log 28): in
FINISHED the next column is the column count. -/
def Obligations.RenderLawKept : Prop := ∀ s t : State, s.vrn.lawful → step s = .next t → t.vrn.lawful

/-- Every step keeps every pod record lawful (R1, R3, R7, R9), and every lane (R105, R109, R110). MODEL'S CHOICE (log 19): what the pod
bus is held as, so that an attempt holds its start condition alone and a retry wait the signs that end with a stop
condition. -/
def Obligations.PodAndLaneLawsKept : Prop :=
  (∀ s t : State, (∀ i, (s.pods.get i).lawful) → step s = .next t → ∀ i, (t.pods.get i).lawful) ∧
  (∀ s t : State, (∀ i, (s.lanes.get i).lawful) → step s = .next t → ∀ i, (t.lanes.get i).lawful)

/-- The laws hold in the state after reset. -/
def Obligations.LawsHoldAtReset : Prop :=
  State.reset.engineLaw ∧ State.reset.evl.lawful ∧ State.reset.vrn.lawful ∧ (∀ i, (State.reset.pods.get i).lawful) ∧
    (∀ i, (State.reset.lanes.get i).lawful) ∧ State.reset.sto.wf = true

/-- A retained COMPLETE capture survives every command but the retaining port's own RELEASE of it, PORT_RESET and ENGINE_RESET,
and power-on: it is held, COMPLETE and retained by that port afterwards (the law of retention of R46; R40, R184). -/
def Obligations.RetainedCaptureSurvives : Prop :=
  ∀ (c : Instr) (s t : State) (name : CapName) (x : Capture) (q : Port), s.engineLaw → s.sto.capture name = some x →
    x.complete = true → x.retain.get q = true → c ≠ .nrst →
    (∀ tag slot num, c = .release q tag slot num → ¬ (slot.toNat = name.slot.val ∧ num.toNat = name.num)) →
    (∀ tag, c ≠ .portReset q tag) → (∀ tag, c ≠ .engineReset q tag) → exec c s = .next t →
    ∃ x', t.sto.capture name = some x' ∧ x'.complete = true ∧ x'.retain.get q = true

/-! ## Service ports -/

/-- NRST: the timebase is 0, every block is at its power-on values, and both ports are FREE, without overrun, with empty sets
(R2, R18, R19, R55, R57, R80, R105, R137, R149, R167, R186). The sense lines and the trigger-in level are input pins, and a
line that reads present starts its debounce (R2, log 8). MODEL'S CHOICES: a port has driven no bytes yet (log 7); the
model's own counter of free choices is kept (log 9), as its queue is. -/
def Obligations.PowerOn : Prop :=
  ∀ s : State, ∃ t, exec .nrst s = .next t ∧ t.timebase = 0 ∧ t.smp = none ∧ t.sto = Store.reset ∧ t.acq = Acq.reset ∧
    t.lanes = .all .reset ∧ t.evl = Evl.reset ∧ t.vrn = Vrn.reset ∧ t.pending = s.pending ∧ t.freeIx = s.freeIx ∧
    (∀ p, t.ports.get p = { slot := .free, overrun := false, notices := 0, enables := 0, driven := [] }) ∧
    (∀ i, (t.pods.get i).state = .absent ∧ (t.pods.get i).reason = none ∧ (t.pods.get i).desc = none ∧
      (t.pods.get i).requested = 1400 ∧ (t.pods.get i).code = 2048 ∧ (t.pods.get i).rangeClamped = false ∧
      (t.pods.get i).codeClamped = false ∧ (t.pods.get i).attempts = 0 ∧ (t.pods.get i).sense = (s.pods.get i).sense ∧
      (t.pods.get i).bus = .quiet ∧ (t.pods.get i).debounce = if (s.pods.get i).sense then some 0 else none) ∧
    t.trg.state = .standby ∧ t.trg.run = none ∧ t.trg.pendingEntry = none ∧ t.trg.history = none ∧ t.trg.mark = none ∧
    t.trg.pulses = [] ∧ t.trg.inLevel = s.trg.inLevel ∧ t.acq.gen = 1

/-- A transaction by its kind byte: 0x01 is SEND and 0x02 FETCH, and with another the bytes are ignored and zeros are driven (R175).
A SEND that finds the slot TAKEN or ANSWERED is discarded whole and sets the overrun flag. One that finds it FREE: with an
incomplete header nothing but the driven zeros comes of it; an unknown code is answered UNKNOWN and a short body MALFORMED,
with the tag echoed; a frame that spells a request is held as TAKEN (R176, R177). A FETCH that clocks the whole response out
drives it, then zeros, frees the slot and clears the overrun flag; one that ends early drives what was clocked and leaves
the response to be fetched again; one without a response waiting drives zeros and changes nothing else (R178). MODEL'S
CHOICES: a transaction is one command, with what it drove held afterwards, and no byte is no transaction (log 7); it takes
no time (log 2). -/
def Obligations.Transactions : Prop :=
  (∀ (p : Port) (kind : Byte) (bytes : List Byte), decodeTransaction p [] = none ∧
    decodeTransaction p (kind :: bytes) = some (
      if kind = 0x01 then .sendTransaction p bytes
      else if kind = 0x02 then .fetchTransaction p bytes.length
      else .otherKindTransaction p kind bytes)) ∧
  (∀ (p : Port) (kind : Byte) (bytes : List Byte) (s : State),
    (kind = 0x01 → exec (.otherKindTransaction p kind bytes) s = exec (.sendTransaction p bytes) s) ∧
    (kind = 0x02 → exec (.otherKindTransaction p kind bytes) s = exec (.fetchTransaction p bytes.length) s) ∧
    (kind ≠ 0x01 → kind ≠ 0x02 → exec (.otherKindTransaction p kind bytes) s =
      .next (s.setPort p { s.ports.get p with driven := List.replicate bytes.length 0 }))) ∧
  (∀ (p : Port) (bytes : List Byte) (s : State), (s.ports.get p).slot ≠ .free →
    exec (.sendTransaction p bytes) s = .next (s.setPort p { s.ports.get p with
      driven := List.replicate bytes.length 0, overrun := true })) ∧
  (∀ (p : Port) (bytes : List Byte) (s : State), (s.ports.get p).slot = .free →
    exec (.sendTransaction p bytes) s = .next (s.setPort p { s.ports.get p with
      driven := List.replicate bytes.length 0
      slot :=
        if bytes.length < 4 then .free
        else if (byteAt bytes 0).toNat = 0 ∨ 27 < (byteAt bytes 0).toNat then .answered (byteAt bytes 1) (.plain .unknown)
        else if bytes.length < 4 + fieldAt bytes 2 2 then .answered (byteAt bytes 1) (.plain .malformed)
        else match decodeRequest p (byteAt bytes 0) (byteAt bytes 1) ((bytes.drop 4).take (fieldAt bytes 2 2)) with
          | .request c => .taken c
          | .malformed => .answered (byteAt bytes 1) (.plain .malformed)
          | .unknown => .answered (byteAt bytes 1) (.plain .unknown) })) ∧
  (∀ (p : Port) (n : Nat) (tag : Byte) (a : Answer) (s : State), (s.ports.get p).slot = .answered tag a →
      ((responseFrame tag (s.ports.get p).overrun a).length ≤ n →
        exec (.fetchTransaction p n) s = .next (s.setPort p { s.ports.get p with
          slot := .free
          overrun := false
          driven := responseFrame tag (s.ports.get p).overrun a ++
            List.replicate (n - (responseFrame tag (s.ports.get p).overrun a).length) 0 })) ∧
      (n < (responseFrame tag (s.ports.get p).overrun a).length →
        exec (.fetchTransaction p n) s = .next (s.setPort p { s.ports.get p with
          driven := (responseFrame tag (s.ports.get p).overrun a).take n }))) ∧
  (∀ (p : Port) (n : Nat) (s : State), (∀ tag a, (s.ports.get p).slot ≠ .answered tag a) →
    exec (.fetchTransaction p n) s = .next (s.setPort p { s.ports.get p with driven := List.replicate n 0 }))

/-- Which request each of the 27 codes spells, with every field of its body in its place, most significant byte first (R179, R180):
the requests of fixed length, PLAN_EDIT with its section, generation and contents, EVENTS_SEEK with each of its targets,
RENDER_START with its counted channel list. A body of another length is MALFORMED, and a code that is not one of the 27 is
UNKNOWN. A response frame opens with 0xA5, the tag, the status code, the OVERRUN bit and the body length; an event record
takes 40 bytes, a change record 16, an annotation item 20, a column item 4 and 2 for each channel (R187, R188, R189).
MODEL'S CHOICES: the generation in a PLAN_EDIT of a section without meaning that is too short to hold one is open (log 10);
a target without meaning takes any body (log 11); a stage record takes 90 bytes, so the contents of a TRIGGER edit are 721
(log 12); a CAPTURE_LIST entry takes 29 bytes for every slot (log 14); the contents of a LANES edit are 124 bytes (log 29). -/
def Obligations.WireForms : Prop :=
  (∀ (p : Port) (tag : Byte) (body : List Byte) (code len : Nat),
      (code, len) ∈ [(1, 0), (2, 1), (4, 0), (5, 0), (6, 0), (7, 0), (8, 0), (9, 0), (10, 3), (11, 3), (12, 3), (13, 12), (14, 1),
        (16, 2), (18, 1), (19, 0), (20, 0), (21, 2), (22, 1), (23, 1), (24, 1), (25, 1), (26, 0), (27, 0)] →
      (body.length ≠ len → decodeRequest p (BitVec.ofNat 8 code) tag body = .malformed) ∧
      (body.length = len → ∃ c, decodeRequest p (BitVec.ofNat 8 code) tag body = .request c ∧ requestOf c = some (p, tag))) ∧
  (∀ (p : Port) (tag x y : Byte) (num : BitVec 16) (start width : BitVec 64) (columns : BitVec 16) (gen : BitVec 32)
      (list : List Byte),
    let spells := fun (code : Byte) (body : List Byte) (c : Instr) => decodeRequest p code tag body = .request c
    let name := x :: beBytes 2 num.toNat
    spells 1 [] (.ident p tag) ∧ spells 2 [x] (.planRead p tag x) ∧ spells 4 [] (.arm p tag) ∧ spells 5 [] (.stop p tag) ∧
    spells 6 [] (.force p tag) ∧ spells 7 [] (.abort p tag) ∧ spells 8 [] (.status p tag) ∧ spells 9 [] (.captureList p tag) ∧
    spells 10 name (.captureInfo p tag x num) ∧ spells 11 name (.retain p tag x num) ∧ spells 12 name (.release p tag x num) ∧
    spells 13 (name ++ beBytes 8 start.toNat ++ [y]) (.readRecords p tag x num start y) ∧ spells 14 [x] (.eventsRead p tag x) ∧
    spells 15 (1 :: name) (.eventsSeek p tag (.firstOf x num)) ∧
    spells 15 (2 :: (name ++ beBytes 8 start.toNat)) (.eventsSeek p tag (.atTime x num start)) ∧
    spells 15 [3] (.eventsSeek p tag .newest) ∧
    (y ≠ 1 → y ≠ 2 → y ≠ 3 → spells 15 (y :: list) (.eventsSeek p tag (.other y list))) ∧
    spells 16 (beBytes 2 num.toNat) (.eventsThreshold p tag num) ∧
    (list.length ≤ 255 → spells 17 (name ++ beBytes 8 start.toNat ++ beBytes 8 width.toNat ++ beBytes 2 columns.toNat ++
      BitVec.ofNat 8 list.length :: list ++ [y]) (.renderStart p tag x num start width columns list y)) ∧
    spells 18 [x] (.renderFetch p tag x) ∧ spells 19 [] (.renderCancel p tag) ∧ spells 20 [] (.noticeRead p tag) ∧
    spells 21 (beBytes 2 num.toNat) (.noticeEnable p tag num) ∧ spells 22 [x] (.podInfo p tag x) ∧
    spells 23 [x] (.podRescan p tag x) ∧ spells 24 [x] (.storeHealth p tag x) ∧ spells 25 [x] (.storeTest p tag x) ∧
    spells 26 [] (.portReset p tag) ∧ spells 27 [] (.engineReset p tag) ∧
    (let fits := match x.toNat with
        | 1 => list.length = 28
        | 2 => list.length = 40
        | 3 => list.length = 721
        | 4 => list.length = 124
        | 5 => 2 ≤ list.length ∧ list.length = 2 + 14 * (byteAt list 1).toNat
        | _ => True
      (fits → spells 3 (x :: beBytes 4 gen.toNat ++ list) (.planEdit p tag x gen list)) ∧
      (¬ fits → decodeRequest p 3 tag (x :: beBytes 4 gen.toNat ++ list) = .malformed))) ∧
  (∀ (p : Port) (tag x : Byte) (body : List Byte),
    decodeRequest p 3 tag [] = .malformed ∧ decodeRequest p 15 tag [] = .malformed ∧
    (body.length < 4 → 1 ≤ x.toNat → x.toNat ≤ 5 → decodeRequest p 3 tag (x :: body) = .malformed) ∧
    (body.length < 4 → (x.toNat = 0 ∨ 5 < x.toNat) →
      ∃ gen, decodeRequest p 3 tag (x :: body) = .request (.planEdit p tag x gen [])) ∧
    (body.length ≠ 3 → decodeRequest p 15 tag (1 :: body) = .malformed) ∧
    (body.length ≠ 11 → decodeRequest p 15 tag (2 :: body) = .malformed) ∧
    (body ≠ [] → decodeRequest p 15 tag (3 :: body) = .malformed) ∧
    (body.length ≠ 23 + (byteAt body 21).toNat → decodeRequest p 17 tag body = .malformed) ∧
    ((x.toNat = 0 ∨ 27 < x.toNat) → decodeRequest p x tag body = .unknown)) ∧
  (∀ (tag : Byte) (overrun : Bool) (a : Answer), (responseFrame tag overrun a).length = 6 + a.body.length ∧
    (responseFrame tag overrun a).take 6 =
      [0xA5, tag, BitVec.ofNat 8 (statusCode a.statusOf), if overrun then 1 else 0] ++ beBytes 2 a.body.length) ∧
  (∀ e : Event, (eventBytes e).length = 40) ∧ (∀ r : ReadRec, (readRecBytes r).length = 16) ∧
  (∀ seq lane kind value i j l r, (itemBytes (.annotation seq lane kind value i j l r)).length = 20) ∧
  (∀ j v b d entries, (itemBytes (.column j v b d entries)).length = 4 + 2 * entries.length) ∧
  (∀ x : Option ListEntry, (listEntryBytes x).length = 29) ∧
  (listEntryBytes none = [0, 0, 1] ++ List.replicate 26 0) ∧
  (∀ x : ListEntry, (listEntryBytes (some x)).take 3 = beBytes 2 x.record.num ++ [if x.record.complete then 3 else 2])

/-- IDENT is answered OK with the vendor and part texts, the revision, the port, the timebase and the capacities, in every
state; it changes no state (R181). -/
def Obligations.IdentAnswer : Prop :=
  ∀ (p : Port) (tag : Byte) (s : State), s.holds p (.ident p tag) →
    exec (.ident p tag) s = .next (s.setPort p { s.ports.get p with slot := .answered tag (.ident p s.timebase) }) ∧
    (Answer.ident p s.timebase).statusOf = .ok ∧
    (Answer.ident p s.timebase).body =
      [0x48, 0x41, 0x46, 0x56, 0x45, 0x4C, 0x54, 0, 0x4E, 0x42, 0x4C, 0x33, 0x32, 0x34, 0x30, 0, 1, if p = .a then 1 else 2] ++
        beBytes 8 s.timebase ++ [32, 4, 8, 0, 4, 0x20, 0, 4]

/-- NOTICE_READ answers both sets and empties the notice set; NOTICE_ENABLE refuses a set with any of bits 12 to 15, and
otherwise takes the set and answers both; neither touches the other port (R182). -/
def Obligations.NoticeRequests : Prop :=
  (∀ (p : Port) (tag : Byte) (s : State), s.holds p (.noticeRead p tag) →
    exec (.noticeRead p tag) s = .next (s.setPort p { s.ports.get p with
      notices := 0, slot := .answered tag (.notices (s.ports.get p).notices (s.ports.get p).enables) })) ∧
  (∀ (p : Port) (tag : Byte) (e : BitVec 16) (s : State), s.holds p (.noticeEnable p tag e) →
    (4096 ≤ e.toNat → exec (.noticeEnable p tag e) s =
      .next (s.setPort p { s.ports.get p with slot := .answered tag (.plain .invalid) })) ∧
    (e.toNat < 4096 → exec (.noticeEnable p tag e) s = .next (s.setPort p { s.ports.get p with
      enables := e.setWidth 12, slot := .answered tag (.enabled (e.setWidth 12) (s.ports.get p).notices) }))) ∧
  (∀ (p : Port) (s : State), s.noticeLine p = true ↔ ∃ n, s.hasNotice p n = true ∧ (s.ports.get p).enables.getLsbD (noticeBit n))

/-- PORT_RESET is answered OK and acts on its port alone: its retains, its render (CANCELLED, without RENDER_ENDED), its event
list state, its sets and its overrun flag (R183). -/
def Obligations.PortResetEffects : Prop :=
  ∀ (p : Port) (tag : Byte) (s : State), s.holds p (.portReset p tag) →
    ∃ t, exec (.portReset p tag) s = .next t ∧
      t.ports = s.ports.set p { s.ports.get p with
        slot := .answered tag (.plain .ok), overrun := false, notices := 0, enables := 0 } ∧
      (∀ i, t.sto.slots.get i = (s.sto.slots.get i).map fun c => { c with retain := c.retain.set p false }) ∧
      t.sto = { s.sto with slots := t.sto.slots } ∧
      t.evl = { s.evl with port := s.evl.port.set p (EventPort.mk s.evl.nextSeq 0 1 true) } ∧
      t.vrn.ctx.get p.other = s.vrn.ctx.get p.other ∧ t.vrn.ctx.get p =
        (if (s.vrn.ctx.get p).state = .idle then s.vrn.ctx.get p
         else { state := .idle, render := none, queue := [], lastEnd := some .cancelled }) ∧
      t.timebase = s.timebase ∧ t.pods = s.pods ∧ t.smp = s.smp ∧ t.acq = s.acq ∧ t.trg = s.trg ∧ t.lanes = s.lanes ∧
      t.freeIx = s.freeIx ∧ t.pending = s.pending

/-- ENGINE_RESET is refused with RETAINED, naming the captures, while the other port retains any (R184). One that is not refused
leaves the engine IDLE with ENGINE_STATE to the other port, no capture and no block held, the event list empty with both
cursors at the next sequence, TRG in STANDBY, the lanes OFF, both renders ended GONE with RENDER_ENDED and the renderer at
rest, and the code of every READY or DEGRADED pod computed again; the plan, the counters, the rest of every pod record, the
enable sets, the other classes of both notice sets, the overrun flags and the other port's slot are kept (R184, R2, R12,
R56, R76, R105, R144, R165). -/
def Obligations.EngineResetEffects : Prop :=
  (∀ (p : Port) (tag : Byte) (s : State), s.holds p (.engineReset p tag) →
      (∃ i c, s.sto.slots.get i = some c ∧ c.retain.get p.other = true) →
      ∃ caps, exec (.engineReset p tag) s = .next (s.setPort p { s.ports.get p with slot := .answered tag (.retainedBy caps) }) ∧
        ∀ name, name ∈ caps ↔ ∃ c, s.sto.slots.get name.slot = some c ∧ c.num = name.num ∧ c.retain.get p.other = true) ∧
  (∀ (p : Port) (tag : Byte) (s : State), s.holds p (.engineReset p tag) →
      (∀ i c, s.sto.slots.get i = some c → c.retain.get p.other = false) →
      ∃ t, exec (.engineReset p tag) s = .next t ∧
        t.acq = { s.acq with
          engine := .idle, active := none, copy := none, armedAt := none, postEnd := none, force := none, stopPending := false,
          repeatFlag := false, runCount := 0, halt := none } ∧
        t.smp = none ∧ t.lanes = .all .reset ∧ t.sto = { s.sto with blocks := [], slots := .all none } ∧
        t.evl.events = [] ∧ t.evl.nextSeq = s.evl.nextSeq ∧
        (∀ q, t.evl.port.get q =
          { s.evl.port.get q with cursor := s.evl.nextSeq, missed := 0, primed := true }) ∧
        t.trg = { s.trg with
          state := .standby, run := none, pendingEntry := none, history := none, mark := none } ∧
        (∀ q, t.vrn.ctx.get q = if (s.vrn.ctx.get q).state = .idle then s.vrn.ctx.get q
          else { state := .idle, render := none, queue := [], lastEnd := some .gone }) ∧ (s.vrn.lawful → t.vrn.turn = none) ∧
        (t.ports.get p).slot = .answered tag (.plain .ok) ∧ (t.ports.get p.other).slot = (s.ports.get p.other).slot ∧
        (∀ q, (t.ports.get q).overrun = (s.ports.get q).overrun ∧ (t.ports.get q).enables = (s.ports.get q).enables ∧
          (t.ports.get q).driven = (s.ports.get q).driven) ∧
        t.hasNotice p.other .engineState = true ∧ t.hasNotice p .engineState = s.hasNotice p .engineState ∧
        (∀ q, t.hasNotice q .renderEnded = (s.hasNotice q .renderEnded || (s.vrn.ctx.get q).inProgress)) ∧
        (∀ q n, n ≠ .engineState → n ≠ .renderEnded → t.hasNotice q n = s.hasNotice q n) ∧
        (∀ i, ((s.pods.get i).state = .absent ∨ (s.pods.get i).state = .identifying ∨ (s.pods.get i).desc = none) →
          t.pods.get i = s.pods.get i) ∧
        (∀ i d code rc cc, ((s.pods.get i).state = .ready ∨ (s.pods.get i).state = .degraded) → (s.pods.get i).desc = some d →
          (code, rc, cc) = thresholdCode (s.pods.get i).requested d.rangeMin d.rangeMax d.gain d.offset →
          t.pods.get i = { s.pods.get i with code := code, rangeClamped := rc, codeClamped := cc }) ∧
        t.timebase = s.timebase ∧ t.freeIx = s.freeIx ∧ t.pending = s.pending)

/-! ## The shared plan -/

/-- PLAN_READ answers a section's whole contents with the generation under which they stand, or INVALID for a section other than
the five, and changes nothing else: for MATCH all four lists, each with its entry count, for TRIGGER the stage count and all
eight stage records (R169; the bodies by the layouts of R179). MODEL'S CHOICE (log 12): a stage record takes 90 bytes. -/
def Obligations.PlanReadAnswer : Prop :=
  (∀ (p : Port) (tag sec : Byte) (s : State), s.holds p (.planRead p tag sec) →
    let answers := fun a => exec (.planRead p tag sec) s = .next (s.setPort p { s.ports.get p with slot := .answered tag a })
    match sec.toNat with
    | 1 => answers (.planRead (.acq s.acq.plan.acq) s.acq.gen)
    | 2 => answers (.planRead (.probe s.acq.plan.probe) s.acq.gen)
    | 3 => answers (.planRead (.trigger s.acq.plan.trigger) s.acq.gen)
    | 4 => answers (.planRead (.lanes s.acq.plan.lanes) s.acq.gen)
    | 5 => answers (.planRead (.matches s.acq.plan.matchLists) s.acq.gen)
    | _ => answers (.plain .invalid)) ∧
  (∀ (x : SectionContents) (gen : BitVec 32), (Answer.planRead x gen).statusOf = .ok) ∧
  (∀ (x : Quad (List MatchEntry)) (gen : BitVec 32), (Answer.planRead (.matches x) gen).body =
    [x.q0, x.q1, x.q2, x.q3].flatMap (fun es => BitVec.ofNat 8 es.length :: es.flatMap encodeEntry) ++ beBytes 4 gen.toNat) ∧
  (∀ (x : TriggerPlan) (gen : BitVec 32), (Answer.planRead (.trigger x) gen).body =
    BitVec.ofNat 8 x.count :: (List.finRange 8).flatMap (fun k => encodeStage x.stages[k]) ++ beBytes 4 gen.toNat ∧
    ∀ k : Fin 8, (encodeStage x.stages[k]).length = 90)

/-- A refused PLAN_EDIT changes nothing, and the checks are made in their order: STALE, the section, the range of the fields,
then ACTIVE or BUSY (R170, R171, R172, R134). -/
def Obligations.PlanEditRefusals : Prop :=
  ∀ (p : Port) (tag sec : Byte) (expected : BitVec 32) (contents : List Byte) (s : State),
    s.holds p (.planEdit p tag sec expected contents) →
    let answers := fun a => exec (.planEdit p tag sec expected contents) s =
      .next (s.setPort p { s.ports.get p with slot := .answered tag a })
    (expected ≠ s.acq.gen → answers (.stale s.acq.gen)) ∧
    (expected = s.acq.gen → (sec.toNat < 1 ∨ 5 < sec.toNat) → answers (.noSection sec)) ∧
    (expected = s.acq.gen → sec = 1 → ∀ f, decodeAcq contents = .error f → answers (.fieldRange .acq f.1 f.2 s.acq.gen)) ∧
    (expected = s.acq.gen → sec = 2 → ∀ f, decodeProbe contents = .error f → answers (.fieldRange .probe f.1 f.2 s.acq.gen)) ∧
    (expected = s.acq.gen → sec = 3 → ∀ f, decodeTrigger contents = .error f →
      answers (.fieldRange .trigger f.1 f.2 s.acq.gen)) ∧
    (expected = s.acq.gen → sec = 4 → ∀ f, decodeLanes contents = .error f → answers (.fieldRange .lanes f.1 f.2 s.acq.gen)) ∧
    (expected = s.acq.gen → sec = 5 → ∀ f, decodeMatch contents = .error f → answers (.fieldRange .matches f.1 f.2 s.acq.gen)) ∧
    (expected = s.acq.gen → s.acq.engine ≠ .idle →
      (sec = 1 ∧ ∃ x, decodeAcq contents = .ok x) ∨ (sec = 3 ∧ ∃ x, decodeTrigger contents = .ok x) ∨
        (sec = 4 ∧ ∃ x, decodeLanes contents = .ok x) →
      answers (.editActive s.acq.engine s.acq.gen)) ∧
    (expected = s.acq.gen → sec = 5 → ∀ lane es, decodeMatch contents = .ok (lane, es) →
      ((s.lanes.get lane).state = .inFrame ∨ (s.lanes.get lane).state = .draining) →
      answers (.editBusy lane (s.lanes.get lane).state s.acq.gen))

/-- An accepted edit of ACQ, TRIGGER or LANES replaces that section, advances the generation by one, gives PLAN_CHANGED to the
other port and is answered with the new generation; nothing else changes (R172, R173). A MATCH edit is accepted where the
lane it names is OFF, HELD or HUNT: that lane's list is replaced, the other three are not touched, and an ACTIVE capture's
last generation becomes the new one (R134, R173, R174). An accepted PROBE edit, in any engine state: the thresholds become
the requested thresholds of all four pods, every READY or DEGRADED record's code is recomputed and every other record keeps
its code and flags, an ACTIVE capture takes THRESHOLD_EDITED and the new generation as its last (R12, R173, R174). -/
def Obligations.PlanEditAccepted : Prop :=
  (∀ (p : Port) (tag sec : Byte) (contents : List Byte) (plan : Plan) (s : State),
      s.holds p (.planEdit p tag sec s.acq.gen contents) → s.acq.engine = .idle →
      ((sec = 1 ∧ ∃ x, decodeAcq contents = .ok x ∧ plan = { s.acq.plan with acq := x }) ∨
       (sec = 3 ∧ ∃ x, decodeTrigger contents = .ok x ∧ plan = { s.acq.plan with trigger := x }) ∨
       (sec = 4 ∧ ∃ x, decodeLanes contents = .ok x ∧ plan = { s.acq.plan with lanes := x })) →
      exec (.planEdit p tag sec s.acq.gen contents) s =
        .next (((s.setAcq { s.acq with plan := plan, gen := s.acq.gen + 1 }).raise p.other .planChanged).setPort p
          { s.ports.get p with slot := .answered tag (.edited (s.acq.gen + 1)) })) ∧
  (∀ (p : Port) (tag : Byte) (contents : List Byte) (lane : Four) (es : List MatchEntry) (s : State),
      s.holds p (.planEdit p tag 5 s.acq.gen contents) → decodeMatch contents = .ok (lane, es) →
      ((s.lanes.get lane).state = .off ∨ (s.lanes.get lane).state = .held ∨ (s.lanes.get lane).state = .hunt) →
      ∃ t, exec (.planEdit p tag 5 s.acq.gen contents) s = .next t ∧
        t.acq = { s.acq with
          plan := { s.acq.plan with matchLists := s.acq.plan.matchLists.set lane es }, gen := s.acq.gen + 1 } ∧
        (∀ name c, s.acq.active = some name → s.sto.capture name = some c → c.complete = false →
          t.sto.capture name = some { c with lastGen := s.acq.gen + 1 }) ∧
        (s.acq.active = none → t.sto = s.sto) ∧ t.sto.blocks = s.sto.blocks ∧ t.hasNotice p.other .planChanged = true ∧
        (t.ports.get p) = { s.ports.get p with slot := .answered tag (.edited (s.acq.gen + 1)) } ∧
        t.timebase = s.timebase ∧ t.pods = s.pods ∧ t.smp = s.smp ∧ t.trg = s.trg ∧ t.lanes = s.lanes ∧ t.evl = s.evl ∧
        t.vrn = s.vrn ∧ t.freeIx = s.freeIx ∧ t.pending = s.pending) ∧
  (∀ (p : Port) (tag : Byte) (contents : List Byte) (x : ProbePlan) (s : State),
      s.holds p (.planEdit p tag 2 s.acq.gen contents) → decodeProbe contents = .ok x →
      ∃ t, exec (.planEdit p tag 2 s.acq.gen contents) s = .next t ∧
        t.acq = { s.acq with plan := { s.acq.plan with probe := x }, gen := s.acq.gen + 1 } ∧
        (∀ i, t.pods.get i = { s.pods.get i with
          requested := x.thresholds.get i, code := (t.pods.get i).code, rangeClamped := (t.pods.get i).rangeClamped
          codeClamped := (t.pods.get i).codeClamped }) ∧
        (∀ i d, ((s.pods.get i).state = .ready ∨ (s.pods.get i).state = .degraded) → (s.pods.get i).desc = some d →
          ((t.pods.get i).code, (t.pods.get i).rangeClamped, (t.pods.get i).codeClamped) =
            thresholdCode (x.thresholds.get i) d.rangeMin d.rangeMax d.gain d.offset) ∧
        (∀ i, ((s.pods.get i).state = .absent ∨ (s.pods.get i).state = .identifying) →
          (t.pods.get i).code = (s.pods.get i).code ∧ (t.pods.get i).rangeClamped = (s.pods.get i).rangeClamped ∧
            (t.pods.get i).codeClamped = (s.pods.get i).codeClamped) ∧
        (∀ name c, s.acq.active = some name → s.sto.capture name = some c → c.complete = false →
          t.sto.capture name = some { c with thresholdEdited := true, lastGen := s.acq.gen + 1 }) ∧
        (s.acq.active = none → t.sto = s.sto) ∧ t.sto.blocks = s.sto.blocks ∧
        t.hasNotice p.other .planChanged = true ∧ (t.ports.get p) =
          { s.ports.get p with slot := .answered tag (.edited (s.acq.gen + 1)) } ∧
        t.timebase = s.timebase ∧ t.smp = s.smp ∧ t.trg = s.trg ∧ t.lanes = s.lanes ∧ t.evl = s.evl ∧ t.vrn = s.vrn ∧
        t.freeIx = s.freeIx ∧ t.pending = s.pending)

/-- What a PLAN_READ sends for a section in range, a PLAN_EDIT of that section reads back as it was, and its length fits: no
field of the layout of R179 is dropped or moved, whatever the contents (R168, R169, R171, R179). MODEL'S CHOICES: the layout
of a stage record (log 12), the bytes of a set of lanes whose action is not in the set (log 26), and the 4 bytes of a lane's
periods (log 29). -/
def Obligations.PlanSectionsRoundTrip : Prop :=
  (∀ x : AcqPlan, x.ranged = true → decodeAcq (encodeAcq x) = .ok x ∧ contentsFit 1 (encodeAcq x) = true) ∧
  (∀ x : ProbePlan, x.ranged = true → decodeProbe (encodeProbe x) = .ok x ∧ contentsFit 2 (encodeProbe x) = true) ∧
  (∀ x : TriggerPlan, x.ranged = true → decodeTrigger (encodeTrigger x) = .ok x ∧ contentsFit 3 (encodeTrigger x) = true) ∧
  (∀ x : Quad LaneCfg, (∀ i, (x.get i).ranged = true) →
    decodeLanes (x.toList.flatMap encodeLane) = .ok x ∧ contentsFit 4 (x.toList.flatMap encodeLane) = true) ∧
  (∀ (lane : Four) (x : List MatchEntry), x.length ≤ 16 → (∀ e ∈ x, e.ranged = true) →
    decodeMatch (BitVec.ofNat 8 lane.val :: encodeList x) = .ok (lane, x) ∧
      contentsFit 5 (BitVec.ofNat 8 lane.val :: encodeList x) = true)

/-- What the reading of a plan section refuses: contents are read exactly when every field is in its range, what was read lies in
range, and otherwise the field named is the first, in the order of the wire, that is out of it, with the number of its pod,
channel, stage, lane or entry; all eight stage records are checked whatever the stage count (R168, R171, R82, R103, R126).
MODEL'S CHOICES: the layout of a stage record and its fields' numbers (logs 12, 13), the bytes of a set of lanes whose action is
not in the set (log 26), and the 4 bytes of a lane's periods (log 29). -/
def Obligations.PlanFieldChecks : Prop :=
  ∀ bs : List Byte,
    (match decodeAcq bs with
      | .ok x => firstBad (acqFields bs) = none ∧ x.ranged = true
      | .error f => firstBad (acqFields bs) = some f) ∧
    (match decodeProbe bs with
      | .ok x => firstBad (probeFields bs) = none ∧ x.ranged = true
      | .error f => firstBad (probeFields bs) = some f) ∧
    (match decodeTrigger bs with
      | .ok x => firstBad (triggerFields bs) = none ∧ x.ranged = true
      | .error f => firstBad (triggerFields bs) = some f) ∧
    (match decodeLanes bs with
      | .ok x => firstBad (lanesFields bs) = none ∧ ∀ i, (x.get i).ranged = true
      | .error f => firstBad (lanesFields bs) = some f) ∧
    (match decodeMatch bs with
      | .ok x => firstBad (matchFields bs) = none ∧ x.1.val = fieldAt bs 0 1 ∧ x.2.length = fieldAt bs 1 1 ∧
          x.2.length ≤ 16 ∧ ∀ e ∈ x.2, e.ranged = true
      | .error f => firstBad (matchFields bs) = some f)

/-! ## Arming -/

/-- The plan consistency checks: the two of the ACQ section (R61), the eight of a stage (R102), the four of a lane (R125), each in
its order with its own condition; and the order in which they are made: the ACQ section, then the stages below the stage
count from stage 0 on, then the lanes from lane 0 on; the first that fails is the problem named, and a plan without one
passes (R61, R102, R125). -/
def Obligations.PlanCheckOrder : Prop :=
  (∀ a : AcqPlan,
    (acqReason a = some .windowQuota ↔ a.mode = .window ∧ a.quota ≤ 1) ∧
    (∀ k, acqReason a = some (.dividerChannels k) ↔ ¬ (a.mode = .window ∧ a.quota ≤ 1) ∧ a.div ≤ 1 ∧
      ((k = 2 ∧ ∃ ch, 16 ≤ ch ∧ ch ≤ 23 ∧ a.mask.getLsbD ch = true) ∨
       (k = 3 ∧ (∃ ch, 24 ≤ ch ∧ ch ≤ 31 ∧ a.mask.getLsbD ch = true) ∧ ∀ ch, 16 ≤ ch → ch ≤ 23 → a.mask.getLsbD ch = false))) ∧
    (acqReason a = none ↔ ¬ (a.mode = .window ∧ a.quota ≤ 1) ∧
      (a.div ≤ 1 → ∀ ch, 16 ≤ ch → ch ≤ 31 → a.mask.getLsbD ch = false))) ∧
  (∀ (plan : Plan) (x : Stage),
    let carries := fun (f : Cond → Prop) => f x.primary ∨ ∃ y, x.secondary = some y ∧ f y
    let names := fun (y : Cond) ch => (∃ m v e, y = .pattern m v e ∧ m.getLsbD ch = true) ∨
      (∃ m d, y = .edge m d ∧ m.getLsbD ch = true) ∨ ∃ high lo hi, y = .pulse ch high lo hi
    let target := (∃ k, x.success = .stage k ∧ plan.trigger.count ≤ k) ∨ ∃ k, x.fail = some k ∧ plan.trigger.count ≤ k
    let noSecond := x.combine ≠ .none ∧ x.secondary = none
    let notPattern := x.combine = .and ∧ ∀ m v e, x.secondary ≠ some (.pattern m v e)
    let widths := carries fun y => ∃ ch high lo hi, y = .pulse ch high lo hi ∧ hi < lo
    let noKind := carries fun y => ∃ l e, y = .laneMatch l e ∧ (plan.lanes.get l).kind = .none
    let noFeed := carries fun y => ∃ l e, y = .laneMatch l e ∧
      ∀ z, (plan.matchLists.get l)[e]? = some z → z.actions.feed = false
    let outside := carries fun y => ∃ ch, names y ch ∧ plan.acq.mask.getLsbD ch = false
    let noFail := (∃ l, x.timer = .within l) ∧ x.fail = none
    (target → stageReason plan x = some .targetRange) ∧
    (¬ target → (noSecond → stageReason plan x = some .noSecondary) ∧
    (¬ noSecond → (notPattern → stageReason plan x = some .andSecondary) ∧
    (¬ notPattern → (widths → stageReason plan x = some .pulseWidth) ∧
    (¬ widths → (noKind → stageReason plan x = some .laneKind) ∧
    (¬ noKind → (noFeed → stageReason plan x = some .matchEntry) ∧
    (¬ noFeed → (outside → stageReason plan x = some .channelMask) ∧
    (¬ outside → (noFail → stageReason plan x = some .withinFail) ∧
    (¬ noFail → stageReason plan x = none))))))))) ∧
  (∀ (a : AcqPlan) (x : LaneCfg),
    let clocked := x.kind = .twoWire ∨ x.kind = .clocked
    let used := fun ch => (x.kind ≠ .none ∧ x.data = ch) ∨ (clocked ∧ x.clock = ch) ∨ (x.kind = .clocked ∧ x.select = some ch)
    let outside := ∃ ch, used ch ∧ a.mask.getLsbD ch = false
    let clash := (clocked ∧ x.clock = x.data) ∨ (x.kind = .clocked ∧ (x.select = some x.clock ∨ x.select = some x.data))
    let bitShort := x.kind = .async ∧ x.bitPeriod < 4 * a.div
    let cellShort := x.kind = .biphase ∧ x.halfCell < 2 * a.div
    (outside → laneReason a x = some .laneChannel) ∧
    (¬ outside → (clash → laneReason a x = some .channelClash) ∧
    (¬ clash → (bitShort → laneReason a x = some .bitPeriod) ∧ (cellShort → laneReason a x = some .cellPeriod) ∧
      (¬ bitShort → ¬ cellShort → laneReason a x = none)))) ∧
  (∀ (plan : Plan) (r : PlanReason), acqReason plan.acq = some r → plan.problem = some (PlanProblem.mk .acq none r)) ∧
  (∀ (plan : Plan) (k : Fin 8) (r : PlanReason), acqReason plan.acq = none → k.val < plan.trigger.count →
    (∀ j : Fin 8, j < k → stageReason plan plan.trigger.stages[j] = none) → stageReason plan plan.trigger.stages[k] = some r →
    plan.problem = some (PlanProblem.mk .trigger (some k.val) r)) ∧
  (∀ (plan : Plan) (l : Four) (r : PlanReason), acqReason plan.acq = none →
    (∀ k : Fin 8, k.val < plan.trigger.count → stageReason plan plan.trigger.stages[k] = none) →
    (∀ m : Four, m < l → laneReason plan.acq (plan.lanes.get m) = none) → laneReason plan.acq (plan.lanes.get l) = some r →
    plan.problem = some (PlanProblem.mk .lanes (some l.val) r)) ∧
  (∀ plan : Plan, acqReason plan.acq = none →
    (∀ k : Fin 8, k.val < plan.trigger.count → stageReason plan plan.trigger.stages[k] = none) →
    (∀ m : Four, laneReason plan.acq (plan.lanes.get m) = none) → plan.problem = none)

/-- An ARM in IDLE that passes its checks, with slot `i` the lowest EMPTY one and block `n` the lowest FREE one: the capture record,
the first block, the number counter, the copies taken by TRG, the lanes and SMP, the engine ARMING and the run's fields are
as R63 and R37 lay down, ENGINE_STATE goes to both ports, and nothing else changes (R21, R32, R36, R81, R104). The paths that
need a reclaim are those of ReclaimsMakeRoom. MODEL'S CHOICE (log 24): R37 sets the block's first index at sample 0, and until
then it is held as 0. -/
def Obligations.ArmCompletes : Prop :=
  ∀ (p : Port) (tag : Byte) (i : Four) (n : Nat) (s : State), s.holds p (.arm p tag) → s.acq.engine = .idle →
    s.acq.plan.problem = none → s.podsReady → s.sto.firstEmpty i → s.sto.firstFree n →
    ∃ t, exec (.arm p tag) s = .next t ∧
      s.answered t p tag (.armed (CapName.mk i s.sto.nextNum) s.acq.gen) ∧ s.portsGain t [.engineState] ∧
      t.acq = { s.acq with
        engine := .arming, active := some (CapName.mk i s.sto.nextNum), copy := some s.acq.plan.acq, armedAt := none,
        postEnd := none, force := none, stopPending := false, runMode := s.acq.plan.acq.run,
        repeatFlag := decide (s.acq.plan.acq.run = .repeated), runCount := 1, halt := none } ∧
      s.armsCapture t i n

/-- Where a reclaim makes room. ARM with no EMPTY slot takes the victim's slot, and with an EMPTY slot but no FREE block it takes the
victim's lowest block into that slot (R37, R40, R63); a re-arm of a REPEAT run does the same with the captures as they stand
after the completion, the completed one among them (R74, R75); and a record below quota with no FREE block goes into a
block that one reclaim frees, corrupted by a pending store-test request, which it uses up (R39, R41, R54). `u` is the part
after the reclaim, which ReclaimTakesOldest describes. MODEL'S CHOICE (log 24): the first index of a new capture's first block is
held as 0 until sample 0 sets it. -/
def Obligations.ReclaimsMakeRoom : Prop :=
  (∀ (p : Port) (tag : Byte) (i : Four) (n : Nat) (s u : State), s.sto.wf = true → s.holds p (.arm p tag) →
    s.acq.engine = .idle → s.acq.plan.problem = none → s.podsReady → s.reclaim = some u → u.sto.firstFree n →
    (((∀ j, s.sto.slots.get j ≠ none) ∧ u.sto.slots.get i = none) ∨ (s.sto.firstEmpty i ∧ s.sto.noneFree)) →
    ∃ t, exec (.arm p tag) s = .next t ∧
      u.answered t p tag (.armed (CapName.mk i s.sto.nextNum) s.acq.gen) ∧ u.portsGain t [.engineState] ∧
      t.acq = { s.acq with
        engine := .arming, active := some (CapName.mk i s.sto.nextNum), copy := some s.acq.plan.acq, armedAt := none,
        postEnd := none, force := none, stopPending := false, runMode := s.acq.plan.acq.run,
        repeatFlag := decide (s.acq.plan.acq.run = .repeated), runCount := 1, halt := none } ∧
      u.armsCapture t i n) ∧
  (∀ (s d u : State) (name : CapName) (c : Capture) (i : Four) (n : Nat), s.sto.wf = true → s.acq.engine = .stopping →
    s.acq.active = some name → s.sto.capture name = some c → c.discard = false → s.acq.repeatFlag = true →
    c.endReason = some .postDone → s.acq.plan.problem = none → s.podsReady →
    exec .finalWriteComplete (s.setAcq { s.acq with repeatFlag := false }) = .next d → d.reclaim = some u → u.sto.firstFree n →
    (((∀ j, d.sto.slots.get j ≠ none) ∧ u.sto.slots.get i = none) ∨ (d.sto.firstEmpty i ∧ d.sto.noneFree)) →
    ∃ t, exec .finalWriteComplete s = .next t ∧
      t.acq = { s.acq with
        engine := .arming, active := some (CapName.mk i s.sto.nextNum), copy := some s.acq.plan.acq, armedAt := none,
        postEnd := none, force := none, stopPending := false, runCount := min 4294967295 (s.acq.runCount + 1) } ∧
      u.slotsKept t ∧ u.portsGain t [.engineState] ∧ u.armsCapture t i n) ∧
  (∀ (s u : State) (name : CapName) (c : Capture) (n m : Nat) (b : Block) (word : ChannelWord) (index : Nat), s.sto.wf = true →
    s.sto.filling name = some (n, b) → s.sto.capture name = some c → c.complete = false →
    (s.sto.chain c).getLast? = some (n, b) → b.next = none → ((s.sto.chain c).map fun e => e.1).Nodup →
    (∀ e ∈ s.sto.chain c, e.2.owner = name) →
    (∀ k y, lookupBlock s.sto.blocks k = some y → y.owner = name → k ≠ n → y.state = .sealed) →
    b.records.length = 4096 → s.sto.ownedCount name < c.quota → s.sto.noneFree →
    (s.setSto (s.sto.seal n)).reclaim = some u → u.sto.firstFree m →
    ∃ t, s.placeRecord name word index = (t, true) ∧
      lookupBlock t.sto.blocks n = some { b with state := .sealed, next := some m } ∧
      lookupBlock t.sto.blocks m = some (Block.mk .filling name index false none [s.sto.newRecord word]) ∧
      (∀ k, k ≠ n → k ≠ m → lookupBlock t.sto.blocks k = lookupBlock u.sto.blocks k) ∧
      t = u.setSto { u.sto with blocks := t.sto.blocks, test := none })

/-- A refused ARM changes nothing, and its checks are made in their order: the engine, the plan, the pods with the lowest unready
one named, a slot and a first block (R60, R61, R62, R16, R37). -/
def Obligations.ArmRefusals : Prop :=
  ∀ (p : Port) (tag : Byte) (s : State), s.holds p (.arm p tag) →
    let answers := fun a => exec (.arm p tag) s = .next (s.setPort p { s.ports.get p with slot := .answered tag a })
    (s.acq.engine ≠ .idle → answers (.plain .active)) ∧
    (s.acq.engine = .idle → ∀ x, s.acq.plan.problem = some x → answers (.armRefused (.planInvalid x s.acq.gen))) ∧
    (s.acq.engine = .idle → s.acq.plan.problem = none → ∀ k,
      (maskHasPod s.acq.plan.acq.mask k = true ∧ ((s.pods.get k).state = .absent ∨ (s.pods.get k).state = .identifying)) →
      (∀ j, j < k → maskHasPod s.acq.plan.acq.mask j = true →
        (s.pods.get j).state = .ready ∨ (s.pods.get j).state = .degraded) →
      answers (.armRefused (.notReady k (s.pods.get k).state))) ∧
    (s.acq.engine = .idle → s.acq.plan.problem = none →
      (∀ k, maskHasPod s.acq.plan.acq.mask k = true → (s.pods.get k).state = .ready ∨ (s.pods.get k).state = .degraded) →
      (∀ j c, s.sto.slots.get j = some c → c.complete = true → c.retain.a = true ∨ c.retain.b = true) →
      ((∀ j, s.sto.slots.get j ≠ none) ∨ ∀ m, m < 2048 → lookupBlock s.sto.blocks m ≠ none) →
      answers (.armRefused (.noSlot
        (([0, 1, 2, 3] : List Four).countP fun j => match s.sto.slots.get j with | some c => c.complete | none => false)
        (([0, 1, 2, 3] : List Four).countP fun j => match s.sto.slots.get j with
          | some c => c.complete && (c.retain.a || c.retain.b)
          | none => false))))

/-- A reclaim takes the oldest COMPLETE capture that no port retains, removes it with all its consequences and raises
CAPTURE_RECLAIMED to both ports; where no capture qualifies there is none (R40, R142, R143, R164). -/
def Obligations.ReclaimTakesOldest : Prop :=
  ∀ s : State, s.sto.wf = true →
    (s.reclaim = none ↔ ∀ j c, s.sto.slots.get j = some c → c.complete = true → c.retain.a = true ∨ c.retain.b = true) ∧
    (∀ t, s.reclaim = some t → ∃ i v, s.sto.slots.get i = some v ∧ v.complete = true ∧ v.retain.a = false ∧
      v.retain.b = false ∧
      (∀ j c, s.sto.slots.get j = some c → c.complete = true → c.retain.a = false → c.retain.b = false →
        v.origin.getD 0 ≤ c.origin.getD 0) ∧
      s.removed t (CapName.mk i v.num) ∧ (∀ q, t.hasNotice q .captureReclaimed = true) ∧
      (∀ q n, n ≠ .captureReclaimed → n ≠ .renderEnded → t.hasNotice q n = s.hasNotice q n) ∧ s.slotsKept t ∧
      t.acq = s.acq ∧ t.smp = s.smp ∧ t.trg = s.trg ∧ t.lanes = s.lanes ∧ s.outsideKept t)

/-! ## Ending an acquisition -/

/-- FORCE by the engine's state: OK with the request pending, OK unchanged where one is pending already, WRONG_STATE in IDLE,
TRIGGERED and STOPPING (R65). ABORT by the engine's state: nothing in IDLE; the discard mark in STOPPING; otherwise the
capture is removed at once with its blocks, events and renders, sampling, TRG and the lanes stop without PARTIAL, the engine
is IDLE with ENGINE_STATE to both ports, and neither CAPTURE_ENDED nor CAPTURE_RECLAIMED is raised (R29, R45, R72, R73). -/
def Obligations.ForceAndAbort : Prop :=
  (∀ (p : Port) (tag : Byte) (s : State), s.holds p (.force p tag) →
    (s.acq.engine = .arming ∨ s.acq.engine = .armed → s.acq.force = none →
      exec (.force p tag) s = .next ((s.setAcq { s.acq with force := some s.acq.engine }).setPort p
        { s.ports.get p with slot := .answered tag (.plain .ok) })) ∧
    (s.acq.engine = .arming ∨ s.acq.engine = .armed → s.acq.force ≠ none →
      exec (.force p tag) s = .next (s.setPort p { s.ports.get p with slot := .answered tag (.plain .ok) })) ∧
    (s.acq.engine = .idle ∨ s.acq.engine = .triggered ∨ s.acq.engine = .stopping →
      exec (.force p tag) s = .next (s.setPort p { s.ports.get p with slot := .answered tag (.plain .wrongState) }))) ∧
  (∀ (p : Port) (tag : Byte) (s : State), s.holds p (.abort p tag) →
    (s.acq.engine = .idle →
      exec (.abort p tag) s = .next (s.setPort p { s.ports.get p with slot := .answered tag (.plain .ok) })) ∧
    (∀ name c, s.acq.engine = .stopping → s.acq.active = some name → s.sto.capture name = some c →
      exec (.abort p tag) s = .next (((s.setSto { s.sto with
          slots := s.sto.slots.set name.slot (some { c with discard := true }) }).setAcq { s.acq with repeatFlag := false }).setPort
        p { s.ports.get p with slot := .answered tag (.plain .ok) })) ∧
    (∀ name c, s.acq.engine = .arming ∨ s.acq.engine = .armed ∨ s.acq.engine = .triggered → s.acq.active = some name →
      s.sto.capture name = some c → s.sto.wf = true →
      ∃ t, exec (.abort p tag) s = .next t ∧ s.answered t p tag (.plain .ok) ∧
        t.acq = { s.acq with
          engine := .idle, active := none, copy := none, armedAt := none, postEnd := none, force := none,
          stopPending := false, repeatFlag := false } ∧
        t.smp = none ∧ s.trg.standbyOf t.trg ∧ s.lanesOffOf t ∧ s.removed t name ∧
        (∀ q, t.hasNotice q .engineState = true) ∧
        (∀ q n, n ≠ .engineState → n ≠ .renderEnded → t.hasNotice q n = s.hasNotice q n) ∧ s.outsideKept t))

/-- STOP by the engine's state: nothing in IDLE; the repeat flag off in STOPPING; a STOP before sample 0 waits for it; otherwise the
engine goes to STOPPING with STOP_TAKEN, SMP and TRG stop, every lane is OFF after a PARTIAL for each that was in a frame,
which its capture counts, and ENGINE_STATE goes to both ports (R68, R70, R112). The PARTIALs are those of `State.partialEvent`:
kind, lane, frame number, word position, TRUNCATED and the corrected time of the capture's last held sample; with no lane in a
frame EVL is as it was; the other slots, every block, VRN and every other notice class are as they were. The same holds of
the other two entries to STOPPING: POST_DONE, whose own sample is first handled as it would be if the capture ran on, and is
the last held one; and STORE_FULL, whose record is not placed, so that the sample before it is the last held one (R67, R69,
R70, R113, R123, R138, R139, R145). MODEL'S CHOICES: which of several lanes' events EVL takes first is a free choice (log 9);
POST_DONE stands for the whole sample step (log 4). -/
def Obligations.StopByState : Prop :=
  (∀ (p : Port) (tag : Byte) (s : State), s.holds p (.stop p tag) →
    (s.acq.engine = .idle →
      exec (.stop p tag) s = .next (s.setPort p { s.ports.get p with slot := .answered tag (.plain .ok) })) ∧
    (s.acq.engine = .stopping →
      exec (.stop p tag) s = .next ((s.setAcq { s.acq with repeatFlag := false }).setPort p
        { s.ports.get p with slot := .answered tag (.plain .ok) })) ∧
    (∀ x, s.acq.engine = .arming ∨ s.acq.engine = .armed ∨ s.acq.engine = .triggered → s.smp = some x → x.next = 0 →
      exec (.stop p tag) s = .next ((s.setAcq { s.acq with repeatFlag := false, stopPending := true }).setPort p
        { s.ports.get p with slot := .answered tag (.plain .ok) })) ∧
    (∀ x name c n b, s.acq.engine = .arming ∨ s.acq.engine = .armed ∨ s.acq.engine = .triggered → s.smp = some x → x.next ≠ 0 →
      s.acq.active = some name → s.sto.capture name = some c → c.complete = false → s.sto.filling name = some (n, b) →
      ∃ t, exec (.stop p tag) s = .next t ∧ s.answered t p tag (.plain .ok) ∧
        t.acq = { s.acq with
          engine := .stopping, force := none, armedAt := none, stopPending := false, repeatFlag := false } ∧
        t.smp = none ∧ s.trg.standbyOf t.trg ∧ s.lanesOffOf t ∧ t.sto.filling name = some (n, b) ∧
        (∃ c', t.sto.capture name = some c' ∧ c'.endReason = some .stopTaken ∧ c'.complete = false ∧
          ∀ l, c'.frames.get l = min 65535 (c.frames.get l +
            if (s.lanes.get l).ctx.isSome ∧ ((s.lanes.get l).state = .inFrame ∨ (s.lanes.get l).state = .draining) then 1 else 0)) ∧
        (∀ q, t.hasNotice q .engineState = true ∧ t.hasNotice q .captureEnded = s.hasNotice q .captureEnded) ∧
        t.timebase = s.timebase ∧ t.pods = s.pods ∧ t.pending = s.pending ∧
        ∀ o, x.origin = some o → ∃ c', t.sto.capture name = some c' ∧
          s.partialsEntered t s.lanes name c c' (o + (x.next - 1) * x.div) ∧
          (cutFrames s.lanes = [] → t.evl = s.evl ∧ c'.expired = c.expired) ∧
          c' = { c with
            endReason := some .stopTaken, frames := c'.frames, errors := c'.errors, expired := c'.expired,
            truncated := c'.truncated } ∧
          ((∀ f ∈ cutFrames s.lanes, f.2.capture = name) → s.evl.events.length + (cutFrames s.lanes).length ≤ 8192 →
            t.sto = { s.sto with slots := s.sto.slots.set name.slot (some c') } ∧
            ∀ q, (∀ n, n ≠ .engineState → n ≠ .eventsReady → t.hasNotice q n = s.hasNotice q n) ∧
              (t.ports.get q).overrun = (s.ports.get q).overrun ∧ (t.ports.get q).enables = (s.ports.get q).enables ∧
              (t.ports.get q).driven = (s.ports.get q).driven))) ∧
  (∀ (s : State) (x : Sampling) (name : CapName) (c : Capture) (e : Nat) (w : ChannelWord), s.sto.wf = true →
    s.canHold x name c → x.next ≠ 0 → s.acq.stopPending = false → s.acq.engine = .triggered → s.acq.postEnd = some e →
    e ≤ x.nextRaw →
    ∃ t u d d', exec (.postDone w) s = .next t ∧
      exec (.sample w) (s.setAcq { s.acq with postEnd := some (x.nextRaw + 1) }) = .next u ∧
      u.sto.capture name = some d ∧ t.sto.capture name = some d' ∧ u.partialsEntered t u.lanes name d d' x.nextRaw) ∧
  (∀ (s : State) (x : Sampling) (name : CapName) (c : Capture) (n o : Nat) (b : Block) (w : ChannelWord), s.sto.wf = true →
    s.smp = some x → x.next ≠ 0 → x.origin = some o → s.acq.active = some name → s.sto.capture name = some c →
    c.complete = false → c.discard = false → s.sto.filling name = some (n, b) → b.records.length = 4096 → b.next = none →
    (∀ m y, lookupBlock s.sto.blocks m = some y → y.owner = name → m ≠ n → y.state = .sealed) →
    (∀ r, x.run = some r → r.word = x.nextWord w → 65536 ≤ r.len) →
    (c.quota ≤ s.sto.ownedCount name ∨ (s.sto.noneFree ∧ s.reclaim = none)) →
    (c.mode = .fill ∨ c.head = n ∨ c.trigBlock = some c.head) →
    ∃ t c', exec (.sample w) s = .next t ∧ t.sto.capture name = some c' ∧
      s.partialsEntered t s.lanes name c c' (o + (x.next - 1) * x.div))

/-- The completion of the final write: with the discard mark clear the FILLING block, if there is
one, is SEALED, the capture is COMPLETE with every other field kept, the engine IDLE, and CAPTURE_ENDED and ENGINE_STATE go
to both ports; with the mark set the capture is removed and CAPTURE_ENDED is not raised (R32, R35, R44, R45, R71). MODEL'S CHOICE (log 5):
outside STOPPING a FINAL_WRITE_COMPLETE changes nothing. -/
def Obligations.FinalWriteCompletes : Prop :=
  (∀ s : State, s.acq.engine ≠ .stopping → exec .finalWriteComplete s = .next s) ∧
  (∀ (s : State) (name : CapName) (c : Capture), s.sto.wf = true → s.acq.engine = .stopping → s.acq.active = some name →
    s.sto.capture name = some c → c.discard = false → ¬ (s.acq.repeatFlag = true ∧ c.endReason = some .postDone) →
    ∃ t, exec .finalWriteComplete s = .next t ∧
      t.acq = { s.acq with
        engine := .idle, active := none, copy := none, armedAt := none, postEnd := none, force := none,
        stopPending := false } ∧
      t.sto = { s.sto with
        blocks := t.sto.blocks, slots := s.sto.slots.set name.slot (some { c with complete := true }) } ∧
      (∀ n b, s.sto.filling name = some (n, b) → lookupBlock t.sto.blocks n = some { b with state := .sealed } ∧
        ∀ m, m ≠ n → lookupBlock t.sto.blocks m = lookupBlock s.sto.blocks m) ∧
      (s.sto.filling name = none → t.sto.blocks = s.sto.blocks) ∧
      s.portsGain t [.captureEnded, .engineState] ∧ s.slotsKept t ∧ t.smp = s.smp ∧ t.trg = s.trg ∧ t.lanes = s.lanes ∧
      t.evl = s.evl ∧ t.vrn = s.vrn ∧ s.outsideKept t) ∧
  (∀ (s : State) (name : CapName) (c : Capture), s.sto.wf = true → s.acq.engine = .stopping → s.acq.active = some name →
    s.sto.capture name = some c → c.discard = true →
    ∃ t, exec .finalWriteComplete s = .next t ∧
      t.acq = { s.acq with
        engine := .idle, active := none, copy := none, armedAt := none, postEnd := none, force := none,
        stopPending := false } ∧
      s.removed t name ∧ (∀ q, t.hasNotice q .engineState = true) ∧
      (∀ q n, n ≠ .engineState → n ≠ .renderEnded → t.hasNotice q n = s.hasNotice q n) ∧ s.slotsKept t ∧
      t.smp = s.smp ∧ t.trg = s.trg ∧ t.lanes = s.lanes ∧ s.outsideKept t)

/-- A REPEAT run: the completion of a POST_DONE capture with the repeat flag on re-arms in the same step, with the next capture in
the lowest EMPTY slot and the run count one higher; where the plan, a pod, or the want of a slot or a block stands in the
way the run ends instead, with the halt status PLAN_INVALID, NOT_READY or NO_SLOT, the repeat flag off and REPEAT_HALTED to
both ports (R74, R75). A re-arm that needs a reclaim is that of ReclaimsMakeRoom. MODEL'S CHOICE (log 24): the new first block's
first index is held as 0 until sample 0 sets it. -/
def Obligations.RepeatRun : Prop :=
  ∀ (s : State) (name : CapName) (c : Capture), s.sto.wf = true → s.acq.engine = .stopping → s.acq.active = some name →
    s.sto.capture name = some c → c.discard = false → s.acq.repeatFlag = true → c.endReason = some .postDone →
    (∀ (i : Four) (n : Nat), s.acq.plan.problem = none → s.podsReady → s.sto.firstEmpty i → s.sto.firstFree n →
      ∃ t, exec .finalWriteComplete s = .next t ∧
        t.acq = { s.acq with
          engine := .arming, active := some (CapName.mk i s.sto.nextNum), copy := some s.acq.plan.acq, armedAt := none,
          postEnd := none, force := none, stopPending := false, runCount := min 4294967295 (s.acq.runCount + 1) } ∧
        t.sto.slots.get name.slot = some { c with complete := true } ∧
        (∃ c', t.sto.slots.get i = some c' ∧ c'.num = s.sto.nextNum ∧ c'.complete = false ∧ c'.head = n ∧
          c'.firstGen = s.acq.gen ∧ c'.lastGen = s.acq.gen) ∧
        lookupBlock t.sto.blocks n = some (Block.mk .filling (CapName.mk i s.sto.nextNum) 0 false none []) ∧
        t.smp.map (fun x => (x.div, x.mask, x.next, x.armDone)) =
          some (s.acq.plan.acq.div, s.acq.plan.acq.mask, 0, s.timebase) ∧
        t.trg.state = .gated ∧ s.portsGain t [.captureEnded, .engineState] ∧ s.slotsKept t ∧ t.evl = s.evl ∧
        t.vrn = s.vrn ∧ s.outsideKept t) ∧
    (∀ r, (∃ x, s.acq.plan.problem = some x ∧ r = .planInvalid x s.acq.gen) ∨
        (s.acq.plan.problem = none ∧ ∃ k, maskHasPod s.acq.plan.acq.mask k = true ∧
          ((s.pods.get k).state = .absent ∨ (s.pods.get k).state = .identifying) ∧
          (∀ j, j < k → maskHasPod s.acq.plan.acq.mask j = true →
            (s.pods.get j).state = .ready ∨ (s.pods.get j).state = .degraded) ∧ r = .notReady k (s.pods.get k).state) ∨
        (s.acq.plan.problem = none ∧ s.podsReady ∧ ((∀ j, s.sto.slots.get j ≠ none) ∨ s.sto.noneFree) ∧
          (∀ j y, s.sto.slots.get j = some y → (y.complete = true ∨ j = name.slot) → y.retain.a = true ∨ y.retain.b = true) ∧
          r = .noSlot
            (([0, 1, 2, 3] : List Four).countP fun j => match s.sto.slots.get j with
              | some y => y.complete || j == name.slot
              | none => false)
            (([0, 1, 2, 3] : List Four).countP fun j => match s.sto.slots.get j with
              | some y => (y.complete || j == name.slot) && (y.retain.a || y.retain.b)
              | none => false)) →
      ∃ t, exec .finalWriteComplete s = .next t ∧
        t.acq = { s.acq with
          engine := .idle, active := none, copy := none, armedAt := none, postEnd := none, force := none,
          stopPending := false, repeatFlag := false, halt := some r } ∧
        t.sto.slots.get name.slot = some { c with complete := true } ∧
        s.portsGain t [.captureEnded, .engineState, .repeatHalted] ∧ s.slotsKept t ∧ t.smp = s.smp ∧ t.trg = s.trg ∧
        t.lanes = s.lanes ∧ t.evl = s.evl ∧ t.vrn = s.vrn ∧ s.outsideKept t)

/-! ## The store and the status requests -/

/-- STATUS, CAPTURE_LIST and CAPTURE_INFO answer OK with what stands when the answer is made and change nothing; CAPTURE_INFO
answers INVALID for a slot outside 0 to 3 and GONE for a capture that is gone (R77, R78, R79, R35, R23). MODEL'S CHOICE
(log 24): while no sample is held the last sample's index is absent, and the oldest index and the written end are those of
the empty first block, 0. -/
def Obligations.StatusReports : Prop :=
  (∀ (p : Port) (tag : Byte) (s : State), s.sto.wf = true → s.holds p (.status p tag) →
    ∃ r, exec (.status p tag) s = .next (s.setPort p { s.ports.get p with slot := .answered tag (.status r) }) ∧
      r.timebase = s.timebase ∧ r.engine = s.acq.engine ∧ r.active = s.acq.active ∧ r.gen = s.acq.gen ∧
      r.copy = s.acq.copy ∧ r.armedAt = s.acq.armedAt ∧ r.postEnd = s.acq.postEnd ∧ r.force = s.acq.force ∧
      r.trig = (if s.acq.engine = .armed then s.trg.run.map fun x => (x.stage, x.count, s.trg.pendingEntry) else none) ∧
      r.runMode = s.acq.runMode ∧ r.repeatFlag = s.acq.repeatFlag ∧ r.runCount = s.acq.runCount ∧ r.halt = s.acq.halt ∧
      r.nextSample = s.smp.map (fun x => x.next) ∧
      r.freeBlocks = ((List.range 2048).filter fun n => (lookupBlock s.sto.blocks n).isNone).length ∧
      r.heldCaptures = (([0, 1, 2, 3] : List Four).filter fun i => (s.sto.slots.get i).isSome).length) ∧
  (∀ (p : Port) (tag : Byte) (s : State), s.holds p (.captureList p tag) →
    ∃ es, exec (.captureList p tag) s = .next (s.setPort p { s.ports.get p with slot := .answered tag (.captureList es) }) ∧
      ∀ i, es.get i = (s.sto.slots.get i).map fun c => {
        record := c, held := ((s.sto.chain c).map fun e => (e.2.records.map fun x => x.run).sum).sum
        blocks := (s.sto.chain c).length }) ∧
  (∀ (p : Port) (tag slot : Byte) (num : BitVec 16) (s : State), s.holds p (.captureInfo p tag slot num) →
    let answers := fun a => exec (.captureInfo p tag slot num) s =
      .next (s.setPort p { s.ports.get p with slot := .answered tag a })
    (4 ≤ slot.toNat → answers (.plain .invalid)) ∧
    (∀ i : Four, slot.toNat = i.val → (∀ c, s.sto.slots.get i = some c → c.num ≠ num.toNat) → answers (.plain .gone)) ∧
    (∀ (i : Four) (c : Capture), slot.toNat = i.val → s.sto.slots.get i = some c → c.num = num.toNat →
      ∃ r, answers (.captureInfo r) ∧ r.name = CapName.mk i c.num ∧ r.record = c ∧
        r.chain = (s.sto.chain c).map (fun e => e.1) ∧ r.oldestIndex = s.sto.oldestIndex c ∧
        r.held = ((s.sto.chain c).map fun e => (e.2.records.map fun x => x.run).sum).sum ∧
        r.writtenEnd = r.oldestIndex + r.held ∧ (r.held = 0 → r.lastIndex = none) ∧
        (0 < r.held → r.lastIndex = some (r.writtenEnd - 1)) ∧
        r.oldestTime = c.origin.map (fun o => o + r.oldestIndex * c.div) ∧
        (∀ o l, c.origin = some o → r.lastIndex = some l → r.lastTime = some (o + l * c.div)) ∧
        r.engine = if c.complete then none else some s.acq.engine))

/-- RETAIN and RELEASE by the capture named: gone, ACTIVE or COMPLETE; they touch the requesting port's retain alone (R47, R48,
R35). STORE_HEALTH answers the four items and clears the counts and the location where asked; STORE_TEST sets the request's
kind, and the next record placed is stored with that corruption and uses the request up (R53, R54). MODEL'S CHOICE (log 15):
the clear option is 1 for yes and 2 for no. -/
def Obligations.StoreRequests : Prop :=
  (∀ (p : Port) (tag slot : Byte) (num : BitVec 16) (s : State),
    let after := fun (u : State) a => u.setPort p { s.ports.get p with slot := .answered tag a }
    let marked := fun (i : Four) (c : Capture) x => s.setSto { s.sto with
      slots := s.sto.slots.set i (some { c with retain := c.retain.set p x }) }
    (s.holds p (.retain p tag slot num) →
      (4 ≤ slot.toNat → exec (.retain p tag slot num) s = .next (after s (.plain .invalid))) ∧
      (∀ i : Four, slot.toNat = i.val →
        ((∀ c, s.sto.slots.get i = some c → c.num ≠ num.toNat) → exec (.retain p tag slot num) s = .next (after s (.plain .gone))) ∧
        (∀ c, s.sto.slots.get i = some c → c.num = num.toNat → c.complete = false →
          exec (.retain p tag slot num) s = .next (after s (.plain .active))) ∧
        (∀ c, s.sto.slots.get i = some c → c.num = num.toNat → c.complete = true →
          exec (.retain p tag slot num) s = .next (after (marked i c true) (.plain .ok))))) ∧
    (s.holds p (.release p tag slot num) →
      (4 ≤ slot.toNat → exec (.release p tag slot num) s = .next (after s (.plain .invalid))) ∧
      (∀ i : Four, slot.toNat = i.val →
        ((∀ c, s.sto.slots.get i = some c → c.num ≠ num.toNat) → exec (.release p tag slot num) s = .next (after s (.plain .gone))) ∧
        (∀ c, s.sto.slots.get i = some c → c.num = num.toNat → c.complete = false →
          exec (.release p tag slot num) s = .next (after s (.plain .ok))) ∧
        (∀ c, s.sto.slots.get i = some c → c.num = num.toNat → c.complete = true →
          exec (.release p tag slot num) s = .next (after (marked i c false) (.plain .ok)))))) ∧
  (∀ (p : Port) (tag clear : Byte) (s : State), s.holds p (.storeHealth p tag clear) →
    let a := Answer.health s.sto.correctable s.sto.uncorrectable s.sto.lastErr s.sto.test
    let after := fun (u : State) x => u.setPort p { s.ports.get p with slot := .answered tag x }
    (clear = 1 → exec (.storeHealth p tag clear) s =
      .next (after (s.setSto { s.sto with correctable := 0, uncorrectable := 0, lastErr := none }) a)) ∧
    (clear = 2 → exec (.storeHealth p tag clear) s = .next (after s a)) ∧
    (clear ≠ 1 → clear ≠ 2 → exec (.storeHealth p tag clear) s = .next (after s (.plain .invalid)))) ∧
  (∀ (p : Port) (tag kind : Byte) (s : State), s.holds p (.storeTest p tag kind) →
    let after := fun (u : State) x => u.setPort p { s.ports.get p with slot := .answered tag x }
    (kind = 1 → exec (.storeTest p tag kind) s = .next (after (s.setSto { s.sto with test := some .single }) (.plain .ok))) ∧
    (kind = 2 → exec (.storeTest p tag kind) s = .next (after (s.setSto { s.sto with test := some .double }) (.plain .ok))) ∧
    (kind ≠ 1 → kind ≠ 2 → exec (.storeTest p tag kind) s = .next (after s (.plain .invalid)))) ∧
  (∀ (s : State) (name : CapName) (c : Capture) (n : Nat) (b : Block) (word : ChannelWord) (index : Nat),
    s.sto.filling name = some (n, b) → s.sto.capture name = some c → b.records.length < 4096 →
    ∃ t f, s.placeRecord name word index = (t, true) ∧ t.sto.test = none ∧
      (lookupBlock t.sto.blocks n).map (fun x => x.records) = some (b.records ++ [Rec.mk word 1 f]) ∧
      f = match s.sto.test with | none => 0 | some .single => 0b1 | some .double => 0b11)

/-- READ_RECORDS: INVALID for a slot or a count out of range, GONE, AT_END beyond the written end; otherwise the records from the one
that contains the start index on, as many as asked for, TRIMMED when the start is below the oldest held index, AT_END when
the capture's last record is among them; from a chain that reads clean they are the records as written, and nothing changes
(R49, R50). What every read finds and does: a clean record and a SINGLE one return their true contents without the mark, a
DOUBLE one its word with bits 0 and 1 flipped, its true run length and the mark; a correctable error is counted and located,
an uncorrectable one is counted and located, marks its block and its capture DAMAGED and raises STORE_ERROR to both ports,
and nothing else changes (R51, R52, R54). MODEL'S CHOICE (log 16): the records of the start's block before the start are
read too. -/
def Obligations.ReadRecords : Prop :=
  (∀ (p : Port) (tag slot : Byte) (num : BitVec 16) (start : BitVec 64) (count : Byte) (s : State),
    s.holds p (.readRecords p tag slot num start count) →
    let answers := fun a => exec (.readRecords p tag slot num start count) s =
      .next (s.setPort p { s.ports.get p with slot := .answered tag a })
    ((4 ≤ slot.toNat ∨ count.toNat = 0 ∨ 128 < count.toNat) → answers (.plain .invalid)) ∧
    (∀ i : Four, slot.toNat = i.val → 1 ≤ count.toNat → count.toNat ≤ 128 →
      ((∀ c, s.sto.slots.get i = some c → c.num ≠ num.toNat) → answers (.plain .gone)) ∧
      (∀ c, s.sto.slots.get i = some c → c.num = num.toNat →
        let oldest := s.sto.oldestIndex c
        let written := s.sto.writtenEnd c
        let left := ((s.sto.chain c).flatMap fun e => plainRecords e.2.first e.2.records).dropWhile fun r =>
          decide (r.first + r.run ≤ max start.toNat oldest)
        (written ≤ start.toNat → answers (.records oldest written false true [])) ∧
        (start.toNat < written → (∀ e ∈ s.sto.chain c, ∀ r ∈ e.2.records, r.flips = 0) →
          answers (.records oldest written (decide (start.toNat < oldest)) (decide (left.length ≤ count.toNat))
            (left.take count.toNat))) ∧
        (start.toNat < written → s.sto.wf = true →
          let all := ((s.sto.chain c).dropWhile fun e => decide (e.2.endIndex ≤ max start.toNat oldest)).flatMap readsOf
          let passed := all.takeWhile fun e => decide (e.read.first + e.read.run ≤ max start.toNat oldest)
          let given := (all.drop passed.length).take count.toNat
          ∃ t, exec (.readRecords p tag slot num start count) s = .next t ∧
            s.answered t p tag (.records oldest written (decide (start.toNat < oldest))
              (decide (all.length ≤ passed.length + count.toNat)) (given.map fun e => e.read)) ∧
            s.readsNoted t (CapName.mk i c.num) (passed ++ given) ∧
            (∀ q n, n ≠ .storeError → t.hasNotice q n = s.hasNotice q n) ∧ t.acq = s.acq ∧ t.smp = s.smp ∧ t.trg = s.trg ∧
            t.lanes = s.lanes ∧ t.evl = s.evl ∧ t.vrn = s.vrn ∧ s.outsideKept t)))) ∧
  (∀ (word : ChannelWord) (run : Nat), 1 ≤ run → run ≤ 65536 →
    (∀ f, f = 0 ∨ f = 1 → (Rec.mk word run f).wordRead = word ∧ (Rec.mk word run f).runRead = run) ∧
    (Rec.mk word run 3).wordRead = word ^^^ 3 ∧ (Rec.mk word run 3).runRead = run ∧
    checkOf (Rec.mk word run 0) = none ∧ checkOf (Rec.mk word run 1) = some .correctable ∧
    checkOf (Rec.mk word run 3) = some .uncorrectable) ∧
  (∀ (n : Nat) (b : Block) (k : Nat) (e : ReadEntry), (readsOf (n, b))[k]? = some e → ∃ r, b.records[k]? = some r ∧
    e.block = n ∧ e.number = k ∧ e.check = checkOf r ∧ e.read.word = r.wordRead ∧ e.read.run = r.runRead ∧
    (e.read.damaged = true ↔ checkOf r = some .uncorrectable) ∧
    e.read.first = b.first + ((b.records.take k).map fun y => y.runRead).sum) ∧
  (∀ (s : State) (name : CapName) (c : Capture) (e : ReadEntry) (b : Block), s.sto.capture name = some c →
    lookupBlock s.sto.blocks e.block = some b →
    (e.check = none → s.noteRead name e = s) ∧
    (e.check = some .correctable → s.noteRead name e = s.setSto { s.sto with
      correctable := min 65535 (s.sto.correctable + 1), lastErr := some (ErrLoc.mk e.block e.number .correctable) }) ∧
    (e.check = some .uncorrectable → ∃ t, s.noteRead name e = t ∧
      t.sto = { s.sto with
        uncorrectable := min 65535 (s.sto.uncorrectable + 1), lastErr := some (ErrLoc.mk e.block e.number .uncorrectable)
        blocks := t.sto.blocks, slots := s.sto.slots.set name.slot (some { c with damaged := true }) } ∧
      lookupBlock t.sto.blocks e.block = some { b with damaged := true } ∧
      (∀ n, n ≠ e.block → lookupBlock t.sto.blocks n = lookupBlock s.sto.blocks n) ∧
      s.portsGain t [.storeError] ∧ s.slotsKept t ∧ t.acq = s.acq ∧ t.smp = s.smp ∧ t.trg = s.trg ∧ t.lanes = s.lanes ∧
      t.evl = s.evl ∧ t.vrn = s.vrn ∧ s.outsideKept t))

/-- Placing a record: appended while the FILLING block has room; otherwise that block is sealed, and below quota the lowest FREE
block is chained behind it and takes the record; at quota, or below it with no FREE block and nothing to reclaim, a FILL
capture finds no block, and a WINDOW capture takes its own head block, when that is SEALED, is not the block just filled and
is not the trigger block: the events that start before its new oldest held time leave the list with the missed counts of
R143 and are counted as expired (R32, R38, R39, R41, R42, R141, R143). A pending store-test request corrupts the record that is
placed, in whichever block it is, and is used up with it; a record that is not placed leaves the request (R54). The path
with a reclaim is that of ReclaimsMakeRoom. -/
def Obligations.PlacingRecords : Prop :=
  ∀ (s : State) (name : CapName) (c : Capture) (n : Nat) (b : Block) (word : ChannelWord) (index : Nat), s.sto.wf = true →
    s.sto.filling name = some (n, b) → s.sto.capture name = some c →
    (s.sto.chain c).getLast? = some (n, b) → b.next = none → ((s.sto.chain c).map fun e => e.1).Nodup →
    (∀ e ∈ s.sto.chain c, e.2.owner = name) →
    (∀ m x, lookupBlock s.sto.blocks m = some x → x.owner = name → m ≠ n → x.state = .sealed) →
    let noNew := c.quota ≤ s.sto.ownedCount name ∨ (s.sto.noneFree ∧ s.reclaim = none)
    (b.records.length < 4096 → ∃ t, s.placeRecord name word index = (t, true) ∧
      lookupBlock t.sto.blocks n = some { b with
        records := b.records ++ [s.sto.newRecord word], first := if b.records = [] then index else b.first } ∧
      (∀ m, m ≠ n → lookupBlock t.sto.blocks m = lookupBlock s.sto.blocks m) ∧
      t = s.setSto { s.sto with blocks := t.sto.blocks, test := none }) ∧
    (b.records.length = 4096 → s.sto.ownedCount name < c.quota → ∀ m, s.sto.firstFree m →
      ∃ t, s.placeRecord name word index = (t, true) ∧
        lookupBlock t.sto.blocks n = some { b with state := .sealed, next := some m } ∧
        lookupBlock t.sto.blocks m = some (Block.mk .filling name index false none [s.sto.newRecord word]) ∧
        (∀ k, k ≠ n → k ≠ m → lookupBlock t.sto.blocks k = lookupBlock s.sto.blocks k) ∧
        t = s.setSto { s.sto with blocks := t.sto.blocks, test := none }) ∧
    (b.records.length = 4096 → noNew → (c.mode = .fill ∨ c.head = n ∨ c.trigBlock = some c.head) →
      ∃ t, s.placeRecord name word index = (t, false) ∧
        lookupBlock t.sto.blocks n = some { b with state := .sealed } ∧
        (∀ m, m ≠ n → lookupBlock t.sto.blocks m = lookupBlock s.sto.blocks m) ∧
        t = s.setSto { s.sto with blocks := t.sto.blocks }) ∧
    (b.records.length = 4096 → noNew → c.mode = .window → c.head ≠ n →
      c.trigBlock ≠ some c.head → ∀ o, c.origin = some o → ∃ t h y, s.placeRecord name word index = (t, true) ∧
        (lookupBlock s.sto.blocks c.head).bind (fun x => x.next) = some h ∧ lookupBlock s.sto.blocks h = some y ∧
        lookupBlock t.sto.blocks c.head = some (Block.mk .filling name index false none [s.sto.newRecord word]) ∧
        lookupBlock t.sto.blocks n = some { b with state := .sealed, next := some c.head } ∧
        (∀ k, k ≠ n → k ≠ c.head → lookupBlock t.sto.blocks k = lookupBlock s.sto.blocks k) ∧
        (let gone := fun e : Event => decide (e.cap = name ∧ e.start < ((o + y.first * c.div : Nat) : Int))
         t.evl.events = s.evl.events.filter (fun e => !gone e) ∧ t.evl.nextSeq = s.evl.nextSeq ∧
         (∀ q, t.evl.port.get q = { s.evl.port.get q with
           missed := min 65535 ((s.evl.port.get q).missed +
             (s.evl.events.filter fun e => gone e && decide ((s.evl.port.get q).cursor ≤ e.seq)).length) }) ∧
         t.sto.capture name = some { c with
           head := h, expired := min 4294967295 (c.expired + (s.evl.events.filter gone).length) }) ∧
        (∀ i, i ≠ name.slot → t.sto.slots.get i = s.sto.slots.get i) ∧
        t.sto = { s.sto with blocks := t.sto.blocks, slots := t.sto.slots, test := none } ∧
        t.acq = s.acq ∧ t.smp = s.smp ∧ t.trg = s.trg ∧ t.lanes = s.lanes ∧ t.vrn = s.vrn ∧ t.ports = s.ports ∧
        s.outsideKept t)

/-! ## The event list -/

/-- An event that comes to EVL: not entered when its capture is gone; dropped and counted as expired when it starts before the
capture's oldest held time; entered at the end of the list with the next sequence where there is room, with both ports'
ready states checked; with a full list, the oldest COMPLETE capture that no port retains is reclaimed and the event comes
to the list again, as often as it takes; and it is discarded and counted as truncated when there is nothing to reclaim
(R138, R139, R140, R145). -/
def Obligations.EventEntry : Prop :=
  ∀ (s : State) (e : Event),
    let entered := fun (u t : State) =>
      t.evl.events = u.evl.events ++ [{ e with seq := u.evl.nextSeq }] ∧ t.evl.nextSeq = u.evl.nextSeq + 1 ∧
      (∀ q, let x := u.evl.port.get q
        let full := decide (x.threshold ≤ (t.evl.events.filter fun f => x.cursor ≤ f.seq).length)
        t.evl.port.get q = { x with primed := x.primed && !full } ∧
        t.hasNotice q .eventsReady = (u.hasNotice q .eventsReady || (x.primed && full)) ∧
        ∀ n, n ≠ .eventsReady → t.hasNotice q n = u.hasNotice q n) ∧
      t = (u.setEvl t.evl).setPorts t.ports ∧ u.slotsKept t
    (s.sto.capture e.cap = none → s.enterEvent e = s) ∧
    (∀ c, s.sto.capture e.cap = some c →
      (∀ o, c.origin = some o → e.start < ((o + s.sto.oldestIndex c * c.div : Nat) : Int) →
        s.enterEvent e = s.setSto { s.sto with
          slots := s.sto.slots.set e.cap.slot (some { c with expired := min 4294967295 (c.expired + 1) }) }) ∧
      ((∀ o, c.origin = some o → ((o + s.sto.oldestIndex c * c.div : Nat) : Int) ≤ e.start) →
        (s.evl.events.length < 8192 → ∃ t, s.enterEvent e = t ∧ entered s t) ∧
        (8192 ≤ s.evl.events.length → s.reclaim = none → s.enterEvent e = s.setSto { s.sto with
          slots := s.sto.slots.set e.cap.slot (some { c with truncated := min 4294967295 (c.truncated + 1) }) }) ∧
        (∀ u, 8192 ≤ s.evl.events.length → s.reclaim = some u →
          (u.evl.events.length < 8192 → ∃ t, s.enterEvent e = t ∧ entered u t) ∧
          (c.complete = false → s.sto.wf = true → (∀ b, lookupBlock s.sto.blocks c.head = some b → b.owner = e.cap) →
            u.sto.capture e.cap = some c ∧ s.enterEvent e = u.enterEvent e))))

/-- The requests of the event list. EVENTS_READ: INVALID for a count outside 1 to 16; otherwise at most that many events from the
cursor on, the missed count as it stood, the backlog after the read and the next sequence; the cursor moves past the last
event returned and the missed count is 0 (R146). EVENTS_SEEK to each of its targets, with INVALID for another target or slot
and GONE for a capture that is gone (R147, R35); EVENTS_THRESHOLD, INVALID outside 1 to 8192 (R148). Each that is not refused
handles the ready state (R145). MODEL'S CHOICE: a refused EVENTS_SEEK does not (log 30). -/
def Obligations.EventListRequests : Prop :=
  (∀ (p : Port) (tag count : Byte) (s : State), s.holds p (.eventsRead p tag count) →
      ((count.toNat = 0 ∨ 16 < count.toNat) → exec (.eventsRead p tag count) s =
        .next (s.setPort p { s.ports.get p with slot := .answered tag (.plain .invalid) })) ∧
      (1 ≤ count.toNat → count.toNat ≤ 16 →
        let x := s.evl.port.get p
        let evs := (s.evl.events.filter fun e => x.cursor ≤ e.seq).take count.toNat
        ∀ cursor, ((evs = [] ∧ cursor = x.cursor) ∨ ∃ e, evs.getLast? = some e ∧ cursor = e.seq + 1) →
          let u := s.afterEventRequest p { x with cursor := cursor, missed := 0 }
          exec (.eventsRead p tag count) s = .next (u.setPort p { u.ports.get p with
            slot := .answered tag (.events evs x.missed (s.evl.events.filter fun e => cursor ≤ e.seq).length s.evl.nextSeq) }))) ∧
  (∀ (p : Port) (tag : Byte) (target : SeekTarget) (s : State), s.holds p (.eventsSeek p tag target) →
    let refuses := fun a => exec (.eventsSeek p tag target) s =
      .next (s.setPort p { s.ports.get p with slot := .answered tag a })
    let moves := fun (none_ : Bool) (cursor : Nat) =>
      let u := s.afterEventRequest p { s.evl.port.get p with cursor := cursor }
      exec (.eventsSeek p tag target) s = .next (u.setPort p { u.ports.get p with
        slot := .answered tag (.seek none_ cursor (s.evl.events.filter fun e => cursor ≤ e.seq).length) })
    (∀ k body, target = .other k body → refuses (.plain .invalid)) ∧
    (∀ slot num time, (target = .firstOf slot num ∨ target = .atTime slot num time) → 4 ≤ slot.toNat →
      refuses (.plain .invalid)) ∧
    (∀ (slot : Byte) (num : BitVec 16) (time : BitVec 64) (i : Four),
      (target = .firstOf slot num ∨ target = .atTime slot num time) → slot.toNat = i.val →
      (∀ c, s.sto.slots.get i = some c → c.num ≠ num.toNat) → refuses (.plain .gone)) ∧
    (target = .newest → moves false s.evl.nextSeq) ∧
    (∀ (slot : Byte) (num : BitVec 16) (i : Four) (c : Capture) (wanted : Event → Bool), slot.toNat = i.val →
      s.sto.slots.get i = some c → c.num = num.toNat →
      ((target = .firstOf slot num ∧ wanted = fun e => decide (e.cap = CapName.mk i c.num)) ∨
        ∃ time : BitVec 64, target = .atTime slot num time ∧
          wanted = fun e => decide (e.cap = CapName.mk i c.num ∧ (time.toNat : Int) ≤ e.start)) →
      (∀ e, s.evl.events.find? wanted = some e → moves false e.seq) ∧
      (s.evl.events.find? wanted = none → moves true s.evl.nextSeq))) ∧
  (∀ (p : Port) (tag : Byte) (v : BitVec 16) (s : State), s.holds p (.eventsThreshold p tag v) →
    ((v.toNat = 0 ∨ 8192 < v.toNat) → exec (.eventsThreshold p tag v) s =
      .next (s.setPort p { s.ports.get p with slot := .answered tag (.plain .invalid) })) ∧
    (1 ≤ v.toNat → v.toNat ≤ 8192 →
      let x := s.evl.port.get p
      let u := s.afterEventRequest p { x with threshold := v.toNat }
      exec (.eventsThreshold p tag v) s = .next (u.setPort p { u.ports.get p with
        slot := .answered tag (.threshold v.toNat (s.evl.events.filter fun e => x.cursor ≤ e.seq).length) })))

/-! ## View rendering -/

/-- RENDER_START: its checks in their order, each with its answer, and the start that passes them: the parameters with the skews as
PRB gives them now, column 0, an empty queue, RUNNING; a render in progress ends REPLACED; the renderer's turn passes by
R154; the other port's context is not touched (R151, R152, R154). -/
def Obligations.RenderStart : Prop :=
  ∀ (p : Port) (tag slot : Byte) (num : BitVec 16) (start width : BitVec 64) (columns : BitVec 16) (channels : List Byte)
    (lanes : Byte) (s : State), s.holds p (.renderStart p tag slot num start width columns channels lanes) →
    let e := exec (.renderStart p tag slot num start width columns channels lanes) s
    let answers := fun a => e = .next (s.setPort p { s.ports.get p with slot := .answered tag a })
    let list := channels.map fun x => x.toNat
    (4 ≤ slot.toNat → answers (.renderInvalid .slot)) ∧
    (∀ i : Four, slot.toNat = i.val → (∀ c, s.sto.slots.get i = some c → c.num ≠ num.toNat) → answers (.plain .gone)) ∧
    (∀ (i : Four) (c : Capture), slot.toNat = i.val → s.sto.slots.get i = some c → c.num = num.toNat →
      if columns.toNat = 0 ∨ 1024 < columns.toNat then answers (.renderInvalid .columns)
      else if width.toNat < 64 ∨ 2 ^ 40 < width.toNat then answers (.renderInvalid .width)
      else if 256 * (2 ^ 64 - 1) < 256 * start.toNat + columns.toNat * width.toNat then answers (.renderInvalid .window)
      else if list.length = 0 ∨ 32 < list.length ∨ (∃ x ∈ list, 31 < x) ∨ ¬ list.Nodup then
        answers (.renderInvalid .channelList)
      else match list.find? fun x => !c.mask.getLsbD x with
        | some x => answers (.renderInvalid (.channel x))
        | none =>
          if 15 < lanes.toNat then answers (.renderInvalid .laneSet)
          else e = .next ((s.setVrn {
              ctx := s.vrn.ctx.set p {
                state := .running, queue := []
                lastEnd := if (s.vrn.ctx.get p).state = .idle then (s.vrn.ctx.get p).lastEnd else some .replaced
                render := some {
                  cap := CapName.mk i c.num, start := start.toNat, width := width.toNat, columns := columns.toNat,
                  channels := list, lanes := BitVec.ofNat 4 lanes.toNat, skews := list.map s.skewOf, nextCol := 0,
                  mark := none } }
              turn :=
                if s.vrn.turn = some p then (if (s.vrn.ctx.get p.other).state = .running then some p.other else some p)
                else if s.vrn.turn = none then some p
                else s.vrn.turn }).setPort p { s.ports.get p with
            slot := .answered tag (.renderStarted (list.map s.skewOf)
              (if s.sto.heldCount c = 0 then none else s.sto.oldestTime c) (s.sto.lastTime c)) }))

/-- RENDER_FETCH by the state of the port's context, and RENDER_CANCEL: the items leave the head of the queue in order; a WAITING
context that gave items is RUNNING again; a FINISHED one that is empty ends DONE with RENDER_ENDED; a cancelled render ends
CANCELLED without it, and its turn passes on (R150, R153, R154, R163). -/
def Obligations.RenderFetchAndCancel : Prop :=
  (∀ (p : Port) (tag count : Byte) (s : State), s.vrn.lawful → s.holds p (.renderFetch p tag count) →
    let x := s.vrn.ctx.get p
    let got := x.queue.take count.toNat
    let left := x.queue.drop count.toNat
    let next := x.render.map fun r => r.nextCol
    let after := fun (u : State) a => exec (.renderFetch p tag count) s =
      .next (u.setPort p { u.ports.get p with slot := .answered tag a })
    let holding := fun (y : RenderCtx) turn => s.setVrn { ctx := s.vrn.ctx.set p y, turn := turn }
    ((count.toNat = 0 ∨ 16 < count.toNat) → after s (.plain .invalid)) ∧
    (1 ≤ count.toNat → count.toNat ≤ 16 →
      (x.state = .idle → x.lastEnd = some .gone → after s (.plain .gone)) ∧
      (x.state = .idle → x.lastEnd ≠ some .gone → after s (.items [] .idle x.lastEnd none 0)) ∧
      (x.state = .running →
        after (holding { x with queue := left } s.vrn.turn) (.items got .running x.lastEnd next left.length)) ∧
      (x.state = .waiting →
        after (holding { x with queue := left, state := .running } (if s.vrn.turn = none then some p else s.vrn.turn))
          (.items got .running x.lastEnd next left.length)) ∧
      (x.state = .finished → left ≠ [] →
        after (holding { x with queue := left } s.vrn.turn) (.items got .finished x.lastEnd next left.length)) ∧
      (x.state = .finished → left = [] →
        after ((holding { state := .idle, render := none, queue := [], lastEnd := some .done } s.vrn.turn).raise p .renderEnded)
          (.items got .idle (some .done) none 0)))) ∧
  (∀ (p : Port) (tag : Byte) (s : State), s.holds p (.renderCancel p tag) →
    let after := fun (u : State) => exec (.renderCancel p tag) s =
      .next (u.setPort p { u.ports.get p with slot := .answered tag (.plain .ok) })
    ((s.vrn.ctx.get p).state = .idle → after s) ∧
    ((s.vrn.ctx.get p).state ≠ .idle → after (s.setVrn {
      ctx := s.vrn.ctx.set p { state := .idle, render := none, queue := [], lastEnd := some .cancelled }
      turn :=
        if s.vrn.turn = some p then (if (s.vrn.ctx.get p.other).state = .running then some p.other else none)
        else s.vrn.turn })))

/-- The renderer's items, for the context that holds the turn. ANNOTATION_ITEM queues the first event due, placed by R160, and
sets the mark; COLUMN_ITEM with no annotation due queues the column, moves to the next one and ends the turn, and the
context is FINISHED after the last; RENDER_DATA goes to the owner when the queue was empty; a full queue makes the context
WAITING instead (R154, R155, R160, R161, R162). The records that a column reads are the chain's, every one's check has its
consequences, and the item is DAMAGED exactly when one read is; from a chain that reads clean nothing else changes (R51, R52,
R159). MODEL'S CHOICES: the item that is not the next to be made is not made (log 27); a FINISHED context's next column is
the column count (log 28). -/
def Obligations.RendererItems : Prop :=
  (∀ s : State, s.vrn.turn = none → exec .columnItem s = .next s ∧ exec .annotationItem s = .next s) ∧
  (∀ (x : Store) (r : Render) (j : Nat), ∃ void beyond damaged entries,
    (columnOf x r j).1 = .column j void beyond damaged entries ∧ entries.length = min r.channels.length r.skews.length ∧
    (damaged = true ↔ ∃ e ∈ (columnOf x r j).2, e.check = some .uncorrectable) ∧
    ∀ e ∈ (columnOf x r j).2, ∃ c, x.capture r.cap = some c ∧ ∃ y ∈ x.chain c, e ∈ readsOf y) ∧
  ∀ (s : State) (p : Port) (x : RenderCtx) (r : Render), s.vrn.turn = some p → s.vrn.ctx.get p = x → x.state = .running →
    x.render = some r → 1 ≤ r.width →
    let passed := if (s.vrn.ctx.get p.other).state = .running then some p.other else none
    let waits := s.setVrn { ctx := s.vrn.ctx.set p { x with state := .waiting }, turn := passed }
    let told := fun (t : State) => t.hasNotice p .renderData = (s.hasNotice p .renderData || x.queue.isEmpty) ∧
      (t.ports.get p.other) = (s.ports.get p.other) ∧ (t.ports.get p).slot = (s.ports.get p).slot ∧
      ∀ n, n ≠ .renderData → t.hasNotice p n = s.hasNotice p n
    (∀ e, s.evl.firstDue r e →
      exec .columnItem s = .next s ∧ (64 ≤ x.queue.length → exec .annotationItem s = .next waits) ∧
      (x.queue.length < 64 → ∃ t a b, exec .annotationItem s = .next t ∧
        a = 256 * (e.start - (r.start : Int)) ∧ b = 256 * (e.stop - (r.start : Int)) ∧
        t.vrn = { s.vrn with ctx := s.vrn.ctx.set p { x with
          render := some { r with mark := some e.seq }
          queue := x.queue ++ [Item.annotation e.seq e.lane e.kind e.value
            (if 0 ≤ a then (a / (r.width : Int)).toNat else 0)
            (if b < (r.columns : Int) * (r.width : Int) then (b / (r.width : Int)).toNat else r.columns - 1)
            (decide (a < 0)) (decide ((r.columns : Int) * (r.width : Int) ≤ b))] } } ∧
        told t ∧ t = (s.setVrn t.vrn).setPorts t.ports)) ∧
    ((∀ e, ¬ s.evl.firstDue r e) →
      exec .annotationItem s = .next s ∧ (64 ≤ x.queue.length → exec .columnItem s = .next waits) ∧
      (x.queue.length < 64 → ∃ t, exec .columnItem s = .next t ∧
        t.vrn = {
          ctx := s.vrn.ctx.set p { x with
            state := if r.nextCol + 1 < r.columns then .running else .finished
            render := some { r with nextCol := r.nextCol + 1, mark := none }
            queue := x.queue ++ [(columnOf s.sto r r.nextCol).1] }
          turn := if (s.vrn.ctx.get p.other).state = .running then some p.other
            else if r.nextCol + 1 < r.columns then some p else none } ∧
        ((∀ c, s.sto.capture r.cap = some c → ∀ e ∈ s.sto.chain c, ∀ y ∈ e.2.records, y.flips = 0) →
          told t ∧ t = (s.setVrn t.vrn).setPorts t.ports) ∧
        (s.sto.wf = true → s.readsNoted t r.cap (columnOf s.sto r r.nextCol).2) ∧
        t.hasNotice p .renderData = (s.hasNotice p .renderData || x.queue.isEmpty) ∧
        (∀ q n, n ≠ .storeError → (q = p.other ∨ n ≠ .renderData) → t.hasNotice q n = s.hasNotice q n) ∧ s.slotsKept t ∧
        t.timebase = s.timebase ∧ t.pods = s.pods ∧ t.smp = s.smp ∧ t.acq = s.acq ∧ t.trg = s.trg ∧ t.lanes = s.lanes ∧
        t.evl = s.evl ∧ t.pending = s.pending ∧ t.freeIx = s.freeIx))

/-- What a column item shows, told from the held samples alone, for a capture whose chain reads clean: VOID, BEYOND or neither by
the classes of the listed channels, and for each channel in view the level of the sample with the greatest offset at or
below the left edge, that of the sample with the greatest offset below the right edge, and the number of held samples in
the column on which the channel changes, the first held sample never counting (R156, R157, R158). -/
def Obligations.ColumnShowsSamples : Prop :=
  ∀ (x : Store) (r : Render) (c : Capture) (o j : Nat), x.capture r.cap = some c → c.origin = some o → 1 ≤ c.div →
    1 ≤ r.width → x.cleanChain c →
    let words := x.samples c
    let listed := r.channels.zip r.skews
    let left := (j : Int) * (r.width : Int)
    let right := ((j : Int) + 1) * (r.width : Int)
    let off := fun (k : Int) (m : Nat) =>
      256 * (((o + (x.oldestIndex c + m) * c.div : Nat) : Int) - k - (r.start : Int))
    let level := fun (ch m : Nat) => (words.getD m 0).getLsbD ch
    let before := fun k => 0 < words.length ∧ ∀ m, m < words.length → right ≤ off k m
    let after := fun k => ∀ m, m < words.length → off k m < left
    ∃ void beyond entries, (columnOf x r j).1 = .column j void beyond false entries ∧ entries.length = listed.length ∧
      (void = true ↔ ∀ y ∈ listed, before y.2) ∧
      (beyond = true ↔ (∀ y ∈ listed, before y.2 ∨ after y.2) ∧ ∃ y ∈ listed, after y.2) ∧
      ∀ (i ch : Nat) (k : Int) (n : ColumnEntry), listed[i]? = some (ch, k) → entries[i]? = some n →
        ((before k ∨ after k) → n = { start := .unknown, stop := .unknown, count := 0 }) ∧
        (¬ before k → ¬ after k →
          (∀ m, m < words.length → off k m ≤ left → (∀ m', m < m' → m' < words.length → left < off k m') →
            n.start = if level ch m then .high else .low) ∧
          ((∀ m, m < words.length → left < off k m) → n.start = .unknown) ∧
          (∀ m, m < words.length → off k m < right → (∀ m', m < m' → m' < words.length → right ≤ off k m') →
            n.stop = if level ch m then .high else .low) ∧
          n.count = min 255 ((List.range words.length).filter fun m =>
            decide (0 < m ∧ left ≤ off k m ∧ off k m < right ∧ level ch m ≠ level ch (m - 1))).length)

/-! ## Pods -/

/-- A threshold computation: the requested threshold limited to the range, N computed exactly, q of magnitude (|N| + 25,165,824) / Dn
with the remainder dropped and of N's sign, which is N / Dn to the nearest with halves away from zero, the code 2048 + q
limited to 0 and 4095, both flags set exactly where a limit was applied; a record's recomputation takes all three, and the
socket's DAC is driven with the code (R11, R1). -/
def Obligations.ThresholdCodeRule : Prop :=
  ∀ (requested lo hi gain offset : Int), lo ≤ hi → ∀ V N q : Int,
    V = (if requested < lo then lo else if hi < requested then hi else requested) →
    N = 16 * V * (2 ^ 20 + gain) + 3 * 2 ^ 20 * offset →
    q = (if 0 ≤ N then (((N.natAbs + 25165824) / 50331648 : Nat) : Int) else -(((N.natAbs + 25165824) / 50331648 : Nat) : Int)) →
    thresholdCode requested lo hi gain offset =
      ((if 2048 + q < 0 then 0 else if 4095 < 2048 + q then 4095 else (2048 + q).toNat),
        decide (requested < lo ∨ hi < requested), decide (2048 + q < 0 ∨ 4095 < 2048 + q)) ∧
    2 * (50331648 * q - N).natAbs ≤ 50331648 ∧
    (2 * (50331648 * q - N).natAbs = 50331648 → N.natAbs < 50331648 * q.natAbs) ∧
    ∀ (x : Pod) (d : Descriptor), x.requested = requested → x.desc = some d → d.rangeMin = lo → d.rangeMax = hi →
      d.gain = gain → d.offset = offset →
      (x.recompute.code, x.recompute.rangeClamped, x.recompute.codeClamped) = thresholdCode requested lo hi gain offset ∧
      ∀ (s : State) (i : Four), (s.setPod i x.recompute).dacCode i = (thresholdCode requested lo hi gain offset).1

/-- A sense line: a change to present starts the debounce of an ABSENT record and touches no other field; 50 ms on, the record goes to
IDENTIFYING with the first attempt started by a start condition on its bus; an absent reading stops the debounce of an ABSENT
record, and takes any other record to ABSENT with POD_CHANGED to both ports, an exchange cut off where it stood, its code and
flags kept (R3, R4, R6, R7). The loss reaches an ACTIVE capture that is being sampled and whose mask holds a channel of the
pod, once, with the moment of the detach (R5). MODEL'S CHOICES (logs 2, 3, 5, 19): the moments, the record kept of an
exchange, and that a reading without a change and an expiry that is not due change nothing. -/
def Obligations.PodSense : Prop :=
  ∀ (i : Four) (at_ : Nat) (s : State) (x : Pod), s.pods.get i = x →
    (x.sense = true → exec (.sensePresent i at_) s = .next s) ∧
    (x.sense = false → x.state = .absent → exec (.sensePresent i at_) s = .next ((s.setTimebase (max s.timebase at_)).setPods
      (s.pods.set i { x with sense := true, debounce := some (max s.timebase at_) }))) ∧
    (x.sense = false → x.state ≠ .absent → exec (.sensePresent i at_) s =
      .next ((s.setTimebase (max s.timebase at_)).setPods (s.pods.set i { x with sense := true }))) ∧
    (∀ t0, x.state = .absent → x.debounce = some t0 →
      exec (.debounceExpiry i) s = .next ((s.setTimebase (max s.timebase (t0 + 50000000))).setPods (s.pods.set i { x with
        state := .identifying, reason := none, desc := none, attempts := 1
        bus := .attempt (max s.timebase (t0 + 50000000)), exchange := [.start], debounce := none }))) ∧
    ((x.state ≠ .absent ∨ x.debounce = none) → exec (.debounceExpiry i) s = .next s) ∧
    (x.state = .absent → exec (.podDetach i at_) s = .next ((s.setTimebase (s.detachMoment at_)).setPods
      (s.pods.set i { x with sense := false, debounce := none }))) ∧
    (x.state ≠ .absent → ∃ t, exec (.podDetach i at_) s = .next t ∧ t.timebase = s.detachMoment at_ ∧
      t.pods = s.pods.set i { x with
        state := .absent, reason := none, desc := none, attempts := 0, bus := .quiet, debounce := none, sense := false } ∧
      s.portsGain t [.podChanged] ∧ s.slotsKept t ∧ t.acq = s.acq ∧ t.trg = s.trg ∧ t.lanes = s.lanes ∧ t.evl = s.evl ∧
      t.vrn = s.vrn ∧ t.freeIx = s.freeIx ∧ t.pending = s.pending ∧
      ((s.acq.engine = .idle ∨ s.acq.engine = .stopping) → t.smp = s.smp ∧ t.sto = s.sto) ∧
      ∀ name c y, (s.acq.engine = .arming ∨ s.acq.engine = .armed ∨ s.acq.engine = .triggered) → s.acq.active = some name →
        s.sto.capture name = some c → s.smp = some y →
        ((∀ ch, 8 * i.val ≤ ch → ch < 8 * i.val + 8 → c.mask.getLsbD ch = false) → t.smp = s.smp ∧ t.sto = s.sto) ∧
        ((∃ ch, 8 * i.val ≤ ch ∧ ch < 8 * i.val + 8 ∧ c.mask.getLsbD ch = true) →
          t.smp = some { y with
            lost := if ∃ e ∈ y.lost, e.1 = i then y.lost else y.lost ++ [(i, s.detachMoment at_)] } ∧
          t.sto = { s.sto with slots := s.sto.slots.set name.slot (some { c with
            podLost := if ∃ e ∈ c.podLost, e.1 = i then c.podLost else c.podLost ++ [(i, s.detachMoment at_)] }) }))

/-- An identification. The signs of an attempt that is acknowledged: after the start condition the address byte 0x3A with the read
bit, most significant bit first, and its acknowledge, then the 64 bytes with an acknowledge after each but the last, then a
stop condition (R6). The 64 bytes are checked in order, checksum, format, ranges, and the record becomes READY with the
descriptor's values or DEGRADED with the reason of the first failing check and the defaults; an attempt fails with the
address byte not acknowledged, or with the clock held for more than 25 ms, and is followed by a stop condition and a wait of
10 ms, after which the next is started and counted; the fourth failure gives DEGRADED with NO_ANSWER; completion keeps the
attempt count, computes the code and raises POD_CHANGED to both ports (R7, R8, R9, R10). MODEL'S CHOICES (logs 2, 5, 19): the
moments, no earlier than the clocks take and not before the hold is longer than 25 ms; the record kept of an exchange, with no
stop condition after the fourth failure; with no attempt in progress, or no wait, nothing happens. -/
def Obligations.PodIdentification : Prop :=
  ∀ (i : Four) (bytes : Vector Byte 64) (at_ : Nat) (s : State) (x : Pod), s.pods.get i = x →
    let bs := bytes.toList
    let defaults : Descriptor := {
      kind := .standard, rangeMin := -6000, rangeMax := 6000, gain := 0, offset := 0, latency := 0,
      trims := Vector.replicate 8 0, model := none, serial := none }
    let signsOf := fun (b : Byte) => ([7, 6, 5, 4, 3, 2, 1, 0] : List Nat).map fun k => BusSign.clock (b.getLsbD k)
    let acked := fun (yes : Bool) => [BusSign.clock (!yes)]
    let answered := signsOf 0x75 ++ acked true ++
      (List.range 64).flatMap (fun k => signsOf (bs.getD k 0) ++ acked (decide (k < 63))) ++ [BusSign.stop]
    let done := fun (c : Instr) (due : Nat) (signs : List BusSign) (reason : Option DegradeReason) (d : Descriptor) =>
      ∃ t code rc cc, exec c s = .next t ∧ (code, rc, cc) = thresholdCode x.requested d.rangeMin d.rangeMax d.gain d.offset ∧
        t.pods = s.pods.set i { x with
          state := if reason = none then .ready else .degraded
          reason := reason, desc := some d, bus := .quiet, exchange := x.exchange ++ signs
          code := code, rangeClamped := rc, codeClamped := cc } ∧
        s.portsGain t [.podChanged] ∧ s.slotsKept t ∧
        t = ((s.setTimebase (max s.timebase due)).setPods t.pods).setPorts t.ports
    (¬ (x.state = .identifying ∧ ∃ since, x.bus = .attempt since) → exec (.descriptorReadDone i bytes at_) s = .next s ∧
      exec (.addressNak i at_) s = .next s ∧ exec (.clockHoldTimeout i at_) s = .next s) ∧
    (∀ since, x.state = .identifying → x.bus = .attempt since →
      let sumOk := (bs.map fun b => b.toNat).sum % 256 = 0
      let formatOk := fieldAt bs 0 1 = 1 ∧ fieldAt bs 1 1 = 8 ∧ (fieldAt bs 2 1 = 1 ∨ fieldAt bs 2 1 = 2)
      let rangesOk := -6000 ≤ signedAt bs 3 2 ∧ signedAt bs 3 2 < signedAt bs 5 2 ∧ signedAt bs 5 2 ≤ 6000 ∧
        -2048 ≤ signedAt bs 9 2 ∧ signedAt bs 9 2 ≤ 2047 ∧ fieldAt bs 11 1 ≤ 31 ∧
        ∀ k, k < 8 → -16 ≤ signedAt bs (12 + k) 1 ∧ signedAt bs (12 + k) 1 ≤ 15
      let read := done (.descriptorReadDone i bytes at_) (max at_ (since + 5850000)) answered
      (¬ sumOk → read (some .badChecksum) defaults) ∧
      (sumOk → ¬ formatOk → read (some .badFormat) defaults) ∧
      (sumOk → formatOk → ¬ rangesOk → read (some .badRange) defaults) ∧
      (sumOk → formatOk → rangesOk → ∃ d, read none d ∧
        d.kind = (if fieldAt bs 2 1 = 2 then .highZ else .standard) ∧ d.rangeMin = signedAt bs 3 2 ∧
        d.rangeMax = signedAt bs 5 2 ∧ d.gain = signedAt bs 7 2 ∧ d.offset = signedAt bs 9 2 ∧ d.latency = fieldAt bs 11 1 ∧
        (∀ k : Fin 8, d.trims[k] = signedAt bs (12 + k.val) 1) ∧ d.model = some ((bs.drop 20).take 16) ∧
        d.serial = some ((bs.drop 36).take 8)) ∧
      ∀ c due signs,
        ((c = Instr.addressNak i at_ ∧ due = max at_ (since + 90000) ∧ signs = signsOf 0x75 ++ acked false) ∨
          (c = Instr.clockHoldTimeout i at_ ∧ due = max at_ since + 25000001 ∧ signs = [.held])) →
        (x.attempts < 4 → exec c s = .next ((s.setTimebase (max s.timebase due)).setPods
          (s.pods.set i { x with
            bus := .retryWait (max s.timebase due + 10000000), exchange := x.exchange ++ signs ++ [.stop] }))) ∧
        (4 ≤ x.attempts → done c due signs (some .noAnswer) defaults)) ∧
    (∀ due, x.state = .identifying → x.bus = .retryWait due →
      exec (.retryWaitExpiry i) s = .next ((s.setTimebase (max s.timebase due)).setPods
        (s.pods.set i { x with attempts := x.attempts + 1, bus := .attempt (max s.timebase due), exchange := [.start] }))) ∧
    ((x.state ≠ .identifying ∨ ∀ due, x.bus ≠ .retryWait due) → exec (.retryWaitExpiry i) s = .next s)

/-- POD_INFO answers the record, the present skews of the pod's eight channels and LOST, and changes nothing; POD_RESCAN is INVALID,
WRONG_STATE in ABSENT, ACTIVE while the pod is in use, and otherwise starts the identification again with the code and
flags kept, with a start condition on its bus now (log 19); a skew is latency, trim and user skew, with 0 for what a record without
descriptor values does not hold (R13, R14, R15). -/
def Obligations.PodRequests : Prop :=
  (∀ (s : State) (i : Four) (k : Fin 8),
    s.skewOf (8 * i.val + k.val) = (match (s.pods.get i).desc with | some d => (d.latency : Int) + d.trims[k] | none => 0) +
      s.acq.plan.probe.userSkews[8 * i.val + k.val]'(by omega)) ∧
  (∀ (p : Port) (tag pod : Byte) (s : State), s.holds p (.podInfo p tag pod) →
    let answers := fun a => exec (.podInfo p tag pod) s = .next (s.setPort p { s.ports.get p with slot := .answered tag a })
    (4 ≤ pod.toNat → answers (.plain .invalid)) ∧
    (∀ i : Four, pod.toNat = i.val → ∃ r, answers (.pod r) ∧ r.record = s.pods.get i ∧
      r.skews = (([0, 1, 2, 3, 4, 5, 6, 7] : List Nat).map fun k => s.skewOf (8 * i.val + k)) ∧
      (r.lost = true ↔ ∃ name c, s.acq.active = some name ∧ s.sto.capture name = some c ∧ ∃ e ∈ c.podLost, e.1 = i))) ∧
  (∀ (p : Port) (tag pod : Byte) (s : State), s.holds p (.podRescan p tag pod) →
    let after := fun (u : State) a => exec (.podRescan p tag pod) s =
      .next (u.setPort p { s.ports.get p with slot := .answered tag a })
    (4 ≤ pod.toNat → after s (.plain .invalid)) ∧
    (∀ i : Four, pod.toNat = i.val →
      let inUse := s.acq.engine ≠ .idle ∧ ∃ name c, s.acq.active = some name ∧ s.sto.capture name = some c ∧
        ∃ ch, 8 * i.val ≤ ch ∧ ch < 8 * i.val + 8 ∧ c.mask.getLsbD ch = true
      ((s.pods.get i).state = .absent → after s (.plain .wrongState)) ∧
      ((s.pods.get i).state ≠ .absent → inUse → after s (.plain .active)) ∧
      ((s.pods.get i).state ≠ .absent → ¬ inUse → after (s.setPods (s.pods.set i { s.pods.get i with
        state := .identifying, reason := none, desc := none, attempts := 1, bus := .attempt s.timebase, exchange := [.start]
        debounce := none })) (.plain .ok))))

/-! ## The trigger lines -/

/-- A rising edge of the trigger-in line while TRG is GATED or SEEKING sets the mark with its time, where none is set; no other change
does; a trigger-out pulse that runs out is gone, and the line is high while any pulse runs (R84, R98). MODEL'S CHOICES
(logs 2, 3, 5): the moments, and that a reading without a change, and an end with no pulse running, change nothing. -/
def Obligations.TriggerLines : Prop :=
  (∀ (at_ : Nat) (s : State),
    (∀ level, s.trg.inLevel = level → exec (.triggerInEdge level at_) s = .next s) ∧
    (s.trg.inLevel = false → (s.trg.state = .gated ∨ s.trg.state = .seeking) → s.trg.mark = none →
      exec (.triggerInEdge true at_) s = .next ((s.setTimebase (max s.timebase at_)).setTrg
        { s.trg with inLevel := true, mark := some (max s.timebase at_) })) ∧
    (s.trg.inLevel = false → ((s.trg.state ≠ .gated ∧ s.trg.state ≠ .seeking) ∨ s.trg.mark ≠ none) →
      exec (.triggerInEdge true at_) s =
        .next ((s.setTimebase (max s.timebase at_)).setTrg { s.trg with inLevel := true })) ∧
    (s.trg.inLevel = true → exec (.triggerInEdge false at_) s =
      .next ((s.setTimebase (max s.timebase at_)).setTrg { s.trg with inLevel := false }))) ∧
  (∀ s : State, s.trg.pulses = [] → exec .triggerOutPulseEnd s = .next s) ∧
  (∀ (s : State) (e : Nat), e ∈ s.trg.pulses → (∀ f ∈ s.trg.pulses, e ≤ f) →
    exec .triggerOutPulseEnd s = .next ((s.setTimebase (max s.timebase e)).setTrg
      { s.trg with pulses := s.trg.pulses.filter fun f => !(decide (f = e)) })) ∧
  (∀ s : State, s.triggerOutLine = true ↔ s.trg.pulses ≠ [])

/-! ## Samples -/

/-- A sample's raw time and state word (R21, R22), and its holding: whatever the engine, the lanes and the trigger make of it, a
sample for which the FILLING block has room is held, by extending the open record when it repeats the current run's word
and the run has room, and by a new record of run length 1 otherwise (R24, R25, R38). Where the FILLING block is full its open
record still grows; a new record goes where PlacingRecords and ReclaimsMakeRoom say, into a block that is taken, reclaimed or
recycled, and the sample step keeps what that left (R26, R39, R41; a record for which no block is found is that of
CaptureEndSamples). MODEL'S CHOICES (logs 2, 5): the
timebase is carried to the sample's time, and a FIRST_SAMPLE or a SAMPLE that is not the next to come changes nothing. -/
def Obligations.SamplesHeld : Prop :=
  (∀ x : Sampling, x.nextRaw = (match x.origin with | some o => o | none => x.armDone + 1) + x.next * x.div) ∧
  (∀ (mask w : ChannelWord) (lost : List (Four × Nat)) (raw ch : Nat), ch < 32 →
    ((stateWord mask lost raw w).getLsbD ch = true ↔
      w.getLsbD ch = true ∧ mask.getLsbD ch = true ∧ ∀ e ∈ lost, e.2 ≤ raw → ch / 8 ≠ e.1.val)) ∧
  (∀ (s : State) (w : ChannelWord), (s.smp = none ∨ ∃ x, s.smp = some x ∧ x.next ≠ 0) → exec (.firstSample w) s = .next s) ∧
  (∀ (s : State) (w : ChannelWord), (s.smp = none ∨ ∃ x, s.smp = some x ∧ x.next = 0) → exec (.sample w) s = .next s) ∧
  (∀ (s : State) (x : Sampling) (name : CapName) (c : Capture) (n : Nat) (b : Block) (w : ChannelWord), s.sto.wf = true →
    s.canHold x name c → s.sto.filling name = some (n, b) →
    ∃ t, exec (if x.next = 0 then .firstSample w else .sample w) s = .next t ∧ t.timebase = max s.timebase x.nextRaw ∧
      (∀ r, x.run = some r → r.word = x.nextWord w → r.len < 65536 → b.records ≠ [] →
        t.sto.filling name = some (n, { b with
          records := b.records.dropLast ++ (b.records.getLast?.map fun y => { y with run := y.run + 1 }).toList })) ∧
      ((∀ r, x.run = some r → r.word = x.nextWord w → 65536 ≤ r.len) →
        t.sto.filling name = some (n, { b with
          first := if b.records = [] then x.next else b.first
          records := b.records ++ [Rec.mk (x.nextWord w) 1
            (match s.sto.test with | none => 0 | some .single => 0b1 | some .double => 0b11)] })) ∧
      (x.next = 0 → ∃ c', t.sto.capture name = some c' ∧ c'.origin = some x.nextRaw)) ∧
  ∀ (s : State) (x : Sampling) (name : CapName) (c : Capture) (n : Nat) (b : Block) (w : ChannelWord), s.sto.wf = true →
    s.smp = some x → x.next ≠ 0 → s.acq.active = some name → s.sto.capture name = some c → c.complete = false →
    s.sto.filling name = some (n, b) → b.records.length = 4096 →
    (∀ r, x.run = some r → r.word = x.nextWord w → r.len < 65536 →
      ∃ u t, exec (.sample w) s = .next t ∧ u = s.setSto { s.sto with blocks := u.sto.blocks } ∧
        u.sto.filling name = some (n, b.extended) ∧ lookupBlock u.sto.blocks n = some b.extended ∧
        (∀ m, m ≠ n → lookupBlock u.sto.blocks m = lookupBlock s.sto.blocks m) ∧
        s.deliveredFrom u t x name c (x.nextWord w)) ∧
    (∀ u, (∀ r, x.run = some r → r.word = x.nextWord w → 65536 ≤ r.len) →
      s.placeRecord name (x.nextWord w) x.next = (u, true) →
      ∃ t, exec (.sample w) s = .next t ∧ s.deliveredFrom u t x name c (x.nextWord w))

/-- Samples with no lane at work. Sample 0 fixes the origin and the arm-to-armed time, opens the first record, and starts the run
and the channel history; before the arm-to-armed time the engine stays ARMING; a STOP that was taken before it ends the
capture on it with STOP_TAKEN, without the tests of TRG and ACQ (R21, R25, R63, R65, R68, R83, R84). A later sample in
TRIGGERED, before the post end time, extends the run or begins a new one, the channel history takes the changes, and
nothing else changes (R19, R24, R26, R67). In the store the FILLING block alone changes, by its open record or by a new one
that uses up a pending store-test request (R38, R54). MODEL'S CHOICE (log 2): the timebase is carried to the sample's time. -/
def Obligations.PlainSamples : Prop :=
  (∀ (s : State) (x : Sampling) (name : CapName) (c : Capture) (a : AcqPlan) (n : Nat) (b : Block) (w : ChannelWord), s.sto.wf = true →
      s.canHold x name c → s.sto.filling name = some (n, b) → b.records = [] → s.lanesOff → c.countsFit → x.next = 0 → x.origin = none →
      x.run = none → x.prev = none → s.acq.engine = .arming → s.acq.copy = some a → s.trg.state = .gated → s.trg.history = none →
      ∃ t c', exec (.firstSample w) s = .next t ∧ t.timebase = max s.timebase (x.armDone + 1) ∧
        t.sto.capture name = some c' ∧ c'.origin = some (x.armDone + 1) ∧
        (∀ i, i ≠ name.slot → t.sto.slots.get i = s.sto.slots.get i) ∧
        t.sto.filling name = some (n, { b with first := 0, records := [s.sto.newRecord (x.nextWord w)] }) ∧
        lookupBlock t.sto.blocks n = some { b with first := 0, records := [s.sto.newRecord (x.nextWord w)] } ∧
        (∀ m, m ≠ n → lookupBlock t.sto.blocks m = lookupBlock s.sto.blocks m) ∧
        t.sto = { s.sto with blocks := t.sto.blocks, slots := t.sto.slots, test := none } ∧
        t.evl = s.evl ∧ t.vrn = s.vrn ∧ s.slotsKept t ∧ t.pods = s.pods ∧ t.pending = s.pending ∧ t.freeIx = s.freeIx ∧
        (s.acq.stopPending = false → s.acq.force = none → 1 ≤ a.pre →
          c' = { c with origin := some (x.armDone + 1) } ∧ t.ports = s.ports ∧ t.lanes = s.lanes ∧
          t.acq = { s.acq with armedAt := some (x.armDone + 1 + a.pre) } ∧
          t.smp = some { x with
            origin := some (x.armDone + 1), next := 1, run := some (Run.mk (x.nextWord w) 1 0), prev := some (x.nextWord w) } ∧
          t.trg = { s.trg with
            history := some (ChannelHistory.mk (x.nextWord w) (Vector.replicate 32 none))
            mark := s.trg.mark.filter fun m => decide (x.armDone + 1 < m) }) ∧
        (s.acq.stopPending = true →
          c' = { c with origin := some (x.armDone + 1), endReason := some .stopTaken } ∧
          t.acq = { s.acq with
            engine := .stopping, force := none, armedAt := none, stopPending := false, repeatFlag := false } ∧
          t.smp = none ∧ s.trg.standbyOf t.trg ∧ s.lanesOffOf t ∧ s.portsGain t [.engineState])) ∧
  (∀ (s : State) (x : Sampling) (name : CapName) (c : Capture) (n : Nat) (b : Block) (h : ChannelHistory) (before w : ChannelWord),
      s.sto.wf = true → s.canHold x name c → s.sto.filling name = some (n, b) → 1 ≤ x.next → s.runsOn x → s.lanesOff →
      c.countsFit → s.trg.state = .declared →
      s.trg.history = some h → x.prev = some before →
      ∃ t r h', exec (.sample w) s = .next t ∧
        t = ((((s.setTimebase (max s.timebase x.nextRaw)).setSto t.sto).setSmp (some { x with
          origin := some (match x.origin with | some o => o | none => x.armDone + 1), run := some r
          prev := some (x.nextWord w), next := x.next + 1 })).setTrg { s.trg with history := some h' }) ∧
        (∀ u, x.run = some u → u.word = x.nextWord w → u.len < 65536 →
          r = { u with len := u.len + 1 } ∧ t.sto = { s.sto with blocks := t.sto.blocks } ∧
          lookupBlock t.sto.blocks n = some b.extended) ∧
        ((∀ u, x.run = some u → u.word = x.nextWord w → 65536 ≤ u.len) →
          r = Run.mk (x.nextWord w) 1 x.next ∧ t.sto = { s.sto with blocks := t.sto.blocks, test := none } ∧
          lookupBlock t.sto.blocks n = some { b with
            records := b.records ++ [s.sto.newRecord (x.nextWord w)], first := if b.records = [] then x.next else b.first }) ∧
        (∀ m, m ≠ n → lookupBlock t.sto.blocks m = lookupBlock s.sto.blocks m) ∧
        h'.levels = x.nextWord w ∧
        ∀ k : Fin 32, h'.starts[k] =
          if (x.nextWord w).getLsbD k.val = before.getLsbD k.val then h.starts[k] else some x.nextRaw)

/-- The samples on which the trigger sequence moves, whatever the lanes do on them and whatever the stage's conditions, combine and
timer are: `v` is the evaluation of the sample against the current or pending stage, as StageEvaluation and ConditionRules
have it, on what the sample brings to TRG. While the engine is ARMED, and on the entry to ARMED with that sample as stage 0's
entry sample whatever its required count (R64, R81, R95, R96): a WITHIN stage's expiry leaves the fail target as the pending
entry and acts on nothing (R93); a satisfied stage hands its holds and releases to the lanes with the sample's index, raises
ENGINE_STATE and begins a pulse where its actions ask for it (R97, R98), and leaves its success target as the pending entry
or declares the trigger (R66, R95, R99); a forced sample declares it with the source FORCE (R65, R100); and with a
post-trigger length of 0 the declaring sample ends the capture as well (R67, R70). MODEL'S CHOICES: the timebase is carried
to the sample's time, at which a pulse begins (log 2); a row stands for the whole sample step on which it comes about (log 4);
while SMP is STOPPED, or where a row does not come about on the next sample, it changes nothing (log 5). -/
def Obligations.TriggerSamples : Prop :=
  (∀ (s : State) (l : Four) (w : ChannelWord) (i : Instr), s.smp = none →
    i ∈ [.armedEntry w, .withinExpiry w, .stageSatisfied w, .postDone w, .twoWireStall l w, .clockedIdleEnd l w,
      .asyncIdleEnd l w, .biphaseIdleEnd l w, .drainLimit l w] → exec i s = .next s) ∧
  ∀ (s : State) (x : Sampling) (name : CapName) (c : Capture) (a : AcqPlan) (r : TrgRun) (w : ChannelWord) (i : Instr),
    s.sto.wf = true → s.canHold x name c → s.acq.stopPending = false → s.acq.copy = some a → s.trg.run = some r →
    let raw := x.nextRaw
    let v := r.evaluate s.trg.pendingEntry (s.observedOn x name w)
    let after := s.lanesAfterSample x.div (x.item name (x.nextWord w))
    let stop := max s.timebase raw + 100
    let entering := s.acq.engine = .arming ∧ s.acq.force = none ∧
      ((x.next ≠ 0 ∧ ∃ t0, s.acq.armedAt = some t0 ∧ t0 ≤ raw) ∨ (x.next = 0 ∧ a.pre = 0))
    let seeking := entering ∨ (s.acq.engine = .armed ∧ s.acq.force = none ∧ x.next ≠ 0 ∧ s.trg.state = .seeking)
    let forced := ((s.acq.engine = .arming ∨ s.acq.engine = .armed) ∧ s.acq.force ≠ none)
    let plain := i = (if x.next = 0 then .firstSample w else .sample w)
    let arms := fun (t : State) =>
      (entering → t.acq = { s.acq with engine := .armed, armedAt := none }) ∧ (¬ entering → t.acq = s.acq)
    let acted := fun (y : Option (Stage × TrigSource)) l => match y with
      | some y => (after.get l).actedOn l y.1.actions x.next
      | none => after.get l
    let goesOn := fun (t : State) => t.smp = some { x with
        origin := some (x.origin.getD (x.armDone + 1)), next := x.next + 1, run := t.smp.bind Sampling.run, prev := some (x.nextWord w) } ∧
      ∃ c', t.sto.capture name = some c' ∧ c'.complete = false ∧ c'.endReason = c.endReason ∧ c'.trigTime = c.trigTime ∧
        c'.trigSource = c.trigSource ∧ c'.trigBlock = c.trigBlock ∧ c'.shortPre = c.shortPre
    let declares := fun (t : State) (source : TrigSource) (short : Bool) (run : TrgRun) (by_ : Option (Stage × TrigSource)) =>
      t.timebase = max s.timebase raw ∧ t.trg.pulses = s.trg.pulsesWith stop ∧
      (∀ q, t.hasNotice q .engineState = true ∧ t.hasNotice q .triggered = true) ∧
      (∃ c', t.sto.capture name = some c' ∧ c'.complete = false ∧ c'.trigTime = some raw ∧ c'.trigSource = some source ∧
        c'.trigBlock = (t.sto.filling name).map (fun y => y.1) ∧ c'.shortPre = (c.shortPre || short) ∧
        c'.endReason = if a.post = 0 then some .postDone else c.endReason) ∧
      (1 ≤ a.post → t.acq = { s.acq with
          engine := .triggered, postEnd := some (raw + a.post), force := none, armedAt := none } ∧ t.smp.isSome = true ∧
        t.trg.state = .declared ∧ t.trg.pendingEntry = none ∧ t.trg.run = some run ∧ ∀ l, t.lanes.get l = acted by_ l) ∧
      (a.post = 0 → t.acq = { s.acq with engine := .stopping, postEnd := some raw, force := none, armedAt := none } ∧
        t.smp = none ∧ t.trg.state = .standby ∧ t.trg.run = none ∧ t.trg.history = none ∧ t.trg.mark = none ∧
        ∀ l, t.lanes.get l = { state := .off, frame := (after.get l).frame, pend := [], ctx := none })
    (¬ entering → i = .armedEntry w → exec i s = .next s) ∧
    (seeking →
      (v.expired = false → i = .withinExpiry w → exec i s = .next s) ∧
      (v.satisfied = none → i = .stageSatisfied w → exec i s = .next s) ∧
      (plain ∨ (entering ∧ i = .armedEntry w) ∨ (v.expired = true ∧ i = .withinExpiry w) ∨
          (v.satisfied.isSome = true ∧ i = .stageSatisfied w) ∨
          (a.post = 0 ∧ i = .postDone w ∧ ∃ st source, v.satisfied = some (st, source) ∧ st.success = .trigger) →
        (v.satisfied = none → ∃ t, exec i s = .next t ∧ t.timebase = max s.timebase raw ∧
          arms t ∧ t.trg.state = .seeking ∧ t.trg.run = some v.run ∧
          t.trg.pendingEntry = v.pendingEntry ∧ t.trg.pulses = s.trg.pulses ∧ (∀ l, t.lanes.get l = after.get l) ∧
          (entering → ∀ q, t.hasNotice q .engineState = true) ∧
          (¬ entering → ∀ q, t.hasNotice q .engineState = s.hasNotice q .engineState) ∧ goesOn t) ∧
        (∀ st source k, v.satisfied = some (st, source) → st.success = .stage k → ∃ t, exec i s = .next t ∧
          t.timebase = max s.timebase raw ∧ arms t ∧ t.trg.state = .seeking ∧ t.trg.run = some v.run ∧ t.trg.pendingEntry = some k ∧
          t.trg.pulses = (if st.actions.pulseOut then s.trg.pulsesWith stop else s.trg.pulses) ∧
          (∀ l, t.lanes.get l = acted v.satisfied l) ∧
          (entering ∨ st.actions.notify = true → ∀ q, t.hasNotice q .engineState = true) ∧
          (¬ entering → st.actions.notify = false → ∀ q, t.hasNotice q .engineState = s.hasNotice q .engineState) ∧ goesOn t) ∧
        (∀ st source, v.satisfied = some (st, source) → st.success = .trigger → ∃ t, exec i s = .next t ∧
          declares t source false v.run v.satisfied))) ∧
    (forced → plain → ∃ t, exec i s = .next t ∧
      (s.acq.engine = .arming → declares t .force (decide (s.acq.force = some .arming)) r none) ∧
      (s.acq.engine = .armed → declares t .force (decide (s.acq.force = some .arming)) v.run v.satisfied))

/-- The samples on which a capture ends. POST_DONE: the first held sample at or after the post end time takes the engine to STOPPING
with SMP, TRG and the lanes stopped, whatever the lanes do on it (R67, R70). STORE_FULL: a record for which no block is found,
at quota or below it with no FREE block and nothing to reclaim, is not placed, and the engine goes to STOPPING with every
lane OFF; the capture has nothing left to write, so its final write completes in the same step and it is COMPLETE, with
CAPTURE_ENDED (R25, R42, R44, R69; log 22). MODEL'S CHOICES: the timebase is carried to the sample's time (log 2); POST_DONE
stands for the whole sample step (log 4). -/
def Obligations.CaptureEndSamples : Prop :=
  (∀ (s : State) (x : Sampling) (name : CapName) (c : Capture) (e : Nat) (w : ChannelWord), s.sto.wf = true →
    s.canHold x name c → x.next ≠ 0 → s.acq.stopPending = false → s.acq.engine = .triggered → s.acq.postEnd = some e →
    e ≤ x.nextRaw →
    ∃ t c', exec (.postDone w) s = .next t ∧ t.timebase = max s.timebase x.nextRaw ∧
      t.acq = { s.acq with engine := .stopping, force := none, armedAt := none } ∧ t.smp = none ∧
      t.trg.state = .standby ∧ t.trg.run = none ∧ t.trg.history = none ∧ t.trg.mark = none ∧ t.trg.pulses = s.trg.pulses ∧
      (∀ l, (t.lanes.get l).state = .off ∧ (t.lanes.get l).pend = [] ∧ (t.lanes.get l).ctx = none) ∧
      t.sto.capture name = some c' ∧ c'.endReason = some .postDone ∧ c'.complete = false ∧ c'.trigTime = c.trigTime ∧
      (t.sto.filling name).isSome = true ∧
      ∀ q, t.hasNotice q .engineState = true ∧ t.hasNotice q .captureEnded = s.hasNotice q .captureEnded) ∧
  (∀ (s : State) (x : Sampling) (name : CapName) (c : Capture) (n : Nat) (b : Block) (w : ChannelWord), s.sto.wf = true →
    s.smp = some x → x.next ≠ 0 → s.acq.active = some name → s.sto.capture name = some c → c.complete = false →
    c.discard = false → s.sto.filling name = some (n, b) → b.records.length = 4096 → b.next = none →
    (∀ m y, lookupBlock s.sto.blocks m = some y → y.owner = name → m ≠ n → y.state = .sealed) →
    (∀ r, x.run = some r → r.word = x.nextWord w → 65536 ≤ r.len) →
    (c.quota ≤ s.sto.ownedCount name ∨ (s.sto.noneFree ∧ s.reclaim = none)) →
    (c.mode = .fill ∨ c.head = n ∨ c.trigBlock = some c.head) →
    ∃ t c', exec (.sample w) s = .next t ∧ t.timebase = max s.timebase x.nextRaw ∧
      t.acq = { s.acq with
        engine := .idle, active := none, copy := none, armedAt := none, postEnd := none, force := none,
        stopPending := false, repeatFlag := false } ∧
      t.smp = none ∧ t.trg.state = .standby ∧ s.lanesOffOf t ∧
      t.sto.capture name = some c' ∧ c'.complete = true ∧ c'.endReason = some .storeFull ∧ c'.head = c.head ∧
      lookupBlock t.sto.blocks n = some { b with state := .sealed } ∧
      ∀ q, t.hasNotice q .engineState = true ∧ t.hasNotice q .captureEnded = true)

/-- The samples on which a frame ends by itself while the capture runs on, with no channel changing: a TWO_WIRE stall with ERROR and
no STOP, the idle ends of CLOCKED, ASYNC and BIPHASE with STOP, and a drain cut off with PARTIAL. The lane goes to HUNT with
its kind's basis, or to HELD from DRAINING, with nothing left of the frame; its capture's counts rise; with the other lanes
OFF and room in the list the event that ends the frame is the list's newest (R108, R109, R112, R113, R116, R118, R120, R122,
R123). In every engine state a row of these is the sample step on which the lane's handling of the sample, as
TwoWireAndClockedFrames and AsyncAndBiphaseFrames have it, comes to that end. MODEL'S CHOICES: the timebase is carried to
the sample's time (log 2); a row stands for the whole sample step, and where the lane does not come to that end nothing
changes (logs 4, 5). -/
def Obligations.LaneFrameEnds : Prop :=
  (∀ (s : State) (x : Sampling) (name : CapName) (c : Capture) (l : Four) (w : ChannelWord), s.sto.wf = true →
    s.canHold x name c →
    let came := (laneHandle l (s.lanes.get l) x.div (x.item name (x.nextWord w))).2.2
    ∀ i h, (i, h) ∈ [(Instr.twoWireStall l w, Happening.twoWireStall l), (.clockedIdleEnd l w, .clockedIdleEnd l),
        (.asyncIdleEnd l w, .asyncIdleEnd l), (.biphaseIdleEnd l w, .biphaseIdleEnd l), (.drainLimit l w, .drainLimit l)] →
      (h ∈ came → exec i s = exec (if x.next = 0 then .firstSample w else .sample w) s) ∧ (h ∉ came → exec i s = .next s)) ∧
  ∀ (s : State) (x : Sampling) (name : CapName) (c : Capture) (l : Four) (k : LaneCtx) (w : ChannelWord), s.sto.wf = true →
    s.canHold x name c → x.next ≠ 0 → s.runsOn x → s.quietLane x w l k → k.capture = name → k.word = none →
    let raw := x.nextRaw
    let lane := s.lanes.get l
    let idle := (x.nextWord w).getLsbD k.cfg.data = k.cfg.idleHigh
    let skew := s.skewOf (if k.cfg.kind = .twoWire ∨ k.cfg.kind = .clocked then k.cfg.clock else k.cfg.data)
    let ends := fun (i : Instr) (after : LaneState) (basis : Option HuntBasis) (kind : EventKind) (err : Option ErrKind)
        (value : Option Nat) =>
      ∃ t last c', exec i s = .next t ∧ t.timebase = max s.timebase raw ∧ t.acq = s.acq ∧
        last = (match k.lastStart with | some y => max y ((raw : Int) - skew) | none => (raw : Int) - skew) ∧
        (t.lanes.get l).state = after ∧ (t.lanes.get l).frame = lane.frame ∧
        (t.lanes.get l).ctx = some { k with
          word := none, kctx := KindCtx.cleared, drainLimit := none, hunt := basis, lastStart := some last } ∧
        t.sto.capture name = some c' ∧
        c'.frames.get l = min 65535 (c.frames.get l + if kind = .error then 0 else 1) ∧
        c'.errors.get l = min 65535 (c.errors.get l + if kind = .error then 1 else 0) ∧
        ((∀ m, m ≠ l → (s.lanes.get m).state = .off) → s.evl.events.length < 8192 →
          (∀ o, c.origin = some o → ((o + t.sto.oldestIndex c' * c.div : Nat) : Int) ≤ last) →
          ∃ e, t.evl.events = s.evl.events ++ [e] ∧ e.seq = s.evl.nextSeq ∧ e.cap = name ∧ e.lane = l ∧ e.kind = kind ∧
            e.frame = lane.frame ∧ e.err = err ∧ e.value = value ∧ e.start = last ∧
            e.attrs = (if kind ≠ .error ∧ k.truncated = true then 0x80 else 0) ∧ e.matched = [])
    let inFrame := lane.state = .inFrame ∨ lane.state = .draining
    let own := fun (basis : HuntBasis) => if lane.state = .draining then none else some basis
    (inFrame → k.cfg.kind = .twoWire → (∃ e, k.kctx.clockEdge = some e ∧ e + k.cfg.timeout ≤ raw) →
      ends (.twoWireStall l w) lane.state.afterFrame (own { qualified := true, since := none }) .error (some .stall) none) ∧
    (∀ e, inFrame → k.cfg.kind = .clocked → k.cfg.select = none → k.kctx.clockEdge = some e → e + k.cfg.timeout ≤ raw →
      ends (.clockedIdleEnd l w) lane.state.afterFrame (own { qualified := false, since := some e }) .stop none none) ∧
    (∀ q, inFrame → k.cfg.kind = .async → k.kctx.char = none → k.kctx.idleSince = some q → k.kctx.waitIdle = false → idle →
      q + k.cfg.timeout ≤ raw →
      ends (.asyncIdleEnd l w) lane.state.afterFrame (own { qualified := true, since := none }) .stop none none) ∧
    (∀ e, inFrame → k.cfg.kind = .biphase → k.kctx.reference = some e → e + k.cfg.timeout ≤ raw →
      ends (.biphaseIdleEnd l w) lane.state.afterFrame (own { qualified := false, since := some e }) .stop none none) ∧
    (∀ limit, lane.state = .draining → k.drainLimit = some limit → limit ≤ raw →
      ((k.cfg.kind = .twoWire ∨ (k.cfg.kind = .clocked ∧ k.cfg.select = none)) ∧
          (∃ e, k.kctx.clockEdge = some e ∧ raw < e + k.cfg.timeout)) ∨
        (k.cfg.kind = .clocked ∧ k.cfg.select ≠ none) ∨
        (k.cfg.kind = .async ∧ k.kctx.char = none ∧ (k.kctx.idleSince = none ∨ ¬ idle)) ∨
        (k.cfg.kind = .biphase ∧ ∃ e, k.kctx.reference = some e ∧ raw < e + k.cfg.timeout) →
      ends (.drainLimit l w) .held none .partialFrame none (some k.wordPos))

/-! ## The trigger sequencer's rules -/

/-- When a condition occurs on a sample (R85, R86, R87, R88, R89), and what a combine makes of the occurrences (R90, R91, R92): PATTERN
by truth over its mask on the first sample of a true stretch, EDGE by the channels that change, PULSE by the exact width of
the level that ends, LANE_MATCH by an offer, TRIGGER_IN by the arrival; the reset of RESET_BY comes before the count. -/
def Obligations.ConditionRules : Prop :=
  (∀ (m v : ChannelWord) (prev : Bool) (o : Observed),
    ((Cond.pattern m v true).truth o.it = true ↔ ∀ ch, ch < 32 → m.getLsbD ch = true → o.it.level ch = v.getLsbD ch) ∧
    ((Cond.pattern m v false).truth o.it = true ↔ ∃ ch, ch < 32 ∧ m.getLsbD ch = true ∧ o.it.level ch ≠ v.getLsbD ch) ∧
    ∀ e, ((Cond.pattern m v e).occurs prev o = true ↔ (Cond.pattern m v e).truth o.it = true ∧ prev = false)) ∧
  (∀ (m : ChannelWord) (prev : Bool) (o : Observed),
    ((Cond.edge m .rising).occurs prev o = true ↔ ∃ ch, m.getLsbD ch = true ∧ o.it.rises ch = true) ∧
    ((Cond.edge m .falling).occurs prev o = true ↔ ∃ ch, m.getLsbD ch = true ∧ o.it.falls ch = true) ∧
    ((Cond.edge m .either).occurs prev o = true ↔
      ∃ ch, m.getLsbD ch = true ∧ (o.it.rises ch = true ∨ o.it.falls ch = true))) ∧
  (∀ (ch : Fin 32) (high : Bool) (lo hi : Nat) (prev : Bool) (o : Observed),
    (Cond.pulse ch.val high lo hi).occurs prev o = true ↔
      (if high then o.it.falls ch.val else o.it.rises ch.val) = true ∧
        ∃ h t, o.history = some h ∧ h.starts[ch] = some t ∧ lo ≤ o.it.raw - t ∧ o.it.raw - t ≤ hi) ∧
  (∀ (l : Four) (e : Nat) (prev : Bool) (o : Observed), (Cond.laneMatch l e).occurs prev o = true ↔ (l, e) ∈ o.offers) ∧
  (∀ (prev : Bool) (o : Observed), Cond.triggerIn.occurs prev o = true ↔ o.arrival = true) ∧
  (∀ (n : Nat) (po so st : Bool),
    nextCount n (combineResult .none po so st) = n + (if po then 1 else 0) ∧
    nextCount n (combineResult .or po so st) = n + (if po || so then 1 else 0) ∧
    nextCount n (combineResult .and po so st) = n + (if po && st then 1 else 0) ∧
    nextCount n (combineResult .resetBy po so st) = (if so then 0 else n) + (if po then 1 else 0))

/-- The evaluation of a sample in its steps: the pending entry first, with the count, the flags and the entry sample afresh, or
stage 0's entry sample where none is set; then a WITHIN stage's expiry, which counts nothing; else the count by the combine,
which the stretch of AFTER ignores, with the previous-truth flags brought up to date; and the stage is satisfied exactly
when the count is the required one, with the source TRIGGER_IN when a TRIGGER_IN occurrence is part of the one counted (R93,
R94, R95, R96, R99). -/
def Obligations.StageEvaluation : Prop :=
  (∀ (r : TrgRun) (k : Nat) (o : Observed), r.evaluate (some k) o = (TrgRun.mk r.table k 0 (some (o.it.index, o.it.raw)) false false).evaluate none o) ∧
  (∀ (r : TrgRun) (o : Observed), r.entry = none →
    r.evaluate none o = { r with entry := some (o.it.index, o.it.raw) }.evaluate none o) ∧
  ∀ (r : TrgRun) (st : Stage) (i0 e : Nat) (o : Observed), r.table[r.stage]? = some st → r.entry = some (i0, e) →
    let v := r.evaluate none o
    let po := st.primary.occurs r.prevPrimary o
    let so := match st.combine, st.secondary with
      | .none, _ => false
      | _, some c => c.occurs r.prevSecondary o
      | _, none => false
    let truth2 := match st.secondary with | some c => c.truth o.it | none => false
    let usual := nextCount r.count (combineResult st.combine po so truth2)
    let fires := (st.primary = .triggerIn ∧ po = true) ∨ (st.combine = .or ∧ st.secondary = some .triggerIn ∧ so = true)
    (∀ l, st.timer = .within l → e + l < o.it.raw →
      v = { run := r, pendingEntry := st.fail, expired := true, satisfied := none }) ∧
    ((∀ l, st.timer = .within l → o.it.raw ≤ e + l) →
      v.expired = false ∧ v.run.stage = r.stage ∧ v.run.entry = r.entry ∧ v.run.table = r.table ∧
      v.run.prevPrimary = st.primary.truth o.it ∧ (st.combine ≠ .none → v.run.prevSecondary = truth2) ∧
      (∀ l, st.timer = .after l → o.it.raw ≤ e + l → v.run.count = r.count) ∧
      ((∀ l, st.timer = .after l → e + l < o.it.raw) → v.run.count = usual) ∧
      (v.run.count ≠ st.required → v.satisfied = none ∧ v.pendingEntry = none) ∧
      (v.run.count = st.required →
        v.pendingEntry = (match st.success with | .stage k => some k | .trigger => none) ∧
        (fires → v.satisfied = some (st, .triggerIn)) ∧ (¬ fires → v.satisfied = some (st, .stage r.stage))))

/-! ## The lanes' rules -/

/-- Holds and releases: what each does in each lane state, with the drain limit; a lane handles sample n in the state it had without the
requests that carry n, and sample n + 1 after every hold and then every release among them; a lane that is OFF is not
changed by either, and a HELD one takes no action on a sample; a DRAINING lane handles the sample by its kind, and is cut
off with PARTIAL, to HELD, when its frame is still open at the drain limit (R105, R106, R107, R109, R123). -/
def Obligations.LaneRequests : Prop :=
  (∀ (w : LaneWork) (t : Nat),
    (w.applyHold t).state = (match w.state with | .hunt => .held | .inFrame => .draining | x => x) ∧
    w.applyRelease.state = (match w.state with | .held => .hunt | .draining => .inFrame | x => x) ∧
    (w.applyHold t).frame = w.frame ∧ w.applyRelease.frame = w.frame ∧ (w.applyHold t).out = w.out ∧
    w.applyRelease.out = w.out ∧
    (w.state = .inFrame → (w.applyHold t).ctx = { w.ctx with drainLimit := some (t + w.ctx.cfg.timeout) }) ∧
    (w.state = .draining → (w.applyHold t).ctx = w.ctx ∧ w.applyRelease.ctx = { w.ctx with drainLimit := none }) ∧
    (w.state = .hunt → (w.applyHold t).ctx.hunt = none ∧ (w.applyHold t).ctx.kctx.char = none ∧ w.applyRelease.ctx = w.ctx) ∧
    (w.state = .held → (w.applyHold t).ctx = w.ctx ∧ w.applyRelease.ctx.hunt = none)) ∧
  (∀ (x : Lane) (hold : Bool) (n : Nat),
    x.request hold n = if x.state = .off then x else { x with pend := x.pend ++ [LaneReq.mk hold n] }) ∧
  (∀ (i : Four) (x : Lane) (D : Nat) (it : SampleItem),
    (x.state = .off → laneHandle i x D it = (x, [], [])) ∧
    (x.ctx.isSome = true → x.state ≠ .off →
      (laneHandle i x D it).1.pend = x.pend.filter fun r => decide (it.index ≤ r.index)) ∧
    (x.state = .held → x.ctx.isSome = true → (∀ r ∈ x.pend, it.index ≤ r.index) → laneHandle i x D it = (x, [], [])) ∧
    (∀ hold, laneHandle i (x.request hold it.index) D it =
      (let y := laneHandle i x D it
       (if x.state = .off ∨ x.ctx = none then x.request hold it.index
        else { y.1 with pend := y.1.pend ++ [LaneReq.mk hold it.index] }, y.2))) ∧
    (∀ c hold release, x.ctx = some c → x.state ≠ .off → x.pend ≠ [] → (∀ r ∈ x.pend, r.index < it.index) →
      (hold = true ↔ ∃ r ∈ x.pend, r.hold = true) → (release = true ↔ ∃ r ∈ x.pend, r.hold = false) →
      let w := LaneWork.mk i x.state x.frame c [] []
      let u := if hold then w.applyHold it.raw else w
      let v := if release then u.applyRelease else u
      laneHandle i x D it = laneHandle i (Lane.mk v.state v.frame [] (some v.ctx)) D it) ∧
    (∀ c k limit, x.ctx = some c → x.pend = [] → x.state = .draining → c.drainLimit = some limit → limit ≤ it.raw →
      let y := laneHandle i { x with ctx := some { c with drainLimit := none } } D it
      y.1.ctx = some k →
        (y.1.state ≠ .draining → laneHandle i x D it = y) ∧
        (y.1.state = .draining → laneHandle i x D it =
          ({ y.1 with state := .held, ctx := some (k.leftFrame .draining { qualified := false, since := none }) },
            y.2.1 ++ [Emission.mk .partialFrame y.1.frame k.wordPos (some k.wordPos) (if k.truncated then 0x80 else 0) none none
              it.raw it.raw], y.2.2 ++ [.drainLimit i]))))

/-- A sample in a frame of a TWO_WIRE or a CLOCKED lane, and in the HUNT of a CLOCKED one, with no request waiting. TWO_WIRE: the bits
at the clock's rises, the address byte and the data bytes at the ninth with ACK or NAK and the direction, a repeated START,
a STOP, a stall, and SHORT_WORD for two bits or more (R114, R115, R116). CLOCKED: the bits at the sampling edges while the
select is active, the words, the end by the select and by idle with SHORT_WORD for any bits, the opening by the select and
after a quiet timeout, the hunt basis at entry and later (R108, R117, R118). -/
def Obligations.TwoWireAndClockedFrames : Prop :=
  ∀ (i : Four) (x : Lane) (c : LaneCtx) (D : Nat) (it : SampleItem), x.ctx = some c → x.pend = [] →
    let cfg := c.cfg
    let raw := it.raw
    let clk := it.changes cfg.clock = true
    let high := it.level cfg.clock = true
    let bit := it.level cfg.data
    let inside := x.state = .inFrame ∨ x.state = .draining
    let on := x.goesOn c raw = true
    let stays := fun (c' : LaneCtx) (out : List Emission) => laneHandle i x D it = ({ x with ctx := some c' }, out, [])
    let leaves := fun (basis : HuntBasis) (out : List Emission) (came : List Happening) => laneHandle i x D it =
      ({ x with state := x.state.afterFrame, ctx := some (c.leftFrame x.state basis) }, out, came)
    let quiet := timedOut c.kctx.clockEdge cfg.timeout raw = true
    (cfg.kind = .twoWire →
      let edge : KindCtx := { c.kctx with clockEdge := some raw }
      let byte := bitsValue true c.bits
      let ack : BitVec 8 := if bit then 0x02 else 0x01
      let short := c.shortWord x.frame true 2 raw
      let again := c.plainEvent x.frame .start 0x10 none raw
      let falls := it.falls cfg.data = true ∧ ¬ clk ∧ high
      let rises := it.rises cfg.data = true ∧ ¬ clk ∧ high
      let stall := c.plainEvent x.frame .error 0 (some .stall) raw
      (on → it.rises cfg.clock = true → c.bits.length < 8 → stays { c.withBit bit raw with kctx := edge } []) ∧
      (on → it.rises cfg.clock = true → c.bits.length = 8 → c.kctx.addrNext = true →
        stays { c.afterWord with kctx := { edge with addrNext := false, dirRead := some (byte % 2 == 1) } }
          (c.wordEvents x.frame .addr (byte / 2) (ack ||| if byte % 2 = 1 then 0x04 else 0x08) (c.firstBit raw) raw)) ∧
      (on → it.rises cfg.clock = true → c.bits.length = 8 → c.kctx.addrNext = false →
        stays { c.afterWord with kctx := edge } (c.wordEvents x.frame .word byte
          (ack ||| match c.kctx.dirRead with | some true => 0x04 | some false => 0x08 | none => 0) (c.firstBit raw) raw)) ∧
      (on → clk → it.rises cfg.clock = false → stays { c with kctx := edge } []) ∧
      (on → falls → ¬ quiet → stays { c with word := none, kctx := { c.kctx with addrNext := true } } (short ++ [again])) ∧
      (inside → falls → quiet → leaves { qualified := true, since := none } (short ++ [again, stall]) [.twoWireStall i]) ∧
      (inside → rises → ¬ falls → leaves { qualified := true, since := none } (short ++ [c.stopEvent x.frame raw]) []) ∧
      (inside → ¬ clk → ¬ falls → ¬ rises → quiet → leaves { qualified := true, since := none } [stall] [.twoWireStall i]) ∧
      (on → ¬ clk → ¬ falls → ¬ rises → ¬ quiet → laneHandle i x D it = (x, [], []))) ∧
    (cfg.kind = .clocked →
      let sampling := (if cfg.samplingRising then it.rises cfg.clock else it.falls cfg.clock) = true
      let active := match cfg.select with | some ch => it.level ch == cfg.selectHigh | none => true
      let turns := match cfg.select with | some ch => it.changes ch | none => false
      let marked := fun (k : KindCtx) => { k with
        selectActive := cfg.select.map fun _ => active
        clockEdge := if it.changes cfg.clock then some raw else k.clockEdge }
      let short := c.shortWord x.frame cfg.msbFirst 1 raw
      (on → sampling → active = true → c.bits.length + 1 ≠ cfg.wordSize →
        stays { c.withBit bit raw with kctx := marked c.kctx } []) ∧
      (on → sampling → active = true → c.bits.length + 1 = cfg.wordSize → stays { c.afterWord with kctx := marked c.kctx }
        (c.wordEvents x.frame .word (bitsValue cfg.msbFirst (c.bits ++ [bit])) 0 (c.firstBit raw) raw)) ∧
      (inside → turns = true → active = false →
        leaves { qualified := true, since := none } (short ++ [c.stopEvent x.frame raw]) []) ∧
      (inside → cfg.select = none → ¬ clk → quiet →
        leaves { qualified := false, since := c.kctx.clockEdge } (short ++ [c.stopEvent x.frame raw]) [.clockedIdleEnd i]) ∧
      (on → ¬ (sampling ∧ active = true) → ¬ (turns = true ∧ active = false) → ¬ (cfg.select = none ∧ ¬ clk ∧ quiet) →
        stays { c with kctx := marked c.kctx } []) ∧
      (x.state = .hunt →
        let basis := c.hunt.getD { qualified := false, since := if cfg.select.isSome then none else some raw }
        let opens := if cfg.select.isSome then turns = true ∧ active = true
          else clk ∧ timedOut basis.since cfg.timeout raw = true
        let fresh := c.opened (marked KindCtx.cleared)
        (opens → 2 ≤ cfg.wordSize → laneHandle i x D it =
          x.openedAt (if (if cfg.samplingRising then it.rises cfg.clock else it.falls cfg.clock) then fresh.withBit bit raw else fresh)
            raw) ∧
        (¬ opens → cfg.select = none → clk → stays { c with hunt := some { basis with since := some raw } } []) ∧
        (¬ opens → cfg.select ≠ none ∨ ¬ clk → stays { c with hunt := some basis } [])))

/-- A sample in a frame and in the HUNT of an ASYNC or a BIPHASE lane, with no request waiting. ASYNC: the start bit that begins, each
bit on the sample that reads it, the false start, the word with PARITY_BAD and FRAMING_BAD, the wait for idle, the idle
end, and in HUNT the idle that must come before a start bit and the opening with START at the start bit's time (R108, R119,
R120; log 25 for an idle end on the sample of a false start). BIPHASE: the bits by the classes of the intervals, the words,
CELL error and idle end, and the opening after a quiet timeout (R108, R121, R122). -/
def Obligations.AsyncAndBiphaseFrames : Prop :=
  ∀ (i : Four) (x : Lane) (c : LaneCtx) (D : Nat) (it : SampleItem), x.ctx = some c → x.pend = [] →
    let cfg := c.cfg
    let raw := it.raw
    let turns := it.changes cfg.data = true
    let level := it.level cfg.data
    let idle := level = cfg.idleHigh
    let inside := x.state = .inFrame ∨ x.state = .draining
    let on := x.goesOn c raw = true
    let stays := fun (c' : LaneCtx) (out : List Emission) => laneHandle i x D it = ({ x with ctx := some c' }, out, [])
    let leaves := fun (basis : HuntBasis) (out : List Emission) (came : List Happening) => laneHandle i x D it =
      ({ x with state := x.state.afterFrame, ctx := some (c.leftFrame x.state basis) }, out, came)
    let stop := c.stopEvent x.frame raw
    (cfg.kind = .async →
      let begun := AsyncChar.mk raw 0 [] none
      let charBits := 1 + cfg.dataBits + (if cfg.parity = .none then 0 else 1) + cfg.stopBits
      let reads := fun (ch : AsyncChar) => 2 * (raw - ch.start) ≤ (2 * ch.next + 1) * cfg.bitPeriod ∧
        (2 * ch.next + 1) * cfg.bitPeriod < 2 * (raw - ch.start) + 2 * D
      let holding := fun (ch : Option AsyncChar) => { c with kctx := { c.kctx with char := ch } }
      (c.kctx.char = none →
        let ends := idle ∧ c.kctx.waitIdle = false ∧ timedOut c.kctx.idleSince cfg.timeout raw = true
        (on → turns → ¬ idle → c.kctx.waitIdle = false → stays (holding (some begun)) []) ∧
        (on → turns → idle → c.kctx.waitIdle = true → 1 ≤ cfg.timeout →
          stays { c with kctx := { c.kctx with waitIdle := false, idleSince := some raw } } []) ∧
        (inside → ends → leaves { qualified := true, since := none } [stop] [.asyncIdleEnd i]) ∧
        (on → ¬ ends → ¬ (turns ∧ (¬ idle ↔ c.kctx.waitIdle = false)) → laneHandle i x D it = (x, [], []))) ∧
      (∀ ch, c.kctx.char = some ch → inside →
        let ch' := { ch with returned := if it.changes cfg.data && level == cfg.idleHigh then some raw else ch.returned }
        let back := ch'.returned.getD raw
        let taken := ch.bits ++ [level]
        let word := taken.take (charBits - 1 - cfg.stopBits)
        let ones := (word.filter fun b => b).length
        let bad := match cfg.parity with | .none => false | .even => ones % 2 == 1 | .odd => ones % 2 == 0
        let framing := (taken.drop (charBits - 1 - cfg.stopBits)).any fun b => b != cfg.idleHigh
        (on → ¬ reads ch → stays (holding (some ch')) []) ∧
        (on → reads ch → ch.next = 0 → ¬ idle → stays (holding (some { ch' with next := 1 })) []) ∧
        (on → reads ch → ch.next = 0 → idle → raw < back + cfg.timeout ∨ c.kctx.waitIdle = true →
          stays { c with kctx := { c.kctx with char := none, idleSince := some back } } []) ∧
        (reads ch → ch.next = 0 → idle → back + cfg.timeout ≤ raw → c.kctx.waitIdle = false →
          leaves { qualified := true, since := none } [stop] [.asyncIdleEnd i]) ∧
        (on → reads ch → 1 ≤ ch.next → ch.next + 1 ≠ charBits →
          stays (holding (some { ch' with bits := taken, next := ch.next + 1 })) []) ∧
        (on → reads ch → 1 ≤ ch.next → ch.next + 1 = charBits → 1 ≤ cfg.timeout →
          stays { c.afterWord with kctx := if level == cfg.idleHigh then { c.kctx with char := none, idleSince := some raw }
              else { c.kctx with char := none, waitIdle := true } }
            (c.wordEvents x.frame .word (bitsValue cfg.msbFirst (taken.take cfg.dataBits))
              ((if bad then 0x20 else 0) ||| if framing then 0x40 else 0) ch.start raw))) ∧
      (x.state = .hunt →
        let entry := c.hunt.getD { qualified := false, since := if level == cfg.idleHigh then some raw else none }
        let basis := if it.changes cfg.data && level == cfg.idleHigh then { entry with since := some raw } else entry
        let ready := basis.qualified = true ∨ timedOut basis.since (charBits * cfg.bitPeriod) raw = true
        let hunting := fun (ch : Option AsyncChar) => { c with hunt := some basis, kctx := { c.kctx with char := ch } }
        (c.kctx.char = none → turns → ¬ idle → ready → stays (hunting (some begun)) []) ∧
        (c.kctx.char = none → ¬ (turns ∧ ¬ idle ∧ ready) → stays (hunting none) []) ∧
        ∀ ch, c.kctx.char = some ch →
          let first := reads { ch with next := 0 }
          (¬ first → stays (hunting (some ch)) []) ∧ (first → idle → stays (hunting none) []) ∧
          (first → ¬ idle → laneHandle i x D it =
            x.openedAt (c.opened { KindCtx.cleared with char := some { ch with next := 1 } }) ch.start))) ∧
    (cfg.kind = .biphase →
      (∀ r, c.kctx.reference = some r → inside →
        let v := raw - r
        let short := cfg.halfCell ≤ 2 * v ∧ 2 * v < 3 * cfg.halfCell
        let long := 3 * cfg.halfCell ≤ 2 * v ∧ 2 * v < 5 * cfg.halfCell
        let moved : KindCtx := { c.kctx with reference := some raw }
        let takes := fun (b : Bool) (cell : Nat) (k : KindCtx) =>
          if c.bits.length + 1 = cfg.wordSize then stays { c.afterWord with kctx := k }
            (c.wordEvents x.frame .word (bitsValue cfg.msbFirst (c.bits ++ [b])) 0 (c.firstBit cell) raw)
          else stays { c.withBit b cell with kctx := k } []
        (on → turns → long → c.kctx.shortStart = none → takes false r moved) ∧
        (on → turns → short → c.kctx.shortStart = none → stays { c with kctx := { moved with shortStart := some r } } []) ∧
        (∀ cell, on → turns → short → c.kctx.shortStart = some cell → takes true cell { moved with shortStart := none }) ∧
        (turns → ¬ short → ¬ long ∨ c.kctx.shortStart ≠ none →
          leaves { qualified := false, since := some raw } [c.plainEvent x.frame .error 0 (some .cell) raw, stop] []) ∧
        (¬ turns → r + cfg.timeout ≤ raw → leaves { qualified := false, since := some r }
          (c.shortWord x.frame cfg.msbFirst 1 raw ++ [stop]) [.biphaseIdleEnd i]) ∧
        (on → ¬ turns → raw < r + cfg.timeout → laneHandle i x D it = (x, [], []))) ∧
      (x.state = .hunt →
        let basis := c.hunt.getD { qualified := false, since := some raw }
        let opens := turns ∧ timedOut basis.since cfg.timeout raw = true
        (opens → laneHandle i x D it = x.openedAt (c.opened { KindCtx.cleared with reference := some raw }) raw) ∧
        (¬ opens → turns → stays { c with hunt := some { basis with since := some raw } } []) ∧
        (¬ turns → stays { c with hunt := some basis } [])))

/-- Which events an entry fits, and the match set: the entries that fit an ADDR or a WORD, in ascending order (R127, R128); and what is
handed on: the marks, the offers, LANE_MATCH, the per-kind counts, the start as the larger of the raw start less the skew and
the lane's last start time and the end as the larger of the raw end less the skew and the start, the unions of the holds and
of the releases of the match sets (R112, R113, R129, R130, R131, R132, R133); and their hand-over to the lanes with the index
of the sample, each hold before its release (R107, R133). MODEL'S CHOICE: the timebase is carried to the sample's time
(log 2). -/
def Obligations.MatchAndEventRules : Prop :=
  (∀ (kind : LaneKind) (x : MatchEntry) (e : Emission), entryFits kind x e = true ↔
    (match x.field with
      | .addr => e.kind = .addr
      | .anyWord => e.kind = .word
      | .wordAt p => e.kind = .word ∧ e.pos = p) ∧
    (∀ b, b < 32 → x.mask.getLsbD b = true → (e.value.getD 0).testBit b = x.value.getLsbD b) ∧
    (kind = .twoWire → (x.dir = .read → e.attrs.getLsbD 2 = true) ∧ (x.dir = .write → e.attrs.getLsbD 3 = true))) ∧
  (∀ (kind : LaneKind) (entries : List MatchEntry) (e : Emission),
    ((matchSet kind entries e).Pairwise fun a b => a.1 < b.1) ∧
    ∀ k x, (k, x) ∈ matchSet kind entries e ↔
      (e.kind = .addr ∨ e.kind = .word) ∧ entries[k]? = some x ∧ entryFits kind x e = true) ∧
  (∀ (i : Four) (c : LaneCtx) (entries : List MatchEntry) (skew : Int) (out : List Emission),
    let fx := laneEffects i c entries skew out
    let fit := fun (e : Emission) => (matchSet c.cfg.kind entries e).map fun m => m.2.actions
    fx.events.length = out.length ∧ (fx.events.Pairwise fun a b => a.start ≤ b.start) ∧
    (∀ a ∈ fx.events, a.start ≤ a.stop ∧ a.cap = c.capture ∧ a.lane = i ∧ (∀ l, c.lastStart = some l → l ≤ a.start) ∧
      ∀ l, fx.lastStart = some l → a.start ≤ l) ∧
    fx.lastStart = (match fx.events.getLast? with | some a => some a.start | none => c.lastStart) ∧
    (∀ (n : Nat) (e : Emission) (a : Event) (last : Option Int), out[n]? = some e → fx.events[n]? = some a →
      last = (if n = 0 then c.lastStart else (fx.events[n - 1]?).map fun b => b.start) →
      a.kind = e.kind ∧ a.frame = e.frame ∧ a.value = e.value ∧ a.attrs = e.attrs ∧ a.err = e.err ∧ a.bits = e.bits ∧
      a.start = (match last with | some l => max ((e.rawStart : Int) - skew) l | none => (e.rawStart : Int) - skew) ∧
      a.stop = max ((e.rawEnd : Int) - skew) a.start ∧
      a.matched = ((matchSet c.cfg.kind entries e).filter fun m => m.2.actions.mark).map fun m => m.1) ∧
    fx.frames = (out.filter fun e => decide (e.kind = .stop ∨ e.kind = .partialFrame)).length ∧
    fx.errors = (out.filter fun e => decide (e.kind = .error)).length ∧
    (fx.notify = true ↔ ∃ e ∈ out, ∃ m ∈ matchSet c.cfg.kind entries e, m.2.actions.notify = true) ∧
    (∀ l k, (l, k) ∈ fx.offers ↔ l = i ∧ ∃ e ∈ out, ∃ m ∈ matchSet c.cfg.kind entries e, m.1 = k ∧ m.2.actions.feed = true) ∧
    (∀ k, fx.hold.getLsbD k = true ↔ ∃ e ∈ out, ∃ y ∈ fit e, ∃ m, y.hold = some m ∧ m.getLsbD k = true) ∧
    ∀ k, fx.release.getLsbD k = true ↔ ∃ e ∈ out, ∃ y ∈ fit e, ∃ m, y.release = some m ∧ m.getLsbD k = true) ∧
  (∀ (lanes : Quad Lane) (fx : Quad LaneEffects) (n : Nat) (l : Four),
    let all := [fx.q0, fx.q1, fx.q2, fx.q3]
    let x := lanes.get l
    (lanesAfter lanes fx n).get l =
      Lane.given { x with ctx := x.ctx.map fun c => { c with lastStart := (fx.get l).lastStart } }
        (all.any fun y => y.hold.getLsbD l.val) (all.any fun y => y.release.getLsbD l.val) n) ∧
  ∀ (s : State) (x : Sampling) (name : CapName) (c : Capture) (w : ChannelWord), s.sto.wf = true → s.canHold x name c →
    x.next ≠ 0 → s.runsOn x → ∃ t, exec (.sample w) s = .next t ∧ t.timebase = max s.timebase x.nextRaw ∧ t.acq = s.acq ∧
      ((s.allEffects ((s.lanesHandle x.div (x.item name (x.nextWord w))).map fun y => y.1)
          ((s.lanesHandle x.div (x.item name (x.nextWord w))).map fun y => y.2.1)).toList.any (fun y => y.notify) = true →
        ∀ q, t.hasNotice q .laneMatch = true) ∧
      ∀ l, t.lanes.get l = (s.lanesAfterSample x.div (x.item name (x.nextWord w))).get l

/-- The parts of decoding that the four kinds share or are exact in: the value of a word's bits in each bit order (R103), the opening of
a frame (R110), a completed word up to the limit, at it and above it (R111), the START condition that opens a TWO_WIRE
frame and no other sample does (R114), the sample that reads an ASYNC bit (R119), and the classes of a BIPHASE interval
(R121). -/
def Obligations.FramesAndWords : Prop :=
  (∀ msb, bitsValue msb [] = 0) ∧
  (∀ b bits, bitsValue true (bits ++ [b]) = 2 * bitsValue true bits + b.toNat ∧
    bitsValue false (b :: bits) = b.toNat + 2 * bitsValue false bits) ∧
  (∀ (w : LaneWork) (t : Nat),
    (w.openFrame t).state = .inFrame ∧ (w.openFrame t).frame = (if w.frame = 65535 then 0 else (w.frame + 1) % 65536) ∧
    (w.openFrame t).ctx.wordPos = 0 ∧ (w.openFrame t).ctx.truncated = false ∧ (w.openFrame t).ctx.word = none ∧
    (w.openFrame t).out = w.out ++ [{
      kind := .start, frame := (w.openFrame t).frame, pos := 0, value := none, attrs := 0, err := none, bits := none,
      rawStart := t, rawEnd := t }]) ∧
  (∀ (w : LaneWork) (kind : EventKind) (value : Nat) (attrs : BitVec 8) (t0 t1 pos : Nat), pos = min 65535 (w.ctx.wordPos + 1) →
    let v := w.completeWord kind value attrs t0 t1
    let word := Emission.mk kind w.frame pos (some value) attrs none none t0 t1
    let long := Emission.mk .error w.frame pos none 0 (some .long) none t0 t1
    v.state = w.state ∧ v.ctx.wordPos = pos ∧ v.ctx.word = none ∧
    (pos ≤ w.ctx.cfg.limit → v.out = w.out ++ [word] ∧ v.ctx.truncated = w.ctx.truncated) ∧
    (pos = w.ctx.cfg.limit + 1 → v.out = w.out ++ [long] ∧ v.ctx.truncated = true) ∧
    (w.ctx.cfg.limit + 1 < pos → v.out = w.out ∧ v.ctx.truncated = w.ctx.truncated)) ∧
  (∀ (i : Four) (x : Lane) (c : LaneCtx) (D : Nat) (it : SampleItem), x.ctx = some c → c.cfg.kind = .twoWire → x.state = .hunt →
    x.pend = [] →
    let start := it.falls c.cfg.data = true ∧ it.changes c.cfg.clock = false ∧ it.level c.cfg.clock = true
    let y := laneHandle i x D it
    (start → y.1.state = .inFrame ∧ y.1.frame = (x.frame + 1) % 65536 ∧ y.2.1.map (fun e => (e.kind, e.rawStart)) = [(.start, it.raw)] ∧
      ∀ k, y.1.ctx = some k → k.kctx.addrNext = true ∧ k.kctx.dirRead = none ∧ k.kctx.clockEdge = some it.raw) ∧
    (¬ start → y.1.state = .hunt ∧ y.1.frame = x.frame ∧ y.2.1 = [])) ∧
  (∀ start period D k m, 1 ≤ D → start ≤ m → (readsBit start period D k m = true ↔
    2 * (m - start) ≤ (2 * k + 1) * period ∧ (2 * k + 1) * period < 2 * (m + D - start))) ∧
  (∀ h v, biphaseClass h v = (if h ≤ 2 * v ∧ 2 * v < 3 * h then some false
    else if 3 * h ≤ 2 * v ∧ 2 * v < 5 * h then some true else none))
end

