-- ==== Sys2Proof/Laws/State.lean ====
section
/-! SUPPORT. The small lemmas of the state: one for each field and each setter, the reads of the fixed-size
collections, and the reads after a port write. All are simp lemmas, so that no later proof unfolds a record update. -/

namespace Sys2Proof.Machine.State

open Sys2Proof

variable (s : State)

@[simp] theorem setTimebase_timebase (x : Nat) : (s.setTimebase x).timebase = x := rfl
@[simp] theorem setTimebase_pods (x : Nat) : (s.setTimebase x).pods = s.pods := rfl
@[simp] theorem setTimebase_smp (x : Nat) : (s.setTimebase x).smp = s.smp := rfl
@[simp] theorem setTimebase_sto (x : Nat) : (s.setTimebase x).sto = s.sto := rfl
@[simp] theorem setTimebase_acq (x : Nat) : (s.setTimebase x).acq = s.acq := rfl
@[simp] theorem setTimebase_trg (x : Nat) : (s.setTimebase x).trg = s.trg := rfl
@[simp] theorem setTimebase_lanes (x : Nat) : (s.setTimebase x).lanes = s.lanes := rfl
@[simp] theorem setTimebase_evl (x : Nat) : (s.setTimebase x).evl = s.evl := rfl
@[simp] theorem setTimebase_vrn (x : Nat) : (s.setTimebase x).vrn = s.vrn := rfl
@[simp] theorem setTimebase_ports (x : Nat) : (s.setTimebase x).ports = s.ports := rfl
@[simp] theorem setTimebase_freeIx (x : Nat) : (s.setTimebase x).freeIx = s.freeIx := rfl
@[simp] theorem setTimebase_pending (x : Nat) : (s.setTimebase x).pending = s.pending := rfl

@[simp] theorem setPods_timebase (x : Quad Pod) : (s.setPods x).timebase = s.timebase := rfl
@[simp] theorem setPods_pods (x : Quad Pod) : (s.setPods x).pods = x := rfl
@[simp] theorem setPods_smp (x : Quad Pod) : (s.setPods x).smp = s.smp := rfl
@[simp] theorem setPods_sto (x : Quad Pod) : (s.setPods x).sto = s.sto := rfl
@[simp] theorem setPods_acq (x : Quad Pod) : (s.setPods x).acq = s.acq := rfl
@[simp] theorem setPods_trg (x : Quad Pod) : (s.setPods x).trg = s.trg := rfl
@[simp] theorem setPods_lanes (x : Quad Pod) : (s.setPods x).lanes = s.lanes := rfl
@[simp] theorem setPods_evl (x : Quad Pod) : (s.setPods x).evl = s.evl := rfl
@[simp] theorem setPods_vrn (x : Quad Pod) : (s.setPods x).vrn = s.vrn := rfl
@[simp] theorem setPods_ports (x : Quad Pod) : (s.setPods x).ports = s.ports := rfl
@[simp] theorem setPods_freeIx (x : Quad Pod) : (s.setPods x).freeIx = s.freeIx := rfl
@[simp] theorem setPods_pending (x : Quad Pod) : (s.setPods x).pending = s.pending := rfl

@[simp] theorem setSmp_timebase (x : Option Sampling) : (s.setSmp x).timebase = s.timebase := rfl
@[simp] theorem setSmp_pods (x : Option Sampling) : (s.setSmp x).pods = s.pods := rfl
@[simp] theorem setSmp_smp (x : Option Sampling) : (s.setSmp x).smp = x := rfl
@[simp] theorem setSmp_sto (x : Option Sampling) : (s.setSmp x).sto = s.sto := rfl
@[simp] theorem setSmp_acq (x : Option Sampling) : (s.setSmp x).acq = s.acq := rfl
@[simp] theorem setSmp_trg (x : Option Sampling) : (s.setSmp x).trg = s.trg := rfl
@[simp] theorem setSmp_lanes (x : Option Sampling) : (s.setSmp x).lanes = s.lanes := rfl
@[simp] theorem setSmp_evl (x : Option Sampling) : (s.setSmp x).evl = s.evl := rfl
@[simp] theorem setSmp_vrn (x : Option Sampling) : (s.setSmp x).vrn = s.vrn := rfl
@[simp] theorem setSmp_ports (x : Option Sampling) : (s.setSmp x).ports = s.ports := rfl
@[simp] theorem setSmp_freeIx (x : Option Sampling) : (s.setSmp x).freeIx = s.freeIx := rfl
@[simp] theorem setSmp_pending (x : Option Sampling) : (s.setSmp x).pending = s.pending := rfl

@[simp] theorem setSto_timebase (x : Store) : (s.setSto x).timebase = s.timebase := rfl
@[simp] theorem setSto_pods (x : Store) : (s.setSto x).pods = s.pods := rfl
@[simp] theorem setSto_smp (x : Store) : (s.setSto x).smp = s.smp := rfl
@[simp] theorem setSto_sto (x : Store) : (s.setSto x).sto = x := rfl
@[simp] theorem setSto_acq (x : Store) : (s.setSto x).acq = s.acq := rfl
@[simp] theorem setSto_trg (x : Store) : (s.setSto x).trg = s.trg := rfl
@[simp] theorem setSto_lanes (x : Store) : (s.setSto x).lanes = s.lanes := rfl
@[simp] theorem setSto_evl (x : Store) : (s.setSto x).evl = s.evl := rfl
@[simp] theorem setSto_vrn (x : Store) : (s.setSto x).vrn = s.vrn := rfl
@[simp] theorem setSto_ports (x : Store) : (s.setSto x).ports = s.ports := rfl
@[simp] theorem setSto_freeIx (x : Store) : (s.setSto x).freeIx = s.freeIx := rfl
@[simp] theorem setSto_pending (x : Store) : (s.setSto x).pending = s.pending := rfl

@[simp] theorem setAcq_timebase (x : Acq) : (s.setAcq x).timebase = s.timebase := rfl
@[simp] theorem setAcq_pods (x : Acq) : (s.setAcq x).pods = s.pods := rfl
@[simp] theorem setAcq_smp (x : Acq) : (s.setAcq x).smp = s.smp := rfl
@[simp] theorem setAcq_sto (x : Acq) : (s.setAcq x).sto = s.sto := rfl
@[simp] theorem setAcq_acq (x : Acq) : (s.setAcq x).acq = x := rfl
@[simp] theorem setAcq_trg (x : Acq) : (s.setAcq x).trg = s.trg := rfl
@[simp] theorem setAcq_lanes (x : Acq) : (s.setAcq x).lanes = s.lanes := rfl
@[simp] theorem setAcq_evl (x : Acq) : (s.setAcq x).evl = s.evl := rfl
@[simp] theorem setAcq_vrn (x : Acq) : (s.setAcq x).vrn = s.vrn := rfl
@[simp] theorem setAcq_ports (x : Acq) : (s.setAcq x).ports = s.ports := rfl
@[simp] theorem setAcq_freeIx (x : Acq) : (s.setAcq x).freeIx = s.freeIx := rfl
@[simp] theorem setAcq_pending (x : Acq) : (s.setAcq x).pending = s.pending := rfl

@[simp] theorem setTrg_timebase (x : Trg) : (s.setTrg x).timebase = s.timebase := rfl
@[simp] theorem setTrg_pods (x : Trg) : (s.setTrg x).pods = s.pods := rfl
@[simp] theorem setTrg_smp (x : Trg) : (s.setTrg x).smp = s.smp := rfl
@[simp] theorem setTrg_sto (x : Trg) : (s.setTrg x).sto = s.sto := rfl
@[simp] theorem setTrg_acq (x : Trg) : (s.setTrg x).acq = s.acq := rfl
@[simp] theorem setTrg_trg (x : Trg) : (s.setTrg x).trg = x := rfl
@[simp] theorem setTrg_lanes (x : Trg) : (s.setTrg x).lanes = s.lanes := rfl
@[simp] theorem setTrg_evl (x : Trg) : (s.setTrg x).evl = s.evl := rfl
@[simp] theorem setTrg_vrn (x : Trg) : (s.setTrg x).vrn = s.vrn := rfl
@[simp] theorem setTrg_ports (x : Trg) : (s.setTrg x).ports = s.ports := rfl
@[simp] theorem setTrg_freeIx (x : Trg) : (s.setTrg x).freeIx = s.freeIx := rfl
@[simp] theorem setTrg_pending (x : Trg) : (s.setTrg x).pending = s.pending := rfl

@[simp] theorem setLanes_timebase (x : Quad Lane) : (s.setLanes x).timebase = s.timebase := rfl
@[simp] theorem setLanes_pods (x : Quad Lane) : (s.setLanes x).pods = s.pods := rfl
@[simp] theorem setLanes_smp (x : Quad Lane) : (s.setLanes x).smp = s.smp := rfl
@[simp] theorem setLanes_sto (x : Quad Lane) : (s.setLanes x).sto = s.sto := rfl
@[simp] theorem setLanes_acq (x : Quad Lane) : (s.setLanes x).acq = s.acq := rfl
@[simp] theorem setLanes_trg (x : Quad Lane) : (s.setLanes x).trg = s.trg := rfl
@[simp] theorem setLanes_lanes (x : Quad Lane) : (s.setLanes x).lanes = x := rfl
@[simp] theorem setLanes_evl (x : Quad Lane) : (s.setLanes x).evl = s.evl := rfl
@[simp] theorem setLanes_vrn (x : Quad Lane) : (s.setLanes x).vrn = s.vrn := rfl
@[simp] theorem setLanes_ports (x : Quad Lane) : (s.setLanes x).ports = s.ports := rfl
@[simp] theorem setLanes_freeIx (x : Quad Lane) : (s.setLanes x).freeIx = s.freeIx := rfl
@[simp] theorem setLanes_pending (x : Quad Lane) : (s.setLanes x).pending = s.pending := rfl

@[simp] theorem setEvl_timebase (x : Evl) : (s.setEvl x).timebase = s.timebase := rfl
@[simp] theorem setEvl_pods (x : Evl) : (s.setEvl x).pods = s.pods := rfl
@[simp] theorem setEvl_smp (x : Evl) : (s.setEvl x).smp = s.smp := rfl
@[simp] theorem setEvl_sto (x : Evl) : (s.setEvl x).sto = s.sto := rfl
@[simp] theorem setEvl_acq (x : Evl) : (s.setEvl x).acq = s.acq := rfl
@[simp] theorem setEvl_trg (x : Evl) : (s.setEvl x).trg = s.trg := rfl
@[simp] theorem setEvl_lanes (x : Evl) : (s.setEvl x).lanes = s.lanes := rfl
@[simp] theorem setEvl_evl (x : Evl) : (s.setEvl x).evl = x := rfl
@[simp] theorem setEvl_vrn (x : Evl) : (s.setEvl x).vrn = s.vrn := rfl
@[simp] theorem setEvl_ports (x : Evl) : (s.setEvl x).ports = s.ports := rfl
@[simp] theorem setEvl_freeIx (x : Evl) : (s.setEvl x).freeIx = s.freeIx := rfl
@[simp] theorem setEvl_pending (x : Evl) : (s.setEvl x).pending = s.pending := rfl

@[simp] theorem setVrn_timebase (x : Vrn) : (s.setVrn x).timebase = s.timebase := rfl
@[simp] theorem setVrn_pods (x : Vrn) : (s.setVrn x).pods = s.pods := rfl
@[simp] theorem setVrn_smp (x : Vrn) : (s.setVrn x).smp = s.smp := rfl
@[simp] theorem setVrn_sto (x : Vrn) : (s.setVrn x).sto = s.sto := rfl
@[simp] theorem setVrn_acq (x : Vrn) : (s.setVrn x).acq = s.acq := rfl
@[simp] theorem setVrn_trg (x : Vrn) : (s.setVrn x).trg = s.trg := rfl
@[simp] theorem setVrn_lanes (x : Vrn) : (s.setVrn x).lanes = s.lanes := rfl
@[simp] theorem setVrn_evl (x : Vrn) : (s.setVrn x).evl = s.evl := rfl
@[simp] theorem setVrn_vrn (x : Vrn) : (s.setVrn x).vrn = x := rfl
@[simp] theorem setVrn_ports (x : Vrn) : (s.setVrn x).ports = s.ports := rfl
@[simp] theorem setVrn_freeIx (x : Vrn) : (s.setVrn x).freeIx = s.freeIx := rfl
@[simp] theorem setVrn_pending (x : Vrn) : (s.setVrn x).pending = s.pending := rfl

@[simp] theorem setPorts_timebase (x : PerPort PortCtl) : (s.setPorts x).timebase = s.timebase := rfl
@[simp] theorem setPorts_pods (x : PerPort PortCtl) : (s.setPorts x).pods = s.pods := rfl
@[simp] theorem setPorts_smp (x : PerPort PortCtl) : (s.setPorts x).smp = s.smp := rfl
@[simp] theorem setPorts_sto (x : PerPort PortCtl) : (s.setPorts x).sto = s.sto := rfl
@[simp] theorem setPorts_acq (x : PerPort PortCtl) : (s.setPorts x).acq = s.acq := rfl
@[simp] theorem setPorts_trg (x : PerPort PortCtl) : (s.setPorts x).trg = s.trg := rfl
@[simp] theorem setPorts_lanes (x : PerPort PortCtl) : (s.setPorts x).lanes = s.lanes := rfl
@[simp] theorem setPorts_evl (x : PerPort PortCtl) : (s.setPorts x).evl = s.evl := rfl
@[simp] theorem setPorts_vrn (x : PerPort PortCtl) : (s.setPorts x).vrn = s.vrn := rfl
@[simp] theorem setPorts_ports (x : PerPort PortCtl) : (s.setPorts x).ports = x := rfl
@[simp] theorem setPorts_freeIx (x : PerPort PortCtl) : (s.setPorts x).freeIx = s.freeIx := rfl
@[simp] theorem setPorts_pending (x : PerPort PortCtl) : (s.setPorts x).pending = s.pending := rfl

@[simp] theorem setFreeIx_timebase (x : Nat) : (s.setFreeIx x).timebase = s.timebase := rfl
@[simp] theorem setFreeIx_pods (x : Nat) : (s.setFreeIx x).pods = s.pods := rfl
@[simp] theorem setFreeIx_smp (x : Nat) : (s.setFreeIx x).smp = s.smp := rfl
@[simp] theorem setFreeIx_sto (x : Nat) : (s.setFreeIx x).sto = s.sto := rfl
@[simp] theorem setFreeIx_acq (x : Nat) : (s.setFreeIx x).acq = s.acq := rfl
@[simp] theorem setFreeIx_trg (x : Nat) : (s.setFreeIx x).trg = s.trg := rfl
@[simp] theorem setFreeIx_lanes (x : Nat) : (s.setFreeIx x).lanes = s.lanes := rfl
@[simp] theorem setFreeIx_evl (x : Nat) : (s.setFreeIx x).evl = s.evl := rfl
@[simp] theorem setFreeIx_vrn (x : Nat) : (s.setFreeIx x).vrn = s.vrn := rfl
@[simp] theorem setFreeIx_ports (x : Nat) : (s.setFreeIx x).ports = s.ports := rfl
@[simp] theorem setFreeIx_freeIx (x : Nat) : (s.setFreeIx x).freeIx = x := rfl
@[simp] theorem setFreeIx_pending (x : Nat) : (s.setFreeIx x).pending = s.pending := rfl

@[simp] theorem setPending_timebase (x : List Instr) : (s.setPending x).timebase = s.timebase := rfl
@[simp] theorem setPending_pods (x : List Instr) : (s.setPending x).pods = s.pods := rfl
@[simp] theorem setPending_smp (x : List Instr) : (s.setPending x).smp = s.smp := rfl
@[simp] theorem setPending_sto (x : List Instr) : (s.setPending x).sto = s.sto := rfl
@[simp] theorem setPending_acq (x : List Instr) : (s.setPending x).acq = s.acq := rfl
@[simp] theorem setPending_trg (x : List Instr) : (s.setPending x).trg = s.trg := rfl
@[simp] theorem setPending_lanes (x : List Instr) : (s.setPending x).lanes = s.lanes := rfl
@[simp] theorem setPending_evl (x : List Instr) : (s.setPending x).evl = s.evl := rfl
@[simp] theorem setPending_vrn (x : List Instr) : (s.setPending x).vrn = s.vrn := rfl
@[simp] theorem setPending_ports (x : List Instr) : (s.setPending x).ports = s.ports := rfl
@[simp] theorem setPending_freeIx (x : List Instr) : (s.setPending x).freeIx = s.freeIx := rfl
@[simp] theorem setPending_pending (x : List Instr) : (s.setPending x).pending = x := rfl

@[simp] theorem setTimebase_self : s.setTimebase s.timebase = s := rfl
@[simp] theorem setPods_self : s.setPods s.pods = s := rfl
@[simp] theorem setSmp_self : s.setSmp s.smp = s := rfl
@[simp] theorem setSto_self : s.setSto s.sto = s := rfl
@[simp] theorem setAcq_self : s.setAcq s.acq = s := rfl
@[simp] theorem setTrg_self : s.setTrg s.trg = s := rfl
@[simp] theorem setLanes_self : s.setLanes s.lanes = s := rfl
@[simp] theorem setEvl_self : s.setEvl s.evl = s := rfl
@[simp] theorem setVrn_self : s.setVrn s.vrn = s := rfl
@[simp] theorem setPorts_self : s.setPorts s.ports = s := rfl
@[simp] theorem setFreeIx_self : s.setFreeIx s.freeIx = s := rfl
@[simp] theorem setPending_self : s.setPending s.pending = s := rfl

@[simp] theorem setTimebase_setTimebase (x y : Nat) : (s.setTimebase x).setTimebase y = s.setTimebase y := rfl
@[simp] theorem setPods_setPods (x y : Quad Pod) : (s.setPods x).setPods y = s.setPods y := rfl
@[simp] theorem setSmp_setSmp (x y : Option Sampling) : (s.setSmp x).setSmp y = s.setSmp y := rfl
@[simp] theorem setSto_setSto (x y : Store) : (s.setSto x).setSto y = s.setSto y := rfl
@[simp] theorem setAcq_setAcq (x y : Acq) : (s.setAcq x).setAcq y = s.setAcq y := rfl
@[simp] theorem setTrg_setTrg (x y : Trg) : (s.setTrg x).setTrg y = s.setTrg y := rfl
@[simp] theorem setLanes_setLanes (x y : Quad Lane) : (s.setLanes x).setLanes y = s.setLanes y := rfl
@[simp] theorem setEvl_setEvl (x y : Evl) : (s.setEvl x).setEvl y = s.setEvl y := rfl
@[simp] theorem setVrn_setVrn (x y : Vrn) : (s.setVrn x).setVrn y = s.setVrn y := rfl
@[simp] theorem setPorts_setPorts (x y : PerPort PortCtl) : (s.setPorts x).setPorts y = s.setPorts y := rfl
@[simp] theorem setFreeIx_setFreeIx (x y : Nat) : (s.setFreeIx x).setFreeIx y = s.setFreeIx y := rfl
@[simp] theorem setPending_setPending (x y : List Instr) : (s.setPending x).setPending y = s.setPending y := rfl

end Sys2Proof.Machine.State

namespace Sys2Proof.Machine

open Sys2Proof

@[simp] theorem other_other (p : Port) : p.other.other = p := by cases p <;> rfl
@[simp] theorem other_ne (p : Port) : p.other ≠ p := by cases p <;> decide
@[simp] theorem ne_other (p : Port) : p ≠ p.other := by cases p <;> decide

@[simp] theorem perPort_get_set (α : Type) (x : PerPort α) (p : Port) (v : α) : (x.set p v).get p = v := by cases p <;> rfl
@[simp] theorem perPort_get_set_other (α : Type) (x : PerPort α) (p : Port) (v : α) :
    (x.set p v).get p.other = x.get p.other := by cases p <;> rfl
theorem perPort_get_set_ne (α : Type) (x : PerPort α) {p q : Port} (h : q ≠ p) (v : α) :
    (x.set p v).get q = x.get q := by cases p <;> cases q <;> first | rfl | exact absurd rfl h
@[simp] theorem perPort_set_get (α : Type) (x : PerPort α) (p : Port) : x.set p (x.get p) = x := by cases p <;> rfl
@[simp] theorem perPort_set_set (α : Type) (x : PerPort α) (p : Port) (v w : α) : (x.set p v).set p w = x.set p w := by
  cases p <;> rfl
theorem perPort_ext (α : Type) {x y : PerPort α} (h : ∀ p, x.get p = y.get p) : x = y := by
  cases x; cases y; have ha := h .a; have hb := h .b; simp only [PerPort.get] at ha hb; subst ha; subst hb; rfl

theorem four_cases (i : Four) : i = 0 ∨ i = 1 ∨ i = 2 ∨ i = 3 := by revert i; decide

@[simp] theorem quad_get_set (α : Type) (x : Quad α) (i : Four) (v : α) : (x.set i v).get i = v := by
  rcases four_cases i with rfl | rfl | rfl | rfl <;> rfl
theorem quad_get_set_ne (α : Type) (x : Quad α) {i j : Four} (h : j ≠ i) (v : α) : (x.set i v).get j = x.get j := by
  rcases four_cases i with rfl | rfl | rfl | rfl <;> rcases four_cases j with rfl | rfl | rfl | rfl <;>
    first | rfl | exact absurd rfl h
@[simp] theorem quad_get_all (α : Type) (v : α) (i : Four) : (Quad.all v).get i = v := by
  rcases four_cases i with rfl | rfl | rfl | rfl <;> rfl
@[simp] theorem quad_get_map (α β : Type) (f : α → β) (x : Quad α) (i : Four) : (x.map f).get i = f (x.get i) := by
  rcases four_cases i with rfl | rfl | rfl | rfl <;> rfl
@[simp] theorem numbered_get (i : Four) : numbered.get i = i := by
  rcases four_cases i with rfl | rfl | rfl | rfl <;> rfl

end Sys2Proof.Machine
end

