-- ==== Sys2Proof/Laws/Ops.lean ====
section
/-! SUPPORT. One lemma for each shared operation on ports, captures, events and renders: what it leaves as it was. -/

namespace Sys2Proof.Machine

open Sys2Proof

/-! ## Ports -/

/-- `t` differs from `s` in the ports at most. -/
def OnlyPorts (s t : State) : Prop := t = s.setPorts t.ports

theorem onlyPorts_refl (s : State) : OnlyPorts s s := rfl

theorem onlyPorts_trans {s t u : State} (h : OnlyPorts s t) (k : OnlyPorts t u) : OnlyPorts s u := by
  unfold OnlyPorts at *; rw [k, h]; rfl

theorem setPort_onlyPorts (s : State) (p : Port) (x : PortCtl) : OnlyPorts s (s.setPort p x) := rfl

@[simp] theorem setPort_get (s : State) (p : Port) (x : PortCtl) : (s.setPort p x).ports.get p = x := by
  simp [State.setPort]

@[simp] theorem setPort_get_other (s : State) (p : Port) (x : PortCtl) :
    (s.setPort p x).ports.get p.other = s.ports.get p.other := by simp [State.setPort]

theorem raise_onlyPorts (s : State) (p : Port) (n : Notice) : OnlyPorts s (s.raise p n) := rfl

theorem raiseBoth_onlyPorts (s : State) (n : Notice) : OnlyPorts s (s.raiseBoth n) := rfl

theorem answer_onlyPorts (s : State) (p : Port) (tag : Byte) (a : Answer) : OnlyPorts s (s.answer p tag a) := rfl

theorem discardFrame_onlyPorts (s : State) (p : Port) : OnlyPorts s (s.discardFrame p) := rfl

theorem drive_onlyPorts (s : State) (p : Port) (bytes : List Byte) : OnlyPorts s (s.drive p bytes) := rfl

/-- Raising a class sets its bit in the port's notice set and touches nothing else of the port (R182). -/
theorem raise_get (s : State) (p : Port) (n : Notice) :
    (s.raise p n).ports.get p = { s.ports.get p with notices := (s.ports.get p).notices ||| noticeMask n } := by
  simp [State.raise]

/-- Raising a class to one port does not touch the other (R182). -/
theorem raise_get_other (s : State) (p : Port) (n : Notice) :
    (s.raise p n).ports.get p.other = s.ports.get p.other := by simp [State.raise]

theorem raise_keeps_slot (s : State) (p q : Port) (n : Notice) :
    ((s.raise p n).ports.get q).slot = (s.ports.get q).slot := by
  cases p <;> cases q <;> rfl

theorem raiseBoth_get (s : State) (n : Notice) (p : Port) :
    (s.raiseBoth n).ports.get p = { s.ports.get p with notices := (s.ports.get p).notices ||| noticeMask n } := by
  cases p <;> rfl

/-- A class that is raised is pending. -/
theorem raise_hasNotice (s : State) (p : Port) (n : Notice) : (s.raise p n).hasNotice p n = true := by
  simp only [State.hasNotice, raise_get, BitVec.getLsbD_or, Bool.or_eq_true]
  right; cases n <;> decide

/-- A class that is pending stays pending when another is raised. -/
theorem raise_mono (s : State) (p q : Port) (n m : Notice) (h : s.hasNotice q m = true) :
    (s.raise p n).hasNotice q m = true := by
  by_cases e : q = p
  · subst e; simp only [State.hasNotice, raise_get, BitVec.getLsbD_or, Bool.or_eq_true]; exact .inl h
  · have : (s.raise p n).ports.get q = s.ports.get q := by
      simp only [State.raise, State.setPort, State.setPorts_ports]; exact perPort_get_set_ne _ _ e _
    simpa only [State.hasNotice, this] using h

theorem answer_get (s : State) (p : Port) (tag : Byte) (a : Answer) :
    (s.answer p tag a).ports.get p = { s.ports.get p with slot := .answered tag a } := by simp [State.answer]

theorem answer_get_other (s : State) (p : Port) (tag : Byte) (a : Answer) :
    (s.answer p tag a).ports.get p.other = s.ports.get p.other := by simp [State.answer]

/-- Everything a request can do (R176, R177, log 6). -/
theorem request_cases (s : State) (c : Instr) (p : Port) (tag : Byte) (f : State → State × Answer) :
    ((s.ports.get p).slot = .taken c ∧ s.request c p tag f = .next ((f s).1.answer p tag (f s).2)) ∨
    ((s.ports.get p).slot = .free ∧ bodyFits c = true ∧
      s.request c p tag f = .next ((f (s.setPort p { s.ports.get p with slot := .taken c })).1.answer p tag
        (f (s.setPort p { s.ports.get p with slot := .taken c })).2)) ∨
    ((s.ports.get p).slot = .free ∧ bodyFits c = false ∧ s.request c p tag f = .next (s.answer p tag (.plain .malformed))) ∨
    ((s.ports.get p).slot ≠ .free ∧ (s.ports.get p).slot ≠ .taken c ∧ s.request c p tag f = .next (s.discardFrame p)) := by
  unfold State.request
  cases h : (s.ports.get p).slot with
  | free => by_cases b : bodyFits c = true <;> simp [b]
  | taken d => by_cases e : d = c <;> simp [e]
  | answered t a => simp

/-- A request whose frame the port holds is taken by its owner (R176). -/
theorem request_taken (s : State) (c : Instr) (p : Port) (tag : Byte) (f : State → State × Answer)
    (h : (s.ports.get p).slot = .taken c) : s.request c p tag f = .next ((f s).1.answer p tag (f s).2) := by
  simp [State.request, h]

/-! ## Operations that reach the store, the event list, the renders and the notices -/

/-- `t` keeps what neither a removal nor an event entry touches. -/
structure KeepsCore (s t : State) : Prop where
  timebase : t.timebase = s.timebase
  pods : t.pods = s.pods
  smp : t.smp = s.smp
  acq : t.acq = s.acq
  trg : t.trg = s.trg
  lanes : t.lanes = s.lanes
  pending : t.pending = s.pending
  nextNum : t.sto.nextNum = s.sto.nextNum
  slot : ∀ p, (t.ports.get p).slot = (s.ports.get p).slot
  overrun : ∀ p, (t.ports.get p).overrun = (s.ports.get p).overrun
  enables : ∀ p, (t.ports.get p).enables = (s.ports.get p).enables
  driven : ∀ p, (t.ports.get p).driven = (s.ports.get p).driven

theorem KeepsCore.rfl' (s : State) : KeepsCore s s :=
  ⟨rfl, rfl, rfl, rfl, rfl, rfl, rfl, rfl, fun _ => rfl, fun _ => rfl, fun _ => rfl, fun _ => rfl⟩

theorem KeepsCore.trans {s t u : State} (h : KeepsCore s t) (k : KeepsCore t u) : KeepsCore s u :=
  ⟨k.1.trans h.1, k.2.trans h.2, k.3.trans h.3, k.4.trans h.4, k.5.trans h.5, k.6.trans h.6, k.7.trans h.7, k.8.trans h.8,
   fun p => (k.9 p).trans (h.9 p), fun p => (k.10 p).trans (h.10 p), fun p => (k.11 p).trans (h.11 p),
   fun p => (k.12 p).trans (h.12 p)⟩

theorem raise_keeps (s : State) (p : Port) (n : Notice) : KeepsCore s (s.raise p n) := by
  refine ⟨rfl, rfl, rfl, rfl, rfl, rfl, rfl, rfl, ?_, ?_, ?_, ?_⟩ <;> intro q <;> cases p <;> cases q <;> rfl

theorem raiseBoth_keeps (s : State) (n : Notice) : KeepsCore s (s.raiseBoth n) :=
  (raise_keeps s .a n).trans (raise_keeps _ .b n)

theorem setEvl_keeps (s : State) (x : Evl) : KeepsCore s (s.setEvl x) :=
  ⟨rfl, rfl, rfl, rfl, rfl, rfl, rfl, rfl, fun _ => rfl, fun _ => rfl, fun _ => rfl, fun _ => rfl⟩

theorem setVrn_keeps (s : State) (x : Vrn) : KeepsCore s (s.setVrn x) :=
  ⟨rfl, rfl, rfl, rfl, rfl, rfl, rfl, rfl, fun _ => rfl, fun _ => rfl, fun _ => rfl, fun _ => rfl⟩

theorem setFreeIx_keeps (s : State) (x : Nat) : KeepsCore s (s.setFreeIx x) :=
  ⟨rfl, rfl, rfl, rfl, rfl, rfl, rfl, rfl, fun _ => rfl, fun _ => rfl, fun _ => rfl, fun _ => rfl⟩

theorem setSto_keeps (s : State) (x : Store) (h : x.nextNum = s.sto.nextNum) : KeepsCore s (s.setSto x) :=
  ⟨rfl, rfl, rfl, rfl, rfl, rfl, rfl, h, fun _ => rfl, fun _ => rfl, fun _ => rfl, fun _ => rfl⟩

@[simp] theorem modify_nextNum (x : Store) (name : CapName) (f : Capture → Capture) :
    (x.modify name f).nextNum = x.nextNum := by unfold Store.modify; split <;> rfl

@[simp] theorem modify_blocks (x : Store) (name : CapName) (f : Capture → Capture) :
    (x.modify name f).blocks = x.blocks := by unfold Store.modify; split <;> rfl

theorem modifyCapture_keeps (s : State) (name : CapName) (f : Capture → Capture) : KeepsCore s (s.modifyCapture name f) :=
  setSto_keeps s _ (modify_nextNum _ _ _)

theorem modifyActive_keeps (s : State) (f : Capture → Capture) : KeepsCore s (s.modifyActive f) := by
  unfold State.modifyActive; split
  · exact modifyCapture_keeps _ _ _
  · exact KeepsCore.rfl' s

theorem renderGone_keeps (s : State) (p : Port) : KeepsCore s (s.renderGone p) :=
  (setVrn_keeps s _).trans (raise_keeps _ _ _)

theorem rendersGone_keeps (s : State) (name : CapName) : KeepsCore s (s.rendersGone name) := by
  have one : ∀ (u : State) (p : Port),
      KeepsCore u (if (u.vrn.ctx.get p).names name then u.renderGone p else u) := by
    intro u p; split
    · exact renderGone_keeps _ _
    · exact KeepsCore.rfl' u
  exact (one s .a).trans (one _ .b)

/-- Removing a capture reaches STO, EVL, VRN and the notices alone (R45). -/
theorem removeCapture_keeps (s : State) (i : Four) : KeepsCore s (s.removeCapture i) := by
  unfold State.removeCapture; split
  · exact KeepsCore.rfl' s
  · exact ((setSto_keeps s _ (by rfl)).trans (setEvl_keeps _ _)).trans (rendersGone_keeps _ _)

/-- A reclaim reaches STO, EVL, VRN and the notices alone (R40). -/
theorem reclaim_keeps {s t : State} (h : s.reclaim = some t) : KeepsCore s t := by
  unfold State.reclaim at h
  cases hv : s.sto.victim with
  | none => simp [hv] at h
  | some i =>
    simp only [hv, Option.map_some, Option.some.injEq] at h
    subst h; exact (removeCapture_keeps s i).trans (raiseBoth_keeps _ _)

theorem expireEvents_keeps (s : State) (name : CapName) (t : Nat) : KeepsCore s (s.expireEvents name t) :=
  (setEvl_keeps s _).trans (modifyCapture_keeps _ _ _)

theorem checkReady_keeps (s : State) (p : Port) : KeepsCore s (s.checkReady p) := by
  unfold State.checkReady; simp only; split
  · exact (setEvl_keeps s _).trans (raise_keeps _ _ _)
  · exact setEvl_keeps s _

theorem rearmReady_keeps (s : State) (p : Port) : KeepsCore s (s.rearmReady p) :=
  (setEvl_keeps s _).trans (checkReady_keeps _ _)

theorem appendEvent_keeps (s : State) (e : Event) : KeepsCore s (s.appendEvent e) :=
  ((setEvl_keeps s _).trans (checkReady_keeps _ .a)).trans (checkReady_keeps _ .b)

theorem enterWithRoom_keeps (fuel : Nat) (e : Event) (s : State) : KeepsCore s (State.enterWithRoom fuel e s) := by
  induction fuel generalizing s with
  | zero => unfold State.enterWithRoom; split
            · exact appendEvent_keeps s e
            · exact modifyCapture_keeps _ _ _
  | succ n ih =>
    unfold State.enterWithRoom; split
    · exact appendEvent_keeps s e
    · split
      · rename_i t h heq; cases h; exact (reclaim_keeps heq).trans (ih _)
      · exact modifyCapture_keeps _ _ _

/-- Entering an event reaches STO, EVL, VRN and the notices alone (R138 to R140). -/
theorem enterEvent_keeps (s : State) (e : Event) : KeepsCore s (s.enterEvent e) := by
  unfold State.enterEvent; split
  · exact KeepsCore.rfl' s
  · split <;> first | exact modifyCapture_keeps _ _ _ | exact enterWithRoom_keeps _ _ _

theorem enterHead_keeps (s : State) (l : List Event) : KeepsCore s (l.head?.elim s s.enterEvent) := by
  cases l with
  | nil => exact KeepsCore.rfl' s
  | cons e r => exact enterEvent_keeps s e

/-- Entering all events of a sample reaches STO, EVL, VRN, the notices and the free-choice counter alone (R138). -/
theorem enterAll_keeps (fuel : Nat) (q : Quad (List Event)) (s : State) : KeepsCore s (State.enterAll fuel q s) := by
  induction fuel generalizing q s with
  | zero => exact KeepsCore.rfl' s
  | succ n ih =>
    unfold State.enterAll; split
    · exact KeepsCore.rfl' s
    · exact (enterHead_keeps s _).trans (ih _ _)
    · exact ((setFreeIx_keeps s _).trans (enterHead_keeps _ _)).trans (ih _ _)

end Sys2Proof.Machine
end

