-- ==== Sys2Proof/Laws/Store.lean ====
section
/-! SUPPORT. The block map's canonical form: every store operation keeps it, and the state after reset has it. -/

namespace Sys2Proof.Machine

open Sys2Proof

/-- The form, said with plain order facts: numbers strictly rising, all below 2048. -/
theorem blocksSorted_iff (l : List (Nat × Block)) :
    blocksSorted l = true ↔ (l.Pairwise fun a b => a.1 < b.1) ∧ ∀ e ∈ l, e.1 < Config.blockCount := by
  induction l with
  | nil => simp [blocksSorted]
  | cons e rest ih =>
    obtain ⟨m, c⟩ := e
    cases rest with
    | nil => simp [blocksSorted]
    | cons f rest =>
      obtain ⟨n, b⟩ := f
      simp only [blocksSorted, Bool.and_eq_true, decide_eq_true_eq, ih]
      constructor
      · rintro ⟨hmn, hp, hb⟩
        refine ⟨List.pairwise_cons.2 ⟨?_, hp⟩, ?_⟩
        · intro x hx
          rcases List.mem_cons.1 hx with rfl | hx
          · exact hmn
          · exact Nat.lt_trans hmn ((List.pairwise_cons.1 hp).1 x hx)
        · intro x hx
          rcases List.mem_cons.1 hx with rfl | hx
          · exact Nat.lt_trans hmn (hb (n, b) (by simp))
          · exact hb x hx
      · rintro ⟨hp, hb⟩
        exact ⟨(List.pairwise_cons.1 hp).1 (n, b) (by simp), (List.pairwise_cons.1 hp).2,
          fun x hx => hb x (by simp [hx])⟩

theorem lookupBlock_mem {l : List (Nat × Block)} {n : Nat} {b : Block} (h : lookupBlock l n = some b) : (n, b) ∈ l := by
  induction l with
  | nil => simp [lookupBlock] at h
  | cons e rest ih =>
    obtain ⟨m, c⟩ := e
    unfold lookupBlock at h
    split at h
    · rename_i e; subst e; cases h; simp
    · exact List.mem_cons_of_mem _ (ih h)

theorem lookupBlock_insertBlock (l : List (Nat × Block)) (n : Nat) (b : Block) :
    lookupBlock (insertBlock l n b) n = some b := by
  induction l with
  | nil => simp [insertBlock, lookupBlock]
  | cons e rest ih =>
    obtain ⟨m, c⟩ := e
    unfold insertBlock; split
    · simp [lookupBlock]
    · split
      · simp [lookupBlock]
      · rename_i h1 h2; simp [lookupBlock, Ne.symm h2, ih]

/-- A block that is written reads back; every other block reads as before. -/
theorem lookupBlock_insertBlock_ne (l : List (Nat × Block)) {n k : Nat} (b : Block) (h : k ≠ n) :
    lookupBlock (insertBlock l n b) k = lookupBlock l k := by
  induction l with
  | nil => simp [insertBlock, lookupBlock, Ne.symm h]
  | cons e rest ih =>
    obtain ⟨m, c⟩ := e
    unfold insertBlock; split
    · simp [lookupBlock, Ne.symm h]
    · split
      · rename_i h1 h2; subst h2; simp [lookupBlock, Ne.symm h]
      · simp [lookupBlock, ih]

theorem mem_insertBlock {l : List (Nat × Block)} {n : Nat} {b : Block} {x : Nat × Block} (h : x ∈ insertBlock l n b) :
    x = (n, b) ∨ x ∈ l := by
  induction l with
  | nil => simpa [insertBlock] using h
  | cons e rest ih =>
    obtain ⟨m, c⟩ := e
    unfold insertBlock at h; split at h
    · simpa using h
    · split at h
      · rcases List.mem_cons.1 h with h | h
        · exact .inl h
        · exact .inr (List.mem_cons_of_mem _ h)
      · rcases List.mem_cons.1 h with h | h
        · exact .inr (by simp [h])
        · rcases ih h with h | h
          · exact .inl h
          · exact .inr (List.mem_cons_of_mem _ h)

theorem insertBlock_sorted {l : List (Nat × Block)} {n : Nat} (b : Block) (hn : n < Config.blockCount)
    (h : blocksSorted l = true) : blocksSorted (insertBlock l n b) = true := by
  rw [blocksSorted_iff] at *
  refine ⟨?_, fun x hx => ?_⟩
  · obtain ⟨hp, -⟩ := h
    induction l with
    | nil => simp [insertBlock]
    | cons e rest ih =>
      obtain ⟨m, c⟩ := e
      have hp' := List.pairwise_cons.1 hp
      unfold insertBlock; split
      · rename_i hnm
        refine List.pairwise_cons.2 ⟨fun x hx => ?_, hp⟩
        rcases List.mem_cons.1 hx with rfl | hx
        · exact hnm
        · exact Nat.lt_trans hnm (hp'.1 x hx)
      · split
        · rename_i h1 h2; subst h2
          exact List.pairwise_cons.2 ⟨hp'.1, hp'.2⟩
        · rename_i h1 h2
          refine List.pairwise_cons.2 ⟨fun x hx => ?_, ih hp'.2⟩
          rcases mem_insertBlock hx with rfl | hx
          · show m < n; omega
          · exact hp'.1 x hx
  · rcases mem_insertBlock hx with rfl | hx
    · exact hn
    · exact h.2 x hx

theorem filter_sorted {l : List (Nat × Block)} (f : Nat × Block → Bool) (h : blocksSorted l = true) :
    blocksSorted (l.filter f) = true := by
  rw [blocksSorted_iff] at *
  exact ⟨h.1.filter f, fun x hx => h.2 x (List.mem_of_mem_filter hx)⟩

theorem lookupBlock_lt {l : List (Nat × Block)} {n : Nat} {b : Block} (h : blocksSorted l = true)
    (k : lookupBlock l n = some b) : n < Config.blockCount := ((blocksSorted_iff l).1 h).2 _ (lookupBlock_mem k)

theorem lowestFreeFrom_lt {l : List (Nat × Block)} {fuel k n : Nat} (h : lowestFreeFrom l fuel k = some n) :
    n < k + fuel := by
  induction fuel generalizing k with
  | zero => simp [lowestFreeFrom] at h
  | succ m ih =>
    unfold lowestFreeFrom at h; split at h
    · cases h; omega
    · have := ih h; omega

/-- The block that is found FREE exists and is not listed (R37, R39). -/
theorem lowestFree_lt {x : Store} {n : Nat} (h : x.lowestFree = some n) : n < Config.blockCount := by
  simpa using lowestFreeFrom_lt h

theorem lowestFreeFrom_free {l : List (Nat × Block)} {fuel k n : Nat} (h : lowestFreeFrom l fuel k = some n) :
    lookupBlock l n = none := by
  induction fuel generalizing k with
  | zero => simp [lowestFreeFrom] at h
  | succ m ih =>
    unfold lowestFreeFrom at h; split at h
    · rename_i e; cases h; simpa using e
    · exact ih h

theorem filling_mem {x : Store} {name : CapName} {n : Nat} {b : Block} (h : x.filling name = some (n, b)) :
    (n, b) ∈ x.blocks := List.mem_of_find?_eq_some h

theorem filling_lt {x : Store} {name : CapName} {n : Nat} {b : Block} (w : x.wf = true)
    (h : x.filling name = some (n, b)) : n < Config.blockCount :=
  ((blocksSorted_iff _).1 w).2 _ (filling_mem h)

/-! ## Every operation keeps the form -/

theorem wf_of_blocks {x y : Store} (h : y.blocks = x.blocks) (w : x.wf = true) : y.wf = true := by
  unfold Store.wf at *; rw [h]; exact w

theorem modify_wf (x : Store) (name : CapName) (f : Capture → Capture) (w : x.wf = true) : (x.modify name f).wf = true :=
  wf_of_blocks (modify_blocks x name f) w

theorem appendRecord_wf {x : Store} {n : Nat} (b : Block) (word : ChannelWord) (index : Nat) (hn : n < Config.blockCount)
    (w : x.wf = true) : (x.appendRecord n b word index).wf = true := insertBlock_sorted _ hn w

theorem modifyBlock_wf (x : Store) (n : Nat) (f : Block → Block) (w : x.wf = true) : (x.modifyBlock n f).wf = true := by
  unfold Store.modifyBlock; split
  · rename_i b h; exact insertBlock_sorted _ (lookupBlock_lt w h) w
  · exact w

theorem seal_wf (x : Store) (n : Nat) (w : x.wf = true) : (x.seal n).wf = true := modifyBlock_wf x n _ w

theorem extendRecord_wf (x : Store) (name : CapName) (w : x.wf = true) : (x.extendRecord name).wf = true := by
  unfold Store.extendRecord; split
  · rename_i n b h; exact insertBlock_sorted _ (filling_lt w h) w
  · exact w

theorem appendBlock_wf {x : Store} (name : CapName) (c : Capture) {n : Nat} (index : Nat) (hn : n < Config.blockCount)
    (w : x.wf = true) : (x.appendBlock name c n index).wf = true := by
  unfold Store.appendBlock; dsimp only
  refine insertBlock_sorted _ hn ?_
  split
  · exact modifyBlock_wf x _ _ w
  · exact w

theorem recycle_wf (x : Store) (name : CapName) (c : Capture) (index : Nat) (w : x.wf = true) :
    (x.recycle name c index).wf = true := by
  unfold Store.recycle; split
  · rename_i b h
    split
    · have hn := lookupBlock_lt w h
      exact appendBlock_wf _ _ _ hn (modify_wf _ _ _ (filter_sorted _ w))
    · exact w
  · exact w

theorem removeCapture_wf (s : State) (i : Four) (w : s.sto.wf = true) : (s.removeCapture i).sto.wf = true := by
  have keep : ∀ (u : State) (p : Port) (name : CapName),
      (if (u.vrn.ctx.get p).names name then u.renderGone p else u).sto = u.sto := by
    intro u p name; split <;> rfl
  unfold State.removeCapture; split
  · exact w
  · rename_i name _
    show (State.rendersGone _ name).sto.wf = true
    simp only [State.rendersGone, allPorts, List.foldl_cons, List.foldl_nil, keep]
    exact filter_sorted _ w

theorem reclaim_wf {s t : State} (h : s.reclaim = some t) (w : s.sto.wf = true) : t.sto.wf = true := by
  unfold State.reclaim at h
  cases hv : s.sto.victim with
  | none => simp [hv] at h
  | some i =>
    simp only [hv, Option.map_some, Option.some.injEq] at h
    subst h; exact removeCapture_wf s i w

theorem expireEvents_wf (s : State) (name : CapName) (t : Nat) (w : s.sto.wf = true) :
    (s.expireEvents name t).sto.wf = true := modify_wf _ _ _ w

theorem stateRecycle_wf (s : State) (name : CapName) (c : Capture) (index : Nat) (w : s.sto.wf = true) :
    (s.recycle name c index).sto.wf = true := by
  have k : (s.setSto (s.sto.recycle name c index)).sto.wf = true := recycle_wf _ _ _ _ w
  unfold State.recycle; dsimp only
  split
  · split
    · exact expireEvents_wf _ _ _ k
    · exact k
  · exact k

theorem nextBlock_wf {s t : State} {name : CapName} {c : Capture} {index : Nat} (h : s.nextBlock name c index = some t)
    (w : s.sto.wf = true) : t.sto.wf = true := by
  have rec' : ∀ u, (if c.mode = .window && s.sto.canRecycle c then some (s.recycle name c index) else none) = some u →
      u.sto.wf = true := by
    intro u hu; split at hu
    · cases hu; exact stateRecycle_wf _ _ _ _ w
    · cases hu
  unfold State.nextBlock at h; dsimp only at h
  split at h
  · split at h
    · rename_i n hn; cases h; exact appendBlock_wf _ _ _ (lowestFree_lt hn) w
    · split at h
      · rename_i s' hs'
        split at h
        · rename_i n hn; cases h; exact appendBlock_wf _ _ _ (lowestFree_lt hn) (reclaim_wf hs' w)
        · exact rec' _ h
      · exact rec' _ h
  · exact rec' _ h

/-- Placing a record keeps the canonical form (R38). -/
theorem placeRecord_wf (s : State) (name : CapName) (word : ChannelWord) (index : Nat) (w : s.sto.wf = true) :
    (s.placeRecord name word index).1.sto.wf = true := by
  unfold State.placeRecord; split
  · rename_i n b c hf hc
    split
    · exact appendRecord_wf _ _ _ (filling_lt w hf) w
    · have w' : (s.setSto (s.sto.seal n)).sto.wf = true := seal_wf _ _ w
      dsimp only
      split
      · rename_i s' hs'
        have w'' := nextBlock_wf hs' w'
        split
        · rename_i m b' hm; exact appendRecord_wf _ _ _ (filling_lt w'' hm) w''
        · exact w''
      · exact w'
  · exact w

theorem noteRead_wf (name : CapName) (s : State) (e : ReadEntry) (w : s.sto.wf = true) :
    (State.noteRead name s e).sto.wf = true := by
  unfold State.noteRead; split
  · exact w
  · exact wf_of_blocks rfl w
  · refine modify_wf _ _ _ (modifyBlock_wf _ _ _ ?_); exact wf_of_blocks rfl w

/-- A read's checks keep the canonical form (R51, R52). -/
theorem noteReads_wf (s : State) (name : CapName) (es : List ReadEntry) (w : s.sto.wf = true) :
    (s.noteReads name es).sto.wf = true := by
  unfold State.noteReads
  induction es generalizing s with
  | nil => exact w
  | cons e rest ih => exact ih _ (noteRead_wf name s e w)

theorem checkReady_sto (s : State) (p : Port) : (s.checkReady p).sto = s.sto := by
  unfold State.checkReady; simp only; split <;> rfl

theorem appendEvent_sto (s : State) (e : Event) : (s.appendEvent e).sto = s.sto := by
  unfold State.appendEvent; simp only [checkReady_sto]; rfl

theorem enterWithRoom_wf (fuel : Nat) (e : Event) (s : State) (w : s.sto.wf = true) :
    (State.enterWithRoom fuel e s).sto.wf = true := by
  induction fuel generalizing s with
  | zero => unfold State.enterWithRoom; split
            · rw [appendEvent_sto]; exact w
            · exact modify_wf _ _ _ w
  | succ n ih =>
    unfold State.enterWithRoom; split
    · rw [appendEvent_sto]; exact w
    · split
      · rename_i t h heq; cases h; exact ih _ (reclaim_wf heq w)
      · exact modify_wf _ _ _ w

theorem enterEvent_wf (s : State) (e : Event) (w : s.sto.wf = true) : (s.enterEvent e).sto.wf = true := by
  unfold State.enterEvent; split
  · exact w
  · split <;> first | exact modify_wf _ _ _ w | exact enterWithRoom_wf _ _ _ w

/-- Entering the events of a sample keeps the canonical form (R138, R140). -/
theorem enterAll_wf (fuel : Nat) (q : Quad (List Event)) (s : State) (w : s.sto.wf = true) :
    (State.enterAll fuel q s).sto.wf = true := by
  have head : ∀ (u : State) (l : List Event), u.sto.wf = true → (l.head?.elim u u.enterEvent).sto.wf = true := by
    intro u l wu; cases l with
    | nil => exact wu
    | cons e r => exact enterEvent_wf u e wu
  induction fuel generalizing q s with
  | zero => exact w
  | succ n ih =>
    unfold State.enterAll; split
    · exact w
    · exact ih _ _ (head s _ w)
    · exact ih _ _ (head _ _ w)

/-- The store after reset is in its canonical form. -/
theorem reset_wf : State.reset.sto.wf = true := by decide

end Sys2Proof.Machine
end

