-- ==== Sys2Proof/Laws/Removal.lean ====
section
/-! SUPPORT. Notices, and the removal of a capture: one lemma for each operation says all it does. -/

namespace Sys2Proof.Machine

open Sys2Proof

/-- A class is pending after a raise exactly when it was, or is the one raised to that port (R182). -/
theorem hasNotice_raise (s : State) (p q : Port) (n m : Notice) :
    (s.raise p n).hasNotice q m = (s.hasNotice q m || (decide (q = p) && decide (m = n))) := by
  by_cases e : q = p
  · subst e
    simp only [State.hasNotice, raise_get, BitVec.getLsbD_or, decide_true, Bool.true_and]
    congr 1; cases n <;> cases m <;> decide
  · have : (s.raise p n).ports.get q = s.ports.get q := by
      simp only [State.raise, State.setPort, State.setPorts_ports]; exact perPort_get_set_ne _ _ e _
    simp [State.hasNotice, this, e]

/-- A class is pending after a raise to both ports exactly when it was, or is the one raised (R182). -/
theorem hasNotice_raiseBoth (s : State) (q : Port) (n m : Notice) :
    (s.raiseBoth n).hasNotice q m = (s.hasNotice q m || decide (m = n)) := by
  unfold State.raiseBoth
  rw [hasNotice_raise, hasNotice_raise]
  cases q <;> simp

/-- Looking a block up in a filtered map of canonical form. -/
theorem lookup_filter {l : List (Nat × Block)} (h : blocksSorted l = true) (f : Block → Bool) (n : Nat) :
    lookupBlock (l.filter fun e => f e.2) n = (lookupBlock l n).filter f := by
  rw [blocksSorted_iff] at h
  obtain ⟨h, -⟩ := h
  induction l with
  | nil => rfl
  | cons x rest ih =>
    obtain ⟨m, b⟩ := x
    rw [List.pairwise_cons] at h
    have ih := ih h.2
    by_cases e : m = n
    · subst e
      have hn : lookupBlock rest m = none := by
        cases hh : lookupBlock rest m with
        | none => rfl
        | some b' => exact absurd (h.1 _ (lookupBlock_mem hh)) (by simp)
      by_cases hf : f b = true
      · simp [List.filter, hf, lookupBlock, Option.filter]
      · simp only [Bool.not_eq_true] at hf
        simp [List.filter, hf, lookupBlock]
        rw [ih, hn]; simp [Option.filter, hf]
    · by_cases hf : f b = true
      · simp [List.filter, hf, lookupBlock, e, ih]
      · simp only [Bool.not_eq_true] at hf
        simp [List.filter, hf, lookupBlock, e, ih]

/-- The name of a slot's capture names that slot. -/
theorem nameAt_eq {x : Store} {i : Four} {name} (h : x.nameAt i = some name) : name.slot = i := by
  unfold Store.nameAt at h; cases hh : x.slots.get i <;> simp [hh] at h; rw [← h]

/-- The contexts after a render has ended (R150). -/
theorem names_endRender (v : Vrn) (p : Port) (w : RenderEnd) (q : Port) :
    ((v.endRender p w).ctx.get q) = if q = p then RenderCtx.mk .idle none [] (some w) else v.ctx.get q := by
  unfold Vrn.endRender Vrn.endTurn Vrn.setCtx
  split <;> cases p <;> cases q <;> rfl

/-- All that the end of a removed capture's renders does (R164). -/
theorem rendersGone_spec (s : State) (name : CapName) :
    (s.rendersGone name).evl = s.evl ∧ (s.rendersGone name).sto = s.sto ∧ (s.rendersGone name).freeIx = s.freeIx ∧
    (∀ q, (s.rendersGone name).vrn.ctx.get q = if (s.vrn.ctx.get q).names name then
      RenderCtx.mk .idle none [] (some .gone) else s.vrn.ctx.get q) ∧
    (∀ q n, (s.rendersGone name).hasNotice q n = (s.hasNotice q n || (decide (n = .renderEnded) && (s.vrn.ctx.get q).names name))) := by
  unfold State.rendersGone allPorts
  simp only [List.foldl]
  by_cases ha : (s.vrn.ctx.get .a).names name = true <;> by_cases hb : (s.vrn.ctx.get .b).names name = true
  · have hb' : ((s.renderGone .a).vrn.ctx.get .b).names name = true := by
      show (((s.vrn.endRender .a .gone)).ctx.get .b).names name = true
      rw [names_endRender]; simpa using hb
    simp only [ha, hb', if_true]
    refine ⟨rfl, rfl, rfl, fun q => ?_, fun q n => ?_⟩
    · show (((s.vrn.endRender .a .gone)).endRender .b .gone).ctx.get q = _
      rw [names_endRender, names_endRender]; cases q <;> simp [ha, hb]
    · unfold State.renderGone
      rw [hasNotice_raise]
      show ((State.raise _ _ _).hasNotice q n || _) = _
      rw [hasNotice_raise]
      show (s.hasNotice q n || _ || _) = _
      cases q <;> simp [ha, hb]
  · have hb' : ¬ ((s.renderGone .a).vrn.ctx.get .b).names name = true := by
      show ¬ (((s.vrn.endRender .a .gone)).ctx.get .b).names name = true
      rw [names_endRender]; simpa using hb
    simp only [ha, hb', if_true]
    refine ⟨rfl, rfl, rfl, fun q => ?_, fun q n => ?_⟩
    · show ((s.vrn.endRender .a .gone)).ctx.get q = _
      rw [names_endRender]; cases q <;> simp [ha, hb]
    · unfold State.renderGone
      simp only [Bool.false_eq_true, if_false]
      rw [hasNotice_raise]
      show (s.hasNotice q n || _) = _
      cases q <;> simp [ha, hb]
  · simp only [ha, hb, if_true, Bool.false_eq_true, if_false]
    refine ⟨rfl, rfl, rfl, fun q => ?_, fun q n => ?_⟩
    · show ((s.vrn.endRender .b .gone)).ctx.get q = _
      rw [names_endRender]; cases q <;> simp [ha, hb]
    · unfold State.renderGone
      rw [hasNotice_raise]
      show (s.hasNotice q n || _) = _
      cases q <;> simp [ha, hb]
  · simp only [ha, hb, Bool.false_eq_true, if_false]
    refine ⟨by simp, by simp, by simp, fun q => ?_, fun q n => ?_⟩
    · cases q <;> simp [ha, hb]
    · cases q <;> simp [ha, hb]

/-- All that the removal of a capture does (R32, R45, R142, R143, R164). -/
theorem removeCapture_removed (s : State) (i : Four) (name : CapName) (w : s.sto.wf = true) (h : s.sto.nameAt i = some name) :
    s.removed (s.removeCapture i) name ∧ (s.removeCapture i).freeIx = s.freeIx ∧
    (∀ q n, n ≠ .renderEnded → (s.removeCapture i).hasNotice q n = s.hasNotice q n) := by
  have hi := nameAt_eq h
  unfold State.removeCapture
  simp only [h]
  obtain ⟨e1, e2, e3, e4, e5⟩ := rendersGone_spec (((s.setSto { s.sto with
        blocks := s.sto.blocks.filter fun e => e.2.owner ≠ name, slots := s.sto.slots.set i none }).setEvl
      (s.evl.remove fun e => e.cap = name))) name
  refine ⟨⟨fun n => ?_, ?_, ?_, ?_, ?_, ?_, ?_⟩, ?_, ?_⟩
  · rw [e2]; simpa using lookup_filter w (fun b => decide (b.owner ≠ name)) n
  · rw [e2, hi]; rfl
  · rw [e1]; simp [Evl.remove]
  · rw [e1]; simp [Evl.remove]
  · intro q; rw [e1]; cases q <;> simp [Evl.remove, EventPort.miss, missedBy, satAdd, PerPort.get, Config.max16, List.filter_filter] <;> refine congrArg (fun l => min 65535 (_ + List.length l)) (List.filter_congr fun x _ => ?_) <;> (rw [Bool.eq_iff_iff]; simp only [Bool.and_eq_true, decide_eq_true_eq]; exact ⟨fun h => decide_eq_true h.symm, fun h => (of_decide_eq_true h).symm⟩)
  · intro q; rw [e4]; rfl
  · intro q; rw [e5]; show (s.hasNotice q .renderEnded || _) = _; simp
  · rw [e3]; rfl
  · intro q n hn; rw [e5]; show (s.hasNotice q n || _) = _; simp [hn]

/-- Which slots a reclaim can take (R40). -/
theorem reclaimable_eq (x : Store) (i : Four) (o : Nat) : x.reclaimable i = some o ↔
    ∃ c, x.slots.get i = some c ∧ c.complete = true ∧ c.retain.a = false ∧ c.retain.b = false ∧ o = c.origin.getD 0 := by
  unfold Store.reclaimable
  cases h : x.slots.get i with
  | none => simp
  | some c =>
    constructor
    · intro h; simp only at h; split at h
      · rename_i hh; simp only [Bool.and_eq_true, Bool.not_eq_eq_eq_not, Bool.not_true] at hh
        exact ⟨c, rfl, hh.1.1, hh.1.2, hh.2, by simpa using h.symm⟩
      · cases h
    · rintro ⟨c', h, a, b, d, rfl⟩; cases h; simp [a, b, d]

/-- The search for a reclaim's victim, over any list of slots. -/
theorem victim_fold (x : Store) (l : List Four) (acc : Option (Four × Nat)) :
    (∀ r, (l.foldl (fun (best : Option (Four × Nat)) i =>
      match x.reclaimable i with
      | none => best
      | some o => match best with
        | some (j, o') => if o < o' then some (i, o) else some (j, o')
        | none => some (i, o)) acc) = r →
     (r = none ↔ acc = none ∧ ∀ i ∈ l, x.reclaimable i = none) ∧
     (∀ i o, r = some (i, o) → ((some (i, o) = acc ∨ (i ∈ l ∧ x.reclaimable i = some o)) ∧
        (∀ j o', acc = some (j, o') → o ≤ o') ∧ ∀ j ∈ l, ∀ o', x.reclaimable j = some o' → o ≤ o'))) := by
  induction l generalizing acc with
  | nil =>
    intro r h; subst h
    refine ⟨by simp, fun i o hr => ⟨.inl hr.symm, fun j o' ha => ?_, by simp⟩⟩
    simp only [List.foldl_nil] at hr; rw [hr] at ha; cases ha; exact Nat.le_refl _
  | cons k l ih =>
    intro r h
    rw [List.foldl_cons] at h
    cases hk : x.reclaimable k with
    | none =>
      simp only [hk] at h
      obtain ⟨h1, h2⟩ := ih _ r h
      refine ⟨by rw [h1]; simp [hk], fun i o hr => ?_⟩
      obtain ⟨a, b, c⟩ := h2 i o hr
      refine ⟨a.imp id fun a => ⟨by simp [a.1], a.2⟩, b, fun j hj o' ho => ?_⟩
      rcases List.mem_cons.1 hj with rfl | hj
      · simp [hk] at ho
      · exact c j hj o' ho
    | some o1 =>
      simp only [hk] at h
      obtain ⟨h1, h2⟩ := ih _ r h
      cases acc with
      | none =>
        refine ⟨by rw [h1]; simp [hk], fun i o hr => ?_⟩
        obtain ⟨a, b, c⟩ := h2 i o hr
        refine ⟨.inr ?_, by simp, fun j hj o' ho => ?_⟩
        · rcases a with a | a
          · simp at a; simp [a, hk]
          · simp [a]
        · rcases List.mem_cons.1 hj with rfl | hj
          · rw [hk] at ho; cases ho; exact b _ _ rfl
          · exact c j hj o' ho
      | some q =>
        obtain ⟨j0, o0⟩ := q
        simp only at h1 h2
        refine ⟨by rw [h1]; by_cases hlt : o1 < o0 <;> simp [hlt], fun i o hr => ?_⟩
        obtain ⟨a, b, c⟩ := h2 i o hr
        split at a <;> rename_i hlt
        · have b' := b k o1 (by simp [hlt])
          refine ⟨.inr ?_, ?_, fun j hj o' ho => ?_⟩
          · rcases a with a | a
            · simp at a; simp [a, hk]
            · simp [a]
          · intro j o' he; cases he; omega
          · rcases List.mem_cons.1 hj with rfl | hj
            · rw [hk] at ho; cases ho; exact b'
            · exact c j hj o' ho
        · have b' := b j0 o0 (by simp [hlt])
          refine ⟨a.imp id fun a => ⟨by simp [a.1], a.2⟩, ?_, fun j hj o' ho => ?_⟩
          · intro j o' he; cases he; exact b'
          · rcases List.mem_cons.1 hj with rfl | hj
            · rw [hk] at ho; cases ho; omega
            · exact c j hj o' ho

/-- Every number below four is in the list of the four. -/
theorem mem_allFour (i : Four) : i ∈ allFour := by revert i; decide

/-- A reclaim finds no victim exactly when every COMPLETE capture is retained (R40). -/
theorem victim_none (x : Store) : x.victim = none ↔ ∀ j c, x.slots.get j = some c → c.complete = true → c.retain.a = true ∨ c.retain.b = true := by
  unfold Store.victim
  obtain ⟨h1, -⟩ := victim_fold x allFour none _ rfl
  rw [Option.map_eq_none_iff]; refine Iff.trans h1 ?_
  constructor
  · rintro ⟨-, h⟩ j c hc hk
    by_contra hh
    have := (reclaimable_eq x j (c.origin.getD 0)).2 ⟨c, hc, hk, by simp_all, by simp_all, rfl⟩
    rw [h j (mem_allFour j)] at this; cases this
  · intro h; refine ⟨rfl, fun i _ => ?_⟩
    cases hh : x.reclaimable i with
    | none => rfl
    | some o =>
      obtain ⟨c, a, b, d, e, -⟩ := (reclaimable_eq x i o).1 hh
      rcases h i c a b with h | h <;> simp_all

/-- A reclaim's victim is an oldest unretained COMPLETE capture (R40). -/
theorem victim_some (x : Store) (i : Four) (h : x.victim = some i) : ∃ v, x.slots.get i = some v ∧ v.complete = true ∧
    v.retain.a = false ∧ v.retain.b = false ∧ ∀ j c, x.slots.get j = some c → c.complete = true → c.retain.a = false →
      c.retain.b = false → v.origin.getD 0 ≤ c.origin.getD 0 := by
  unfold Store.victim at h
  rw [Option.map_eq_some_iff] at h
  obtain ⟨⟨i', o⟩, h, rfl⟩ := h
  obtain ⟨-, h2⟩ := victim_fold x allFour none _ h
  obtain ⟨a, -, c⟩ := h2 i' o rfl
  rcases a with a | a
  · cases a
  · obtain ⟨v, e1, e2, e3, e4, rfl⟩ := (reclaimable_eq x i' o).1 a.2
    refine ⟨v, e1, e2, e3, e4, fun j c' hc hk h1 h2 => c j (mem_allFour j) _ ((reclaimable_eq x j _).2 ⟨_, hc, hk, h1, h2, rfl⟩)⟩

/-- What a raise to both ports leaves of a port. -/
theorem ports_raiseBoth (s : State) (n : Notice) (q : Port) : (((s.raiseBoth n).ports.get q).slot = (s.ports.get q).slot) ∧
  (((s.raiseBoth n).ports.get q).overrun = (s.ports.get q).overrun) ∧ (((s.raiseBoth n).ports.get q).enables = (s.ports.get q).enables) ∧
  (((s.raiseBoth n).ports.get q).driven = (s.ports.get q).driven) := by cases q <;> exact ⟨rfl, rfl, rfl, rfl⟩

/-- Both notice sets gained the classes given. -/
theorem portsGain_of (s t : State) (ns) (h : ∀ q n, t.hasNotice q n = (s.hasNotice q n || ns.contains n))
   (h2 : ∀ q, (t.ports.get q).overrun = (s.ports.get q).overrun ∧ (t.ports.get q).enables = (s.ports.get q).enables ∧ (t.ports.get q).driven = (s.ports.get q).driven) :
   s.portsGain t ns := fun q => ⟨h q, h2 q⟩

end Sys2Proof.Machine
end

