-- ==== Sys2Proof/Laws/Captures.lean ====
section
/-! SUPPORT. Reading and writing capture records and blocks: what each operation leaves. -/

namespace Sys2Proof.Machine

open Sys2Proof

/-- Reading what was written. -/
theorem quad_set_get {α} (q : Quad α) (i : Four) (v : α) : (q.set i v).get i = v := by fin_cases i <;> rfl

/-- Changing the record of a held capture. -/
theorem modifyCapture_eq {s : State} {name : CapName} {c : Capture} (h : s.sto.capture name = some c) (f : Capture → Capture) :
    s.modifyCapture name f = s.setSto { s.sto with slots := s.sto.slots.set name.slot (some (f c)) } := by
  simp [State.modifyCapture, Store.modify, h]

/-- A held capture lies in the slot its name gives, under its number (R35). -/
theorem slots_of_capture {x : Store} {name : CapName} {c : Capture} (h : x.capture name = some c) :
    x.slots.get name.slot = some c ∧ c.num = name.num := by
  unfold Store.capture at h
  cases hh : x.slots.get name.slot with
  | none => simp [hh] at h
  | some d => simp only [hh] at h; split at h <;> simp_all

/-- The slot of a held capture gives its name. -/
theorem nameAt_of_capture {x : Store} {name : CapName} {c : Capture} (h : x.capture name = some c) :
    x.nameAt name.slot = some name := by
  obtain ⟨a, b⟩ := slots_of_capture h
  simp [Store.nameAt, a, b]

/-- The FILLING block that a search finds is the one its number names. -/
theorem filling_lookup {x : Store} {name n b} (w : x.wf = true) (h : x.filling name = some (n, b)) : lookupBlock x.blocks n = some b := by
  have := filling_mem h
  unfold Store.wf at w; rw [blocksSorted_iff] at w
  obtain ⟨w, -⟩ := w
  revert w this; generalize x.blocks = l; intro hm w
  induction l with
  | nil => cases hm
  | cons e l ih =>
    obtain ⟨m, c⟩ := e
    rw [List.pairwise_cons] at w
    rcases List.mem_cons.1 hm with hm | hm
    · cases hm; simp [lookupBlock]
    · have : m ≠ n := by have := w.1 _ hm; simp at this; omega
      simp [lookupBlock, this, ih hm w.2]

/-- Turning every lane off (R105). -/
theorem lanesOff_map (s t : State) (h : t.lanes = s.lanes.map Lane.turnOff) : s.lanesOffOf t := by
  intro l; rw [h]; revert l; intro l
  fin_cases l <;> rfl

/-- The captures held depend on the slots alone. -/
theorem capture_of_slots {x y : Store} (h : y.slots = x.slots) (name) : y.capture name = x.capture name := by
  unfold Store.capture; rw [h]

/-- Sealing a block keeps the capture table. -/
@[simp] theorem seal_slots (x : Store) (n) : (x.seal n).slots = x.slots := by
  unfold Store.seal Store.modifyBlock; split <;> rfl

/-- Sealing a block changes the block map alone. -/
theorem seal_only (x : Store) (n) : x.seal n = { x with blocks := (x.seal n).blocks } := by
  unfold Store.seal Store.modifyBlock; split <;> rfl

/-- The block map after a seal (R32). -/
theorem seal_lookup (x : Store) (n b) (h : lookupBlock x.blocks n = some b) : lookupBlock (x.seal n).blocks n = some { b with state := .sealed } ∧
   ∀ m, m ≠ n → lookupBlock (x.seal n).blocks m = lookupBlock x.blocks m := by
  unfold Store.seal Store.modifyBlock; simp only [h]
  exact ⟨lookupBlock_insertBlock _ _ _, fun m hm => lookupBlock_insertBlock_ne _ _ hm⟩

/-- Sealing the FILLING block changes the block map alone (R44). -/
theorem sealed_facts (s : State) (name : CapName) :
   (s.sealFilling name) = s.setSto (s.sealFilling name).sto ∧ (s.sealFilling name).sto = { s.sto with blocks := (s.sealFilling name).sto.blocks } := by
  unfold State.sealFilling
  split
  · exact ⟨rfl, seal_only _ _⟩
  · exact ⟨rfl, rfl⟩

/-- Changing the record of the ACTIVE capture. -/
theorem modifyActive_eq {s : State} {name c} (ha : s.acq.active = some name) (hc : s.sto.capture name = some c) (f) :
   s.modifyActive f = s.setSto { s.sto with slots := s.sto.slots.set name.slot (some (f c)) } := by
  unfold State.modifyActive; simp only [ha]; exact modifyCapture_eq hc _

/-- The capture just written is held. -/
theorem capture_set {x : Store} {name : CapName} {c : Capture} (h : c.num = name.num) : 
   Store.capture { x with slots := x.slots.set name.slot (some c) } name = some c := by
  unfold Store.capture; simp only [quad_set_get, h, if_true]

/-- The completion of the final write of a held capture (R44, R71). -/
theorem finish_eq (s : State) (name : CapName) (c : Capture) (ha : s.acq.active = some name) (hc : s.sto.capture name = some c) :
   s.finishWrite = let s1 := s.sealFilling name
     if c.discard then
        let s := s1.removeCapture name.slot
        (s.setAcq s.acq.release).raiseBoth .engineState
      else
        let s := s1.modifyCapture name fun c => { c with complete := true }
        let s' := ((s.setAcq s.acq.release).raiseBoth .captureEnded).raiseBoth .engineState
        if s.acq.repeatFlag ∧ c.endReason = some EndReason.postDone then s'.rearm else s' := by
  unfold State.finishWrite
  simp only [ha]
  have : (s.sealFilling name).sto.capture name = some c := by
    rw [(sealed_facts s name).2]; exact hc
  simp only [this]

end Sys2Proof.Machine
end

