-- ==== Sys2Proof/Laws/Arming.lean ====
section
/-! SUPPORT. The checks of ARM and what it secures. -/

namespace Sys2Proof.Machine

open Sys2Proof

/-- The search for the lowest FREE block finds it. -/
theorem lowestFreeFrom_spec (l : List (Nat × Block)) (fuel k n : Nat) (h1 : k ≤ n) (h2 : n < k + fuel) (h3 : lookupBlock l n = none)
    (h4 : ∀ m, k ≤ m → m < n → lookupBlock l m ≠ none) : lowestFreeFrom l fuel k = some n := by
  induction fuel generalizing k with
  | zero => omega
  | succ f ih =>
    unfold lowestFreeFrom
    by_cases e : k = n
    · subst e; simp [h3]
    · have := h4 k (by omega) (by omega)
      have : (lookupBlock l k).isNone = false := by cases hh : lookupBlock l k <;> simp_all
      simp only [this]
      exact ih (k+1) (by omega) (by omega) (fun m a b => h4 m (by omega) b)

/-- The lowest FREE block (R37). -/
theorem lowestFree_spec (x : Store) (n : Nat) (h2 : n < 2048) (h3 : lookupBlock x.blocks n = none)
    (h4 : ∀ m, m < n → lookupBlock x.blocks m ≠ none) : x.lowestFree = some n :=
  lowestFreeFrom_spec _ _ _ _ (by omega) (by simp [Config.blockCount]; omega) h3 (fun m _ b => h4 m b)

/-- No block is FREE. -/
theorem lowestFree_none (x : Store) (h4 : ∀ m, m < 2048 → lookupBlock x.blocks m ≠ none) : x.lowestFree = none := by
  cases h : x.lowestFree with
  | none => rfl
  | some n => exact absurd (lowestFreeFrom_free h) (by
      have := h4 n (lowestFree_lt h); cases hh : lookupBlock x.blocks n <;> simp_all)

/-- The first of the four numbers that has a property. -/
theorem find_four (f : Four → Bool) (i : Four) (h : f i = true) (h' : ∀ j, j < i → f j = false) : allFour.find? f = some i := by
  fin_cases i
  · simp [allFour, List.find?]; simp_all
  · have := h' 0 (by decide); simp [allFour, List.find?]; simp_all
  · have := h' 0 (by decide); have := h' 1 (by decide); simp [allFour, List.find?]; simp_all
  · have := h' 0 (by decide); have := h' 1 (by decide); have := h' 2 (by decide); simp [allFour, List.find?]; simp_all

/-- Every pod of the mask is READY or DEGRADED (R16). -/
theorem unready_none (s : State) (h : ∀ k, maskHasPod s.acq.plan.acq.mask k = true → (s.pods.get k).state = .ready ∨ (s.pods.get k).state = .degraded) :
   s.unreadyPod = none := by
  unfold State.unreadyPod
  rw [List.find?_eq_none]
  intro k _
  by_cases hm : maskHasPod s.acq.plan.acq.mask k = true
  · rcases h k hm with h | h <;> simp [h]
  · simp [hm]

/-- The lowest pod of the mask that is not (R62). -/
theorem unready_some (s : State) (k : Four) (h : maskHasPod s.acq.plan.acq.mask k = true ∧ ((s.pods.get k).state = .absent ∨ (s.pods.get k).state = .identifying))
   (h' : ∀ j, j < k → maskHasPod s.acq.plan.acq.mask j = true → (s.pods.get j).state = .ready ∨ (s.pods.get j).state = .degraded) :
   s.unreadyPod = some k := by
  unfold State.unreadyPod
  refine find_four _ k ?_ ?_
  · obtain ⟨a, b | b⟩ := h <;> simp [a, b]
  · intro j hj
    by_cases hm : maskHasPod s.acq.plan.acq.mask j = true
    · rcases h' j hj hm with h | h <;> simp [h]
    · simp [hm]

/-- The slot and block an ARM secures when both are at hand (R37). -/
theorem secure_some (s : State) (i : Four) (n : Nat) (h : s.sto.slots.get i = none) (h' : ∀ j, j < i → s.sto.slots.get j ≠ none)
   (h2 : n < 2048) (h3 : lookupBlock s.sto.blocks n = none) (h4 : ∀ m, m < n → lookupBlock s.sto.blocks m ≠ none) : s.secure = some (s, i, n) := by
  unfold State.secure
  rw [find_four _ i (by simp [h]) (fun j hj => by have := h' j hj; cases hh : s.sto.slots.get j <;> simp_all)]
  have : State.secureBlock 4 s = some (s, n) := by unfold State.secureBlock; simp [lowestFree_spec _ n h2 h3 h4]
  simp [this]

/-- An ARM that passes its checks (R60 to R63). -/
theorem armSteps_ok (s : State) (i : Four) (n : Nat) (hp : s.acq.plan.problem = none) (hr : ∀ k, maskHasPod s.acq.plan.acq.mask k = true → (s.pods.get k).state = .ready ∨ (s.pods.get k).state = .degraded)
  (h : s.sto.slots.get i = none) (h' : ∀ j, j < i → s.sto.slots.get j ≠ none)
   (h2 : n < 2048) (h3 : lookupBlock s.sto.blocks n = none) (h4 : ∀ m, m < n → lookupBlock s.sto.blocks m ≠ none) :
   s.armSteps = .ok (s.completeArm i n, ⟨i, s.sto.nextNum⟩) := by
  unfold State.armSteps
  simp [hp, unready_none s hr, secure_some s i n h h' h2 h3 h4]

/-- A mask holds a channel of a pod. -/
theorem maskHas (m : ChannelWord) (k : Four) : maskHasPod m k = true ↔ ∃ ch, 8 * k.val ≤ ch ∧ ch ≤ 8 * k.val + 7 ∧ m.getLsbD ch = true := by
  unfold maskHasPod
  have key : ∀ i, ((m >>> (8 * k.val)) &&& 0xFF).getLsbD i = (m.getLsbD (8 * k.val + i) && decide (i < 8)) := by
    intro i
    rw [BitVec.getLsbD_and, BitVec.getLsbD_ushiftRight]
    by_cases hi : i < 8
    · have : (255#32).getLsbD i = true := by interval_cases i <;> decide
      simp [hi]; intro _; exact this
    · have : (255#32).getLsbD i = false := by
        by_cases h32 : i < 32
        · have : 8 ≤ i := by omega
          interval_cases i <;> decide
        · exact BitVec.getLsbD_of_ge _ _ (by omega)
      simp [hi]; intro _; exact this
  rw [bne_iff_ne]
  constructor
  · intro h
    by_contra hc
    apply h
    apply BitVec.eq_of_getLsbD_eq
    intro i hi
    rw [key]
    by_cases h8 : i < 8
    · have : m.getLsbD (8 * k.val + i) = false := by
        by_contra hx
        exact hc ⟨8 * k.val + i, by omega, by omega, by simpa using hx⟩
      simp [this]
    · simp [h8]
  · rintro ⟨ch, h1, h2, h3⟩ hz
    have := key (ch - 8 * k.val)
    rw [show 8 * k.val + (ch - 8 * k.val) = ch by omega, h3, hz] at this
    simp at this; omega

/-- No stage fails a check. -/
theorem firstStage_none (p : Plan) (l : List Stage) (k : Nat) (h : ∀ x ∈ l, stageReason p x = none) : firstStageProblem p k l = none := by
  induction l generalizing k with
  | nil => rfl
  | cons x l ih => simp [firstStageProblem, h x (by simp), ih (k+1) fun y hy => h y (by simp [hy])]

/-- The first stage that fails a check (R61). -/
theorem firstStage_some (p : Plan) (l : List Stage) (k j : Nat) (hj : j < l.length) (r) (h : ∀ i (hi : i < j), stageReason p l[i] = none)
   (hr : stageReason p l[j] = some r) : firstStageProblem p k l = some (PlanProblem.mk .trigger (some (k + j)) r) := by
  induction l generalizing k j with
  | nil => simp at hj
  | cons x l ih =>
    cases j with
    | zero => simp at hr; simp [firstStageProblem, hr]
    | succ j =>
      have h0 := h 0 (by omega); simp at h0
      simp only [firstStageProblem, h0]
      rw [ih (k+1) j (by simpa using hj) (fun i hi => by have := h (i+1) (by omega); simpa using this) (by simpa using hr)]
      congr 3; omega

/-- The stages below the stage count. -/
theorem getStage (v : Vector Stage 8) (c : Nat) (k : Nat) (hk : k < 8) (_ : k < c) (h) : (v.toList.take c)[k]'h = v[k] := by
  simp

end Sys2Proof.Machine
end

