-- ==== Sys2Proof/Laws/Events.lean ====
section
/-! SUPPORT. What the entry of events and the handing on of a sample's events leave: the ACTIVE capture, its blocks and the notices
of the other classes (R112, R129 to R131, R138 to R145). -/

namespace Sys2Proof.Machine

open Sys2Proof

/-- The blocks of a capture. -/
def Store.owned (x : Store) (name : CapName) : List (Nat × Block) := x.blocks.filter fun e => decide (e.2.owner = name)

/-- The FILLING block lies among the capture's blocks. -/
theorem filling_owned (x : Store) (name : CapName) :
    x.filling name = (x.owned name).find? fun e => decide (e.2.owner = name ∧ e.2.state = .filling) := by
  unfold Store.filling Store.owned
  induction x.blocks with
  | nil => rfl
  | cons e l ih =>
    by_cases h : e.2.owner = name
    · rw [List.filter_cons_of_pos (by simpa using h)]
      by_cases f : e.2.state = .filling
      · simp [List.find?, h, f]
      · simp [List.find?, f]
    · rw [List.filter_cons_of_neg (by simpa using h)]
      simp [List.find?, h]

/-- Equal blocks give equal FILLING blocks. -/
theorem filling_of_owned {x y : Store} {name : CapName} (h : y.owned name = x.owned name) :
    y.filling name = x.filling name := by rw [filling_owned, filling_owned, h]

/-- A block of the map is found under its number. -/
theorem lookupBlock_of_mem {x : Store} {n : Nat} {b : Block} (w : x.wf = true) (h : (n, b) ∈ x.blocks) :
    lookupBlock x.blocks n = some b := by
  unfold Store.wf at w
  rw [blocksSorted_iff] at w
  obtain ⟨w, -⟩ := w
  revert w h
  generalize x.blocks = l
  intro hm w
  induction l with
  | nil => cases hm
  | cons e l ih =>
    obtain ⟨m, c⟩ := e
    rw [List.pairwise_cons] at w
    rcases List.mem_cons.1 hm with hm | hm
    · cases hm; simp [lookupBlock]
    · have : m ≠ n := by have := w.1 _ hm; simp at this; omega
      simp [lookupBlock, this, ih hm w.2]

/-- Equal blocks give equal lookups of the capture's blocks. -/
theorem lookupBlock_of_owned {x y : Store} {name : CapName} {n : Nat} {b : Block} (w : y.wf = true) (h : y.owned name = x.owned name)
    (hb : lookupBlock x.blocks n = some b) (ho : b.owner = name) : lookupBlock y.blocks n = some b := by
  have : (n, b) ∈ y.owned name := by
    rw [h]; exact List.mem_filter.2 ⟨lookupBlock_mem hb, by simpa using ho⟩
  exact lookupBlock_of_mem w (List.mem_filter.1 this).1

/-- The event notices: the classes that the entry of events can raise. -/
def Notice.ofEvents (n : Notice) : Prop := n = .captureReclaimed ∨ n = .renderEnded ∨ n = .eventsReady

/-- A held capture that is COMPLETE and retained by a port stays so. -/
def RetainsKept (s t : State) : Prop :=
  ∀ (nm : CapName) (c : Capture) (q : Port), s.sto.capture nm = some c → c.complete = true → c.retain.get q = true →
    ∃ c', t.sto.capture nm = some c' ∧ c'.complete = true ∧ c'.retain.get q = true

/-- The ACTIVE capture `name` survives, with its blocks; its counts of expired and truncated events may rise. -/
structure ActiveKept (name : CapName) (s t : State) : Prop where
  capture : ∀ c, s.sto.capture name = some c → c.complete = false →
    ∃ c', t.sto.capture name = some c' ∧ c' = { c with expired := c'.expired, truncated := c'.truncated }
  owned : ∀ c, s.sto.capture name = some c → c.complete = false → t.sto.owned name = s.sto.owned name
  notices : ∀ q n, ¬ n.ofEvents → t.hasNotice q n = s.hasNotice q n
  mono : ∀ q n, s.hasNotice q n = true → t.hasNotice q n = true
  test : t.sto.test = s.sto.test

theorem ActiveKept.refl (name : CapName) (s : State) : ActiveKept name s s :=
  ⟨fun c h _ => ⟨c, h, rfl⟩, fun _ _ _ => rfl, fun _ _ _ => rfl, fun _ _ h => h, rfl⟩

theorem ActiveKept.trans {name : CapName} {s t u : State} (h : ActiveKept name s t) (k : ActiveKept name t u) :
    ActiveKept name s u := by
  refine ⟨fun c hc hn => ?_, fun c hc hn => ?_, fun q n hn => (k.notices q n hn).trans (h.notices q n hn),
    fun q n hn => k.mono q n (h.mono q n hn), k.test.trans h.test⟩
  · obtain ⟨c1, h1, e1⟩ := h.capture c hc hn
    obtain ⟨c2, h2, e2⟩ := k.capture c1 h1 (by rw [e1]; exact hn)
    refine ⟨c2, h2, ?_⟩
    rw [e2, e1]
  · obtain ⟨c1, h1, e1⟩ := h.capture c hc hn
    rw [k.owned c1 h1 (by rw [e1]; exact hn), h.owned c hc hn]

/-- An operation that leaves STO alone and raises event notices at most. -/
theorem ActiveKept.of_ports {name : CapName} {s t : State} (h : t.sto = s.sto)
    (e : ∀ q n, ¬ n.ofEvents → t.hasNotice q n = s.hasNotice q n) (m : ∀ q n, s.hasNotice q n = true → t.hasNotice q n = true) :
    ActiveKept name s t :=
  ⟨fun c hc _ => ⟨c, by rw [h]; exact hc, rfl⟩, fun _ _ _ => by rw [h], e, m, by rw [h]⟩

theorem checkReady_active (name : CapName) (s : State) (p : Port) : ActiveKept name s (s.checkReady p) := by
  unfold State.checkReady
  simp only
  split
  · refine ActiveKept.of_ports rfl (fun q n hn => ?_) fun q n hn => ?_
    · rw [hasNotice_raise]
      have : n ≠ .eventsReady := fun h => hn (.inr (.inr h))
      simp [this]
      rfl
    · rw [hasNotice_raise]
      show (s.hasNotice q n || _) = true
      rw [hn]; rfl
  · exact ActiveKept.of_ports rfl (fun _ _ _ => rfl) fun _ _ h => h

/-- Writing to another slot, or counting, keeps a capture. -/
theorem capture_set_ne {x : Store} {name : CapName} {i : Four} {v : Option Capture} (h : name.slot ≠ i) :
    Store.capture { x with slots := x.slots.set i v } name = x.capture name := by
  unfold Store.capture
  have : (x.slots.set i v).get name.slot = x.slots.get name.slot := by
    revert h
    generalize name.slot = j
    intro h
    revert h; fin_cases i <;> fin_cases j <;> simp [Quad.set, Quad.get]
  simp only [this]

theorem modifyCounts_active (name nm : CapName) (s : State) (f : Capture → Capture)
    (hf : ∀ c, f c = { c with expired := (f c).expired, truncated := (f c).truncated }) : ActiveKept name s (s.modifyCapture nm f) := by
  refine ⟨fun c hc hn => ?_, fun c hc hn => ?_, fun _ _ _ => rfl, fun _ _ h => h, ?_⟩
  · cases h2 : s.sto.capture nm with
    | none => exact ⟨c, by simp [State.modifyCapture, Store.modify, h2, hc], rfl⟩
    | some d =>
      rw [modifyCapture_eq h2]
      by_cases e : name.slot = nm.slot
      · obtain ⟨a1, a2⟩ := slots_of_capture hc
        obtain ⟨b1, b2⟩ := slots_of_capture h2
        rw [e, b1] at a1
        obtain rfl := Option.some.inj a1
        refine ⟨f d, ?_, hf d⟩
        have : (f d).num = name.num := by rw [hf d]; exact a2
        show Store.capture { s.sto with slots := s.sto.slots.set nm.slot (some (f d)) } name = _
        unfold Store.capture
        simp only [e, quad_set_get, this, if_true]
      · exact ⟨c, (capture_set_ne e).trans hc, rfl⟩
  · show (s.sto.modify nm f).owned name = _
    unfold Store.owned
    rw [modify_blocks]
  · show (s.sto.modify nm f).test = _
    unfold Store.modify
    split <;> rfl

/-- The removal of a COMPLETE capture. -/
theorem remove_active (name : CapName) (s : State) (i : Four) (v : Capture) (hv : s.sto.slots.get i = some v)
    (hvc : v.complete = true) : ActiveKept name s (s.removeCapture i) := by
  have hn : s.sto.nameAt i = some ⟨i, v.num⟩ := by simp [Store.nameAt, hv]
  have hne : ∀ c, s.sto.capture name = some c → c.complete = false → name.slot ≠ i := by
    intro c hc hcn e
    obtain ⟨a1, a2⟩ := slots_of_capture hc
    rw [e, hv] at a1
    cases a1
    simp [hvc] at hcn
  unfold State.removeCapture
  simp only [hn]
  obtain ⟨e1, e2, e3, e4, e5⟩ := rendersGone_spec (((s.setSto { s.sto with
        blocks := s.sto.blocks.filter fun e => e.2.owner ≠ ⟨i, v.num⟩, slots := s.sto.slots.set i none }).setEvl
      (s.evl.remove fun e => e.cap = ⟨i, v.num⟩))) ⟨i, v.num⟩
  refine ⟨fun c hc hcn => ⟨c, ?_, rfl⟩, fun c hc hcn => ?_, fun q n hn => ?_, fun q n hn => ?_, ?_⟩
  · rw [e2]
    exact (capture_set_ne (hne c hc hcn)).trans hc
  · rw [e2]
    show List.filter _ (List.filter _ _) = List.filter _ _
    rw [List.filter_filter]
    refine List.filter_congr fun x _ => ?_
    by_cases ho : x.2.owner = name
    · have : name ≠ ⟨i, v.num⟩ := fun h => hne c hc hcn (by rw [h])
      simp [ho, this]
    · simp [ho]
  · rw [e5]
    have : n ≠ .renderEnded := fun h => hn (.inr (.inl h))
    simp [this]
    rfl
  · rw [e5]
    show (s.hasNotice q n || _) = true
    rw [hn]; rfl
  · rw [e2]; rfl

theorem reclaim_active (name : CapName) {s t : State} (h : s.reclaim = some t) : ActiveKept name s t := by
  unfold State.reclaim at h
  rw [Option.map_eq_some_iff] at h
  obtain ⟨i, hv, rfl⟩ := h
  obtain ⟨v, a, b, -⟩ := victim_some _ _ hv
  refine (remove_active name s i v a b).trans (ActiveKept.of_ports rfl (fun q n hn => ?_) fun q n hn => ?_)
  · rw [hasNotice_raiseBoth]
    have : n ≠ .captureReclaimed := fun h => hn (.inl h)
    simp [this]
  · rw [hasNotice_raiseBoth, hn]; rfl

theorem setEvl_active (name : CapName) (s : State) (x : Evl) : ActiveKept name s (s.setEvl x) :=
  ActiveKept.of_ports rfl (fun _ _ _ => rfl) fun _ _ h => h

theorem appendEvent_active (name : CapName) (s : State) (e : Event) : ActiveKept name s (s.appendEvent e) :=
  ((setEvl_active name s _).trans (checkReady_active name _ .a)).trans (checkReady_active name _ .b)

theorem enterWithRoom_active (name : CapName) (fuel : Nat) (e : Event) (s : State) :
    ActiveKept name s (State.enterWithRoom fuel e s) := by
  induction fuel generalizing s with
  | zero =>
    unfold State.enterWithRoom
    split
    · exact appendEvent_active _ _ _
    · exact modifyCounts_active _ _ _ (fun c => { c with truncated := satAdd Config.max32 c.truncated 1 }) fun _ => rfl
  | succ f ih =>
    unfold State.enterWithRoom
    split
    · exact appendEvent_active _ _ _
    · cases hr : s.reclaim with
      | none =>
        exact modifyCounts_active _ _ _ (fun c => { c with truncated := satAdd Config.max32 c.truncated 1 }) fun _ => rfl
      | some s' => exact (reclaim_active name hr).trans (ih s')

theorem enterEvent_active (name : CapName) (e : Event) (s : State) : ActiveKept name s (s.enterEvent e) := by
  unfold State.enterEvent
  split
  · exact ActiveKept.refl _ _
  · split
    · exact modifyCounts_active _ _ _ (fun c => { c with expired := satAdd Config.max32 c.expired 1 }) fun _ => rfl
    · exact enterWithRoom_active _ _ _ _

theorem enterHead_active (name : CapName) (s : State) (l : List Event) : ActiveKept name s (l.head?.elim s s.enterEvent) := by
  cases l with
  | nil => exact ActiveKept.refl _ _
  | cons e l => exact enterEvent_active _ _ _

theorem enterAll_active (name : CapName) (fuel : Nat) (q : Quad (List Event)) (s : State) :
    ActiveKept name s (State.enterAll fuel q s) := by
  induction fuel generalizing s q with
  | zero => exact ActiveKept.refl _ _
  | succ f ih =>
    unfold State.enterAll
    split
    · exact ActiveKept.refl _ _
    · exact (enterHead_active _ _ _).trans (ih _ _)
    · have h0 : ActiveKept name s (s.setFreeIx (s.freeIx + 1)) := ActiveKept.of_ports rfl (fun _ _ _ => rfl) fun _ _ h => h
      exact (h0.trans (enterHead_active name (s.setFreeIx (s.freeIx + 1)) _)).trans (ih _ _)

/-! ## Handing on a sample's events -/

/-- Reading a collection made from the four numbers. -/
theorem get_numbered {α : Type} (f : Four → α) (l : Four) : (numbered.map f).get l = f l := by fin_cases l <;> rfl

/-- Reading a mapped collection. -/
theorem get_map {α β : Type} (f : α → β) (x : Quad α) (l : Four) : (x.map f).get l = f (x.get l) := by fin_cases l <;> rfl

/-- Handing on keeps the frame numbers and the lane states. -/
theorem lanesAfter_frame (lanes : Quad Lane) (fx : Quad LaneEffects) (n : Nat) (l : Four) :
    ((lanesAfter lanes fx n).get l).frame = (lanes.get l).frame ∧ ((lanesAfter lanes fx n).get l).state = (lanes.get l).state ∧
      ((lanesAfter lanes fx n).get l).ctx = ((lanes.get l).withLastStart (fx.get l).lastStart).ctx := by
  have hreq : ∀ (x : Lane) b, (x.request b n).frame = x.frame ∧ (x.request b n).state = x.state ∧ (x.request b n).ctx = x.ctx := by
    intro x b
    unfold Lane.request
    split <;> exact ⟨rfl, rfl, rfl⟩
  unfold lanesAfter requestLanes
  simp only [get_numbered]
  split <;> split <;> refine ⟨?_, ?_, ?_⟩ <;> first | rfl | (simp only [hreq]; done) | (simp only [hreq]; rfl)

/-- What handing on a sample's events leaves: all but the lanes, the ACTIVE capture's counts, the event list and what the entries
take with them. -/
structure HandedOn (s : State) (lanes : Quad Lane) (fx : Quad LaneEffects) (n : Nat) (name : CapName) (c : Capture) (t : State) : Prop where
  timebase : t.timebase = s.timebase
  pods : t.pods = s.pods
  smp : t.smp = s.smp
  acq : t.acq = s.acq
  trg : t.trg = s.trg
  pending : t.pending = s.pending
  slot : ∀ p, (t.ports.get p).slot = (s.ports.get p).slot
  lanes_ : t.lanes = lanesAfter lanes fx n
  capture : ∃ c', t.sto.capture name = some c' ∧ c' = { c.countLanes fx with expired := c'.expired, truncated := c'.truncated }
  owned : t.sto.owned name = s.sto.owned name
  mono : ∀ q m, s.hasNotice q m = true → t.hasNotice q m = true
  notices : ∀ q m, ¬ m.ofEvents → m ≠ .laneMatch → t.hasNotice q m = s.hasNotice q m
  test : t.sto.test = s.sto.test
  wf : s.sto.wf = true → t.sto.wf = true

theorem handOn_facts (s : State) (lanes : Quad Lane) (out : Quad (List Emission)) (n : Nat) (name : CapName) (c : Capture)
    (ha : s.acq.active = some name) (hc : s.sto.capture name = some c) (hn : c.complete = false) :
    HandedOn s lanes (s.allEffects lanes out) n name c (s.handOn lanes out n).1 := by
  unfold State.handOn
  generalize s.allEffects lanes out = fx
  simp only
  rw [modifyActive_eq (s := s.setLanes (lanesAfter lanes fx n)) ha hc]
  obtain ⟨s2, hs2⟩ : ∃ s2, s2 = (s.setLanes (lanesAfter lanes fx n)).setSto
    { (s.setLanes (lanesAfter lanes fx n)).sto with
      slots := (s.setLanes (lanesAfter lanes fx n)).sto.slots.set name.slot (some (c.countLanes fx)) } := ⟨_, rfl⟩
  rw [← hs2]
  have hcap2 : s2.sto.capture name = some (c.countLanes fx) := by
    rw [hs2]; exact capture_set (x := s.sto) (c := c.countLanes fx) (slots_of_capture hc).2
  have h3 : ∃ s3, s3 = s2.noteMatches fx ∧ s3.sto = s2.sto ∧ OnlyPorts s2 s3 ∧ KeepsCore s2 s3 ∧
      (∀ q m, m ≠ .laneMatch → s3.hasNotice q m = s2.hasNotice q m) ∧ (∀ q m, s2.hasNotice q m = true → s3.hasNotice q m = true) := by
    refine ⟨_, rfl, ?_⟩
    unfold State.noteMatches
    split
    · refine ⟨rfl, raiseBoth_onlyPorts _ _, raiseBoth_keeps _ _, fun q m hm => ?_, fun q m hm => ?_⟩
      · rw [hasNotice_raiseBoth]; simp [hm]
      · rw [hasNotice_raiseBoth, hm]; rfl
    · exact ⟨rfl, onlyPorts_refl _, KeepsCore.rfl' _, fun _ _ _ => rfl, fun _ _ h => h⟩
  obtain ⟨s3, e3, k1, k2, k3, k4, k5⟩ := h3
  rw [← e3]
  unfold State.enterEvents
  generalize (fx.map fun x => x.events) = q
  have hk := k3.trans (enterAll_keeps (q.toList.map List.length).sum q s3)
  have ka := enterAll_active name (q.toList.map List.length).sum q s3
  have wf := fun w => enterAll_wf (q.toList.map List.length).sum q s3 w
  generalize State.enterAll (q.toList.map List.length).sum q s3 = t at *
  have hcap3 : s3.sto.capture name = some (c.countLanes fx) := by rw [k1]; exact hcap2
  obtain ⟨c', h1, h2⟩ := ka.capture _ hcap3 hn
  have ho := ka.owned _ hcap3 hn
  rw [k1] at ho wf
  have ht := ka.test
  rw [k1] at ht
  subst hs2
  refine ⟨hk.timebase, hk.pods, hk.smp, hk.acq, hk.trg, hk.pending, hk.slot, hk.lanes, ⟨c', h1, h2⟩, ho,
    fun p m hm => ka.mono p m (k5 p m hm), fun p m hm hl => (ka.notices p m hm).trans (k4 p m hl), ht, fun w => wf w⟩

end Sys2Proof.Machine
end

