-- ==== Sys2Proof/Laws/Samples.lean ====
section
/-! SUPPORT. The parts of a sample step: holding the sample (R21, R24, R25), what TRG may change (R95 to R100), and the entry to
STOPPING (R70). -/

namespace Sys2Proof.Machine

open Sys2Proof

/-! ## Holding a sample -/

/-- Inserting over a capture's FILLING block replaces that block in a search for it. -/
theorem filling_insert {x : Store} {name : CapName} {n : Nat} {b b' : Block} (w : x.wf = true)
    (h : x.filling name = some (n, b)) (ho : b'.owner = name) (hs : b'.state = .filling) :
    Store.filling { x with blocks := insertBlock x.blocks n b' } name = some (n, b') := by
  unfold Store.wf at w
  rw [blocksSorted_iff] at w
  obtain ⟨w, -⟩ := w
  unfold Store.filling at h ⊢
  simp only
  revert h w
  generalize x.blocks = l
  intro h w
  induction l with
  | nil => cases h
  | cons e l ih =>
    obtain ⟨m, d⟩ := e
    rw [List.pairwise_cons] at w
    by_cases hd : d.owner = name ∧ d.state = .filling
    · rw [List.find?_cons_of_pos (by simpa using hd)] at h
      cases h
      simp [insertBlock, ho, hs]
    · rw [List.find?_cons_of_neg (by simpa using hd)] at h
      have hm : m < n := w.1 _ (List.mem_of_find?_eq_some h)
      have : insertBlock ((m, d) :: l) n b' = (m, d) :: insertBlock l n b' := by
        simp [insertBlock, Nat.lt_asymm hm, Nat.ne_of_gt hm]
      rw [this, List.find?_cons_of_neg (by simpa using hd)]
      exact ih h w.2

/-- The owner and state of a FILLING block. -/
theorem filling_props {x : Store} {name : CapName} {n : Nat} {b : Block} (h : x.filling name = some (n, b)) :
    b.owner = name ∧ b.state = .filling := by
  have := List.find?_some h
  simpa using this

theorem modifyLast_eq {α : Type} (f : α → α) (l : List α) : modifyLast f l = l.dropLast ++ (l.getLast?.map f).toList := by
  induction l with
  | nil => rfl
  | cons x l ih =>
    cases l with
    | nil => rfl
    | cons y l => rw [modifyLast, ih]; simp [List.getLast?]

/-- The state of SMP and STO right after a sample is held, before it is delivered. -/
structure Held (s : State) (x : Sampling) (name : CapName) (c : Capture) (n : Nat) (b : Block) (word : ChannelWord) (t : State) : Prop where
  timebase : t.timebase = max s.timebase x.nextRaw
  pods : t.pods = s.pods
  trg : t.trg = s.trg
  lanes : t.lanes = s.lanes
  evl : t.evl = s.evl
  vrn : t.vrn = s.vrn
  ports : t.ports = s.ports
  pending : t.pending = s.pending
  freeIx : t.freeIx = s.freeIx
  acq : t.acq = if x.next = 0 then { s.acq with armedAt := some (x.nextRaw + (s.acq.copy.map AcqPlan.pre).getD 0) } else s.acq
  smp : t.smp = some (x.held word)
  capture : t.sto.capture name = some (if x.next = 0 then { c with origin := some x.nextRaw } else c)
  slots : ∀ i, i ≠ name.slot → t.sto.slots.get i = s.sto.slots.get i
  extended : ∀ r, x.extends? word = some r → t.sto.filling name = some (n, { b with
    records := modifyLast (fun r => { r with run := r.run + 1 }) b.records }) ∧ t.sto.test = s.sto.test
  placed : x.extends? word = none → t.sto.filling name = some (n, b.append (Rec.mk word 1 (testFlips s.sto.test)) x.next) ∧
    t.sto.test = none
  sto : t.sto = { s.sto with blocks := t.sto.blocks, slots := t.sto.slots, test := t.sto.test }
  sto_later : x.next ≠ 0 → t.sto.slots = s.sto.slots
  wf : t.sto.wf = true

theorem setOrigin_eq (s : State) (x : Sampling) (name : CapName) (c : Capture) (ha : s.acq.active = some name)
    (hc : s.sto.capture name = some c) :
    s.setOrigin x = if x.next = 0 then
      (s.setSto { s.sto with slots := s.sto.slots.set name.slot (some { c with origin := some x.nextRaw }) }).setAcq
        { s.acq with armedAt := some (x.nextRaw + (s.acq.copy.map AcqPlan.pre).getD 0) }
    else s := by
  unfold State.setOrigin
  split
  · exact congrArg (fun u : State => u.setAcq { s.acq with
      armedAt := some (x.nextRaw + (s.acq.copy.map AcqPlan.pre).getD 0) }) (modifyActive_eq ha hc _)
  · rfl

/-- The sample step in its two outcomes. -/
theorem takeSample_eq (s : State) (x : Sampling) (name : CapName) (w : ChannelWord) (hx : s.smp = some x)
    (ha : s.acq.active = some name) :
    s.takeSample w =
      if (((s.advanceTo x.nextRaw).setOrigin x).holdSample x name (x.nextWord w)).2 = true then
        ((((s.advanceTo x.nextRaw).setOrigin x).holdSample x name (x.nextWord w)).1.setSmp (some (x.held (x.nextWord w)))).deliver
          x.div (x.item name (x.nextWord w))
      else ((((s.advanceTo x.nextRaw).setOrigin x).holdSample x name (x.nextWord w)).1.enterStopping .storeFull, []) := by
  unfold State.takeSample
  simp only [hx, ha]
  rfl

/-- A sample for which the FILLING block has room is held and then delivered. -/
theorem takeSample_held (s : State) (x : Sampling) (name : CapName) (c : Capture) (n : Nat) (b : Block) (w : ChannelWord)
    (wf : s.sto.wf = true) (h : s.canHold x name c) (hf : s.sto.filling name = some (n, b)) :
    ∃ t, Held s x name c n b (x.nextWord w) t ∧ s.takeSample w = t.deliver x.div (x.item name (x.nextWord w)) := by
  obtain ⟨hx, ha, hc, hn, m, b1, hf1, hroom⟩ := h
  rw [hf] at hf1
  cases hf1
  obtain ⟨ho, hs⟩ := filling_props hf
  have hlt := filling_lt wf hf
  have wfb : blocksSorted s.sto.blocks = true := wf
  rw [takeSample_eq s x name w hx ha]
  have e1 : (s.advanceTo x.nextRaw).setOrigin x = _ :=
    setOrigin_eq (s.advanceTo x.nextRaw) x name c ha hc
  obtain ⟨s1, hs1⟩ : ∃ s1, s1 = (s.advanceTo x.nextRaw).setOrigin x := ⟨_, rfl⟩
  rw [← hs1] at e1
  have hcap1 : s1.sto.capture name = some (if x.next = 0 then { c with origin := some x.nextRaw } else c) := by
    rw [e1]
    split
    · exact capture_set (x := s.sto) (c := { c with origin := some x.nextRaw }) (slots_of_capture hc).2
    · exact hc
  have hb1 : s1.sto.blocks = s.sto.blocks := by rw [e1]; split <;> rfl
  have ht1 : s1.sto.test = s.sto.test := by rw [e1]; split <;> rfl
  have hslots : ∀ i, i ≠ name.slot → s1.sto.slots.get i = s.sto.slots.get i := by
    intro i hi
    rw [e1]; split
    · exact quad_get_set_ne _ _ hi _
    · rfl
  have hsto1 : s1.sto = { s.sto with slots := s1.sto.slots } := by rw [e1]; split <;> rfl
  have hlater : x.next ≠ 0 → s1.sto.slots = s.sto.slots := by intro h0; rw [e1, if_neg h0]; rfl
  have hfill1 : s1.sto.filling name = some (n, b) := by rw [hsto1]; exact hf
  have rest : s1.timebase = max s.timebase x.nextRaw ∧ s1.pods = s.pods ∧ s1.trg = s.trg ∧ s1.lanes = s.lanes ∧ s1.evl = s.evl ∧
      s1.vrn = s.vrn ∧ s1.ports = s.ports ∧ s1.pending = s.pending ∧ s1.freeIx = s.freeIx ∧
      s1.acq = if x.next = 0 then { s.acq with armedAt := some (x.nextRaw + (s.acq.copy.map AcqPlan.pre).getD 0) } else s.acq := by
    rw [e1]; split <;> exact ⟨rfl, rfl, rfl, rfl, rfl, rfl, rfl, rfl, rfl, rfl⟩
  obtain ⟨r1, r2, r3, r4, r5, r6, r7, r8, r9, r10⟩ := rest
  rw [← hs1]
  clear e1 hs1
  cases hex : x.extends? (x.nextWord w) with
  | some r =>
    refine ⟨(s1.setSto (s1.sto.extendRecord name)).setSmp (some (x.held (x.nextWord w))), ?_, ?_⟩
    swap
    · have : s1.holdSample x name (x.nextWord w) = (s1.setSto (s1.sto.extendRecord name), true) := by
        unfold State.holdSample; simp only [hex]
      rw [this, if_pos rfl]
    have hext : s1.sto.extendRecord name = { s1.sto with blocks := insertBlock s1.sto.blocks n { b with
        records := modifyLast (fun r => { r with run := r.run + 1 }) b.records } } := by
      unfold Store.extendRecord; simp only [hfill1]
    refine ⟨r1, r2, r3, r4, r5, r6, r7, r8, r9, r10, rfl, ?_, ?_, ?_, ?_, ?_, ?_, ?_⟩
    · show (s1.sto.extendRecord name).capture name = _
      rw [hext]; exact hcap1
    · intro i hi
      show (s1.sto.extendRecord name).slots.get i = _
      rw [hext]; exact hslots i hi
    · intro r' _
      show (s1.sto.extendRecord name).filling name = _ ∧ (s1.sto.extendRecord name).test = _
      rw [hext]
      exact ⟨filling_insert (by unfold Store.wf; rw [hb1]; exact wfb) hfill1 ho hs, ht1⟩
    · intro h; rw [hex] at h; cases h
    · show s1.sto.extendRecord name = _
      rw [hext, hsto1]; rfl
    · intro h0
      show (s1.sto.extendRecord name).slots = _
      rw [hext]; exact hlater h0
    · show (s1.sto.extendRecord name).wf = true
      exact extendRecord_wf _ _ (by unfold Store.wf; rw [hb1]; exact wfb)
  | none =>
    refine ⟨(s1.setSto (s1.sto.appendRecord n b (x.nextWord w) x.next)).setSmp (some (x.held (x.nextWord w))), ?_, ?_⟩
    · refine ⟨r1, r2, r3, r4, r5, r6, r7, r8, r9, r10, rfl, hcap1, hslots, ?_, ?_, ?_, hlater, ?_⟩
      · intro r' h; rw [hex] at h; cases h
      · intro _
        refine ⟨?_, rfl⟩
        rw [← ht1]
        exact filling_insert (by unfold Store.wf; rw [hb1]; exact wfb) hfill1 ho hs
      · show s1.sto.appendRecord n b (x.nextWord w) x.next = _
        rw [hsto1]; rfl
      · exact appendRecord_wf b _ _ hlt (by unfold Store.wf; rw [hb1]; exact wfb)
    · have : s1.holdSample x name (x.nextWord w) = (s1.setSto (s1.sto.appendRecord n b (x.nextWord w) x.next), true) := by
        unfold State.holdSample State.placeRecord
        simp only [hex, hfill1, hcap1]
        rw [if_pos hroom]
      rw [this, if_pos rfl]

end Sys2Proof.Machine
end

