-- ==== Sys2Proof/Tests/Slice0.lean ====
section
/-! SUPPORT. Tests: the well-formedness smoke, the spec's worked examples and small cases of single commands, and for each
statement with hypotheses a state and operands that meet them. -/

open Sys2Proof Sys2Proof.Machine

namespace Sys2Proof.Tests

set_option Elab.async false

/-! ## Fixtures -/

/-- The state a command leads to. -/
def after (c : Instr) (s : State) : State :=
  match exec c s with
  | .next t => t
  | _ => s

/-- The state with a request delivered to its port. -/
def taken (p : Port) (c : Instr) (s : State) : State := s.setPort p { s.ports.get p with slot := .taken c }

/-- The answer that stands in a port's slot. -/
def answerOf (p : Port) (s : State) : Option Answer :=
  match (s.ports.get p).slot with
  | .answered _ a => some a
  | _ => none

/-- A capture of divider 2 and mask FFH in slot 0, whose first block is block 0. -/
def cap : Capture :=
  { num := 1, complete := false, origin := some 101, div := 2, mask := 0xFF, mode := .window, quota := 2048, firstGen := 1,
    lastGen := 1, trigTime := none, trigSource := none, trigBlock := none, shortPre := false, endReason := none, head := 0,
    podLost := [], degradedPods := [], frames := .all 0, errors := .all 0, expired := 0, truncated := 0,
    thresholdEdited := false, damaged := false, discard := false, retain := ⟨false, false⟩ }

/-- Its FILLING block: one record of three samples. -/
def block : Block := { state := .filling, owner := ⟨0, 1⟩, first := 0, damaged := false, next := none, records := [⟨0, 3, 0⟩] }

/-- A store that holds one capture with one block. -/
def oneCapture (c : Capture) (b : Block) : Store :=
  { Store.reset with blocks := [(0, b)], slots := ⟨some c, none, none, none⟩, nextNum := 2 }

/-- SMP before the fourth sample of the capture, whose raw time is 107. -/
def sampling : Sampling :=
  { div := 2, mask := 0xFF, armDone := 100, origin := some 101, next := 3, lost := [], run := some ⟨0, 3, 0⟩, prev := some 0 }

/-- A stage that looks for a rising edge on channel 0. -/
def edgeStage : Stage := { Stage.reset with primary := .edge 1 .rising }

/-- A run of the stage table whose current stage was entered on sample 1. -/
def trgRun (st : Stage) : TrgRun :=
  { table := [st, st], stage := 0, count := 0, entry := some (1, 103), prevPrimary := false, prevSecondary := false }

/-- The part while it acquires that capture. -/
def live (e : Engine) : State :=
  { State.reset with
    timebase := 106
    sto := oneCapture cap block
    smp := some sampling
    acq := { Acq.reset with
      engine := e, active := some ⟨0, 1⟩, copy := some AcqPlan.reset
      armedAt := if e = .arming then some 1000 else none
      postEnd := if e = .triggered then some 1000 else none }
    trg := { Trg.reset false with
      state := match e with | .arming => .gated | .armed => .seeking | .triggered => .declared | _ => .standby
      run := some (trgRun edgeStage)
      history := some ⟨0, Vector.replicate 32 none⟩ } }

/-- The part after sampling has ended, before the final write completes. -/
def stopping (c : Capture) : State :=
  { live .stopping with smp := none, trg := Trg.reset false, sto := oneCapture { c with endReason := some .postDone } block }

/-- The part in IDLE with that capture COMPLETE. -/
def held (retain : PerPort Bool) : State :=
  { State.reset with
    timebase := 2000, sto := oneCapture { cap with complete := true, retain := retain } { block with state := .sealed } }

/-- A pod record in READY. -/
def readyPod : Pod :=
  { Pod.reset true with
    state := .ready, debounce := none, attempts := 1
    desc := some { kind := .standard, rangeMin := -6000, rangeMax := 6000, gain := 0, offset := 0, latency := 0,
                   trims := Vector.replicate 8 0, model := some [], serial := some [] } }

/-- The part in IDLE with pod 0 READY. -/
def ready : State := { State.reset with pods := ⟨readyPod, .reset false, .reset false, .reset false⟩ }

theorem slot_forall {s : State} {P : Four → Capture → Prop} (h : ∀ i, ∀ c ∈ s.sto.slots.get i, P i c) :
    ∀ i c, s.sto.slots.get i = some c → P i c := h

/-! ## Well-formedness: each check refuses an ill-formed term -/

theorem test_wf_refuses_plan_edit_of_wrong_length : (Instr.planEdit .a 0 1 1 [0]).wellFormed = false := by decide
theorem test_wf_refuses_plan_edit_too_long :
    (Instr.planEdit .a 0 6 1 (List.replicate 65531 0)).wellFormed = false := by decide +kernel
theorem test_wf_refuses_seek_with_body_of_another_target : (Instr.eventsSeek .a 0 (.other 3 [0])).wellFormed = false := by decide
theorem test_wf_refuses_seek_too_long :
    (Instr.eventsSeek .a 0 (.other 9 (List.replicate 65535 0))).wellFormed = false := by decide +kernel
theorem test_wf_refuses_channel_list_too_long :
    (Instr.renderStart .a 0 0 1 0 64 1 (List.replicate 256 0) 0).wellFormed = false := by decide +kernel
theorem test_wf_refuses_send_as_other_kind : (Instr.otherKindTransaction .a 1 []).wellFormed = false := by decide
theorem test_wf_refuses_fetch_as_other_kind : (Instr.otherKindTransaction .b 2 [0, 0, 0]).wellFormed = false := by decide
theorem test_wf_accepts : (Instr.otherKindTransaction .b 3 [0, 0, 0]).wellFormed = true ∧
    (Instr.planEdit .a 0 9 1 [0]).wellFormed = true ∧ (Instr.eventsSeek .a 0 .newest).wellFormed = true := by decide
theorem test_table_words_spell_no_command : decodeTableWord 8 1 = none := by decide

/-! ## Witnesses: the queue and the whole machine -/

theorem witness_EveryCommandCompletes :
    State.reset.pending = [] ∧ Instr.columnItem ≠ .nrst ∧ exec .columnItem State.reset = .next State.reset ∧
      (portOf (.ident .a 7)).isSome = true ∧ exec (.ident .a 7) State.reset = .next (after (.ident .a 7) State.reset) :=
  ⟨rfl, by decide, rfl, rfl, rfl⟩

theorem witness_RequestsWithoutTheirFrame :
    requestOf (.planEdit .a 7 1 1 []) = some (.a, 7) ∧ bodyFits (.planEdit .a 7 1 1 []) = false ∧
      bodyFits (.ident .a 7) = true ∧ ¬ State.reset.holds .a (.planEdit .a 7 1 1 []) ∧
      (State.reset.ports.get .a).slot = .free ∧ ((after (.ident .a 7) State.reset).ports.get .a).slot ≠ .free := by
  refine ⟨rfl, by decide, by decide, ?_, rfl, by decide +kernel⟩
  intro h; cases h

theorem witness_GenerationLaw :
    exec (.planEdit .a 7 1 1 (encodeAcq AcqPlan.reset)) State.reset =
        .next (after (.planEdit .a 7 1 1 (encodeAcq AcqPlan.reset)) State.reset) ∧
      (after (.planEdit .a 7 1 1 (encodeAcq AcqPlan.reset)) State.reset).acq.gen = 2 := by
  refine ⟨rfl, by decide +kernel⟩

theorem witness_OtherPortUntouched :
    portOf (.ident .a 7) ≠ some .b ∧ Instr.ident .a 7 ≠ .nrst ∧
      exec (.ident .a 7) (State.reset.raise .b .podChanged) = .next (after (.ident .a 7) (State.reset.raise .b .podChanged)) ∧
      (State.reset.raise .b .podChanged).hasNotice .b .podChanged = true := ⟨by decide, by decide, rfl, rfl⟩

theorem live_engineLaw : ((live .armed).setPending [.sample 0]).engineLaw := by
  refine ⟨⟨by decide, ⟨cap, rfl, rfl⟩, ?_⟩, by decide, by decide, ?_, by decide, by decide, by decide, by decide, rfl⟩
  · exact slot_forall (s := live .armed) (by decide)
  · intro x h; cases h; decide

theorem witness_EngineLawKept :
    ((live .armed).setPending [.sample 0]).engineLaw ∧
      step ((live .armed).setPending [.sample 0]) = .next (after (.sample 0) (live .armed)) := ⟨live_engineLaw, rfl⟩

/-- An event of the capture. -/
def event : Event :=
  { seq := 1, cap := ⟨0, 1⟩, lane := 0, kind := .word, frame := 1, start := 103, stop := 105, value := some 0x5A, attrs := 0,
    err := none, bits := none, matched := [] }

/-- A list with that event, which no port has read. -/
def oneEvent : Evl := { Evl.reset with events := [event], nextSeq := 2 }

theorem witness_ListFormsKept :
    ((held ⟨false, false⟩).setEvl oneEvent).evl.lawful ∧ (held ⟨false, false⟩).sto.wf = true ∧
      step (((held ⟨false, false⟩).setEvl oneEvent).setPending [.eventsRead .a 0 1]) =
        .next (after (.eventsRead .a 0 1) ((held ⟨false, false⟩).setEvl oneEvent)) := by
  refine ⟨⟨?_, ?_, ?_, ?_⟩, by decide, rfl⟩
  · exact List.pairwise_singleton _ _
  · decide
  · intro p; cases p <;> decide
  · decide

theorem live_heldLaw : (((live .armed).setEvl oneEvent).setPending [.sample 0]).heldLaw := by
  have only : ∀ n b, lookupBlock [(0, block)] n = some b → n = 0 ∧ b = block := by
    intro n b h
    change (if 0 = n then some block else none) = some b at h
    split at h
    · cases h; exact ⟨Eq.symm ‹_›, rfl⟩
    · cases h
  refine ⟨⟨⟨by decide, ⟨cap, rfl, rfl⟩, slot_forall (s := live .armed) (by decide)⟩, by decide, by decide, ?_, by decide, by decide,
    by decide, by decide, rfl⟩, rfl, ?_, ?_, ?_, ?_, ?_, ?_⟩
  · intro x h; cases h; decide
  · intro n b h
    obtain ⟨-, rfl⟩ := only n b h
    exact ⟨by decide, fun _ => rfl, by intro m hm; cases hm⟩
  · intro m n x y hx hy _ _; rw [(only m x hx).1, (only n y hy).1]
  · intro i c h
    fin_cases i <;> cases h
    exact ⟨block, rfl, rfl⟩
  · intro e he
    obtain rfl := List.mem_singleton.mp he
    exact ⟨cap, 101, rfl, rfl, by decide⟩
  · intro l k h; fin_cases l <;> cases h
  · intro x name c hx hn hc
    cases hx; cases hn; cases hc
    refine ⟨by decide, ?_⟩
    intro n b hf hb
    cases hf; cases hb

theorem witness_HeldLawsKept :
    (((live .armed).setEvl oneEvent).setPending [.sample 0]).heldLaw ∧
      step (((live .armed).setEvl oneEvent).setPending [.sample 0]) = .next (after (.sample 0) ((live .armed).setEvl oneEvent)) :=
  ⟨live_heldLaw, rfl⟩

/-- A render of the capture: two columns of 2 ns from 101 ns on, channel 0, all lanes. -/
def render : Render :=
  { cap := ⟨0, 1⟩, start := 101, width := 512, columns := 2, channels := [0], lanes := 15, skews := [0], nextCol := 0,
    mark := none }

/-- The part with that render RUNNING for port A. -/
def rendering (queue : List Item) : State :=
  (held ⟨false, false⟩).setVrn
    { ctx := ⟨{ state := .running, render := some render, queue := queue, lastEnd := none }, .reset⟩, turn := some .a }

theorem rendering_lawful : (rendering []).vrn.lawful := by
  refine ⟨?_, rfl⟩
  intro p
  cases p
  · exact ⟨by decide, render, rfl, by decide⟩
  · exact ⟨by decide, rfl, rfl⟩

theorem witness_RenderLawKept :
    (rendering []).vrn.lawful ∧
      step ((rendering []).setPending [.columnItem]) = .next (after .columnItem (rendering [])) := ⟨rendering_lawful, rfl⟩

theorem witness_PodAndLaneLawsKept :
    (∀ i, (ready.pods.get i).lawful) ∧ (∀ i, (ready.lanes.get i).lawful) ∧
      step (ready.setPending [.arm .a 0]) = .next (after (.arm .a 0) ready) := by
  refine ⟨?_, ?_, rfl⟩
  · intro i; fin_cases i <;> exact ⟨by decide, by decide, by decide, by decide, by decide, by show (_ : PodState) ≠ _; decide, by decide⟩
  · intro i; fin_cases i <;> exact ⟨by decide, rfl⟩

theorem held_engineLaw : (held ⟨true, false⟩).engineLaw := by
  refine ⟨⟨rfl, ?_⟩, by decide, by decide, ?_, by decide, by decide, by decide, by decide, rfl⟩
  · intro i c h; fin_cases i <;> cases h; rfl
  · intro x h; cases h

theorem witness_RetainedCaptureSurvives :
    (held ⟨true, false⟩).engineLaw ∧
      (held ⟨true, false⟩).sto.capture ⟨0, 1⟩ = some { cap with complete := true, retain := ⟨true, false⟩ } ∧
      Instr.portReset .b 0 ≠ .nrst ∧ (∀ tag slot num, Instr.portReset .b 0 = .release .a tag slot num →
        ¬ (slot.toNat = (0 : Four).val ∧ num.toNat = 1)) ∧
      (∀ tag, Instr.portReset .b 0 ≠ .portReset .a tag) ∧ (∀ tag, Instr.portReset .b 0 ≠ .engineReset .a tag) ∧
      exec (.portReset .b 0) (held ⟨true, false⟩) = .next (after (.portReset .b 0) (held ⟨true, false⟩)) :=
  ⟨held_engineLaw, rfl, by decide, (fun _ _ _ h => nomatch h), by intros; simp, by intros; simp, rfl⟩

/-- The retaining port's RELEASE of another number in the same slot, and of the same number in another slot, are none of that capture. -/
theorem witness_RetainedCaptureSurvives_release :
    (∀ tag slot num, Instr.release .a 7 0 2 = .release .a tag slot num → ¬ (slot.toNat = (0 : Four).val ∧ num.toNat = 1)) ∧
      (∀ tag slot num, Instr.release .a 7 1 1 = .release .a tag slot num → ¬ (slot.toNat = (0 : Four).val ∧ num.toNat = 1)) ∧
      (let s := taken .a (.release .a 7 0 2) (held ⟨true, false⟩)
       exec (.release .a 7 0 2) s = .next (after (.release .a 7 0 2) s)) :=
  ⟨by intro _ _ _ h; cases h; decide, by intro _ _ _ h; cases h; decide, rfl⟩

/-! ## Witnesses: ports -/

theorem taken_holds (p : Port) (c : Instr) (s : State) : (taken p c s).holds p c := by cases p <;> rfl

theorem witness_Transactions :
    (State.reset.ports.get .a).slot = .free ∧ ((taken .a (.ident .a 7) State.reset).ports.get .a).slot ≠ .free ∧
      (0 : Byte) ≠ 0x01 ∧ (3 : Byte) ≠ 0x02 ∧
      (let s := after (.ident .a 7) State.reset
       (s.ports.get .a).slot = .answered 7 (.ident .a 0) ∧ (responseFrame 7 false (.ident .a 0)).length ≤ 40 ∧
        39 < (responseFrame 7 false (.ident .a 0)).length) ∧
      ∀ tag a, (State.reset.ports.get .a).slot ≠ .answered tag a :=
  ⟨rfl, by decide, by decide, by decide, ⟨by decide +kernel, by decide +kernel, by decide +kernel⟩, by intro tag a h; cases h⟩

/-- The shortest and the longest body of WireForms' list, the first lengths that do not fit, and contents of each section that do. -/
theorem witness_WireForms :
    (1, 0) ∈ [(1, 0), (13, 12), (27, 0)] ∧ ([] : List Byte).length = 0 ∧ (List.replicate 12 (0 : Byte)).length = 12 ∧
      (List.replicate 13 (0 : Byte)).length ≠ 12 ∧ ((4 : Byte) ≠ 1 ∧ (4 : Byte) ≠ 2 ∧ (4 : Byte) ≠ 3) ∧
      (List.replicate 255 (0 : Byte)).length ≤ 255 ∧ (encodeAcq AcqPlan.reset).length = 28 ∧
      (encodeProbe Plan.reset.probe).length = 40 ∧ (encodeTrigger Plan.reset.trigger).length = 721 ∧
      (Plan.reset.lanes.toList.flatMap encodeLane).length = 124 ∧ 2 ≤ ([3, 0] : List Byte).length ∧
      ([3, 0] : List Byte).length = 2 + 14 * (byteAt [3, 0] 1).toNat ∧ ([0, 0, 0] : List Byte).length < 4 ∧ 5 < (6 : Byte).toNat ∧
      27 < (28 : Byte).toNat := by decide +kernel

theorem witness_IdentAnswer : (taken .a (.ident .a 7) State.reset).holds .a (.ident .a 7) := taken_holds _ _ _

theorem witness_NoticeRequests :
    (taken .a (.noticeRead .a 7) State.reset).holds .a (.noticeRead .a 7) ∧
      (taken .b (.noticeEnable .b 7 4095) State.reset).holds .b (.noticeEnable .b 7 4095) ∧
      (4095 : BitVec 16).toNat < 4096 ∧ 4096 ≤ (4096 : BitVec 16).toNat :=
  ⟨taken_holds _ _ _, taken_holds _ _ _, by decide, by decide⟩

theorem witness_PortResetEffects : (taken .b (.portReset .b 7) (rendering [])).holds .b (.portReset .b 7) := taken_holds _ _ _

theorem witness_EngineResetEffects :
    (taken .b (.engineReset .b 7) (held ⟨true, false⟩)).holds .b (.engineReset .b 7) ∧
      (∃ i c, (held ⟨true, false⟩).sto.slots.get i = some c ∧ c.retain.get Port.b.other = true) ∧
      (∀ i c, (held ⟨false, true⟩).sto.slots.get i = some c → c.retain.get Port.b.other = false) ∧
      (ready.pods.get 0).state = .ready ∧ (ready.pods.get 0).desc.isSome = true ∧ (ready.pods.get 1).state = .absent ∧
      (rendering []).vrn.lawful := by
  refine ⟨taken_holds _ _ _, ⟨0, _, rfl, rfl⟩, ?_, rfl, rfl, rfl, rendering_lawful⟩
  exact slot_forall (s := held ⟨false, true⟩) (by decide)

/-! ## Witnesses: the plan -/

theorem witness_PlanReadAnswer :
    (taken .a (.planRead .a 7 5) State.reset).holds .a (.planRead .a 7 5) ∧
      (taken .a (.planRead .a 7 6) State.reset).holds .a (.planRead .a 7 6) := ⟨taken_holds _ _ _, taken_holds _ _ _⟩

/-- An ACQ section's contents with the divider 0, which is out of range. -/
def zeroDivider : List Byte := encodeAcq { AcqPlan.reset with div := 0 }

theorem refused_of {α : Type} {x : Except (Nat × Option Nat) α} (h : (match x with | .error _ => true | .ok _ => false) = true) :
    ∃ f, x = .error f := by cases x with | error f => exact ⟨f, rfl⟩ | ok _ => cases h

theorem witness_PlanEditRefusals :
    let s := live .armed
    (1 : BitVec 32) = s.acq.gen ∧ (2 : BitVec 32) ≠ s.acq.gen ∧
      (∃ f, decodeAcq zeroDivider = .error f) ∧
      (∃ f, decodeProbe (encodeProbe { Plan.reset.probe with thresholds := .all 6001 }) = .error f) ∧
      (∃ f, decodeTrigger (encodeTrigger { Plan.reset.trigger with count := 9 }) = .error f) ∧
      (∃ f, decodeLanes ((Quad.all { LaneCfg.reset with limit := 0 }).toList.flatMap encodeLane) = .error f) ∧
      (∃ f, decodeMatch [4, 0] = .error f) ∧ s.acq.engine ≠ .idle ∧
      decodeAcq (encodeAcq AcqPlan.reset) = .ok AcqPlan.reset ∧ decodeMatch [0, 0] = .ok (0, []) ∧
      (∀ st, st = LaneState.inFrame ∨ st = LaneState.draining →
        ((s.setLanes (.all { Lane.reset with state := st })).lanes.get 0).state = st) ∧
      ∀ sec contents, (taken .a (.planEdit .a 7 sec 1 contents) s).holds .a (.planEdit .a 7 sec 1 contents) := by
  refine ⟨rfl, by decide, refused_of (by decide +kernel), refused_of (by decide +kernel), refused_of (by decide +kernel),
    refused_of (by decide +kernel), refused_of (by decide +kernel), by decide, by decide +kernel, by decide +kernel,
    by intros; rfl, ?_⟩
  intros; exact taken_holds _ _ _

theorem witness_PlanEditAccepted :
    (let contents := encodeTrigger Plan.reset.trigger
     (taken .a (.planEdit .a 7 3 1 contents) State.reset).holds .a (.planEdit .a 7 3 1 contents) ∧
      State.reset.acq.engine = .idle ∧ decodeTrigger contents = .ok Plan.reset.trigger) ∧
    ((taken .a (.planEdit .a 7 5 1 [3, 0]) (live .armed)).holds .a (.planEdit .a 7 5 1 [3, 0]) ∧
      decodeMatch [3, 0] = .ok (3, []) ∧ ((live .armed).lanes.get 3).state = .off) ∧
    (let contents := encodeProbe Plan.reset.probe
     (taken .a (.planEdit .a 7 2 1 contents) (live .armed)).holds .a (.planEdit .a 7 2 1 contents) ∧
      decodeProbe contents = .ok Plan.reset.probe ∧ (live .armed).acq.active = some ⟨0, 1⟩ ∧
      (live .armed).sto.capture ⟨0, 1⟩ = some cap ∧ cap.complete = false ∧ (ready.pods.get 0).state = .ready) :=
  ⟨⟨taken_holds _ _ _, rfl, by decide +kernel⟩, ⟨taken_holds _ _ _, by decide +kernel, rfl⟩, taken_holds _ _ _, by decide +kernel,
    rfl, rfl, rfl, rfl⟩

/-- R103, R179: a lane record is 31 bytes, and ends with the frame idle timeout of 1,000,000 ns in 8 bytes and start mode AT_ARM. -/
theorem test_lane_record_bytes :
    (encodeLane LaneCfg.reset).length = 31 ∧
      (encodeLane LaneCfg.reset).drop 22 = [0x00, 0x00, 0x00, 0x00, 0x00, 0x0F, 0x42, 0x40, 0x01] := by decide +kernel

/-- The bounds of every range at once. -/
theorem witness_PlanSectionsRoundTrip :
    ({ AcqPlan.reset with div := 16777216, mask := 1, pre := maxPlanTime, quota := 1 } : AcqPlan).ranged = true ∧
      ({ thresholds := ⟨-6000, 6000, 0, 1⟩, userSkews := Vector.replicate 32 (-32) } : ProbePlan).ranged = true ∧
      ({ count := 8, stages := Vector.replicate 8 { Stage.reset with fail := some 7 } } : TriggerPlan).ranged = true ∧
      ({ LaneCfg.reset with wordSize := 32, timeout := 64, limit := 1, dataBits := 9, stopBits := 2 } : LaneCfg).ranged = true ∧
      ({ field := .wordAt 255, value := 0, mask := 0, dir := .any,
         actions := { mark := false, notify := true, feed := true, hold := some 15, release := none } } : MatchEntry).ranged = true := by
  decide +kernel

/-- Of several fields out of range the first is named (R171); records of the stage table and of the lanes with their number. -/
theorem test_first_field_out_of_range :
    firstBad (acqFields (List.replicate 28 0)) = some (1, none) ∧ decodeAcq (List.replicate 28 0) = .error (1, none) ∧
      decodeLanes ((Plan.reset.lanes.set 2 { LaneCfg.reset with limit := 0, timeout := 63 }).toList.flatMap encodeLane) =
        .error (15, some 2) ∧
      decodeTrigger (encodeTrigger { count := 1, stages := Plan.reset.trigger.stages.set 7 { Stage.reset with required := 0 } }) =
        .error (5, some 7) := by decide +kernel

/-! ## Witnesses: arming and ending -/

/-- A plan whose WINDOW quota is 1; one whose stage 1 has a pulse of reversed widths; one whose lane 2 shares a channel. -/
def planWindow : Plan := { Plan.reset with acq := { AcqPlan.reset with quota := 1 } }
def planPulse : Plan :=
  { Plan.reset with trigger := { count := 2, stages := (Vector.replicate 8 Stage.reset).set 1 { Stage.reset with primary := .pulse 0 true 9 8 } } }
def planClash : Plan :=
  { Plan.reset with lanes := Plan.reset.lanes.set 2 { LaneCfg.reset with kind := .twoWire, clock := 1, data := 1 } }

/-- One stage for each reason of R102, in the order of its checks, against a plan of one stage whose lane 1 has a kind. -/
theorem test_stage_reasons :
    let plan := { Plan.reset with
      acq := { AcqPlan.reset with mask := 0xFF }, lanes := Plan.reset.lanes.set 1 { LaneCfg.reset with kind := .async } }
    let st := { edgeStage with success := .trigger }
    let why := stageReason plan
    why { st with success := .stage 1 } = some .targetRange ∧ why { st with combine := .or } = some .noSecondary ∧
      why { st with combine := .and, secondary := some .triggerIn } = some .andSecondary ∧
      why { st with secondary := some (.pulse 0 true 9 8) } = some .pulseWidth ∧
      why { st with primary := .laneMatch 0 0 } = some .laneKind ∧ why { st with primary := .laneMatch 1 0 } = some .matchEntry ∧
      why { st with primary := .edge 0x100 .either } = some .channelMask ∧ why { st with timer := .within 1 } = some .withinFail ∧
      why { st with timer := .within 1, fail := some 0, success := .stage 0 } = none := by decide +kernel

/-- One lane for each reason of R125, at the first value that is out of range and the last that is not, with D = 5. -/
theorem test_lane_reasons :
    let a := { AcqPlan.reset with mask := 0xFF, div := 5 }
    let why := laneReason a
    let l := LaneCfg.reset
    why { l with kind := .async, data := 8 } = some .laneChannel ∧ why { l with kind := .none, data := 8 } = none ∧
      why { l with kind := .clocked, clock := 1, data := 2, select := some 1 } = some .channelClash ∧
      why { l with kind := .async, bitPeriod := 19 } = some .bitPeriod ∧ why { l with kind := .async, bitPeriod := 20 } = none ∧
      why { l with kind := .biphase, halfCell := 9 } = some .cellPeriod ∧ why { l with kind := .biphase, halfCell := 10 } = none := by
  decide +kernel

/-- The conditions of the checks hold on the plans of the tests above: a target at the stage count, a reversed width, channel 8
outside the mask FFH. -/
theorem witness_PlanCheckOrder :
    (Plan.reset.trigger.count ≤ 1 ∧ (9 : Nat) > 8 ∧ (0xFF : ChannelWord).getLsbD 8 = false ∧
      (AcqPlan.reset.mode = .window ∧ planWindow.acq.quota ≤ 1) ∧ 19 < 4 * 5 ∧ ¬ 20 < 4 * 5 ∧ 9 < 2 * 5 ∧ ¬ 10 < 2 * 5) ∧
    acqReason planWindow.acq = some .windowQuota ∧
      (acqReason planPulse.acq = none ∧ 1 < planPulse.trigger.count ∧
        (∀ j : Fin 8, j < 1 → stageReason planPulse planPulse.trigger.stages[j] = none) ∧
        stageReason planPulse planPulse.trigger.stages[1] = some .pulseWidth) ∧
      (acqReason planClash.acq = none ∧
        (∀ k : Fin 8, k.val < planClash.trigger.count → stageReason planClash planClash.trigger.stages[k] = none) ∧
        (∀ m : Four, m < 2 → laneReason planClash.acq (planClash.lanes.get m) = none) ∧
        laneReason planClash.acq (planClash.lanes.get 2) = some .channelClash) ∧
      acqReason Plan.reset.acq = none ∧
      (∀ k : Fin 8, k.val < Plan.reset.trigger.count → stageReason Plan.reset Plan.reset.trigger.stages[k] = none) ∧
      ∀ m : Four, laneReason Plan.reset.acq (Plan.reset.lanes.get m) = none := by decide +kernel

/-- A COMPLETE capture in slot 0 and block 0, and pod 0 READY. -/
def readyHeld (r : PerPort Bool) : State := (held r).setPods ready.pods

/-- The store whose other 2047 blocks belong to a COMPLETE capture in slot 1. -/
def packed (c : Capture) (b : Block) (retain : PerPort Bool) : Store :=
  { Store.reset with
    blocks := (0, b) :: (List.range' 1 2047).map fun n => (n, { block with state := .sealed, owner := ⟨1, 5⟩ })
    slots := ⟨some c, some { cap with num := 5, complete := true, origin := some 50, head := 1, retain := retain }, none, none⟩
    nextNum := 6 }

theorem lookup_range (b : Block) : ∀ k n m, n ≤ m → m < n + k → lookupBlock ((List.range' n k).map fun j => (j, b)) m = some b
  | 0, n, m, h1, h2 => by omega
  | k + 1, n, m, h1, h2 => by
    change (if n = m then some b else lookupBlock ((List.range' (n + 1) k).map fun j => (j, b)) m) = some b
    split
    · rfl
    · exact lookup_range b k (n + 1) m (by omega) (by omega)

theorem packed_beyond (b : Block) : ∀ {k n m : Nat}, n + k ≤ m → lookupBlock ((List.range' n k).map fun j => (j, b)) m = none
  | 0, n, m, _ => rfl
  | k + 1, n, m, h => by
    change (if n = m then some b else lookupBlock ((List.range' (n + 1) k).map fun j => (j, b)) m) = none
    rw [if_neg (by omega)]
    exact packed_beyond b (by omega)

theorem packed_lookup (c : Capture) (b : Block) (r : PerPort Bool) (m : Nat) (h : m < 2048) :
    lookupBlock (packed c b r).blocks m = some (if m = 0 then b else { block with state := .sealed, owner := ⟨1, 5⟩ }) := by
  change (if 0 = m then some b else lookupBlock ((List.range' 1 2047).map fun j => (j, _)) m) = _
  by_cases hm : m = 0
  · subst hm; rfl
  · rw [if_neg (Ne.symm hm), if_neg hm]; exact lookup_range _ 2047 1 m (by omega) (by omega)

theorem packed_noneFree (c : Capture) (b : Block) (r : PerPort Bool) : (packed c b r).noneFree := by
  intro m hm h; rw [packed_lookup c b r m hm] at h; cases h

theorem exists_of_match {x : Option State} {P : State → Bool} (h : (match x with | some u => P u | none => false) = true) :
    ∃ u, x = some u ∧ P u = true := by
  cases x with
  | some u => exact ⟨u, rfl, h⟩
  | none => cases h

/-- Whether `n` is the lowest FREE block, and whether slot `i` is EMPTY, as a value to compute. -/
def freesBlock (n : Nat) (u : State) : Bool :=
  (lookupBlock u.sto.blocks n).isNone && (List.range n).all fun m => (lookupBlock u.sto.blocks m).isSome
def freesSlot (i : Four) (u : State) : Bool := (u.sto.slots.get i).isNone

theorem firstFree_of {n : Nat} {u : State} (hn : n < 2048) (h : freesBlock n u = true) : u.sto.firstFree n := by
  simp only [freesBlock, Bool.and_eq_true, List.all_eq_true, List.mem_range, Option.isNone_iff_eq_none,
    Option.isSome_iff_ne_none] at h
  exact ⟨hn, h.1, h.2⟩

theorem witness_ArmCompletes :
    let s := taken .a (.arm .a 7) (readyHeld ⟨true, false⟩)
    s.holds .a (.arm .a 7) ∧ s.acq.engine = .idle ∧ s.acq.plan.problem = none ∧ s.podsReady ∧ s.sto.firstEmpty 1 ∧
      s.sto.firstFree 1 := by
  refine ⟨taken_holds _ _ _, by decide +kernel, by decide +kernel, ?_, ⟨by decide +kernel, by decide +kernel⟩,
    firstFree_of (by decide) (by decide +kernel)⟩
  intro k; fin_cases k <;> decide +kernel

/-- All four slots hold the COMPLETE capture, retained by port B. -/
def fullTable : State :=
  let c := { cap with complete := true, retain := ⟨false, true⟩ }
  ready.setSto { Store.reset with slots := .all (some c) }

theorem witness_ArmRefusals :
    (live .armed).acq.engine ≠ .idle ∧
      (ready.setAcq { Acq.reset with plan := planWindow }).acq.plan.problem = some ⟨.acq, none, .windowQuota⟩ ∧
      (State.reset.acq.plan.problem = none ∧ maskHasPod State.reset.acq.plan.acq.mask 0 = true ∧
        (State.reset.pods.get 0).state = .absent ∧ ∀ j : Four, ¬ j < 0) ∧
      (fullTable.acq.engine = .idle ∧ fullTable.acq.plan.problem = none ∧
        (∀ k, maskHasPod fullTable.acq.plan.acq.mask k = true →
          (fullTable.pods.get k).state = .ready ∨ (fullTable.pods.get k).state = .degraded) ∧
        (∀ j c, fullTable.sto.slots.get j = some c → c.complete = true → c.retain.a = true ∨ c.retain.b = true) ∧
        ∀ j, fullTable.sto.slots.get j ≠ none) ∧
      ∀ s : State, (taken .a (.arm .a 7) s).holds .a (.arm .a 7) := by
  refine ⟨by decide, by decide +kernel, by decide +kernel, ⟨by decide, by decide +kernel, by decide +kernel, ?_, by decide +kernel⟩,
    fun _ => taken_holds _ _ _⟩
  exact slot_forall (s := fullTable) (P := fun _ c => c.complete = true → c.retain.a = true ∨ c.retain.b = true) (by decide)

theorem witness_ReclaimTakesOldest :
    (held ⟨false, false⟩).sto.wf = true ∧ (held ⟨false, false⟩).reclaim.isSome = true ∧
      (held ⟨true, false⟩).reclaim.isNone = true := by decide +kernel

/-- The four slots hold COMPLETE captures; slot 0's alone is not retained. -/
def fullButOne (s : State) (c : Capture) : State :=
  let r := { cap with complete := true, retain := ⟨true, false⟩ }
  s.setSto { oneCapture c { block with state := if c.complete then .sealed else .filling } with slots := ⟨some c, some r, some r, some r⟩ }

theorem witness_ReclaimsMakeRoom_arm :
    (let s := taken .a (.arm .a 7) (fullButOne ready { cap with complete := true })
     s.sto.wf = true ∧ s.holds .a (.arm .a 7) ∧ s.acq.engine = .idle ∧ s.acq.plan.problem = none ∧ s.podsReady ∧
      ∃ u, s.reclaim = some u ∧ u.sto.firstFree 0 ∧ (∀ j, s.sto.slots.get j ≠ none) ∧ u.sto.slots.get 0 = none) ∧
    (let s := taken .a (.arm .a 7) (ready.setSto (packed { cap with complete := true } { block with state := .sealed } ⟨false, false⟩))
     s.sto.wf = true ∧ s.podsReady ∧ ∃ u, s.reclaim = some u ∧ u.sto.firstFree 1 ∧ s.sto.firstEmpty 2 ∧ s.sto.noneFree) := by
  refine ⟨⟨rfl, taken_holds _ _ _, rfl, by decide +kernel, ?_, ?_⟩, by decide +kernel, ?_, ?_⟩
  · intro k; fin_cases k <;> decide +kernel
  · obtain ⟨u, h, hu⟩ := exists_of_match (P := fun u => freesBlock 0 u && freesSlot 0 u)
      (x := (taken .a (.arm .a 7) (fullButOne ready { cap with complete := true })).reclaim) (by decide +kernel)
    rw [Bool.and_eq_true] at hu
    exact ⟨u, h, firstFree_of (by decide) hu.1, by decide, Option.isNone_iff_eq_none.mp hu.2⟩
  · intro k; fin_cases k <;> decide +kernel
  · obtain ⟨u, h, hu⟩ := exists_of_match (P := freesBlock 1)
      (x := (taken .a (.arm .a 7) (ready.setSto
        (packed { cap with complete := true } { block with state := .sealed } ⟨false, false⟩))).reclaim) (by decide +kernel)
    exact ⟨u, h, firstFree_of (by decide) hu, ⟨rfl, by decide⟩, packed_noneFree _ _ _⟩

theorem witness_ForceAndAbort_force :
    ((live .arming).acq.engine = .arming ∧ (live .arming).acq.force = none) ∧
      (let s := after (.force .a 7) (live .arming); s.acq.engine = .arming ∧ s.acq.force = some .arming) ∧
      (live .triggered).acq.engine = .triggered ∧ ∀ s : State, (taken .a (.force .a 7) s).holds .a (.force .a 7) :=
  ⟨⟨rfl, rfl⟩, by decide +kernel, rfl, fun _ => taken_holds _ _ _⟩

theorem witness_StopByState :
    State.reset.acq.engine = .idle ∧ (stopping cap).acq.engine = .stopping ∧
      (let s := (live .arming).setSmp (some { sampling with next := 0 })
       s.acq.engine = .arming ∧ s.smp = some { sampling with next := 0 }) ∧
      ((live .armed).smp = some sampling ∧ sampling.next ≠ 0 ∧ (live .armed).acq.active = some ⟨0, 1⟩ ∧
        (live .armed).sto.capture ⟨0, 1⟩ = some cap ∧ cap.complete = false ∧
        (live .armed).sto.filling ⟨0, 1⟩ = some (0, block)) ∧
      ∀ s : State, (taken .b (.stop .b 7) s).holds .b (.stop .b 7) :=
  ⟨rfl, rfl, ⟨rfl, rfl⟩, by decide +kernel, fun _ => taken_holds _ _ _⟩

theorem witness_ForceAndAbort_abort :
    State.reset.acq.engine = .idle ∧
      ((stopping cap).acq.engine = .stopping ∧ (stopping cap).acq.active = some ⟨0, 1⟩ ∧
        (stopping cap).sto.capture ⟨0, 1⟩ = some { cap with endReason := some .postDone }) ∧
      ((live .triggered).acq.engine = .triggered ∧ (live .triggered).acq.active = some ⟨0, 1⟩ ∧
        (live .triggered).sto.capture ⟨0, 1⟩ = some cap ∧ (live .triggered).sto.wf = true) ∧
      ∀ s : State, (taken .b (.abort .b 7) s).holds .b (.abort .b 7) :=
  ⟨rfl, ⟨rfl, rfl, by decide⟩, by decide, fun _ => taken_holds _ _ _⟩

theorem witness_FinalWriteCompletes :
    State.reset.acq.engine ≠ .stopping ∧
      ((stopping cap).sto.wf = true ∧ (stopping cap).acq.engine = .stopping ∧ (stopping cap).acq.active = some ⟨0, 1⟩ ∧
        (stopping cap).sto.capture ⟨0, 1⟩ = some { cap with endReason := some .postDone } ∧ cap.discard = false ∧
        (stopping cap).acq.repeatFlag = false) ∧
      (stopping { cap with discard := true }).sto.capture ⟨0, 1⟩ = some { cap with discard := true, endReason := some .postDone } := by
  decide

/-- A REPEAT run whose capture is about to be COMPLETE. -/
def repeating : State :=
  let s := stopping cap
  (s.setPods ready.pods).setAcq { s.acq with repeatFlag := true, runMode := .repeated, runCount := 1 }

/-- A REPEAT run with all slots held and retained, the ending capture too, which no run reaches: RETAIN refuses an ACTIVE capture. -/
def repeatingFull : State := fullButOne repeating { cap with endReason := some .postDone, retain := ⟨false, true⟩ }

theorem witness_RepeatRun :
    (repeating.sto.wf = true ∧ repeating.acq.engine = .stopping ∧ repeating.acq.active = some ⟨0, 1⟩ ∧
        repeating.sto.capture ⟨0, 1⟩ = some { cap with endReason := some .postDone } ∧ repeating.acq.repeatFlag = true) ∧
      (repeating.acq.plan.problem = none ∧ repeating.podsReady ∧ repeating.sto.firstEmpty 1 ∧ repeating.sto.firstFree 1) ∧
      (let s := repeating.setPods State.reset.pods
       s.acq.plan.problem = none ∧ maskHasPod s.acq.plan.acq.mask 0 = true ∧ (s.pods.get 0).state = .absent) ∧
      (repeating.setAcq { repeating.acq with plan := planWindow }).acq.plan.problem = some ⟨.acq, none, .windowQuota⟩ ∧
      (repeatingFull.podsReady ∧ repeatingFull.sto.capture ⟨0, 1⟩ =
          some { cap with endReason := some .postDone, retain := ⟨false, true⟩ } ∧ (∀ j, repeatingFull.sto.slots.get j ≠ none) ∧
        ∀ j y, repeatingFull.sto.slots.get j = some y → (y.complete = true ∨ j = 0) → y.retain.a = true ∨ y.retain.b = true) := by
  refine ⟨by decide +kernel, ⟨by decide +kernel, ?_, ⟨rfl, by decide⟩, firstFree_of (by decide) (by decide +kernel)⟩, by decide +kernel,
    by decide +kernel, ?_, rfl, by decide, ?_⟩
  · intro k; fin_cases k <;> decide +kernel
  · intro k; fin_cases k <;> decide +kernel
  · exact slot_forall (s := repeatingFull) (P := fun j y => (y.complete = true ∨ j = 0) → y.retain.a = true ∨ y.retain.b = true)
      (by decide)

/-- The re-arm in the two states in which it needs a reclaim. -/
theorem witness_ReclaimsMakeRoom_rearm :
    (let s := fullButOne repeating { cap with endReason := some .postDone }
     s.sto.wf = true ∧ s.acq.engine = .stopping ∧ s.acq.active = some ⟨0, 1⟩ ∧
      s.sto.capture ⟨0, 1⟩ = some { cap with endReason := some .postDone } ∧ s.acq.repeatFlag = true ∧ s.acq.plan.problem = none ∧
      s.podsReady ∧ ∃ d u, exec .finalWriteComplete (s.setAcq { s.acq with repeatFlag := false }) = .next d ∧ d.reclaim = some u ∧
        u.sto.firstFree 0 ∧ (∀ j, d.sto.slots.get j ≠ none) ∧ u.sto.slots.get 0 = none) ∧
    (let s := repeating.setSto (packed { cap with endReason := some .postDone } block ⟨false, false⟩)
     s.sto.wf = true ∧ s.podsReady ∧ ∃ d u, exec .finalWriteComplete (s.setAcq { s.acq with repeatFlag := false }) = .next d ∧
        d.reclaim = some u ∧ u.sto.firstFree 1 ∧ d.sto.firstEmpty 2 ∧ d.sto.noneFree) := by
  refine ⟨⟨rfl, rfl, rfl, rfl, rfl, by decide +kernel, ?_, ?_⟩, by decide +kernel, ?_, ?_⟩
  · intro k; fin_cases k <;> decide +kernel
  · let s := fullButOne repeating { cap with endReason := some .postDone }
    let d := after .finalWriteComplete (s.setAcq { s.acq with repeatFlag := false })
    obtain ⟨u, h, hu⟩ := exists_of_match (P := fun u => freesBlock 0 u && freesSlot 0 u) (x := d.reclaim) (by decide +kernel)
    rw [Bool.and_eq_true] at hu
    exact ⟨d, u, rfl, h, firstFree_of (by decide) hu.1, by decide +kernel, Option.isNone_iff_eq_none.mp hu.2⟩
  · intro k; fin_cases k <;> decide +kernel
  · let s := repeating.setSto (packed { cap with endReason := some .postDone } block ⟨false, false⟩)
    let d := after .finalWriteComplete (s.setAcq { s.acq with repeatFlag := false })
    obtain ⟨u, h, hu⟩ := exists_of_match (P := freesBlock 1) (x := d.reclaim) (by decide +kernel)
    have blocks : d.sto.blocks = (packed cap { block with state := .sealed } ⟨false, false⟩).blocks := by decide +kernel
    refine ⟨d, u, rfl, h, firstFree_of (by decide) hu, ⟨rfl, by decide +kernel⟩, ?_⟩
    intro m hm; rw [blocks]; exact packed_noneFree cap _ _ m hm

/-! ## Witnesses: the store -/

theorem witness_StatusReports :
    (live .armed).sto.wf = true ∧ (taken .a (.status .a 7) (live .armed)).holds .a (.status .a 7) ∧
      (taken .a (.captureList .a 7) (live .armed)).holds .a (.captureList .a 7) ∧
      ((taken .a (.captureInfo .a 7 0 1) (live .armed)).holds .a (.captureInfo .a 7 0 1) ∧
        (live .armed).sto.slots.get 0 = some cap ∧ cap.num = (1 : BitVec 16).toNat) ∧
      4 ≤ (4 : Byte).toNat ∧ (3 : Byte).toNat = (3 : Four).val ∧ (live .armed).sto.slots.get 3 = none :=
  ⟨by decide, taken_holds _ _ _, taken_holds _ _ _, ⟨taken_holds _ _ _, rfl, rfl⟩, by decide, rfl, rfl⟩

theorem witness_StoreRequests_retain :
    (∀ s : State, (taken .a (.retain .a 7 0 1) s).holds .a (.retain .a 7 0 1) ∧
        (taken .b (.release .b 7 0 1) s).holds .b (.release .b 7 0 1)) ∧
      ((live .armed).sto.slots.get 0 = some cap ∧ cap.num = (1 : BitVec 16).toNat ∧ cap.complete = false) ∧
      (held ⟨false, false⟩).sto.slots.get 0 = some { cap with complete := true } ∧
      (held ⟨false, false⟩).sto.slots.get 3 = none ∧ (3 : Byte).toNat = (3 : Four).val ∧ 4 ≤ (4 : Byte).toNat :=
  ⟨fun _ => ⟨taken_holds _ _ _, taken_holds _ _ _⟩, by decide, by decide, rfl, rfl, by decide⟩

/-- The COMPLETE capture with a clean record, one with a flipped bit and one with two. -/
def damagedHeld : State :=
  (held ⟨false, false⟩).setSto (oneCapture { cap with complete := true }
    { block with state := .sealed, records := [⟨0, 3, 0⟩, ⟨1, 2, 1⟩, ⟨2, 1, 3⟩] })

theorem witness_ReadRecords :
    (let s := held ⟨false, false⟩
     let c := { cap with complete := true }
     (taken .a (.readRecords .a 7 0 1 2 128) s).holds .a (.readRecords .a 7 0 1 2 128) ∧ 1 ≤ (128 : Byte).toNat ∧
      (128 : Byte).toNat ≤ 128 ∧ 128 < (129 : Byte).toNat ∧ (0 : Byte).toNat = 0 ∧ s.sto.slots.get 0 = some c ∧
      c.num = (1 : BitVec 16).toNat ∧ (2 : BitVec 64).toNat < s.sto.writtenEnd c ∧ s.sto.writtenEnd c ≤ (3 : BitVec 64).toNat ∧
      ∀ e ∈ s.sto.chain c, ∀ r ∈ e.2.records, r.flips = 0) ∧
    (let c := { cap with complete := true }
     damagedHeld.sto.wf = true ∧ damagedHeld.sto.capture ⟨0, 1⟩ = some c ∧ (4 : BitVec 64).toNat < damagedHeld.sto.writtenEnd c ∧
      (damagedHeld.sto.chain c).flatMap (fun e => (readsOf e).map fun y => y.check) = [none, some .correctable, some .uncorrectable]) ∧
    (let e : ReadEntry := ⟨0, 0, ⟨0, 0, 1, true⟩, some .uncorrectable⟩
     (live .armed).sto.capture ⟨0, 1⟩ = some cap ∧ lookupBlock (live .armed).sto.blocks e.block = some block ∧
      e.check = some .uncorrectable ∧ 1 ≤ 65536 ∧ ((readsOf (0, block))[0]?).isSome = true) :=
  ⟨⟨taken_holds _ _ _, by decide, by decide, by decide, rfl, rfl, rfl, by decide +kernel, by decide +kernel, by decide +kernel⟩,
    by decide +kernel, by decide⟩

/-- What READ_RECORDS from index 4 gives of that chain: the SINGLE record it starts in and the DOUBLE one, whose word reads flipped
(R51, R54); both errors are counted, and the capture is DAMAGED (R52). -/
theorem test_read_of_damaged_chain :
    let t := after (.readRecords .a 7 0 1 4 128) damagedHeld
    answerOf .a t = some (.records 0 6 false true [⟨3, 1, 2, false⟩, ⟨5, 1, 1, true⟩]) ∧ t.sto.correctable = 1 ∧
      t.sto.uncorrectable = 1 ∧ t.sto.lastErr = some ⟨0, 2, .uncorrectable⟩ ∧
      (t.sto.capture ⟨0, 1⟩).map (fun c => c.damaged) = some true ∧ t.hasNotice .b .storeError = true := by decide +kernel

theorem witness_StoreRequests_health :
    (∀ (k : Byte) (s : State), (taken .a (.storeHealth .a 7 k) s).holds .a (.storeHealth .a 7 k) ∧
        (taken .a (.storeTest .a 7 k) s).holds .a (.storeTest .a 7 k)) ∧
      (0 : Byte) ≠ 1 ∧ (3 : Byte) ≠ 2 ∧ (live .armed).sto.filling ⟨0, 1⟩ = some (0, block) ∧
      (live .armed).sto.capture ⟨0, 1⟩ = some cap ∧ block.records.length < 4096 :=
  ⟨fun _ _ => ⟨taken_holds _ _ _, taken_holds _ _ _⟩, by decide, by decide, by decide, by decide, by decide⟩

/-- A block full of records of one sample. -/
def fullBlock : Block := { block with records := List.replicate 4096 ⟨0, 1, 0⟩ }

/-- The part with a two-block WINDOW capture at its quota, both blocks full. -/
def atQuota : State :=
  (live .armed).setSto { oneCapture { cap with quota := 2 } fullBlock with
    blocks := [(0, { fullBlock with state := .sealed, next := some 1 }), (1, { fullBlock with first := 4096 })] }

theorem full_length : fullBlock.records.length = 4096 := List.length_replicate ..

/-- R54: with a request pending, the first record of the next block is stored corrupted and uses the request up: of a FREE block below
quota, and of the capture's own head block at quota. -/
theorem test_store_test_new_block :
    let placed := fun (s : State) n k =>
      let t := ((s.setSto { s.sto with test := some k }).placeRecord ⟨0, 1⟩ 4 8192).1
      (((lookupBlock t.sto.blocks n).map fun b => b.records), t.sto.test)
    placed ((live .armed).setSto (oneCapture cap fullBlock)) 1 .single = (some [⟨4, 1, 1⟩], none) ∧
      placed atQuota 0 .double = (some [⟨4, 1, 3⟩], none) := by decide +kernel

theorem witness_PlacingRecords :
    (let s := live .armed
     s.sto.wf = true ∧ s.sto.filling ⟨0, 1⟩ = some (0, block) ∧ s.sto.capture ⟨0, 1⟩ = some cap ∧ s.sto.test = none ∧
      (s.sto.chain cap).getLast? = some (0, block) ∧ block.next = none ∧ ((s.sto.chain cap).map fun e => e.1).Nodup ∧
      (∀ e ∈ s.sto.chain cap, e.2.owner = ⟨0, 1⟩) ∧ block.records.length < 4096) ∧
    (let s := atQuota
     let c := { cap with quota := 2 }
     let b := { fullBlock with first := 4096 }
     s.sto.wf = true ∧ s.sto.filling ⟨0, 1⟩ = some (1, b) ∧ s.sto.capture ⟨0, 1⟩ = some c ∧ s.sto.test = none ∧
      (s.sto.chain c).getLast? = some (1, b) ∧ ((s.sto.chain c).map fun e => e.1).Nodup ∧ b.records.length = 4096 ∧
      c.quota ≤ s.sto.ownedCount ⟨0, 1⟩ ∧ c.mode = .window ∧ c.head ≠ 1 ∧ c.trigBlock ≠ some c.head ∧ c.origin = some 101 ∧
      lookupBlock s.sto.blocks 2 = none ∧
      ∀ m x, lookupBlock s.sto.blocks m = some x → x.owner = ⟨0, 1⟩ → m ≠ 1 → x.state = .sealed) ∧
    (let s := (live .armed).setSto (oneCapture { cap with mode := .fill, quota := 1 } fullBlock)
     s.sto.filling ⟨0, 1⟩ = some (0, fullBlock) ∧ s.sto.ownedCount ⟨0, 1⟩ = 1) ∧
    (let s := (live .armed).setSto (packed { cap with mode := .fill } fullBlock ⟨true, false⟩)
     s.sto.wf = true ∧ s.sto.filling ⟨0, 1⟩ = some (0, fullBlock) ∧ s.sto.noneFree ∧ s.reclaim = none) := by
  refine ⟨by decide +kernel, ?_, ⟨rfl, rfl⟩, by decide +kernel, rfl, packed_noneFree _ _ _, by decide +kernel⟩
  have sealed_ : ∀ m x, lookupBlock atQuota.sto.blocks m = some x → x.owner = ⟨0, 1⟩ → m ≠ 1 → x.state = .sealed := by
    intro m x h _ hm
    change (if 0 = m then some _ else if 1 = m then some _ else none) = some x at h
    split at h
    · cases h; rfl
    · rw [if_neg (Ne.symm hm)] at h; cases h
  refine ⟨rfl, rfl, rfl, rfl, rfl, by decide +kernel, full_length, by decide +kernel, rfl, by decide, by decide, rfl, rfl, sealed_⟩

/-- A record below quota with no FREE block and a capture to reclaim. -/
theorem witness_ReclaimsMakeRoom_record :
    let s := (live .armed).setSto (packed cap fullBlock ⟨false, false⟩)
    s.sto.wf = true ∧ s.sto.filling ⟨0, 1⟩ = some (0, fullBlock) ∧ s.sto.capture ⟨0, 1⟩ = some cap ∧ s.sto.test = none ∧
      (s.sto.chain cap).getLast? = some (0, fullBlock) ∧ ((s.sto.chain cap).map fun e => e.1).Nodup ∧
      (∀ e ∈ s.sto.chain cap, e.2.owner = ⟨0, 1⟩) ∧
      (∀ k y, lookupBlock s.sto.blocks k = some y → y.owner = ⟨0, 1⟩ → k ≠ 0 → y.state = .sealed) ∧
      fullBlock.records.length = 4096 ∧ s.sto.ownedCount ⟨0, 1⟩ < cap.quota ∧ s.sto.noneFree ∧
      ∃ u, (s.setSto (s.sto.seal 0)).reclaim = some u ∧ u.sto.firstFree 1 := by
  have chain : (packed cap fullBlock ⟨false, false⟩).chain cap = [(0, fullBlock)] := rfl
  refine ⟨by decide +kernel, rfl, rfl, rfl, rfl, ?_, ?_, ?_, full_length, by decide +kernel, packed_noneFree _ _ _, ?_⟩
  · change (((packed cap fullBlock ⟨false, false⟩).chain cap).map fun e => e.1).Nodup; rw [chain]; exact List.nodup_singleton _
  · change ∀ e ∈ (packed cap fullBlock ⟨false, false⟩).chain cap, _
    rw [chain]; intro e he; obtain rfl := List.mem_singleton.mp he; rfl
  · intro k y h ho hk
    change (if 0 = k then some fullBlock else lookupBlock ((List.range' 1 2047).map fun j => (j, _)) k) = some y at h
    rw [if_neg (Ne.symm hk)] at h
    by_cases hlt : k < 2048
    · rw [lookup_range _ 2047 1 k (by omega) (by omega)] at h; cases h; rfl
    · have := packed_beyond (n := 1) (k := 2047) (m := k) { block with state := .sealed, owner := ⟨1, 5⟩ } (by omega)
      rw [this] at h; cases h
  · obtain ⟨u, h, hu⟩ := exists_of_match (P := freesBlock 1)
      (x := (((live .armed).setSto (packed cap fullBlock ⟨false, false⟩)).setSto
        ((packed cap fullBlock ⟨false, false⟩).seal 0)).reclaim) (by decide +kernel)
    exact ⟨u, h, firstFree_of (by decide) hu⟩

/-! ## Witnesses: events and renders -/

/-- A list at its capacity. -/
def fullList : Evl := { Evl.reset with events := List.replicate 8192 event, nextSeq := 8193 }

/-- The part acquiring with a full list, whose events belong to the capture `name`, and a second capture to reclaim. -/
def crowded (name : CapName) : State :=
  ((live .armed).setEvl { Evl.reset with events := List.replicate 8192 { event with cap := name }, nextSeq := 8193 }).setSto
    { (live .armed).sto with
      blocks := [(0, block), (1, { block with owner := ⟨1, 5⟩, state := .sealed })]
      slots := ⟨some cap, some { cap with num := 5, complete := true, head := 1 }, none, none⟩ }

theorem witness_EventEntry :
    ((live .armed).sto.capture ⟨1, 1⟩ = none ∧ (live .armed).sto.capture event.cap = some cap ∧ cap.origin = some 101 ∧
      ({ event with start := 100 }).start < ((101 + (live .armed).sto.oldestIndex cap * cap.div : Nat) : Int) ∧
      ((101 + (live .armed).sto.oldestIndex cap * cap.div : Nat) : Int) ≤ event.start ∧
      (live .armed).evl.events.length < 8192 ∧ 8192 ≤ ((live .armed).setEvl fullList).evl.events.length ∧
      ((live .armed).setEvl fullList).reclaim = none) ∧
    (8192 ≤ (crowded ⟨1, 5⟩).evl.events.length ∧ (crowded ⟨1, 5⟩).sto.capture event.cap = some cap ∧
      ∃ u, (crowded ⟨1, 5⟩).reclaim = some u ∧ decide (u.evl.events.length < 8192) = true) ∧
    (8192 ≤ (crowded ⟨0, 1⟩).evl.events.length ∧ (crowded ⟨0, 1⟩).reclaim.isSome = true ∧ cap.complete = false ∧
      (crowded ⟨0, 1⟩).sto.wf = true ∧ ∀ b, lookupBlock (crowded ⟨0, 1⟩).sto.blocks cap.head = some b → b.owner = event.cap) := by
  refine ⟨⟨by decide, by decide, rfl, by decide, by decide, by decide, Nat.le_of_eq (List.length_replicate ..).symm, rfl⟩,
    ⟨Nat.le_of_eq (List.length_replicate ..).symm, rfl, ?_⟩, Nat.le_of_eq (List.length_replicate ..).symm, by decide +kernel, rfl,
    by decide +kernel, ?_⟩
  · exact exists_of_match (by decide +kernel)
  · intro b h; cases h; rfl

theorem witness_EventListRequests :
    let s := (held ⟨false, false⟩).setEvl oneEvent
    (∀ c, (taken .a (.eventsRead .a 7 c) s).holds .a (.eventsRead .a 7 c)) ∧
      (∀ t, (taken .a (.eventsSeek .a 7 t) s).holds .a (.eventsSeek .a 7 t)) ∧
      (∀ v, (taken .a (.eventsThreshold .a 7 v) s).holds .a (.eventsThreshold .a 7 v)) ∧
      16 < (17 : Byte).toNat ∧ (16 : Byte).toNat ≤ 16 ∧ 1 ≤ (8192 : BitVec 16).toNat ∧ 8192 < (8193 : BitVec 16).toNat ∧
      (s.evl.events.filter fun e => (s.evl.port.get .a).cursor ≤ e.seq).getLast? = some event ∧
      4 ≤ (4 : Byte).toNat ∧ s.sto.slots.get 0 = some { cap with complete := true } ∧ s.sto.slots.get 3 = none ∧
      s.evl.events.find? (fun e => decide (e.cap = ⟨0, 1⟩)) = some event ∧
      s.evl.events.find? (fun e => decide (e.cap = ⟨0, 1⟩ ∧ (104 : Int) ≤ e.start)) = none :=
  ⟨fun _ => taken_holds _ _ _, fun _ => taken_holds _ _ _, fun _ => taken_holds _ _ _, by decide, by decide, by decide, by decide,
    rfl, by decide, rfl, rfl, rfl, rfl⟩

theorem witness_RenderStart :
    let s := held ⟨false, false⟩
    (taken .a (.renderStart .a 7 0 1 101 64 1024 [0, 7] 15) s).holds .a (.renderStart .a 7 0 1 101 64 1024 [0, 7] 15) ∧
      s.sto.slots.get 0 = some { cap with complete := true } ∧ cap.num = (1 : BitVec 16).toNat ∧
      4 ≤ (4 : Byte).toNat ∧ s.sto.slots.get 3 = none := ⟨taken_holds _ _ _, rfl, rfl, by decide, rfl⟩

/-- An item that fills a queue. -/
def item : Item := .column 0 false false false [⟨.low, .low, 0⟩]

/-- A FINISHED context with one item left. -/
def finished : RenderCtx := { state := .finished, render := some { render with nextCol := 2 }, queue := [item], lastEnd := none }

/-- A WAITING context, with its full queue. -/
def waiting : RenderCtx := { state := .waiting, render := some render, queue := List.replicate 64 item, lastEnd := none }

theorem witness_RenderFetchAndCancel :
    (rendering []).vrn.lawful ∧ (State.reset.setVrn { ctx := ⟨finished, .reset⟩, turn := none }).vrn.lawful ∧
      (State.reset.setVrn { ctx := ⟨waiting, .reset⟩, turn := none }).vrn.lawful ∧
      (∀ c s, (taken .a (.renderFetch .a 7 c) s).holds .a (.renderFetch .a 7 c) ∧
        (taken .a (.renderCancel .a 7) s).holds .a (.renderCancel .a 7)) ∧
      (1 ≤ (1 : Byte).toNat ∧ (16 : Byte).toNat ≤ 16 ∧ 16 < (17 : Byte).toNat) ∧
      (State.reset.vrn.ctx.get .a).state = .idle ∧ [item].drop 1 = [] ∧
      ({ RenderCtx.reset with lastEnd := some .gone }).lastEnd = some .gone := by
  refine ⟨rendering_lawful, ⟨?_, ?_⟩, ⟨?_, ?_⟩, fun _ _ => ⟨taken_holds _ _ _, taken_holds _ _ _⟩, by decide, rfl, rfl, rfl⟩
  · intro p; cases p
    · exact ⟨by decide, ⟨_, rfl, rfl⟩, by decide⟩
    · exact ⟨by decide, rfl, rfl⟩
  · intro p; cases p <;> decide
  · intro p; cases p
    · exact ⟨by decide, ⟨render, rfl, by decide⟩, by decide⟩
    · exact ⟨by decide, rfl, rfl⟩
  · intro p; cases p <;> decide

theorem witness_RendererItems :
    State.reset.vrn.turn = none ∧
      ((rendering []).vrn.turn = some .a ∧ (((rendering []).vrn.ctx.get .a).state = .running) ∧
        ((rendering []).vrn.ctx.get .a).render = some render ∧ 1 ≤ render.width ∧ ((rendering []).vrn.ctx.get .a).queue.length < 64 ∧
        64 ≤ ((rendering (List.replicate 64 item)).vrn.ctx.get .a).queue.length) ∧
      (∀ e, ¬ (rendering []).evl.firstDue render e) ∧ oneEvent.firstDue { render with nextCol := 1 } event := by
  refine ⟨rfl, ⟨rfl, rfl, rfl, by decide, by decide, by decide⟩, ?_, ⟨[], [], rfl, by simp, ?_⟩⟩
  · rintro e ⟨before, rest, h, -⟩
    have : (before ++ e :: rest).length = 0 := by rw [← h]; rfl
    simp at this
  · refine ⟨rfl, rfl, by decide, by decide, by decide, ?_⟩
    intro m h; cases h

theorem witness_ColumnShowsSamples :
    let x := (held ⟨false, false⟩).sto
    let c := { cap with complete := true }
    x.capture render.cap = some c ∧ c.origin = some 101 ∧ 1 ≤ c.div ∧ 1 ≤ render.width ∧ x.cleanChain c := by
  refine ⟨rfl, rfl, by decide, by decide, ?_, ?_⟩
  · have h : (held ⟨false, false⟩).sto.chain { cap with complete := true } = [(0, { block with state := .sealed })] := rfl
    intro e he r hr
    rw [h] at he
    obtain rfl := List.mem_singleton.mp he
    obtain rfl := List.mem_singleton.mp hr
    decide
  · intro i a b _ hb
    have h : (held ⟨false, false⟩).sto.chain { cap with complete := true } = [(0, { block with state := .sealed })] := rfl
    rw [h] at hb
    simp at hb

/-! ## Witnesses: pods and trigger lines -/

theorem witness_ThresholdCodeRule : (-6000 : Int) ≤ 6000 ∧ (-2000 : Int) ≤ 5000 ∧ readyPod.requested = 1400 ∧ readyPod.desc.isSome = true := by
  decide

/-- The part while it acquires the capture, with pod 0 READY. -/
def liveReady (e : Engine) : State := (live e).setPods ready.pods

theorem witness_PodSense :
    readyPod.sense = true ∧ (State.reset.pods.get 0).sense = false ∧ (State.reset.pods.get 0).state = .absent ∧
      (Pod.reset true).debounce = some 0 ∧ (Pod.reset false).debounce = none ∧ readyPod.state ≠ .absent ∧
      ((liveReady .armed).acq.engine = .armed ∧ (liveReady .armed).acq.active = some ⟨0, 1⟩ ∧
        (liveReady .armed).sto.capture ⟨0, 1⟩ = some cap ∧ (liveReady .armed).smp = some sampling ∧
        cap.mask.getLsbD 7 = true ∧ ∀ ch, 8 * (1 : Four).val ≤ ch → ch < 8 * (1 : Four).val + 8 → cap.mask.getLsbD ch = false) := by
  refine ⟨rfl, rfl, rfl, rfl, rfl, by decide, rfl, rfl, by decide, rfl, by decide, ?_⟩
  intro ch h1 h2
  have : ch = 8 ∨ ch = 9 ∨ ch = 10 ∨ ch = 11 ∨ ch = 12 ∨ ch = 13 ∨ ch = 14 ∨ ch = 15 := by
    simp at h1 h2; omega
  rcases this with rfl | rfl | rfl | rfl | rfl | rfl | rfl | rfl <;> decide

/-- A pod record in IDENTIFYING, in its attempt `n` or in the wait after it. -/
def identifying (n : Nat) (bus : BusPhase) : Pod :=
  { Pod.reset true with state := .identifying, debounce := none, attempts := n, bus := bus, exchange := [.start] }

/-- A descriptor with the last coefficients of the second worked threshold computation of chapter 1 (format 1, 8 inputs, STANDARD, range
−2000 to 5000, gain 32767, offset 2047), latency 31, trims 15 and −16, and the given last byte. -/
def descriptorBytes (last : Byte) : Vector Byte 64 :=
  ⟨#[1, 8, 1, 0xF8, 0x30, 0x13, 0x88, 0x7F, 0xFF, 0x07, 0xFF, 31, 15, 0xF0, 0, 0, 0, 0, 0, 0,
     0, 0, 0, 0, 0, 0, 0, 0, 0, 0, 0, 0, 0, 0, 0, 0, 0, 0, 0, 0,
     0, 0, 0, 0, 0, 0, 0, 0, 0, 0, 0, 0, 0, 0, 0, 0, 0, 0, 0, 0,
     0, 0, 0, last], rfl⟩

theorem witness_PodIdentification :
    ((identifying 1 (.attempt 5)).state = .identifying ∧ (identifying 1 (.attempt 5)).bus = .attempt 5 ∧
        (identifying 3 (.attempt 5)).attempts < 4 ∧ 4 ≤ (identifying 4 (.attempt 5)).attempts ∧
        (identifying 1 (.retryWait 9)).bus = .retryWait 9 ∧ ∀ due, (identifying 1 (.attempt 5)).bus ≠ .retryWait due) ∧
      (readyPod.state ≠ .identifying ∧ ¬ (readyPod.state = .identifying ∧ ∃ since, readyPod.bus = .attempt since)) ∧
      ((descriptorBytes 0x91).toList.map fun b => b.toNat).sum % 256 = 0 ∧
      ((descriptorBytes 0x90).toList.map fun b => b.toNat).sum % 256 ≠ 0 ∧
      signedAt (descriptorBytes 0x91).toList 3 2 = -2000 ∧ signedAt (descriptorBytes 0x91).toList 7 2 = 32767 :=
  ⟨⟨rfl, rfl, by decide, by decide, rfl, by intro due h; cases h⟩, ⟨by decide, fun h => by cases h.1⟩, by decide +kernel,
    by decide +kernel, by decide +kernel, by decide +kernel⟩

/-- The bus of R6 and R7: the address byte 0x3A with the read bit, not acknowledged, then a stop condition and a wait of 10 ms; and 586
signs of a read that is acknowledged, the last byte alone without an acknowledge. -/
theorem test_pod_bus_exchange :
    let s := State.reset.setPods ⟨identifying 1 (.attempt 0), .reset false, .reset false, .reset false⟩
    let t := after (.addressNak 0 9) s
    let u := after (.descriptorReadDone 0 (descriptorBytes 0x91) 9) s
    (t.pods.get 0).exchange = .start :: ([false, true, true, true, false, true, false, true, true].map .clock) ++ [.stop] ∧
      (t.pods.get 0).bus = .retryWait (t.timebase + 10000000) ∧ (u.pods.get 0).exchange.length = 1 + 9 + 64 * 9 + 1 ∧
      (u.pods.get 0).exchange.take 10 = .start :: ([false, true, true, true, false, true, false, true, false].map .clock) ∧
      (u.pods.get 0).exchange.drop 585 = [.clock true, .stop] ∧ (u.pods.get 0).exchange[576]? = some (.clock false) := by
  decide +kernel

theorem witness_PodRequests :
    (∀ (k : Byte) (s : State), (taken .a (.podInfo .a 7 k) s).holds .a (.podInfo .a 7 k) ∧
        (taken .a (.podRescan .a 7 k) s).holds .a (.podRescan .a 7 k)) ∧
      4 ≤ (4 : Byte).toNat ∧ (3 : Byte).toNat = (3 : Four).val ∧ (State.reset.pods.get 3).state = .absent ∧
      ((liveReady .armed).pods.get 0).state ≠ .absent ∧ (liveReady .armed).acq.engine ≠ .idle ∧ cap.mask.getLsbD 0 = true ∧
      (ready.pods.get 0).state ≠ .absent ∧ ready.acq.engine = .idle :=
  ⟨fun _ _ => ⟨taken_holds _ _ _, taken_holds _ _ _⟩, by decide, rfl, rfl, by decide, by decide, by decide, by decide, rfl⟩

theorem witness_TriggerLines :
    State.reset.trg.inLevel = false ∧ (live .armed).trg.state = .seeking ∧ (live .armed).trg.mark = none ∧
      State.reset.trg.state ≠ .gated ∧ State.reset.trg.pulses = [] ∧
      (let s := State.reset.setTrg { Trg.reset true with pulses := [120, 150] }
       s.trg.inLevel = true ∧ 120 ∈ s.trg.pulses ∧ ∀ f ∈ s.trg.pulses, 120 ≤ f) := by decide

/-! ## Witnesses: samples -/

theorem live_canHold (e : Engine) : (live e).canHold sampling ⟨0, 1⟩ cap := ⟨rfl, rfl, by cases e <;> rfl, rfl, 0, block, by cases e <;> rfl, by decide⟩

theorem witness_SamplesHeld :
    State.reset.smp = none ∧ ((live .armed).smp = some sampling ∧ sampling.next ≠ 0) ∧
      ((live .triggered).sto.wf = true ∧ (live .triggered).canHold sampling ⟨0, 1⟩ cap ∧
        (live .triggered).sto.filling ⟨0, 1⟩ = some (0, block) ∧ sampling.run = some ⟨0, 3, 0⟩ ∧
        (0 : ChannelWord) = sampling.nextWord 0 ∧ (0 : ChannelWord) ≠ sampling.nextWord 1 ∧ block.records ≠ []) ∧
      ((after (.arm .a 0) ready).smp.map fun x => x.next) = some 0 :=
  ⟨rfl, ⟨rfl, by decide⟩, ⟨by decide, live_canHold _, rfl, rfl, by decide, by decide, by decide⟩, by decide +kernel⟩

/-- A full FILLING block whose open record the sample repeats, or not, with a FREE block below quota, and at quota with a recycle. The state that needs
a reclaim is that of witness_ReclaimsMakeRoom_record. -/
theorem witness_SamplesHeld_full :
    (let s := (live .triggered).setSto (oneCapture cap fullBlock)
     s.sto.wf = true ∧ s.smp = some sampling ∧ sampling.next ≠ 0 ∧ s.acq.active = some ⟨0, 1⟩ ∧ s.sto.capture ⟨0, 1⟩ = some cap ∧
      cap.complete = false ∧ s.sto.filling ⟨0, 1⟩ = some (0, fullBlock) ∧ fullBlock.records.length = 4096 ∧
      sampling.run = some ⟨0, 3, 0⟩ ∧ (0 : ChannelWord) = sampling.nextWord 0 ∧ (0 : ChannelWord) ≠ sampling.nextWord 1 ∧
      (s.placeRecord ⟨0, 1⟩ (sampling.nextWord 1) 3).2 = true ∧ s.lanesOff ∧ cap.countsFit ∧ s.runsOn sampling) ∧
    (atQuota.placeRecord ⟨0, 1⟩ (sampling.nextWord 1) 3).2 = true := by
  refine ⟨⟨by decide +kernel, rfl, by decide, rfl, rfl, rfl, rfl, full_length, rfl, by decide, by decide, by decide +kernel, ?_, ?_,
    rfl, rfl, 1000, rfl, by decide⟩, by decide +kernel⟩
  · intro i; fin_cases i <;> rfl
  · intro i; fin_cases i <;> exact ⟨by decide, by decide⟩

/-- R25, R38, R39: the sample that finds the FILLING block full seals it and goes into the next block; the open record of a full block
still grows. -/
theorem test_sample_full_block :
    let s := (live .triggered).setSto (oneCapture cap fullBlock)
    let t := after (.sample 1) s
    ((lookupBlock t.sto.blocks 0).map fun b => (b.state, b.next)) = some (.sealed, some 1) ∧
      t.sto.filling ⟨0, 1⟩ = some (1, { block with first := 3, records := [⟨1, 1, 0⟩] }) ∧
      (((after (.sample 0) s).sto.filling ⟨0, 1⟩).bind fun e => e.2.records.getLast?) = some ⟨0, 2, 0⟩ := by decide +kernel

/-- The part right after the ARM, before sample 0. -/
def armed0 : State := after (.arm .a 0) ready

theorem witness_PlainSamples :
    (∃ x c a b, armed0.sto.wf = true ∧ armed0.canHold x ⟨0, 1⟩ c ∧ armed0.sto.filling ⟨0, 1⟩ = some (0, b) ∧ b.records = [] ∧
      armed0.lanesOff ∧ c.countsFit ∧ x.next = 0 ∧ x.origin = none ∧ x.run = none ∧ x.prev = none ∧ armed0.acq.engine = .arming ∧
      armed0.acq.copy = some a ∧ armed0.trg.state = .gated ∧ armed0.trg.history = none ∧ armed0.acq.stopPending = false ∧
      armed0.acq.force = none ∧ (after (.stop .b 1) armed0).acq.stopPending = true) ∧
    ((live .triggered).canHold sampling ⟨0, 1⟩ cap ∧ 1 ≤ sampling.next ∧ (live .triggered).runsOn sampling ∧
      (live .triggered).lanesOff ∧ cap.countsFit ∧ (live .triggered).trg.state = .declared ∧
      (live .triggered).trg.history = some ⟨0, Vector.replicate 32 none⟩ ∧ sampling.prev = some 0 ∧
      (live .triggered).sto.filling ⟨0, 1⟩ = some (0, block)) := by
  refine ⟨⟨_, _, _, _, by decide +kernel, ⟨rfl, by decide +kernel, rfl, rfl, 0, _, rfl, by decide⟩, rfl, rfl, ?_, ?_, rfl, rfl, rfl, rfl,
    by decide +kernel, rfl, by decide +kernel, by decide +kernel, by decide +kernel, by decide +kernel, by decide +kernel⟩,
    live_canHold _, by decide, ⟨rfl, rfl, 1000, rfl, by decide⟩, ?_, ?_, rfl, rfl, rfl, rfl⟩
  · intro i; fin_cases i <;> decide +kernel
  · intro i; fin_cases i <;> exact ⟨by decide, by decide⟩
  · intro i; fin_cases i <;> rfl
  · intro i; fin_cases i <;> exact ⟨by decide, by decide⟩

/-- A lane of the capture, in a frame whose last clock edge or transition was at 1. -/
def laneCtx (kind : LaneKind) : LaneCtx :=
  { cfg := { LaneCfg.reset with kind := kind, timeout := 64, idleHigh := false }, capture := ⟨0, 1⟩, wordPos := 2, truncated := false, word := none,
    hunt := none, drainLimit := none, lastStart := none
    kctx := { KindCtx.cleared with clockEdge := some 1, idleSince := some 1, reference := some 1 } }

/-- The part before a sample that is tested against stage `st`, on the entry to ARMED or in it, with the post-trigger length `post`. -/
def looking (e : Engine) (st : Stage) (post : Nat) : State :=
  let s := live e
  (s.setAcq { s.acq with
      copy := some { AcqPlan.reset with post := post }, armedAt := if e = .arming then some 107 else none }).setTrg
    { s.trg with run := some (trgRun st) }

/-- What the evaluation of that sample gives. -/
def verdict (e : Engine) (st : Stage) (w : ChannelWord) : Option (Stage × TrigSource) × Bool :=
  let v := (trgRun st).evaluate none ((looking e st 1).observedOn sampling ⟨0, 1⟩ w)
  (v.satisfied, v.expired)

theorem witness_TriggerSamples :
    State.reset.smp = none ∧
      (∀ e st post, (looking e st post).canHold sampling ⟨0, 1⟩ cap ∧ (looking e st post).sto.wf = true ∧
        (looking e st post).acq.stopPending = false ∧ (looking e st post).acq.copy = some { AcqPlan.reset with post := post } ∧
        (looking e st post).trg.run = some (trgRun st) ∧ (looking e st post).trg.pendingEntry = none ∧
        (looking e st post).acq.engine = e ∧ (looking e st post).acq.force = none) ∧
      ((looking .arming edgeStage 0).acq.armedAt = some 107 ∧ 107 ≤ sampling.nextRaw ∧ sampling.next ≠ 0 ∧
        (looking .armed edgeStage 0).trg.state = .seeking) ∧
      ((∃ x c b, x.next = 0 ∧ armed0.smp = some x ∧ armed0.sto.capture ⟨0, 1⟩ = some c ∧ armed0.sto.filling ⟨0, 1⟩ = some (0, b) ∧
        armed0.canHold x ⟨0, 1⟩ c) ∧ armed0.acq.copy.map (fun a => a.pre) = some 0) ∧
      (verdict .armed { edgeStage with timer := .within 3 } 0 = (none, true) ∧ verdict .armed edgeStage 0 = (none, false) ∧
        verdict .arming edgeStage 1 = (some (edgeStage, .stage 0), false) ∧ edgeStage.required = 1 ∧ edgeStage.success = .trigger ∧
        verdict .armed { edgeStage with success := .stage 1 } 1 = (some ({ edgeStage with success := .stage 1 }, .stage 0), false) ∧
        verdict .armed { edgeStage with primary := .triggerIn, secondary := some (.edge 1 .either), combine := .or } 1 =
          (some ({ edgeStage with primary := .triggerIn, secondary := some (.edge 1 .either), combine := .or }, .stage 0), false)) ∧
      ((after (.force .a 7) (live .armed)).acq.force = some .armed ∧ (after (.force .a 7) (live .arming)).acq.force = some .arming) := by
  refine ⟨rfl, ?_, ⟨rfl, by decide, by decide, rfl⟩, ⟨⟨_, _, _, rfl, rfl, rfl, rfl, rfl, by decide +kernel, rfl, rfl, 0, _, rfl, by decide⟩,
    by decide +kernel⟩, by decide +kernel, by decide +kernel⟩
  intro e st post
  exact ⟨⟨rfl, rfl, by cases e <;> rfl, rfl, 0, block, by cases e <;> rfl, by decide⟩, by cases e <;> rfl, rfl, rfl, rfl, rfl, rfl, rfl⟩

/-- With a post-trigger length of 0 the declaring sample ends the capture; a hold and a release go to the lanes with its index. -/
theorem test_declaring_sample :
    let t := after (.stageSatisfied 1) (looking .armed edgeStage 0)
    let act := { edgeStage with success := .stage 0, actions := { edgeStage.actions with hold := some 1, release := some 1 } }
    let u := after (.stageSatisfied 1) ((looking .armed act 0).setLanes
      { Quad.all Lane.reset with q0 := { state := .hunt, frame := 0, pend := [], ctx := some (laneCtx .clocked) } })
    t.acq.engine = .stopping ∧ t.acq.postEnd = some 107 ∧ (t.sto.capture ⟨0, 1⟩).map (fun c => (c.trigTime, c.endReason)) =
      some (some 107, some .postDone) ∧ (u.lanes.get 0).pend = [⟨true, 3⟩, ⟨false, 3⟩] ∧ (u.lanes.get 1).pend = [] := by decide +kernel

theorem witness_CaptureEndSamples :
    (let s := (live .triggered).setAcq { (live .triggered).acq with postEnd := some 107 }
     s.canHold sampling ⟨0, 1⟩ cap ∧ s.acq.engine = .triggered ∧ s.acq.postEnd = some 107 ∧ 107 ≤ sampling.nextRaw) ∧
    (let c := { cap with mode := .fill, quota := 1 }
     let s := (live .armed).setSto (oneCapture c fullBlock)
     s.sto.wf = true ∧ s.smp = some sampling ∧ s.sto.capture ⟨0, 1⟩ = some c ∧ s.sto.filling ⟨0, 1⟩ = some (0, fullBlock) ∧
      fullBlock.records.length = 4096 ∧ (0 : ChannelWord) ≠ sampling.nextWord 1 ∧ c.quota ≤ s.sto.ownedCount ⟨0, 1⟩ ∧
      c.mode = .fill) ∧
    (let s := (live .armed).setSto (packed { cap with mode := .fill } fullBlock ⟨false, true⟩)
     s.sto.filling ⟨0, 1⟩ = some (0, fullBlock) ∧ s.sto.ownedCount ⟨0, 1⟩ < cap.quota ∧ s.sto.noneFree ∧ s.reclaim = none) :=
  ⟨⟨⟨rfl, rfl, rfl, rfl, 0, block, rfl, by decide⟩, rfl, rfl, by decide⟩,
    ⟨rfl, rfl, rfl, rfl, full_length, by decide, by decide +kernel, rfl⟩, rfl, by decide +kernel, packed_noneFree _ _ _, by decide +kernel⟩

/-- The part while lane 0 is in that frame, or drains it. -/
def framing (kind : LaneKind) (state : LaneState) (limit : Option Nat) : State :=
  (live .triggered).setLanes { Quad.all Lane.reset with
    q0 := { state := state, frame := 1, pend := [], ctx := some { laneCtx kind with drainLimit := limit } } }

/-- One lane in a frame, one draining, two in a frame with room for exactly two events, and none. The premises of the other two
entries to STOPPING are those of witness_CaptureEndSamples. -/
theorem witness_StopByState_partials :
    (let s := taken .a (.stop .a 7) (framing .twoWire .inFrame none)
     s.holds .a (.stop .a 7) ∧ s.acq.engine = .triggered ∧ s.smp = some sampling ∧ sampling.origin = some 101 ∧
      s.sto.filling ⟨0, 1⟩ = some (0, block) ∧ cutFrames s.lanes = [(0, laneCtx .twoWire)] ∧
      (∀ f ∈ cutFrames s.lanes, f.2.capture = ⟨0, 1⟩) ∧ s.evl.events.length + (cutFrames s.lanes).length ≤ 8192) ∧
    (cutFrames (framing .async .draining (some 107)).lanes).map Prod.fst = [0] ∧
    (let f := framing .clocked .inFrame none
     let lanes := f.lanes.set 3 (f.lanes.get 0)
     let e := f.partialEvent lanes 105 1 (0, laneCtx .clocked)
     let s := (f.setLanes lanes).setEvl { f.evl with events := List.replicate 8190 e }
     (cutFrames s.lanes).map Prod.fst = [0, 3] ∧ s.evl.events = List.replicate 8190 e) ∧
    cutFrames (live .triggered).lanes = [] := by
  refine ⟨⟨taken_holds _ _ _, rfl, rfl, rfl, rfl, rfl, by decide +kernel, by decide⟩, by decide, ⟨by decide, rfl⟩, rfl⟩

/-- R123: the PARTIAL of the frame that STOP cuts off, at the last held sample, index 2 and raw time 105; one whose time is that of the
oldest held sample is entered, and one before it is counted as expired (R139). -/
theorem test_stop_partial :
    let e : Event := { event with kind := .partialFrame, start := 105, value := some 2 }
    let at_ := fun n => after (.stop .a 7) (taken .a (.stop .a 7) ((framing .twoWire .inFrame none).setSto
      (oneCapture cap { block with first := n })))
    (at_ 0).evl.events = [e] ∧ (at_ 2).evl.events = [e] ∧ (at_ 3).evl.events = [] ∧
      ((at_ 3).sto.capture ⟨0, 1⟩).map (fun c => (c.expired, c.frames.q0)) = some (1, 1) ∧ (at_ 3).evl.nextSeq = 1 := by
  decide +kernel

/-- R123: at POST_DONE the last held sample is the sample itself, raw time 107. -/
theorem test_post_done_partial :
    let s := framing .clocked .inFrame none
    (after (.postDone 1) (s.setAcq { s.acq with postEnd := some 107 })).evl.events.map (fun e => (e.kind, e.start, e.stop)) =
      [(.partialFrame, 107, 107)] := by decide +kernel

theorem witness_LaneFrameEnds :
    (∀ kind, (framing kind .inFrame none).canHold sampling ⟨0, 1⟩ cap ∧ (framing kind .inFrame none).runsOn sampling ∧
      (framing kind .inFrame none).quietLane sampling 0 0 (laneCtx kind) ∧ (laneCtx kind).capture = ⟨0, 1⟩ ∧
      (laneCtx kind).word = none ∧ (laneCtx kind).cfg.kind = kind) ∧
      (sampling.next ≠ 0 ∧ 1 + LaneCfg.timeout (laneCtx .twoWire).cfg ≤ sampling.nextRaw ∧
        (laneCtx .clocked).cfg.select = none ∧ (laneCtx .async).kctx.char = none ∧ (laneCtx .async).kctx.waitIdle = false) ∧
      ((framing .async .draining (some 107)).quietLane sampling 0 0 { laneCtx .async with drainLimit := some 107 } ∧
        107 ≤ sampling.nextRaw) ∧
      ((sampling.nextWord 0).getLsbD (laneCtx .async).cfg.data = (laneCtx .async).cfg.idleHigh) :=
  ⟨fun _ => ⟨⟨rfl, rfl, rfl, rfl, 0, block, rfl, by decide⟩, ⟨rfl, rfl, 1000, rfl, by decide⟩, ⟨rfl, rfl, rfl⟩, rfl, rfl, rfl⟩,
    by decide, ⟨⟨rfl, rfl, rfl⟩, by decide⟩, by decide⟩

/-- The rows' ends come about on that sample; a drain limit reached with the clock quiet for one nanosecond too few. -/
theorem witness_LaneFrameEnds_rows :
    let came := fun kind state limit edge =>
      let k := { laneCtx kind with drainLimit := limit, kctx := { (laneCtx kind).kctx with clockEdge := some edge } }
      (laneHandle 0 { state := state, frame := 1, pend := [], ctx := some k } sampling.div
        (sampling.item ⟨0, 1⟩ (sampling.nextWord 0))).2.2
    came .twoWire .inFrame none 43 = [.twoWireStall 0] ∧ came .twoWire .inFrame none 44 = [] ∧
      came .clocked .inFrame none 43 = [.clockedIdleEnd 0] ∧ came .async .inFrame none 1 = [.asyncIdleEnd 0] ∧
      came .biphase .inFrame none 1 = [.biphaseIdleEnd 0] ∧ came .clocked .draining (some 107) 44 = [.drainLimit 0] ∧
      came .clocked .draining (some 108) 44 = [] := by decide +kernel

theorem witness_StageEvaluation :
    let r := trgRun { edgeStage with timer := .within 3 }
    r.table[r.stage]? = some { edgeStage with timer := .within 3 } ∧ r.entry = some (1, 103) ∧ 103 + 3 < 107 ∧ 106 ≤ 103 + 3 :=
  ⟨rfl, rfl, by decide, by decide⟩

theorem witness_LaneRequests :
    let x := (framing .clocked .inFrame none).lanes.get 0
    let y := x.request true 3
    x.state = .inFrame ∧ x.ctx.isSome = true ∧ y.pend ≠ [] ∧ (∀ r ∈ y.pend, r.index < 4) ∧ (∃ r ∈ y.pend, r.hold = true) ∧
      ¬ (∃ r ∈ y.pend, r.hold = false) ∧ ((framing .clocked .held none).lanes.get 0).state = .held := by
  refine ⟨rfl, rfl, by decide, by decide, by decide, by decide, rfl⟩

/-- What a lane emits on a sample. -/
def emitted (x : Lane) (D : Nat) (it : SampleItem) : List Emission := (laneHandle 0 x D it).2.1

/-- An emission of frame 1: kind, position, value, attributes, error, times. -/
def em (kind : EventKind) (pos : Nat) (value : Option Nat) (attrs : BitVec 8) (err : Option ErrKind) (t0 t1 : Nat) : Emission :=
  { kind, frame := 1, pos, value, attrs, err, bits := none, rawStart := t0, rawEnd := t1 }

/-! ### Frames: samples at 1000 ns on lanes of clock 0, data 1 and select 2, whose idle timeout is 64 ns -/

/-- The context of a lane of frame 1 at word position 2, with the given bits held, the first of them at 900 ns. -/
def frameCtx (cfg : LaneCfg) (k : KindCtx) (bits : List Bool) : LaneCtx :=
  { cfg := { cfg with timeout := 64 }, capture := ⟨0, 1⟩, wordPos := 2, truncated := false
    word := if bits = [] then none else some ⟨bits, 900⟩, hunt := none, drainLimit := none, lastStart := none, kctx := k }

def laneOf (state : LaneState) (c : LaneCtx) : Lane := { state := state, frame := 1, pend := [], ctx := some c }

/-- A sample at 1000 ns with its word and the channels that rise and fall on it. -/
def at1000 (word rise fall : ChannelWord) : SampleItem := ⟨⟨0, 1⟩, 9, 1000, word, rise, fall⟩

def clockUp : SampleItem := at1000 1 1 0
def clockDown : SampleItem := at1000 0 0 1
def dataFalls : SampleItem := at1000 1 0 2
def dataRises : SampleItem := at1000 3 2 0
def still : SampleItem := at1000 1 0 0
def selectOff : SampleItem := at1000 4 4 0
def selectOn : SampleItem := at1000 0 0 4

def of (kind : LaneKind) : LaneCfg := { LaneCfg.reset with kind := kind }
def edgeAt (t : Nat) : KindCtx := { KindCtx.cleared with clockEdge := some t }

/-- The drain clause: a limit reached with the frame still open, and with the frame ended on the same sample. -/
theorem witness_LaneRequests_drain :
    let c := { frameCtx (of .twoWire) (edgeAt 990) [] with drainLimit := some 1000 }
    let y := fun it => laneHandle 0 (laneOf .draining { c with drainLimit := none }) 2 it
    c.drainLimit = some 1000 ∧ 1000 ≤ still.raw ∧ (y still).1.ctx.isSome = true ∧ (y still).1.state = .draining ∧
      (y dataRises).1.ctx.isSome = true ∧ (y dataRises).1.state = .held := by decide +kernel

/-- What holds on the samples above and in the lanes below, clause by clause: TWO_WIRE, CLOCKED in a frame, CLOCKED in HUNT. -/
theorem witness_TwoWireAndClockedFrames :
    (let c := frameCtx (of .twoWire) (edgeAt 937) [true]
     c.cfg.kind = .twoWire ∧ (laneOf .inFrame c).goesOn c 1000 = true ∧ (laneOf .inFrame c).pend = [] ∧
      (laneOf .draining { c with drainLimit := some 1001 }).goesOn { c with drainLimit := some 1001 } 1000 = true ∧
      (laneOf .draining { c with drainLimit := some 1000 }).goesOn { c with drainLimit := some 1000 } 1000 = false ∧
      (frameCtx (of .twoWire) (edgeAt 937) (List.replicate 7 true)).bits.length < 8 ∧
      (frameCtx (of .twoWire) { edgeAt 937 with addrNext := true } (List.replicate 8 true)).bits.length = 8 ∧
      timedOut (some 937) c.cfg.timeout 1000 = false ∧ timedOut (some 936) c.cfg.timeout 1000 = true) ∧
    (clockUp.rises 0 = true ∧ clockDown.changes 0 = true ∧ clockDown.rises 0 = false ∧
      (dataFalls.falls 1 = true ∧ dataFalls.changes 0 = false ∧ dataFalls.level 0 = true) ∧
      (dataRises.rises 1 = true ∧ dataRises.changes 0 = false ∧ dataRises.level 0 = true ∧ dataRises.falls 1 = false) ∧
      still.changes 0 = false ∧ still.falls 1 = false ∧ still.rises 1 = false) ∧
    (let c := fun n => frameCtx (of .clocked) (edgeAt 937) (List.replicate n true)
     (c 6).cfg.kind = .clocked ∧ (c 6).bits.length + 1 ≠ (c 6).cfg.wordSize ∧ (c 7).bits.length + 1 = (c 7).cfg.wordSize ∧
      (c 7).cfg.samplingRising = true ∧ (c 7).cfg.select = none ∧ 2 ≤ (c 7).cfg.wordSize ∧
      (selectOff.changes 2 = true ∧ selectOff.level 2 ≠ LaneCfg.reset.selectHigh) ∧
      (selectOn.changes 2 = true ∧ selectOn.level 2 = LaneCfg.reset.selectHigh ∧ selectOn.changes 0 = false)) := by decide +kernel

/-- SHORT_WORD for two bits or more before a STOP of TWO_WIRE and for one before the end of a CLOCKED frame; the end by the select, and
no end by quiet while there is one (R116, R117). -/
theorem test_short_words :
    emitted (laneOf .inFrame (frameCtx (of .twoWire) (edgeAt 990) [true, false, true])) 2 dataRises =
        [{ em .error 2 (some 5) 0 (some .shortWord) 900 1000 with bits := some 3 }, em .stop 2 none 0 none 1000 1000] ∧
      emitted (laneOf .inFrame (frameCtx (of .twoWire) (edgeAt 990) [true])) 2 dataRises = [em .stop 2 none 0 none 1000 1000] ∧
      emitted (laneOf .inFrame (frameCtx { of .clocked with select := some 2 } (edgeAt 990) [true])) 2 selectOff =
        [{ em .error 2 (some 1) 0 (some .shortWord) 900 1000 with bits := some 1 }, em .stop 2 none 0 none 1000 1000] ∧
      emitted (laneOf .inFrame (frameCtx { of .clocked with select := some 2 } (edgeAt 1) [true])) 2 still = [] ∧
      emitted (laneOf .inFrame (frameCtx (of .twoWire) (edgeAt 936) [])) 2 still = [em .error 2 none 0 (some .stall) 1000 1000] := by
  decide +kernel

/-- An ASYNC line of bit period 10 whose character began at `start` and has `n` bits read; D is 2. -/
def charAt (start n : Nat) (returned : Option Nat) : KindCtx :=
  { KindCtx.cleared with char := some ⟨start, n, List.replicate (n - 1) true, returned⟩ }

def asyncCfg : LaneCfg := { of .async with bitPeriod := 10, parity := .odd }

/-- What holds, clause by clause: ASYNC in a frame and in HUNT, BIPHASE in a frame and in HUNT. -/
theorem witness_AsyncAndBiphaseFrames :
    (let line := frameCtx asyncCfg KindCtx.cleared []
     line.cfg.kind = .async ∧ line.kctx.char = none ∧ line.kctx.waitIdle = false ∧ 1 ≤ line.cfg.timeout ∧
      (dataFalls.changes 1 = true ∧ dataFalls.level 1 ≠ line.cfg.idleHigh) ∧
      (dataRises.changes 1 = true ∧ dataRises.level 1 = line.cfg.idleHigh) ∧ still.changes 1 = false ∧
      timedOut (some 936) line.cfg.timeout 1000 = true ∧ timedOut (some 937) line.cfg.timeout 1000 = false) ∧
    (-- bit 0 of a character that began at 997 is not read on the sample, of one at 996 it is; bit 1 at 985, the last bit at 895
     (¬ (2 * 0 + 1) * 10 < 2 * (1000 - 997) + 2 * 2 ∧ (2 * 0 + 1) * 10 < 2 * (1000 - 996) + 2 * 2 ∧
        2 * (1000 - 996) ≤ (2 * 0 + 1) * 10) ∧ (2 * (1000 - 985) ≤ (2 * 1 + 1) * 10 ∧ (2 * 1 + 1) * 10 < 2 * (1000 - 985) + 2 * 2) ∧
      (2 * (1000 - 895) ≤ (2 * 10 + 1) * 10 ∧ (2 * 10 + 1) * 10 < 2 * (1000 - 895) + 2 * 2) ∧ 10 + 1 = 1 + 8 + 1 + 1) ∧
    ((2 * (1000 - 500) ≤ (2 * 0 + 1) * 1000 ∧ (2 * 0 + 1) * 1000 < 2 * (1000 - 500) + 2 * 2) ∧ 936 + 64 ≤ 1000 ∧ 1000 < 937 + 64) ∧
    (timedOut (some 890) (11 * 10) 1000 = true ∧ timedOut (some 891) (11 * 10) 1000 = false) ∧
    (let h := 20
     (3 * h ≤ 2 * (1000 - 970) ∧ 2 * (1000 - 970) < 5 * h) ∧ (h ≤ 2 * (1000 - 990) ∧ 2 * (1000 - 990) < 3 * h) ∧
      ¬ h ≤ 2 * (1000 - 991) ∧ ¬ 2 * (1000 - 950) < 5 * h) := by decide

/-- What a lane's sample leaves: its state, what it emits, and the next bit of the character in progress. -/
structure Left where
  state : LaneState
  emits : List (EventKind × Option Nat × BitVec 8)
  next : Option Nat
  deriving DecidableEq, Repr

def left (state : LaneState) (c : LaneCtx) (it : SampleItem) : Left :=
  let y := laneHandle 0 (laneOf state c) 2 it
  ⟨y.1.state, y.2.1.map fun e => (e.kind, e.value, e.attrs), y.1.ctx.bind fun k => k.kctx.char.map fun v => v.next⟩

/-- ASYNC: a start bit; bit 0 not read yet, read, and found to be a false start; the last stop bit read low, with FRAMING_BAD and a good
ODD parity; the opening at bit 0. -/
theorem test_async_samples :
    let line := fun k => frameCtx asyncCfg k []
    left .inFrame (line KindCtx.cleared) dataFalls = ⟨.inFrame, [], some 0⟩ ∧
      left .inFrame (line (charAt 997 0 none)) still = ⟨.inFrame, [], some 0⟩ ∧
      left .inFrame (line (charAt 996 0 none)) still = ⟨.inFrame, [], some 1⟩ ∧
      left .inFrame (line (charAt 996 0 none)) dataRises = ⟨.inFrame, [], none⟩ ∧
      left .inFrame (line (charAt 895 10 none)) still = ⟨.inFrame, [(.word, some 0xFF, 0x40)], none⟩ ∧
      left .hunt { line (charAt 996 0 none) with hunt := some { qualified := true, since := none } } still =
        ⟨.inFrame, [(.start, none, 0)], some 1⟩ := by decide +kernel

/-- BIPHASE: a long interval, the first and the second of two short ones, one too short, the idle end and a nanosecond before it. -/
theorem test_biphase_samples :
    let line := fun (r : Nat) (short : Option Nat) bits =>
      frameCtx { of .biphase with halfCell := 20 } { KindCtx.cleared with reference := some r, shortStart := short } bits
    left .inFrame (line 970 none (List.replicate 7 true)) dataFalls = ⟨.inFrame, [(.word, some 0xFE, 0)], none⟩ ∧
      left .inFrame (line 990 none (List.replicate 7 true)) dataFalls = ⟨.inFrame, [], none⟩ ∧
      left .inFrame (line 990 (some 980) (List.replicate 7 true)) dataFalls = ⟨.inFrame, [(.word, some 0xFF, 0)], none⟩ ∧
      left .inFrame (line 991 none []) dataFalls = ⟨.hunt, [(.error, none, 0), (.stop, none, 0)], none⟩ ∧
      left .inFrame (line 936 none [true]) still = ⟨.hunt, [(.error, some 1, 0), (.stop, none, 0)], none⟩ ∧
      left .inFrame (line 937 none [true]) still = ⟨.inFrame, [], none⟩ := by decide +kernel

theorem witness_MatchAndEventRules :
    let e : Emission := {
      kind := .word, frame := 1, pos := 1, value := some 0x41, attrs := 0, err := none, bits := none, rawStart := 3, rawEnd := 9 }
    [e][0]? = some e ∧ e ∈ [e] ∧ (laneCtx .twoWire).cfg.kind = .twoWire ∧
      ((live .triggered).canHold sampling ⟨0, 1⟩ cap ∧ (live .triggered).runsOn sampling ∧ sampling.next ≠ 0) ∧
      ((laneEffects 0 (laneCtx .twoWire) [] 0 [e]).events[0]?).isSome = true :=
  ⟨rfl, List.mem_singleton.mpr rfl, rfl, ⟨live_canHold _, ⟨rfl, rfl, 1000, rfl, by decide⟩, by decide⟩, by decide +kernel⟩

theorem witness_FramesAndWords :
    let x := (framing .twoWire .hunt none).lanes.get 0
    x.ctx = some (laneCtx .twoWire) ∧ (laneCtx .twoWire).cfg.kind = .twoWire ∧ x.state = .hunt ∧ x.pend = [] ∧
      (let it : SampleItem := ⟨⟨0, 1⟩, 4, 9, 1, 0, 2⟩
       it.falls (laneCtx .twoWire).cfg.data = true ∧ it.changes (laneCtx .twoWire).cfg.clock = false ∧
        it.level (laneCtx .twoWire).cfg.clock = true) ∧ 1 ≤ 2 := ⟨rfl, rfl, rfl, rfl, by decide, by decide⟩

/-! ## Worked examples of the spec

Expected values are the spec's own figures; each test names the place they come from. -/

/-- R11's two halves and the worked computations of chapters 1 and 12. -/
theorem test_threshold_codes :
    thresholdCode 0 (-6000) 6000 0 8 = (2049, false, false) ∧ thresholdCode 0 (-6000) 6000 0 (-8) = (2047, false, false) ∧
      thresholdCode (-3000) (-6000) 6000 (-1000) 25 = (1051, false, false) ∧
      thresholdCode 5400 (-2000) 5000 32767 2047 = (3895, true, false) ∧
      thresholdCode 6000 (-6000) 6000 32767 2047 = (4095, false, true) ∧
      thresholdCode 1650 (-3000) 5000 5243 (-40) = (2598, false, false) := by decide +kernel

/-- Chapter 1: the HIGH_Z example's coefficients come from the descriptor, and the record's threshold is applied. -/
theorem test_descriptor_read_gives_ready :
    let s := State.reset.setPods ⟨{ identifying 1 (.attempt 0) with requested := 5400 }, .reset false, .reset false, .reset false⟩
    let t := after (.descriptorReadDone 0 (descriptorBytes 0x91) 9) s
    (t.pods.get 0).state = .ready ∧ (t.pods.get 0).code = 3895 ∧ (t.pods.get 0).rangeClamped = true ∧
      t.skewOf 0 = 31 + 15 ∧ t.skewOf 1 = 31 - 16 := by decide +kernel

theorem test_bad_checksum_gives_degraded :
    let s := State.reset.setPods ⟨identifying 1 (.attempt 0), .reset false, .reset false, .reset false⟩
    let t := after (.descriptorReadDone 0 (descriptorBytes 0x90) 9) s
    (t.pods.get 0).state = .degraded ∧ (t.pods.get 0).reason = some .badChecksum ∧ (t.ports.get .b).notices = 0b001000000000 := by
  decide +kernel

/-- Chapter 2, "Building Records": SMP before sample `n`, with D = 4 and the mask of pod 0. -/
def building (n : Nat) (run : Run) (prev : ChannelWord) : Sampling :=
  { div := 4, mask := 0xFF, armDone := 1999999, origin := some 2000000, next := n, lost := [], run := some run, prev := some prev }

/-- The part before sample `n` of that capture. -/
def recording (n : Nat) (run : Run) (prev : ChannelWord) (records : List Rec) : State :=
  (((live .triggered).setAcq { (live .triggered).acq with postEnd := some 3000000 }).setSmp (some (building n run prev))).setSto
    (oneCapture { cap with div := 4, origin := some 2000000 } { block with records := records })

/-- Sample 1 extends the open record; channel 9, outside the mask, reads 0. -/
theorem test_sample_extends :
    let t := after (.sample 0x201) (recording 1 ⟨1, 1, 0⟩ 1 [⟨1, 1, 0⟩])
    (t.sto.filling ⟨0, 1⟩).map (fun x => x.2.records) = some [⟨1, 2, 0⟩] ∧ t.timebase = 2000004 := by decide +kernel

/-- Sample 5 closes record 2 at run length 3 and places record 3 with first index 5. -/
theorem test_sample_places :
    let t := after (.sample 2) (recording 5 ⟨3, 3, 2⟩ 3 [⟨1, 2, 0⟩, ⟨3, 3, 0⟩])
    (t.sto.filling ⟨0, 1⟩).map (fun x => x.2.records) = some [⟨1, 2, 0⟩, ⟨3, 3, 0⟩, ⟨2, 1, 0⟩] ∧
      t.smp.map (fun x => (x.run, x.next)) = some (some ⟨2, 1, 5⟩, 6) := by decide +kernel

/-- Chapter 2: the quantities after sample 7. -/
theorem test_held_quantities :
    let x := (recording 8 ⟨0, 1, 7⟩ 0 [⟨1, 2, 0⟩, ⟨3, 3, 0⟩, ⟨2, 2, 0⟩, ⟨0, 1, 0⟩]).sto
    let c := { cap with div := 4, origin := some 2000000 }
    x.heldCount c = 8 ∧ x.oldestTime c = some 2000000 ∧ x.lastIndex c = some 7 ∧ x.lastTime c = some 2000028 ∧ x.writtenEnd c = 8 := by
  decide +kernel

/-- Chapter 3, steps 1 and 5: which block a full WINDOW capture at its quota recycles, and none when its head is the trigger block. -/
theorem test_recycle :
    let t := (atQuota.placeRecord ⟨0, 1⟩ 7 8192)
    t.2 = true ∧ t.1.sto.filling ⟨0, 1⟩ = some (0, ⟨.filling, ⟨0, 1⟩, 8192, false, none, [⟨7, 1, 0⟩]⟩) ∧
      (t.1.sto.capture ⟨0, 1⟩).map (fun c => c.head) = some 1 := by decide +kernel

theorem test_no_recycle_of_the_trigger_block :
    let s := atQuota.modifyCapture ⟨0, 1⟩ fun c => { c with trigBlock := some 0 }
    (s.placeRecord ⟨0, 1⟩ 7 8192).2 = false := by decide +kernel

/-- Chapter 4, "Two Captures": FORCE in ARMING, then the forced sample 56 with SHORT_PRETRIGGER and the post end time. -/
theorem test_forced_sample :
    let s := live .arming
    let x : Sampling := { sampling with div := 10, origin := some 3000000, next := 56 }
    let a := { AcqPlan.reset with pre := 2000, post := 5000 }
    let t := after (.sample 0) ((s.setSmp (some x)).setAcq { s.acq with copy := some a, force := some .arming })
    t.acq.engine = .triggered ∧ t.acq.postEnd = some 3005560 ∧
      (t.sto.capture ⟨0, 1⟩).map (fun c => (c.trigTime, c.trigSource, c.shortPre)) = some (some 3000560, some .force, true) := by
  decide +kernel

/-- Chapter 4: the completion of a REPEAT run's capture re-arms in the same step, with the run count at 2. -/
theorem test_repeat_rearms :
    let t := after .finalWriteComplete repeating
    t.acq.engine = .arming ∧ t.acq.runCount = 2 ∧ t.acq.active = some ⟨1, 2⟩ ∧
      (t.sto.slots.get 0).map (fun c => c.complete) = some true ∧ t.hasNotice .a .captureEnded = true := by decide +kernel

/-- Chapter 5, sample 75: the pattern of stage 1 is true again (channel 0 = 1, channel 1 falls to 0), count 1. -/
def patternStage : Stage :=
  { Stage.reset with
    primary := .pattern 3 1 true, secondary := some (.edge 8 .either), combine := .resetBy, required := 2, timer := .within 500
    fail := some 0, success := .stage 2 }

theorem test_pattern_counts_again :
    let r : TrgRun := { table := [edgeStage, patternStage], stage := 1, count := 0, entry := some (48, 1000480), prevPrimary := false, prevSecondary := false }
    let o : Observed := { it := ⟨⟨0, 1⟩, 75, 1000750, 1, 0, 2⟩, history := none, offers := [], arrival := false }
    (r.evaluate none o).run.count = 1 ∧ (r.evaluate none o).satisfied = none := by decide +kernel

/-- Chapter 5, samples 95, 107 and 115: a pulse inside the AFTER stretch, one too wide, and one that counts. -/
theorem test_pulse_stage :
    let st : Stage := { Stage.reset with primary := .pulse 4 true 40 60, timer := .after 100 }
    let r : TrgRun := { table := [st], stage := 0, count := 0, entry := some (86, 1000860), prevPrimary := false, prevSecondary := false }
    let o := fun (n raw since : Nat) => ({
      it := ⟨⟨0, 1⟩, n, raw, 0, 0, 16⟩, history := some ⟨16, Vector.replicate 32 (some since)⟩, offers := [], arrival := false } : Observed)
    (r.evaluate none (o 95 1000950 1000900)).run.count = 0 ∧ (r.evaluate none (o 107 1001070 1001000)).run.count = 0 ∧
      (r.evaluate none (o 115 1001150 1001100)).satisfied = some (st, .stage 0) := by decide +kernel

/-- Chapter 6, the TWO_WIRE frame: lane 0 after the eight bits of a byte. -/
def byteTaken (pos : Nat) (bits : List Bool) (first : Nat) (addr : Bool) (dir : Option Bool) : Lane :=
  { state := .inFrame, frame := 1, pend := []
    ctx := some {
      cfg := { LaneCfg.reset with kind := .twoWire, limit := 2, timeout := 50000 }, capture := ⟨0, 1⟩, wordPos := pos
      truncated := false, word := some ⟨bits, first⟩, hunt := none, drainLimit := none, lastStart := none
      kctx := { KindCtx.cleared with addrNext := addr, dirRead := dir, clockEdge := some (first + 7900) } } }

/-- Sample 140: the ninth clock rise with data 0 gives ADDR 0x50, ACK, WRITE. -/
theorem test_two_wire_address :
    emitted (byteTaken 0 [true, false, true, false, false, false, false, false] 1006000 true none) 100 ⟨⟨0, 1⟩, 140, 1014000, 1, 1, 0⟩ =
      [em .addr 1 (some 0x50) (attrAck ||| attrWrite) none 1006000 1014000] := by decide +kernel

/-- Sample 230: WORD 0x3C at position 2; sample 320: the word at position 3 = L + 1 gives ERROR(LONG). -/
theorem test_two_wire_words :
    emitted (byteTaken 1 [false, false, true, true, true, true, false, false] 1015000 false (some false)) 100 ⟨⟨0, 1⟩, 230, 1023000, 1, 1, 0⟩ =
        [em .word 2 (some 0x3C) (attrAck ||| attrWrite) none 1015000 1023000] ∧
      emitted (byteTaken 2 (List.replicate 8 true) 1024000 false (some false)) 100 ⟨⟨0, 1⟩, 320, 1032000, 3, 1, 0⟩ =
        [em .error 3 none 0 (some .long) 1024000 1032000] := by decide +kernel

/-- Sample 50: data falls with the clock high and steady, frame 1 opens. -/
theorem test_two_wire_start :
    let x := { byteTaken 0 [] 0 false none with state := .hunt, frame := 0 }
    emitted x 100 ⟨⟨0, 1⟩, 50, 1005000, 1, 0, 2⟩ = [em .start 0 none 0 none 1005000 1005000] := by decide +kernel

/-- Chapter 6, the ASYNC character: sample 107 reads the stop bit and emits WORD 0x41. -/
theorem test_async_word :
    let cfg := { LaneCfg.reset with kind := .async, data := 9, msbFirst := false, timeout := 20000 }
    let x : Lane := {
      state := .inFrame, frame := 1, pend := []
      ctx := some {
        cfg := cfg, capture := ⟨0, 1⟩, wordPos := 0, truncated := false, word := none, hunt := none, drainLimit := none
        lastStart := none
        kctx := { KindCtx.cleared with
          char := some ⟨2012000, 9, [true, false, false, false, false, false, true, false], some 2021000⟩ } } }
    emitted x 200 ⟨⟨0, 1⟩, 107, 2021400, 0x200, 0, 0⟩ = [em .word 1 (some 0x41) 0 none 2012000 2021400] ∧
      (laneHandle 0 x 200 ⟨⟨0, 1⟩, 107, 2021400, 0x200, 0, 0⟩).1.ctx.map (fun k => k.kctx.idleSince) = some (some 2021400) := by
  decide +kernel

/-- Chapter 6: the samples on which bit `i` of that character is read are 62 + 5i, and no other. -/
theorem test_async_bit_instants :
    ((List.range 120).filter fun n => readsBit 2012000 1000 200 0 (2000000 + 200 * n) && decide (60 ≤ n)) = [62] ∧
      ((List.range 120).filter fun n => readsBit 2012000 1000 200 9 (2000000 + 200 * n) && decide (60 ≤ n)) = [107] := by
  decide +kernel

/-- R121 with h = 500: 250 to 749 is short, 750 to 1249 long, everything else neither. -/
theorem test_biphase_classes :
    biphaseClass 500 249 = none ∧ biphaseClass 500 250 = some false ∧ biphaseClass 500 749 = some false ∧
      biphaseClass 500 750 = some true ∧ biphaseClass 500 1249 = some true ∧ biphaseClass 500 1250 = none := by decide

/-- Chapter 7: the four entries of the example. -/
def fourEntries : List MatchEntry :=
  let none_ : MatchActions := { mark := false, notify := false, feed := false, hold := none, release := none }
  [{ field := .addr, value := 0x50, mask := 0x7F, dir := .write, actions := { none_ with mark := true, feed := true } },
   { field := .wordAt 2, value := 0x3C, mask := 0xFF, dir := .any, actions := { none_ with mark := true, release := some 8 } },
   { field := .anyWord, value := 0x80, mask := 0x80, dir := .any, actions := { none_ with mark := true, notify := true } },
   { field := .anyWord, value := 0, mask := 0, dir := .read, actions := { none_ with hold := some 2 } }]

def emission (kind : EventKind) (pos value : Nat) (attrs : BitVec 8) : Emission :=
  { kind, frame := 1, pos, value := some value, attrs, err := none, bits := none, rawStart := 0, rawEnd := 0 }

theorem test_match_sets :
    (matchSet .twoWire fourEntries (emission .addr 1 0x50 (attrAck ||| attrWrite))).map Prod.fst = [0] ∧
      (matchSet .twoWire fourEntries (emission .word 2 0x3C (attrAck ||| attrWrite))).map Prod.fst = [1] ∧
      (matchSet .twoWire fourEntries (emission .word 3 0xFF (attrNak ||| attrWrite))).map Prod.fst = [2] ∧
      (matchSet .twoWire fourEntries (emission .addr 1 0x50 (attrAck ||| attrRead))).map Prod.fst = [] ∧
      (matchSet .twoWire fourEntries (emission .word 2 0x3C (attrAck ||| attrRead))).map Prod.fst = [1, 3] := by decide +kernel

/-- Chapter 8: the list and the ports' state after step 2. -/
def twoReaders : State :=
  let e := fun (n : Nat) (k : EventKind) (t : Int) => { event with seq := n, kind := k, start := t, stop := t }
  (live .armed).setEvl {
    events := [e 98 .start 5400000, e 99 .addr 5450000, e 100 .word 5600000, e 101 .word 5700000, e 102 .stop 5720000]
    nextSeq := 103
    port := ⟨⟨101, 0, 3, true⟩, ⟨99, 0, 8, true⟩⟩ }

/-- Step 3: the expiry removes 98 and 99 and counts one missed event for port B alone. -/
theorem test_expiry_counts_missed :
    let t := twoReaders.expireEvents ⟨0, 1⟩ 5500000
    t.evl.events.map (fun e => e.seq) = [100, 101, 102] ∧ t.evl.port.a.missed = 0 ∧ t.evl.port.b.missed = 1 ∧
      (t.sto.capture ⟨0, 1⟩).map (fun c => c.expired) = some 2 := by decide +kernel

/-- Step 5: the entry of a START gets sequence 103 and spends port A, whose backlog reaches 3. -/
theorem test_entry_raises_events_ready :
    let t := (twoReaders.expireEvents ⟨0, 1⟩ 5500000).enterEvent { event with kind := .start, start := 5740000, stop := 5740000 }
    t.evl.nextSeq = 104 ∧ t.evl.port.a.primed = false ∧ t.evl.port.b.primed = true ∧ t.hasNotice .a .eventsReady = true ∧
      t.hasNotice .b .eventsReady = false := by decide +kernel

/-- Step 7: port A reads 101 and 102 with n = 2; one event is left, below the threshold, and the port is PRIMED again. -/
theorem test_events_read :
    let s := (twoReaders.expireEvents ⟨0, 1⟩ 5500000).enterEvent { event with kind := .start, start := 5740000, stop := 5740000 }
    let t := after (.eventsRead .a 7 2) s
    (match answerOf .a t with | some (.events evs _ left _) => (evs.map (fun e => e.seq), left) | _ => ([], 9)) = ([101, 102], 1) ∧
      t.evl.port.a = ⟨103, 0, 3, true⟩ := by decide +kernel

/-- Chapter 9: the capture of the six-column example, with bit 0 for channel 5 and bit 1 for channel 12 written in their places. -/
def sixColumns : Store × Render :=
  let w := fun (a b : Bool) => (if a then 0x20 else 0) ||| (if b then 0x1000 else (0 : ChannelWord))
  ({ Store.reset with
      blocks := [(0, { state := .sealed, owner := ⟨2, 40⟩, first := 0, damaged := false, next := none, records :=
        [⟨w false true, 2, 0⟩, ⟨w true true, 1, 0⟩, ⟨w false true, 2, 0⟩, ⟨w false false, 2, 0⟩, ⟨w true false, 2, 0⟩,
         ⟨w true true, 4, 0⟩] })]
      slots := ⟨none, none, some { cap with num := 40, complete := true, div := 4, origin := some 20000, mask := 0x1020 }, none⟩ },
   { cap := ⟨2, 40⟩, start := 20000, width := 1600, columns := 6, channels := [5, 12], lanes := 1, skews := [3, -2], nextCol := 0,
     mark := none })

theorem test_six_columns :
    (List.range 6).map (fun j => (columnOf sixColumns.1 sixColumns.2 j).1) =
      [.column 0 false false false [⟨.low, .high, 1⟩, ⟨.unknown, .high, 0⟩],
       .column 1 false false false [⟨.high, .low, 1⟩, ⟨.high, .high, 0⟩],
       .column 2 false false false [⟨.low, .low, 0⟩, ⟨.high, .high, 0⟩],
       .column 3 false false false [⟨.low, .low, 0⟩, ⟨.high, .low, 1⟩],
       .column 4 false false false [⟨.high, .high, 1⟩, ⟨.low, .low, 0⟩],
       .column 5 false false false [⟨.high, .high, 0⟩, ⟨.low, .low, 0⟩]] := by decide +kernel

/-- Chapter 9: the placement of events 310 and 311, and that 312 is not annotated. -/
theorem test_annotations :
    let r := sixColumns.2
    let e := fun (n : Nat) (a b : Int) => { event with seq := n, cap := ⟨2, 40⟩, start := a, stop := b }
    r.annotation (e 310 20000 20020) = .annotation 310 0 .word (some 0x5A) 0 3 false false ∧
      r.annotation (e 311 20030 20050) = .annotation 311 0 .word (some 0x5A) 4 5 false true ∧
      r.annotatable (e 312 20040 20040) = false := by decide +kernel

/-- Chapter 10: the plan at generation 42 after step 1; steps 2, 4 and 5. -/
def gen42 : State := State.reset.setAcq { Acq.reset with gen := 42 }
def acqOf (post : Nat) : List Byte := encodeAcq { AcqPlan.reset with quota := 512, post := post }

theorem test_edit_stale : answerOf .a (after (.planEdit .a 7 1 41 (acqOf 1000000)) gen42) = some (.stale 42) := by decide +kernel

theorem test_edit_out_of_range :
    answerOf .a (after (.planEdit .a 7 1 42 (acqOf (2 ^ 40))) gen42) = some (.fieldRange .acq 6 none 42) := by decide +kernel

theorem test_edit_accepted :
    let t := after (.planEdit .a 7 1 42 (acqOf 2000000)) gen42
    answerOf .a t = some (.edited 43) ∧ t.acq.plan.acq.quota = 512 ∧ t.acq.plan.acq.post = 2000000 ∧
      t.hasNotice .b .planChanged = true ∧ t.hasNotice .a .planChanged = false := by decide +kernel

/-- Chapter 11, "An Overrun on Port B": steps 1, 2, 3 and 4. -/
def overrun : State :=
  after (.sendTransaction .b [13, 0x11, 0, 1, 16]) (after (.status .b 0x10) (after (.sendTransaction .b [8, 0x10, 0, 0]) State.reset))

theorem test_overrun :
    (after (.sendTransaction .b [8, 0x10, 0, 0]) State.reset).ports.b.slot = .taken (.status .b 0x10) ∧
      overrun.ports.b.overrun = true ∧ (after (.fetchTransaction .b 3) overrun).ports.b.slot = overrun.ports.b.slot ∧
      (after (.fetchTransaction .b 3) overrun).ports.b.driven = [0xA5, 0x10, 0] ∧
      (after (.fetchTransaction .b 500) overrun).ports.b.slot = .free ∧
      (after (.fetchTransaction .b 500) overrun).ports.b.overrun = false ∧
      (after (.fetchTransaction .b 500) overrun).ports.b.driven.take 4 = [0xA5, 0x10, 0, 1] := by decide +kernel

end Sys2Proof.Tests
end

section
/-! SUPPORT. The laws of the pod records and of the lanes, and the rules of PRB: proofs of the statements of the probe pods. -/

namespace Sys2Proof.Machine

open Sys2Proof

/-! ## The law of a lane (R105): the operations of a lane at work on a sample -/

/-- `Lane.lawful` of a lane at work: what its state says of the drain limit and the hunt basis, and the 16-bit counts. -/
structure LaneWork.lawful (w : LaneWork) : Prop where
  frame : w.frame ≤ Config.max16
  drain : w.ctx.drainLimit.isSome ↔ w.state = .draining
  hunt : w.ctx.hunt.isSome → w.state = .hunt
  pos : w.ctx.wordPos ≤ Config.max16

/-- The law of a lane that holds a context is the law of the lane at work with it. -/
theorem lane_lawful_iff_work (ix : Four) (x : Lane) (c : LaneCtx) (out : List Emission) (came : List Happening)
    (h : x.ctx = some c) :
    x.lawful ↔ (LaneWork.mk ix x.state x.frame c out came).lawful := by
  unfold Lane.lawful
  rw [h]
  exact ⟨fun ⟨hf, hd, hh, hp⟩ => ⟨hf, hd, hh, hp⟩, fun ⟨hf, hd, hh, hp⟩ => ⟨hf, hd, hh, hp⟩⟩

/-- `v` differs from `w` in nothing that the law of a lane speaks of, but for a word position that still fits. -/
structure LaneWork.SameStance (w v : LaneWork) : Prop where
  state : v.state = w.state
  frame : v.frame = w.frame
  drain : v.ctx.drainLimit = w.ctx.drainLimit
  hunt : v.ctx.hunt = w.ctx.hunt
  pos : w.ctx.wordPos ≤ Config.max16 → v.ctx.wordPos ≤ Config.max16

namespace LaneWork

variable {w v u : LaneWork}

theorem SameStance.refl (w : LaneWork) : w.SameStance w := ⟨rfl, rfl, rfl, rfl, id⟩

theorem SameStance.trans (h : w.SameStance v) (k : v.SameStance u) : w.SameStance u :=
  ⟨k.state.trans h.state, k.frame.trans h.frame, k.drain.trans h.drain, k.hunt.trans h.hunt, fun p => k.pos (h.pos p)⟩

theorem SameStance.lawful (h : w.SameStance v) (hw : w.lawful) : v.lawful :=
  ⟨h.frame ▸ hw.frame, by rw [h.drain, h.state]; exact hw.drain, by rw [h.hunt, h.state]; exact hw.hunt, h.pos hw.pos⟩

theorem emit_stance (w : LaneWork) (kind value attrs err bits t0 t1) :
    w.SameStance (w.emit kind value attrs err bits t0 t1) := ⟨rfl, rfl, rfl, rfl, id⟩

theorem emitStop_stance (w : LaneWork) (t : Nat) : w.SameStance (w.emitStop t) := ⟨rfl, rfl, rfl, rfl, id⟩

theorem emitPartial_stance (w : LaneWork) (t : Nat) : w.SameStance (w.emitPartial t) := ⟨rfl, rfl, rfl, rfl, id⟩

theorem note_stance (w : LaneWork) (h : Happening) : w.SameStance (w.note h) := ⟨rfl, rfl, rfl, rfl, id⟩

theorem withKind_stance (w : LaneWork) (f : KindCtx → KindCtx) : w.SameStance (w.withKind f) := ⟨rfl, rfl, rfl, rfl, id⟩

theorem takeBit_stance (w : LaneWork) (b : Bool) (t : Nat) : w.SameStance (w.takeBit b t) := ⟨rfl, rfl, rfl, rfl, id⟩

theorem completeWord_stance (w : LaneWork) (kind value attrs t0 t1) :
    w.SameStance (w.completeWord kind value attrs t0 t1) := by
  have raised : satAdd Config.max16 w.ctx.wordPos 1 ≤ Config.max16 := Nat.min_le_left _ _
  unfold completeWord
  simp only
  split
  · exact ⟨rfl, rfl, rfl, rfl, fun _ => raised⟩
  · split
    · exact ⟨rfl, rfl, rfl, rfl, fun _ => raised⟩
    · exact ⟨rfl, rfl, rfl, rfl, fun _ => raised⟩

theorem disposeWord_stance (w : LaneWork) (msb : Bool) (least t : Nat) : w.SameStance (w.disposeWord msb least t) := by
  unfold disposeWord
  cases w.ctx.word with
  | none => exact ⟨rfl, rfl, rfl, rfl, id⟩
  | some x =>
    simp only
    split
    · exact ⟨rfl, rfl, rfl, rfl, id⟩
    · exact ⟨rfl, rfl, rfl, rfl, id⟩

/-- A frame that opens in a state other than DRAINING. -/
theorem openFrame_lawful (hw : w.lawful) (hs : w.state ≠ .draining) (t : Nat) : (w.openFrame t).lawful := by
  refine ⟨?_, ?_, ?_, ?_⟩
  · show (w.frame + 1) % 65536 ≤ 65535
    omega
  · show w.ctx.drainLimit.isSome ↔ LaneState.inFrame = .draining
    simp [hw.drain, hs]
  · intro h; cases h
  · exact Nat.zero_le _

/-- A lane that leaves its frame is lawful from any state: only its counts are carried over. -/
theorem leaveFrame_lawful (hw : w.lawful) (basis : HuntBasis) : (w.leaveFrame basis).lawful := by
  by_cases h : w.state = .draining
  · exact ⟨hw.frame, by simp [leaveFrame, h], by simp [leaveFrame, h], hw.pos⟩
  · exact ⟨hw.frame, by simp [leaveFrame, h], by simp [leaveFrame, h], hw.pos⟩

/-- A hunt basis may be set in HUNT. -/
theorem setHunt_lawful (hw : w.lawful) (hs : w.state = .hunt) (basis : Option HuntBasis) :
    (w.withCtx fun c => { c with hunt := basis }).lawful :=
  ⟨hw.frame, hw.drain, fun _ => hs, hw.pos⟩

/-! ### TWO_WIRE -/

theorem twoWireByte_stance (w : LaneWork) (x : WordProgress) (t : Nat) : w.SameStance (w.twoWireByte x t) := by
  unfold twoWireByte
  simp only
  split
  · exact (withKind_stance w _).trans (completeWord_stance _ _ _ _ _ _)
  · exact completeWord_stance _ _ _ _ _ _

/-- A change of the kind context that depends on a condition of the sample. -/
theorem withKindIf_stance (w : LaneWork) (b : Bool) (f : KindCtx → KindCtx) :
    w.SameStance (if b then w.withKind f else w) := by
  split
  · exact withKind_stance w f
  · exact .refl w

theorem twoWireFrame_lawful (hw : w.lawful) (it : SampleItem) : (w.twoWireFrame it).lawful := by
  unfold twoWireFrame
  extract_lets clk dat w1 bit w2 steady w3
  have h1 : w1.lawful := (withKindIf_stance w _ _).lawful hw
  have h2 : w2.lawful := by
    have hbit : bit.lawful := (takeBit_stance w1 _ _).lawful h1
    simp only [w2]
    split
    · split
      · split
        · exact (twoWireByte_stance bit _ _).lawful hbit
        · exact hbit
      · exact hbit
    · exact h1
  have h3 : w3.lawful := by
    simp only [w3]
    split
    · exact (((disposeWord_stance w2 _ _ _).trans (emit_stance _ _ _ _ _ _ _ _)).trans (withKind_stance _ _)).lawful h2
    · split
      · exact leaveFrame_lawful (((disposeWord_stance w2 _ _ _).trans (emitStop_stance _ _)).lawful h2) _
      · exact h2
  split
  · split
    · exact (note_stance _ _).lawful (leaveFrame_lawful ((emit_stance w3 _ _ _ _ _ _ _).lawful h3) _)
    · exact h3
  · exact h3

theorem twoWireHunt_lawful (hw : w.lawful) (hs : w.state = .hunt) (it : SampleItem) : (w.twoWireHunt it).lawful := by
  unfold twoWireHunt
  split
  · exact (withKind_stance _ _).lawful (openFrame_lawful hw (by simp [hs]) _)
  · exact hw

/-! ### CLOCKED -/

theorem clockedBit_stance (w : LaneWork) (it : SampleItem) : w.SameStance (w.clockedBit it) := by
  unfold clockedBit
  extract_lets cfg w1 w2
  have h1 : w.SameStance w1 := withKind_stance w _
  have h2 : w.SameStance w2 := h1.trans (takeBit_stance w1 _ _)
  split
  · split
    · split
      · exact h2.trans (completeWord_stance _ _ _ _ _ _)
      · exact h2
    · exact h2
  · exact h1

theorem clockedFrame_lawful (hw : w.lawful) (it : SampleItem) : (w.clockedFrame it).lawful := by
  unfold clockedFrame
  extract_lets cfg w1
  have h1 : w1.lawful := (clockedBit_stance w it).lawful hw
  have ended : ∀ basis, (((w1.disposeWord cfg.msbFirst 1 it.raw).emitStop it.raw).leaveFrame basis).lawful := fun basis =>
    leaveFrame_lawful (((disposeWord_stance w1 _ _ _).trans (emitStop_stance _ _)).lawful h1) basis
  split
  · split
    · exact ended _
    · exact h1
  · split
    · split
      · exact (note_stance _ _).lawful (ended _)
      · exact h1
    · exact h1

theorem clockedHunt_lawful (hw : w.lawful) (hs : w.state = .hunt) (basis : HuntBasis) (it : SampleItem) :
    (w.clockedHunt basis it).lawful := by
  unfold clockedHunt
  have opened : ((w.openFrame it.raw).clockedBit it).lawful :=
    (clockedBit_stance _ _).lawful (openFrame_lawful hw (by simp [hs]) _)
  simp only
  split
  · split
    · exact opened
    · exact hw
  · split
    · split
      · split
        · exact opened
        · exact setHunt_lawful hw hs _
      · exact setHunt_lawful hw hs _
    · exact hw

/-! ### ASYNC -/

theorem asyncComplete_stance (w : LaneWork) (ch : AsyncChar) (it : SampleItem) : w.SameStance (w.asyncComplete ch it) := by
  unfold asyncComplete
  simp only
  split
  · exact (completeWord_stance w _ _ _ _ _).trans (withKind_stance _ _)
  · exact (completeWord_stance w _ _ _ _ _).trans (withKind_stance _ _)

theorem asyncRead_stance (w : LaneWork) (ch : AsyncChar) (D : Nat) (it : SampleItem) : w.SameStance (w.asyncRead ch D it) := by
  unfold asyncRead
  extract_lets cfg ch1 ch2
  split
  · split
    · split
      · exact withKind_stance w _
      · exact withKind_stance w _
    · split
      · exact asyncComplete_stance w _ it
      · exact withKind_stance w _
  · exact withKind_stance w _

theorem asyncGap_stance (w : LaneWork) (it : SampleItem) : w.SameStance (w.asyncGap it) := by
  unfold asyncGap
  simp only
  split
  · exact withKind_stance w _
  · exact withKindIf_stance w _ _

theorem asyncFrame_lawful (hw : w.lawful) (D : Nat) (it : SampleItem) : (w.asyncFrame D it).lawful := by
  unfold asyncFrame
  extract_lets cfg w1
  have h1 : w1.lawful := by
    simp only [w1]
    split
    · exact (asyncRead_stance w _ D it).lawful hw
    · exact (asyncGap_stance w it).lawful hw
  split
  · split
    · exact (note_stance _ _).lawful (leaveFrame_lawful ((emitStop_stance w1 _).lawful h1) _)
    · exact h1
  · exact h1

theorem asyncHunt_lawful (hw : w.lawful) (hs : w.state = .hunt) (basis : HuntBasis) (D : Nat) (it : SampleItem) :
    (w.asyncHunt basis D it).lawful := by
  unfold asyncHunt
  extract_lets cfg toIdle w1 ready
  obtain ⟨h1, s1⟩ : w1.lawful ∧ w1.state = .hunt := by
    simp only [w1]
    split
    · exact ⟨setHunt_lawful hw hs _, hs⟩
    · exact ⟨hw, hs⟩
  split
  · split
    · split
      · exact (withKind_stance w1 _).lawful h1
      · exact (withKind_stance _ _).lawful (openFrame_lawful h1 (by simp [s1]) _)
    · exact h1
  · split
    · split
      · exact (withKind_stance w1 _).lawful h1
      · exact h1
    · exact h1

/-! ### BIPHASE -/

theorem biphaseBit_stance (w : LaneWork) (b : Bool) (cell t : Nat) : w.SameStance (w.biphaseBit b cell t) := by
  unfold biphaseBit
  extract_lets w1
  have h1 : w.SameStance w1 := takeBit_stance w _ _
  split
  · split
    · exact h1.trans (completeWord_stance _ _ _ _ _ _)
    · exact h1
  · exact h1

theorem biphaseError_lawful (hw : w.lawful) (t : Nat) : (w.biphaseError t).lawful := by
  have dropped : w.SameStance
      (((w.emit .error none 0 (some .cell) none t t).withCtx fun c => { c with word := none }).emitStop t) :=
    ⟨rfl, rfl, rfl, rfl, id⟩
  exact leaveFrame_lawful (dropped.lawful hw) _

theorem biphaseFrame_lawful (hw : w.lawful) (it : SampleItem) : (w.biphaseFrame it).lawful := by
  unfold biphaseFrame
  extract_lets cfg w1
  split
  · exact hw
  · split
    · have h1 : w1.lawful := (withKind_stance w _).lawful hw
      split
      · exact (biphaseBit_stance w1 _ _ _).lawful h1
      · exact (withKind_stance w1 _).lawful h1
      · exact ((withKind_stance w1 _).trans (biphaseBit_stance _ _ _ _)).lawful h1
      · exact biphaseError_lawful h1 _
    · split
      · exact (note_stance _ _).lawful
          (leaveFrame_lawful (((disposeWord_stance w _ _ _).trans (emitStop_stance _ _)).lawful hw) _)
      · exact hw

theorem biphaseHunt_lawful (hw : w.lawful) (hs : w.state = .hunt) (basis : HuntBasis) (it : SampleItem) :
    (w.biphaseHunt basis it).lawful := by
  unfold biphaseHunt
  simp only
  split
  · split
    · split
      · exact (withKind_stance _ _).lawful (openFrame_lawful hw (by simp [hs]) _)
      · exact setHunt_lawful hw hs _
    · exact setHunt_lawful hw hs _
  · exact hw

/-! ### A sample -/

theorem hunt_lawful (hw : w.lawful) (hs : w.state = .hunt) (D : Nat) (it : SampleItem) : (w.hunt D it).lawful := by
  unfold LaneWork.hunt
  extract_lets basis w1
  have h1 : w1.lawful := setHunt_lawful hw hs _
  have s1 : w1.state = .hunt := hs
  split
  · exact h1
  · exact twoWireHunt_lawful h1 s1 it
  · exact clockedHunt_lawful h1 s1 basis it
  · exact asyncHunt_lawful h1 s1 basis D it
  · exact biphaseHunt_lawful h1 s1 basis it

theorem inside_lawful (hw : w.lawful) (D : Nat) (it : SampleItem) : (w.inside D it).lawful := by
  unfold LaneWork.inside
  split
  · exact hw
  · exact twoWireFrame_lawful hw it
  · exact clockedFrame_lawful hw it
  · exact asyncFrame_lawful hw D it
  · exact biphaseFrame_lawful hw it

theorem cutDrain_lawful (hw : w.lawful) (it : SampleItem) : (w.cutDrain it).lawful := by
  unfold cutDrain
  split
  · split
    · exact (note_stance _ _).lawful (leaveFrame_lawful ((emitPartial_stance w _).lawful hw) _)
    · exact hw
  · exact hw

theorem applyHold_lawful (hw : w.lawful) (t : Nat) : (w.applyHold t).lawful := by
  unfold applyHold
  split
  · next hs => exact ⟨hw.frame, by simp [hw.drain, hs], by simp, hw.pos⟩
  · next hs => exact ⟨hw.frame, by simp, fun h => absurd (hw.hunt h) (by simp [hs]), hw.pos⟩
  · exact hw

theorem applyRelease_lawful (hw : w.lawful) : w.applyRelease.lawful := by
  unfold applyRelease
  split
  · next hs => exact ⟨hw.frame, by simp [hw.drain, hs], by simp, hw.pos⟩
  · next hs => exact ⟨hw.frame, by simp, fun h => absurd (hw.hunt h) (by simp [hs]), hw.pos⟩
  · exact hw

end LaneWork

/-! ## The law of a lane: what changes a lane -/

theorem laneHandle_lawful (ix : Four) {x : Lane} (hx : x.lawful) (D : Nat) (it : SampleItem) :
    (laneHandle ix x D it).1.lawful := by
  unfold laneHandle
  split
  · exact hx
  · next c hc =>
    split
    · exact hx
    · extract_lets due w held released last
      have h0 : w.lawful := (lane_lawful_iff_work ix x c [] [] hc).1 hx
      have h1 : held.lawful := by
        simp only [held]
        split
        · exact LaneWork.applyHold_lawful h0 _
        · exact h0
      have h2 : released.lawful := by
        simp only [released]
        split
        · exact LaneWork.applyRelease_lawful h1
        · exact h1
      have h3 : last.lawful := by
        simp only [last]
        split
        · next hs => exact LaneWork.hunt_lawful h2 hs D it
        · exact LaneWork.inside_lawful h2 D it
        · exact LaneWork.cutDrain_lawful (LaneWork.inside_lawful h2 D it) it
        · exact h2
      exact (lane_lawful_iff_work last.ix _ last.ctx last.out last.came rfl).2 h3

theorem reset_lane_lawful : Lane.reset.lawful := ⟨Nat.zero_le _, rfl⟩

theorem turnOff_lawful {x : Lane} (hx : x.lawful) : x.turnOff.lawful := ⟨hx.1, rfl⟩

theorem atArm_lawful (cfg : LaneCfg) (name : CapName) : (Lane.atArm cfg name).lawful := by
  have notDraining : (Lane.atArm cfg name).state ≠ .draining := by
    unfold Lane.atArm
    simp only
    split
    · simp
    · split <;> simp
  exact (lane_lawful_iff_work 0 _ _ [] [] rfl).2
    ⟨Nat.zero_le _, ⟨fun h => (nomatch h), fun h => absurd h notDraining⟩, fun h => (nomatch h), Nat.zero_le _⟩

theorem request_lawful {x : Lane} (hx : x.lawful) (hold : Bool) (n : Nat) : (x.request hold n).lawful := by
  unfold Lane.request
  split <;> exact hx

theorem withLastStart_lawful {x : Lane} (hx : x.lawful) (l : Option Int) : (x.withLastStart l).lawful := by
  unfold Lane.lawful Lane.withLastStart at *
  cases hc : x.ctx with
  | none => simpa [hc] using hx
  | some c => simpa [hc] using hx

theorem requestLanes_lawful {lanes : Quad Lane} (h : ∀ i, (lanes.get i).lawful) (hold release : LaneSet) (n : Nat) (i : Four) :
    ((requestLanes lanes hold release n).get i).lawful := by
  unfold requestLanes
  simp only [get_numbered]
  have held : (if hold.getLsbD i.val then (lanes.get i).request true n else lanes.get i).lawful := by
    split
    · exact request_lawful (h i) _ _
    · exact h i
  split
  · exact request_lawful held _ _
  · exact held

theorem lanesAfter_lawful {lanes : Quad Lane} (h : ∀ i, (lanes.get i).lawful) (fx : Quad LaneEffects) (n : Nat) (i : Four) :
    ((lanesAfter lanes fx n).get i).lawful :=
  requestLanes_lawful (fun j => by rw [get_numbered]; exact withLastStart_lawful (h j) _) _ _ _ _

/-! ## The law of a pod record (R1): what changes a record -/

/-- A code limited to 0 and 4095 (R11, third step). -/
theorem limitedCode_le (code : Int) : (if code < 0 then 0 else if 4095 < code then 4095 else code.toNat) ≤ 4095 := by
  split
  · omega
  · split <;> omega

theorem thresholdCode_le (requested lo hi gain offset : Int) : (thresholdCode requested lo hi gain offset).1 ≤ 4095 :=
  limitedCode_le _

/-- A computation of the code changes the code and its two flags alone, and leaves a code of 12 bits (R11). -/
theorem recompute_cases (x : Pod) : x.recompute = x ∨
    ∃ code rc cc, code ≤ 4095 ∧ x.recompute = { x with code := code, rangeClamped := rc, codeClamped := cc } := by
  unfold Pod.recompute
  cases hd : x.desc with
  | none => exact .inl rfl
  | some d => exact .inr ⟨_, _, _, thresholdCode_le _ _ _ _ _, rfl⟩

theorem recompute_lawful {x : Pod} (hx : x.lawful) : x.recompute.lawful := by
  obtain h | ⟨code, rc, cc, hcode, h⟩ := recompute_cases x
  · rw [h]; exact hx
  · rw [h]
    obtain ⟨hdesc, hreason, -, hrest⟩ := hx
    exact ⟨hdesc, hreason, hcode, hrest⟩

/-- The threshold requested is free: a record stays lawful when it is replaced and the code follows (R12). -/
theorem retune_lawful {x : Pod} (hx : x.lawful) (v : Int) : (Pod.retune { x with requested := v }).lawful := by
  have h : Pod.lawful { x with requested := v } := hx
  unfold Pod.retune
  split
  · exact recompute_lawful h
  · exact recompute_lawful h
  · exact h

theorem retune_same_lawful {x : Pod} (hx : x.lawful) : x.retune.lawful := retune_lawful hx x.requested

theorem reset_pod_lawful (sense : Bool) : (Pod.reset sense).lawful := by
  cases sense <;> simp [Pod.lawful, Pod.reset]

/-- Entry to IDENTIFYING from any record: nothing but the code is carried over that the law speaks of (R3, R14). -/
theorem identify_lawful {x : Pod} (hx : x.lawful) (now : Nat) : (x.identify now).lawful := by
  obtain ⟨-, -, hcode, -⟩ := hx
  refine ⟨?_, ?_, hcode, ?_, ?_, ⟨rfl, Nat.le_refl 1, rfl⟩, ?_⟩
  · simp [Pod.identify, Pod.startAttempt]
  · simp [Pod.identify, Pod.startAttempt]
  · exact Nat.le_of_ble_eq_true rfl
  · intro h; cases h
  · intro h; cases h

/-- What IDENTIFYING says of a lawful record. -/
theorem identifying_facts {x : Pod} (hx : x.lawful) (hs : x.state = .identifying) :
    x.desc = none ∧ x.reason = none ∧ x.code ≤ 4095 ∧ x.attempts ≤ Config.maxAttempts ∧ x.debounce = none := by
  obtain ⟨hdesc, hreason, hcode, hatt, -, -, hdeb⟩ := hx
  refine ⟨?_, ?_, hcode, hatt, ?_⟩
  · simpa [hs] using hdesc
  · simpa [hs] using hreason
  · simpa [hs] using hdeb

/-! ## Requests, for any relation -/

/-- What an answer keeps, a request keeps: for a relation that any change of the ports keeps (R176, R177). -/
theorem request_keeps {R : State → State → Prop} (trans : ∀ {a b c}, R a b → R b c → R a c)
    (ports : ∀ {a b}, OnlyPorts a b → R a b) {f : State → State × Answer} (answer : ∀ u, R u (f u).1)
    {s t : State} {c : Instr} {p : Port} {tag : Byte} (h : s.request c p tag f = .next t) : R s t := by
  rcases request_cases s c p tag f with ⟨-, e⟩ | ⟨-, -, e⟩ | ⟨-, -, e⟩ | ⟨-, -, e⟩ <;>
    (rw [e] at h; cases h)
  case inl => exact trans (answer s) (ports (answer_onlyPorts _ _ _ _))
  case inr.inl => exact trans (trans (ports (setPort_onlyPorts _ _ _)) (answer _)) (ports (answer_onlyPorts _ _ _ _))
  case inr.inr.inl => exact ports (answer_onlyPorts _ _ _ _)
  case inr.inr.inr => exact ports (discardFrame_onlyPorts _ _)

/-- A transaction reaches the ports alone (R175 to R178). -/
theorem transaction_onlyPorts (s : State) (p : Port) (kind : Byte) (bytes : List Byte) :
    OnlyPorts s (s.transaction p kind bytes) := by
  have received : ∀ u : State, OnlyPorts u (u.receive p bytes) := by
    intro u
    unfold State.receive
    split
    · exact onlyPorts_refl u
    · exact answer_onlyPorts _ _ _ _
    · exact answer_onlyPorts _ _ _ _
    · exact setPort_onlyPorts _ _ _
  unfold State.transaction
  split
  · unfold State.sendBytes
    simp only
    split
    · exact onlyPorts_trans (drive_onlyPorts s p _) (received _)
    · exact onlyPorts_trans (drive_onlyPorts s p _) (discardFrame_onlyPorts _ _)
  · unfold State.fetchBytes
    simp only
    split
    · split
      · exact setPort_onlyPorts _ _ _
      · exact setPort_onlyPorts _ _ _
    · exact drive_onlyPorts _ _ _
  · exact drive_onlyPorts _ _ _

/-! ## Operations of STO that leave the rest -/

@[simp] theorem modifyBlock_nextNum (x : Store) (n : Nat) (f : Block → Block) : (x.modifyBlock n f).nextNum = x.nextNum := by
  unfold Store.modifyBlock
  split <;> rfl

@[simp] theorem seal_nextNum (x : Store) (n : Nat) : (x.seal n).nextNum = x.nextNum := modifyBlock_nextNum _ _ _

@[simp] theorem extendRecord_nextNum (x : Store) (name : CapName) : (x.extendRecord name).nextNum = x.nextNum := by
  unfold Store.extendRecord
  split <;> rfl

@[simp] theorem appendBlock_nextNum (x : Store) (name : CapName) (c : Capture) (n index : Nat) :
    (x.appendBlock name c n index).nextNum = x.nextNum := by
  unfold Store.appendBlock
  simp only
  split
  · exact modifyBlock_nextNum _ _ _
  · rfl

@[simp] theorem recycle_nextNum (x : Store) (name : CapName) (c : Capture) (index : Nat) :
    (x.recycle name c index).nextNum = x.nextNum := by
  unfold Store.recycle
  split
  · split
    · simp
    · rfl
  · rfl

theorem recycle_keeps (s : State) (name : CapName) (c : Capture) (index : Nat) : KeepsCore s (s.recycle name c index) := by
  have stored := setSto_keeps s (s.sto.recycle name c index) (recycle_nextNum _ _ _ _)
  unfold State.recycle
  simp only
  split
  · split
    · exact stored.trans (expireEvents_keeps _ _ _)
    · exact stored
  · exact stored

theorem nextBlock_keeps {s t : State} {name : CapName} {c : Capture} {index : Nat} (h : s.nextBlock name c index = some t) :
    KeepsCore s t := by
  have recycled : ∀ {u}, (if c.mode = .window && s.sto.canRecycle c then some (s.recycle name c index) else none) = some u →
      KeepsCore s u := by
    intro u hu
    split at hu
    · cases hu; exact recycle_keeps _ _ _ _
    · cases hu
  have appended : ∀ (u : State) n, KeepsCore u (u.setSto (u.sto.appendBlock name c n index)) := fun u n =>
    setSto_keeps u _ (appendBlock_nextNum _ _ _ _ _)
  unfold State.nextBlock at h
  simp only at h
  split at h
  · split at h
    · cases h; exact appended _ _
    · split at h
      · next hr =>
        split at h
        · cases h; exact (reclaim_keeps hr).trans (appended _ _)
        · exact recycled h
      · exact recycled h
  · exact recycled h

/-- Placing a record reaches STO, EVL, VRN and the notices alone (R38 to R42). -/
theorem placeRecord_keeps (s : State) (name : CapName) (word : ChannelWord) (index : Nat) :
    KeepsCore s (s.placeRecord name word index).1 := by
  have placed : ∀ (u : State) n b, KeepsCore u (u.setSto (u.sto.appendRecord n b word index)) := fun u n b =>
    setSto_keeps u _ rfl
  unfold State.placeRecord
  split
  · next n b c _ _ =>
    split
    · exact placed s n b
    · have sealed_ : KeepsCore s (s.setSto (s.sto.seal n)) := setSto_keeps s _ (seal_nextNum _ _)
      simp only
      split
      · next hn =>
        split
        · exact (sealed_.trans (nextBlock_keeps hn)).trans (placed _ _ _)
        · exact sealed_.trans (nextBlock_keeps hn)
      · exact sealed_
  · exact KeepsCore.rfl' s

theorem holdSample_keeps (s : State) (x : Sampling) (name : CapName) (word : ChannelWord) :
    KeepsCore s (s.holdSample x name word).1 := by
  unfold State.holdSample
  split
  · exact setSto_keeps s _ (extendRecord_nextNum _ _)
  · exact placeRecord_keeps _ _ _ _

theorem sealFilling_keeps (s : State) (name : CapName) : KeepsCore s (s.sealFilling name) := by
  unfold State.sealFilling
  split
  · exact setSto_keeps s _ (seal_nextNum _ _)
  · exact KeepsCore.rfl' s

theorem noteRead_keeps (name : CapName) (s : State) (e : ReadEntry) : KeepsCore s (State.noteRead name s e) := by
  unfold State.noteRead
  split
  · exact KeepsCore.rfl' s
  · exact setSto_keeps s _ rfl
  · refine KeepsCore.trans (KeepsCore.trans (setSto_keeps s _ ?_) (modifyCapture_keeps _ _ _)) (raiseBoth_keeps _ _)
    rw [modifyBlock_nextNum]

theorem noteReads_keeps (s : State) (name : CapName) (es : List ReadEntry) : KeepsCore s (s.noteReads name es) := by
  induction es generalizing s with
  | nil => exact KeepsCore.rfl' s
  | cons e es ih => exact (noteRead_keeps name s e).trans (ih _)

theorem secureBlock_keeps {fuel : Nat} {s : State} {r : State × Nat} (h : State.secureBlock fuel s = some r) :
    KeepsCore s r.1 := by
  induction fuel generalizing s with
  | zero =>
    unfold State.secureBlock at h
    split at h
    · cases h; exact KeepsCore.rfl' s
    · cases h
  | succ n ih =>
    unfold State.secureBlock at h
    split at h
    · cases h; exact KeepsCore.rfl' s
    · split at h
      · next hf hr => cases hf; exact (reclaim_keeps hr).trans (ih h)
      · cases h

/-- Finding a slot and a block for a new capture reaches STO, EVL, VRN and the notices alone (R37, R40). -/
theorem secure_keeps {s u : State} {i : Four} {n : Nat} (h : s.secure = some (u, i, n)) : KeepsCore s u := by
  unfold State.secure at h
  split at h
  · obtain ⟨r, hr, e⟩ := Option.map_eq_some_iff.1 h
    cases e
    exact secureBlock_keeps hr
  · split at h
    · next hv =>
      obtain ⟨r, hr, e⟩ := Option.map_eq_some_iff.1 h
      cases e
      exact (reclaim_keeps hv).trans (secureBlock_keeps hr)
    · cases h

/-! ## Operations of the renderer and the event list that leave PRB and the lanes -/

theorem afterFetch_keeps (s : State) (p : Port) (n : Nat) : KeepsCore s (s.afterFetch p n) := by
  unfold State.afterFetch
  simp only
  split
  · split
    · exact KeepsCore.rfl' s
    · exact setVrn_keeps _ _
  · split
    · exact (setVrn_keeps s _).trans (raise_keeps _ _ _)
    · exact KeepsCore.rfl' s
  · exact KeepsCore.rfl' s

theorem cancelRender_keeps (s : State) (p : Port) : KeepsCore s (s.cancelRender p) := by
  unfold State.cancelRender
  split
  · exact setVrn_keeps _ _
  · exact KeepsCore.rfl' s

theorem resetRender_keeps (s : State) (p : Port) : KeepsCore s (s.resetRender p) := by
  unfold State.resetRender
  split
  · exact renderGone_keeps _ _
  · exact KeepsCore.rfl' s

theorem queueItem_keeps (s : State) (p : Port) (x : RenderCtx) (item : Item) : KeepsCore s (s.queueItem p x item) := by
  unfold State.queueItem
  simp only
  split
  · exact (setVrn_keeps s _).trans (raise_keeps _ _ _)
  · exact setVrn_keeps _ _

theorem modifyEventPort_keeps (s : State) (p : Port) (f : EventPort → EventPort) : KeepsCore s (s.modifyEventPort p f) :=
  setEvl_keeps _ _

theorem seekTo_keeps (p : Port) (found : Option Event) (s : State) : KeepsCore s (seekTo p found s).1 :=
  (modifyEventPort_keeps s _ _).trans (rearmReady_keeps _ _)

theorem eventsReadAnswer_keeps (p : Port) (count : Byte) (s : State) : KeepsCore s (eventsReadAnswer p count s).1 := by
  unfold eventsReadAnswer
  split
  · exact KeepsCore.rfl' s
  · exact (modifyEventPort_keeps s _ _).trans (rearmReady_keeps _ _)

theorem eventsSeekAnswer_keeps (p : Port) (target : SeekTarget) (s : State) : KeepsCore s (eventsSeekAnswer p target s).1 := by
  unfold eventsSeekAnswer
  split
  · split
    · exact KeepsCore.rfl' s
    · exact seekTo_keeps _ _ _
  · split
    · exact KeepsCore.rfl' s
    · exact seekTo_keeps _ _ _
  · exact (modifyEventPort_keeps s _ _).trans (rearmReady_keeps _ _)
  · exact KeepsCore.rfl' s

theorem eventsThresholdAnswer_keeps (p : Port) (threshold : BitVec 16) (s : State) :
    KeepsCore s (eventsThresholdAnswer p threshold s).1 := by
  unfold eventsThresholdAnswer
  split
  · exact KeepsCore.rfl' s
  · exact (modifyEventPort_keeps s _ _).trans (rearmReady_keeps _ _)

theorem renderStartAnswer_keeps (p : Port) (slot : Byte) (num : BitVec 16) (start width : BitVec 64) (columns : BitVec 16)
    (channels : List Byte) (lanes : Byte) (s : State) :
    KeepsCore s (renderStartAnswer p slot num start width columns channels lanes s).1 := by
  unfold renderStartAnswer
  split
  · exact KeepsCore.rfl' s
  · exact KeepsCore.rfl' s
  · simp only
    split
    · exact KeepsCore.rfl' s
    · exact setVrn_keeps _ _

theorem renderFetchAnswer_keeps (p : Port) (count : Byte) (s : State) : KeepsCore s (renderFetchAnswer p count s).1 := by
  unfold renderFetchAnswer
  split
  · exact KeepsCore.rfl' s
  · simp only
    split
    · exact (setVrn_keeps s _).trans (afterFetch_keeps _ _ _)
    · split <;> exact KeepsCore.rfl' s

theorem readRecordsAnswer_keeps (slot : Byte) (num : BitVec 16) (start : BitVec 64) (count : Byte) (s : State) :
    KeepsCore s (readRecordsAnswer slot num start count s).1 := by
  unfold readRecordsAnswer
  split
  · exact KeepsCore.rfl' s
  · split
    · exact KeepsCore.rfl' s
    · simp only
      split
      · exact KeepsCore.rfl' s
      · exact noteReads_keeps _ _ _

theorem retainAnswer_keeps (p : Port) (slot : Byte) (num : BitVec 16) (s : State) :
    KeepsCore s (retainAnswer p slot num s).1 := by
  unfold retainAnswer
  split
  · exact KeepsCore.rfl' s
  · split
    · exact modifyCapture_keeps _ _ _
    · exact KeepsCore.rfl' s

theorem releaseAnswer_keeps (p : Port) (slot : Byte) (num : BitVec 16) (s : State) :
    KeepsCore s (releaseAnswer p slot num s).1 := by
  unfold releaseAnswer
  split
  · exact KeepsCore.rfl' s
  · split
    · exact modifyCapture_keeps _ _ _
    · exact KeepsCore.rfl' s

theorem storeHealthAnswer_keeps (clear : Byte) (s : State) : KeepsCore s (storeHealthAnswer clear s).1 := by
  unfold storeHealthAnswer
  simp only
  split
  · exact setSto_keeps _ _ rfl
  · exact KeepsCore.rfl' s
  · exact KeepsCore.rfl' s

theorem storeTestAnswer_keeps (kind : Byte) (s : State) : KeepsCore s (storeTestAnswer kind s).1 := by
  unfold storeTestAnswer
  split
  · exact setSto_keeps _ _ rfl
  · exact setSto_keeps _ _ rfl
  · exact KeepsCore.rfl' s

theorem captureInfoAnswer_state (slot : Byte) (num : BitVec 16) (s : State) : (captureInfoAnswer slot num s).1 = s := by
  unfold captureInfoAnswer
  split <;> rfl

theorem planReadAnswer_state (sec : Byte) (s : State) : (planReadAnswer sec s).1 = s := by
  unfold planReadAnswer
  split <;> rfl

theorem podInfoAnswer_state (pod : Byte) (s : State) : (podInfoAnswer pod s).1 = s := by
  unfold podInfoAnswer
  split <;> rfl

/-- NOTICE_ENABLE reaches the ports alone (R182). -/
theorem noticeEnableAnswer_onlyPorts (p : Port) (enables : BitVec 16) (s : State) :
    OnlyPorts s (noticeEnableAnswer p enables s).1 := by
  unfold noticeEnableAnswer
  split
  · exact onlyPorts_refl s
  · exact setPort_onlyPorts _ _ _

/-- The renderer's items reach VRN, STO's reads and the notices alone (R155 to R162). -/
theorem execColumnItem_keeps {s t : State} (h : execColumnItem s = .next t) : KeepsCore s t := by
  unfold execColumnItem at h
  split at h
  · cases h; exact KeepsCore.rfl' s
  · split at h
    · cases h; exact KeepsCore.rfl' s
    · split at h
      · cases h
        exact ((noteReads_keeps s _ _).trans (queueItem_keeps _ _ _ _)).trans (setVrn_keeps _ _)
      · cases h; exact setVrn_keeps _ _

theorem execAnnotationItem_keeps {s t : State} (h : execAnnotationItem s = .next t) : KeepsCore s t := by
  unfold execAnnotationItem at h
  split at h
  · cases h; exact KeepsCore.rfl' s
  · split at h
    · cases h; exact KeepsCore.rfl' s
    · split at h
      · cases h; exact queueItem_keeps _ _ _ _
      · cases h; exact setVrn_keeps _ _

/-! ## Both laws along a step -/

/-- What a step owes to the laws of PRB and of the lanes: a lawful part stays lawful. -/
structure LawsKept (s t : State) : Prop where
  pods : (∀ i, (s.pods.get i).lawful) → ∀ i, (t.pods.get i).lawful
  lanes : (∀ i, (s.lanes.get i).lawful) → ∀ i, (t.lanes.get i).lawful

namespace LawsKept

variable {s t u : State}

theorem refl (s : State) : LawsKept s s := ⟨id, id⟩

theorem trans (h : LawsKept s t) (k : LawsKept t u) : LawsKept s u :=
  ⟨fun l => k.pods (h.pods l), fun l => k.lanes (h.lanes l)⟩

theorem of_eq (h : t = s) : LawsKept s t := h ▸ refl s

/-- A step that leaves PRB and the lanes as they were. -/
theorem of_same (hp : t.pods = s.pods) (hl : t.lanes = s.lanes) : LawsKept s t :=
  ⟨fun l => hp ▸ l, fun l => hl ▸ l⟩

/-- A step that leaves PRB as it was. -/
theorem of_lanes (hp : t.pods = s.pods) (hl : (∀ i, (s.lanes.get i).lawful) → ∀ i, (t.lanes.get i).lawful) : LawsKept s t :=
  ⟨fun l => hp ▸ l, hl⟩

/-- A step that leaves the lanes as they were. -/
theorem of_pods (hp : (∀ i, (s.pods.get i).lawful) → ∀ i, (t.pods.get i).lawful) (hl : t.lanes = s.lanes) : LawsKept s t :=
  ⟨hp, fun l => hl ▸ l⟩

/-- A step that replaces one pod record by a lawful one. -/
theorem of_pod {i : Four} {x : Pod} (hp : t.pods = s.pods.set i x) (hl : t.lanes = s.lanes)
    (hx : (s.pods.get i).lawful → x.lawful) : LawsKept s t := by
  refine of_pods (fun l j => ?_) hl
  rw [hp]
  by_cases e : j = i
  · subst e; rw [quad_get_set]; exact hx (l j)
  · rw [quad_get_set_ne _ _ e]; exact l j

end LawsKept

theorem KeepsCore.lawsKept {s t : State} (h : KeepsCore s t) : LawsKept s t := .of_same h.pods h.lanes

theorem OnlyPorts.lawsKept {s t : State} (h : OnlyPorts s t) : LawsKept s t := by
  unfold OnlyPorts at h
  rw [h]
  exact .of_same rfl rfl

theorem request_lawsKept {f : State → State × Answer} (answer : ∀ u, LawsKept u (f u).1) {s t : State} {c : Instr} {p : Port}
    {tag : Byte} (h : s.request c p tag f = .next t) : LawsKept s t :=
  request_keeps (R := LawsKept) LawsKept.trans OnlyPorts.lawsKept answer h

/-! ## Identification: how an attempt ends (R6 to R10) -/

theorem quad_set_set {α : Type} (x : Quad α) (i : Four) (v w : α) : (x.set i v).set i w = x.set i w := by
  rcases four_cases i with rfl | rfl | rfl | rfl <;> rfl

theorem advanceTo_pods (s : State) (t : Nat) : (s.advanceTo t).pods = s.pods := rfl

/-- The record of an identification that is completed: READY or DEGRADED, the signs of the attempt kept, the bus quiet, the code
computed (R9, R10). -/
def Pod.completed (x : Pod) (signs : List BusSign) (reason : Option DegradeReason) (d : Descriptor) : Pod :=
  Pod.recompute { x with
    state := (if reason.isSome then .degraded else .ready), reason := reason, desc := some d, bus := .quiet
    exchange := x.exchange ++ signs }

/-- An attempt's signs and then its completion make the completed record, with POD_CHANGED to both ports. -/
theorem completeIdentification_eq (s : State) (i : Four) (signs : List BusSign) (reason : Option DegradeReason) (d : Descriptor) :
    (s.setPod i { s.pods.get i with exchange := (s.pods.get i).exchange ++ signs }).completeIdentification i reason d =
      (s.setPod i ((s.pods.get i).completed signs reason d)).raiseBoth .podChanged := by
  simp only [State.completeIdentification, State.setPod, State.setPods_pods, quad_get_set, quad_set_set,
    State.setPods_setPods, Pod.completed]

theorem failAttempt_eq (s : State) (i : Four) (signs : List BusSign) (t : Nat) :
    s.failAttempt i signs t =
      if (s.pods.get i).attempts < Config.maxAttempts then
        (s.advanceTo t).setPod i { s.pods.get i with
          bus := .retryWait (max s.timebase t + Config.retryWait), exchange := (s.pods.get i).exchange ++ signs ++ [.stop] }
      else ((s.advanceTo t).setPod i ((s.pods.get i).completed signs (some .noAnswer) defaultDescriptor)).raiseBoth
        .podChanged := by
  unfold State.failAttempt
  simp only [completeIdentification_eq]
  rfl

/-- The signs of an attempt that is acknowledged, after its start condition (R6). -/
def readSigns (bytes : List Byte) : List BusSign := addressSigns true ++ dataSigns bytes ++ [.stop]

theorem finishAttempt_eq (s : State) (i : Four) (bytes : List Byte) (t : Nat) :
    s.finishAttempt i bytes t =
      ((s.advanceTo t).setPod i ((s.pods.get i).completed (readSigns bytes) (descriptorFault bytes)
        (if (descriptorFault bytes).isSome then defaultDescriptor else descriptorOf bytes))).raiseBoth .podChanged := by
  have assoc : (s.pods.get i).exchange ++ addressSigns true ++ dataSigns bytes ++ [.stop] =
      (s.pods.get i).exchange ++ readSigns bytes := by simp only [readSigns, List.append_assoc]
  unfold State.finishAttempt
  simp only [advanceTo_pods, assoc]
  split
  · next h => rw [h]; exact completeIdentification_eq (s.advanceTo t) i _ _ _
  · next h => rw [h]; exact completeIdentification_eq (s.advanceTo t) i _ _ _

theorem attemptSince_eq_some {x : Pod} {since : Nat} :
    x.attemptSince = some since ↔ x.state = .identifying ∧ x.bus = .attempt since := by
  unfold Pod.attemptSince
  split
  · next hs hb => simp [hs, hb]
  · next h => exact ⟨fun e => (nomatch e), fun ⟨hs, hb⟩ => (h _ hs hb).elim⟩

/-! ### Commands of PRB -/

/-- Completion asks of a lawful record only that it is IDENTIFYING (R9, R10). -/
theorem completed_lawful {x : Pod} (hx : x.lawful) (hs : x.state = .identifying) (signs : List BusSign)
    (reason : Option DegradeReason) (d : Descriptor) : (x.completed signs reason d).lawful := by
  obtain ⟨-, -, hcode, hatt, hdeb⟩ := identifying_facts hx hs
  apply recompute_lawful
  refine ⟨?_, ?_, hcode, hatt, ?_, ?_, fun h => by simp [hdeb] at h⟩ <;> cases reason <;> simp

theorem failAttempt_lawsKept {s : State} {i : Four} {since : Nat} (h : (s.pods.get i).attemptSince = some since)
    (signs : List BusSign) (t : Nat) : LawsKept s (s.failAttempt i signs t) := by
  obtain ⟨hs, hb⟩ := attemptSince_eq_some.1 h
  rw [failAttempt_eq]
  split
  · next hless =>
    refine LawsKept.of_pod (i := i) rfl rfl fun l => ?_
    obtain ⟨hdesc, hreason, hcode, hmax, habs, hbus, hdeb⟩ := l
    rw [hb] at hbus
    obtain ⟨-, hatt, -⟩ := hbus
    exact ⟨hdesc, hreason, hcode, hmax, habs, ⟨hs, hatt, hless, by simp⟩, hdeb⟩
  · exact LawsKept.of_pod (i := i) rfl rfl fun l => completed_lawful l hs _ _ _

theorem execDescriptorReadDone_lawsKept {i : Four} {bytes : Vector Byte 64} {at_ : Nat} {s t : State}
    (h : execDescriptorReadDone i bytes at_ s = .next t) : LawsKept s t := by
  unfold execDescriptorReadDone at h
  split at h
  · next since hatt =>
    cases h
    rw [finishAttempt_eq]
    exact LawsKept.of_pod (i := i) rfl rfl fun l => completed_lawful l (attemptSince_eq_some.1 hatt).1 _ _ _
  · cases h; exact .refl s

theorem execAddressNak_lawsKept {i : Four} {at_ : Nat} {s t : State} (h : execAddressNak i at_ s = .next t) : LawsKept s t := by
  unfold execAddressNak at h
  split at h
  · next hatt => cases h; exact failAttempt_lawsKept hatt _ _
  · cases h; exact .refl s

theorem execClockHoldTimeout_lawsKept {i : Four} {at_ : Nat} {s t : State} (h : execClockHoldTimeout i at_ s = .next t) :
    LawsKept s t := by
  unfold execClockHoldTimeout at h
  split at h
  · next hatt => cases h; exact failAttempt_lawsKept hatt _ _
  · cases h; exact .refl s

/-- The next attempt after a retry wait is counted, and the wait left room for it (R7). -/
theorem execRetryWaitExpiry_lawsKept {i : Four} {s t : State} (h : execRetryWaitExpiry i s = .next t) : LawsKept s t := by
  unfold execRetryWaitExpiry at h
  simp only at h
  split at h
  · next due hs hb =>
    cases h
    refine LawsKept.of_pod (i := i) rfl rfl fun l => ?_
    obtain ⟨hdesc, hreason, hcode, -, -, hbus, hdeb⟩ := l
    rw [hb] at hbus
    obtain ⟨-, -, hless, -⟩ := hbus
    exact ⟨hdesc, hreason, hcode, hless, fun h => by simp [Pod.startAttempt, hs] at h, ⟨hs, Nat.succ_pos _, rfl⟩, hdeb⟩
  · cases h; exact .refl s

theorem execSensePresent_lawsKept {i : Four} {at_ : Nat} {s t : State} (h : execSensePresent i at_ s = .next t) :
    LawsKept s t := by
  unfold execSensePresent at h
  simp only at h
  split at h
  · cases h; exact .refl s
  · cases h
    refine LawsKept.of_pod (i := i) rfl rfl fun l => ?_
    obtain ⟨hdesc, hreason, hcode, hmax, habs, hbus, hdeb⟩ := l
    refine ⟨hdesc, hreason, hcode, hmax, habs, hbus, fun hd => ⟨?_, rfl⟩⟩
    by_contra hne
    simp only at hd hne
    rw [if_neg hne] at hd
    exact hne (hdeb hd).1

theorem execDebounceExpiry_lawsKept {i : Four} {s t : State} (h : execDebounceExpiry i s = .next t) : LawsKept s t := by
  unfold execDebounceExpiry at h
  simp only at h
  split at h
  · cases h; exact LawsKept.of_pod (i := i) rfl rfl fun l => identify_lawful l _
  · cases h; exact .refl s

/-- The loss of a pod reaches SMP and STO alone (R5). -/
theorem losePod_lawsKept (s : State) (i : Four) (moment : Nat) : LawsKept s (s.losePod i moment) := by
  unfold State.losePod
  split
  · split
    · simp only
      split
      · exact (modifyActive_keeps s _).lawsKept
      · refine LawsKept.trans ?_ (modifyActive_keeps _ _).lawsKept
        exact .of_same rfl rfl
    · exact .refl s
  · exact .refl s

theorem execPodDetach_lawsKept {i : Four} {at_ : Nat} {s t : State} (h : execPodDetach i at_ s = .next t) : LawsKept s t := by
  unfold execPodDetach at h
  simp only at h
  split at h
  · next hs =>
    cases h
    refine LawsKept.of_pod (i := i) rfl rfl fun l => ?_
    obtain ⟨hdesc, hreason, hcode, hmax, habs, hbus, -⟩ := l
    exact ⟨hdesc, hreason, hcode, hmax, habs, hbus, fun h => nomatch h⟩
  · cases h
    refine LawsKept.trans ?_ (losePod_lawsKept _ _ _)
    refine LawsKept.of_pod (i := i) rfl rfl fun l => ?_
    obtain ⟨-, -, hcode, -⟩ := l
    exact ⟨by simp, by simp, hcode, Nat.zero_le _, fun _ => rfl, by simp, by simp⟩

theorem podRescanAnswer_lawsKept (pod : Byte) (s : State) : LawsKept s (podRescanAnswer pod s).1 := by
  unfold podRescanAnswer
  split
  · exact .refl s
  · next i _ =>
    split
    · exact .refl s
    · split
      · exact .refl s
      · exact LawsKept.of_pod (i := i) rfl rfl fun l => identify_lawful l _

theorem execNrst_lawsKept {s t : State} (h : execNrst s = .next t) : LawsKept s t := by
  cases h
  refine ⟨fun _ i => ?_, fun _ i => ?_⟩
  · show ((numbered.map fun i => Pod.reset (s.pods.get i).sense).get i).lawful
    rw [get_numbered]
    exact reset_pod_lawful _
  · show ((Quad.all Lane.reset).get i).lawful
    rw [quad_get_all]
    exact reset_lane_lawful

/-! ### The plan and the resets -/

theorem acceptPlan_lawsKept (s : State) (p : Port) (plan : Plan) : LawsKept s (s.acceptPlan p plan) := .of_same rfl rfl

theorem copyThresholds_lawsKept (s : State) : LawsKept s s.copyThresholds := by
  refine LawsKept.of_pods (fun l i => ?_) rfl
  show ((numbered.map fun i => Pod.retune { s.pods.get i with requested := s.acq.plan.probe.thresholds.get i }).get i).lawful
  rw [get_numbered]
  exact retune_lawful (l i) _

theorem editIdle_lawsKept (s : State) (p : Port) (plan : Plan) : LawsKept s (s.editIdle p plan).1 := by
  unfold State.editIdle
  split
  · exact .refl s
  · exact acceptPlan_lawsKept s p plan

theorem editProbe_lawsKept (s : State) (p : Port) (x : ProbePlan) : LawsKept s (s.editProbe p x).1 :=
  ((acceptPlan_lawsKept s p _).trans (copyThresholds_lawsKept _)).trans (modifyActive_keeps _ _).lawsKept

theorem editMatch_lawsKept (s : State) (p : Port) (l : Four) (entries : List MatchEntry) :
    LawsKept s (s.editMatch p l entries).1 := by
  unfold State.editMatch
  split
  · exact .refl s
  · exact (acceptPlan_lawsKept s p _).trans (modifyActive_keeps _ _).lawsKept

theorem inRangeOr_lawsKept {α : Type} (s : State) (sec : Section) (r : Except FieldFault α) (f : α → State × Answer)
    (h : ∀ x, LawsKept s (f x).1) : LawsKept s (s.inRangeOr sec r f).1 := by
  unfold State.inRangeOr
  split
  · exact .refl s
  · exact h _

theorem planEditAnswer_lawsKept (p : Port) (sec : Byte) (expected : BitVec 32) (contents : List Byte) (s : State) :
    LawsKept s (planEditAnswer p sec expected contents s).1 := by
  unfold planEditAnswer
  split
  · exact .refl s
  · split
    · exact .refl s
    · exact inRangeOr_lawsKept _ _ _ _ fun _ => editIdle_lawsKept _ _ _
    · exact inRangeOr_lawsKept _ _ _ _ fun _ => editProbe_lawsKept _ _ _
    · exact inRangeOr_lawsKept _ _ _ _ fun _ => editIdle_lawsKept _ _ _
    · exact inRangeOr_lawsKept _ _ _ _ fun _ => editIdle_lawsKept _ _ _
    · exact inRangeOr_lawsKept _ _ _ _ fun _ => editMatch_lawsKept _ _ _ _

theorem portResetAnswer_lawsKept (p : Port) (s : State) : LawsKept s (portResetAnswer p s).1 := by
  have cancelled := cancelRender_keeps (s.setSto (s.sto.dropRetains p)) p
  exact .of_same cancelled.pods cancelled.lanes

theorem engineReset_lawsKept (s : State) (p : Port) : LawsKept s (s.engineReset p) := by
  unfold State.engineReset
  extract_lets s1 s2 s3 s4
  have h2 : LawsKept s s2 := .of_lanes rfl fun _ i => by
    show ((Quad.all Lane.reset).get i).lawful
    rw [quad_get_all]
    exact reset_lane_lawful
  have h3 : LawsKept s2 s3 := .of_same rfl rfl
  have h4 : LawsKept s3 s4 := ((resetRender_keeps s3 .a).trans (resetRender_keeps _ .b)).lawsKept
  refine ((h2.trans h3).trans h4).trans (.of_pods (fun l i => ?_) rfl)
  show ((s4.pods.map Pod.retune).get i).lawful
  rw [get_map]
  exact retune_same_lawful (l i)

theorem engineResetAnswer_lawsKept (p : Port) (s : State) : LawsKept s (engineResetAnswer p s).1 := by
  unfold engineResetAnswer
  split
  · exact engineReset_lawsKept s p
  · exact .refl s

theorem setAcq_lawsKept (s : State) (x : Acq) : LawsKept s (s.setAcq x) := .of_same rfl rfl

theorem setTrg_lawsKept (s : State) (x : Trg) : LawsKept s (s.setTrg x) := .of_same rfl rfl

theorem setSmp_lawsKept (s : State) (x : Option Sampling) : LawsKept s (s.setSmp x) := .of_same rfl rfl

theorem advanceTo_lawsKept (s : State) (t : Nat) : LawsKept s (s.advanceTo t) := .of_same rfl rfl

/-! ### What reaches the lanes: a sample, an arm, the end of a capture -/

theorem noteMatches_keeps (s : State) (fx : Quad LaneEffects) : KeepsCore s (s.noteMatches fx) := by
  unfold State.noteMatches
  split
  · exact raiseBoth_keeps _ _
  · exact KeepsCore.rfl' s

/-- What handing on leaves of PRB and of the lanes that it is given (R113, R133). -/
theorem handOn_podsLanes (s : State) (lanes : Quad Lane) (out : Quad (List Emission)) (n : Nat) :
    (s.handOn lanes out n).1.pods = s.pods ∧
      (s.handOn lanes out n).1.lanes = lanesAfter lanes (s.allEffects lanes out) n := by
  unfold State.handOn
  extract_lets fx
  have after : KeepsCore (s.setLanes (lanesAfter lanes fx n))
      (((((s.setLanes (lanesAfter lanes fx n)).modifyActive fun c => c.countLanes fx).noteMatches fx).enterEvents fx)) :=
    ((modifyActive_keeps _ _).trans (noteMatches_keeps _ _)).trans (enterAll_keeps _ _ _)
  exact ⟨after.pods, after.lanes⟩

theorem lanesSample_lawsKept (s : State) (D : Nat) (it : SampleItem) : LawsKept s (s.lanesSample D it).1 := by
  unfold State.lanesSample
  extract_lets r h
  obtain ⟨hpods, hlanes⟩ := handOn_podsLanes s (r.map fun x => x.1) (r.map fun x => x.2.1) it.index
  refine LawsKept.of_lanes hpods fun l i => ?_
  show (h.1.lanes.get i).lawful
  rw [hlanes]
  refine lanesAfter_lawful (fun j => ?_) _ _ i
  have handled : r.get j = laneHandle j (s.lanes.get j) D it := get_numbered _ j
  rw [get_map, handled]
  exact laneHandle_lawful j (l j) D it

theorem lanesOut_lawsKept (s : State) : LawsKept s s.lanesOut := by
  refine LawsKept.of_lanes rfl fun l i => ?_
  show ((s.lanes.map Lane.turnOff).get i).lawful
  rw [get_map]
  exact turnOff_lawful (l i)

theorem lanesStop_lawsKept (s : State) (t n : Nat) : LawsKept s (s.lanesStop t n) := by
  obtain ⟨hpods, hlanes⟩ := handOn_podsLanes s s.lanes (s.partials t) n
  have handed : LawsKept s (s.handOn s.lanes (s.partials t) n).1 :=
    .of_lanes hpods fun l => hlanes ▸ lanesAfter_lawful l _ n
  exact handed.trans (lanesOut_lawsKept _)

theorem completeArm_lawsKept (s : State) (i : Four) (n : Nat) : LawsKept s (s.completeArm i n) := by
  refine LawsKept.of_lanes rfl fun _ l => ?_
  show ((s.acq.plan.lanes.map fun cfg => Lane.atArm cfg ⟨i, s.sto.nextNum⟩).get l).lawful
  rw [get_map]
  exact atArm_lawful _ _

theorem armSteps_lawsKept {s u : State} {name : CapName} (h : s.armSteps = .ok (u, name)) : LawsKept s u := by
  unfold State.armSteps at h
  split at h
  · cases h
  · split at h
    · cases h
    · split at h
      · cases h
      · next hsec => cases h; exact (secure_keeps hsec).lawsKept.trans (completeArm_lawsKept _ _ _)

theorem armAnswer_lawsKept (s : State) : LawsKept s (armAnswer s).1 := by
  unfold armAnswer
  split
  · exact .refl s
  · split
    · exact .refl s
    · next harm => exact (armSteps_lawsKept harm).trans (setAcq_lawsKept _ _)

theorem rearm_lawsKept (s : State) : LawsKept s s.rearm := by
  unfold State.rearm
  split
  · next harm => exact (armSteps_lawsKept harm).trans (setAcq_lawsKept _ _)
  · exact .of_same rfl rfl

theorem finishWrite_lawsKept (s : State) : LawsKept s s.finishWrite := by
  unfold State.finishWrite
  split
  · exact .refl s
  · next name _ =>
    extract_lets s1 removed done_ ended
    have h1 : LawsKept s s1 := (sealFilling_keeps s name).lawsKept
    split
    · exact h1
    · split
      · have h2 : LawsKept s1 removed := (removeCapture_keeps s1 _).lawsKept
        exact ((h1.trans h2).trans (setAcq_lawsKept _ _)).trans (raiseBoth_keeps _ _).lawsKept
      · have h2 : LawsKept s1 done_ := (modifyCapture_keeps s1 name _).lawsKept
        have h3 : LawsKept done_ ended :=
          (setAcq_lawsKept done_ _).trans ((raiseBoth_keeps _ _).trans (raiseBoth_keeps _ _)).lawsKept
        simp only
        split
        · exact ((h1.trans h2).trans h3).trans (rearm_lawsKept ended)
        · exact (h1.trans h2).trans h3

theorem execFinalWriteComplete_lawsKept {s t : State} (h : execFinalWriteComplete s = .next t) : LawsKept s t := by
  unfold execFinalWriteComplete at h
  split at h
  · cases h; exact finishWrite_lawsKept s
  · cases h; exact .refl s

theorem beginFinalWrite_lawsKept (s : State) : LawsKept s s.beginFinalWrite := by
  unfold State.beginFinalWrite
  split
  · split
    · exact finishWrite_lawsKept s
    · exact .refl s
  · exact .refl s

theorem enterStopping_lawsKept (s : State) (why : EndReason) : LawsKept s (s.enterStopping why) := by
  unfold State.enterStopping
  extract_lets ended
  have h1 : LawsKept s ended := (modifyActive_keeps s _).lawsKept
  have stopped : ∀ u : State, LawsKept u (u.stopEngine why) := fun u =>
    (setAcq_lawsKept u _).trans (raiseBoth_keeps _ _).lawsKept
  exact ((((h1.trans (setTrg_lawsKept _ _)).trans (lanesStop_lawsKept _ _ _)).trans (setSmp_lawsKept _ _)).trans
    (stopped _)).trans (beginFinalWrite_lawsKept _)

theorem stopAnswer_lawsKept (s : State) : LawsKept s (stopAnswer s).1 := by
  unfold stopAnswer
  split
  · exact .refl s
  · exact .of_same rfl rfl
  · split
    · exact .of_same rfl rfl
    · exact enterStopping_lawsKept s _

theorem forceAnswer_lawsKept (s : State) : LawsKept s (forceAnswer s).1 := by
  unfold forceAnswer
  split
  · simp only
    split
    · exact .refl s
    · exact .of_same rfl rfl
  · simp only
    split
    · exact .refl s
    · exact .of_same rfl rfl
  · exact .refl s

theorem discardActive_lawsKept (s : State) : LawsKept s s.discardActive := by
  unfold State.discardActive
  extract_lets s1 s2
  have h1 : LawsKept s s1 := ((setSmp_lawsKept s _).trans (setTrg_lawsKept _ _)).trans (lanesOut_lawsKept _)
  have h2 : LawsKept s1 s2 := by
    simp only [s2]
    split
    · exact (removeCapture_keeps _ _).lawsKept
    · exact .refl s1
  exact (h1.trans h2).trans (setAcq_lawsKept s2 _)

theorem abortAnswer_lawsKept (s : State) : LawsKept s (abortAnswer s).1 := by
  unfold abortAnswer
  split
  · exact .refl s
  · exact (modifyActive_keeps s _).lawsKept.trans (setAcq_lawsKept _ _)
  · exact (discardActive_lawsKept s).trans (raiseBoth_keeps _ _).lawsKept

/-! ### The sample step -/

theorem beginPulse_lawsKept (s : State) : LawsKept s s.beginPulse := by
  unfold State.beginPulse
  simp only
  split
  · exact .refl s
  · exact .of_same rfl rfl

theorem stageActions_lawsKept (s : State) (a : StageActions) (n : Nat) : LawsKept s (s.stageActions a n) := by
  unfold State.stageActions
  extract_lets s1 s2
  have h1 : LawsKept s s1 := by
    simp only [s1]
    split
    · exact (raiseBoth_keeps _ _).lawsKept
    · exact .refl s
  have h2 : LawsKept s1 s2 := .of_lanes rfl fun l => requestLanes_lawful l _ _ n
  split
  · exact (h1.trans h2).trans (beginPulse_lawsKept s2)
  · exact h1.trans h2

theorem declare_lawsKept (s : State) (source : TrigSource) (t : Nat) : LawsKept s (s.declare source t) := by
  unfold State.declare
  extract_lets short s1 acq s2 s3 trg s4
  have h1 : LawsKept s s1 := by
    simp only [s1]
    split
    · exact (modifyCapture_keeps _ _ _).lawsKept
    · exact .refl s
  have h2 : LawsKept s1 s2 := setAcq_lawsKept _ _
  have h3 : LawsKept s2 s3 := ((raiseBoth_keeps s2 _).trans (raiseBoth_keeps _ _)).lawsKept
  have h4 : LawsKept s3 s4 := setTrg_lawsKept _ _
  exact (((h1.trans h2).trans h3).trans h4).trans (beginPulse_lawsKept s4)

theorem seek_lawsKept (s : State) (o : Observed) : LawsKept s (s.seek o).1 := by
  unfold State.seek
  split
  · exact .refl s
  · extract_lets v trg s1 s2 came
    have h1 : LawsKept s s1 := .of_same rfl rfl
    have h2 : LawsKept s1 s2 := by
      simp only [s2]
      split
      · exact stageActions_lawsKept _ _ _
      · exact .refl s1
    have declared : ∀ source t, LawsKept s (s2.declare source t) := fun source t =>
      (h1.trans h2).trans (declare_lawsKept s2 source t)
    split
    · exact declared _ _
    · split
      · simp only
        split
        · exact declared _ _
        · exact h1.trans h2
      · exact h1.trans h2

theorem observe_lawsKept (s : State) (it : SampleItem) : LawsKept s (s.observe it).1 := .of_same rfl rfl

theorem trgSample_lawsKept (s : State) (it : SampleItem) (offers : List (Four × Nat)) :
    LawsKept s (s.trgSample it offers).1 := by
  unfold State.trgSample
  extract_lets history r s1 o
  have h1 : LawsKept s s1 := observe_lawsKept s it
  split
  · split
    · exact h1.trans (declare_lawsKept _ _ _)
    · split
      · split
        · have armed : LawsKept s1 s1.enterArmed :=
            ((setAcq_lawsKept s1 _).trans (raiseBoth_keeps _ _).lawsKept).trans (setTrg_lawsKept _ _)
          exact (h1.trans armed).trans (seek_lawsKept _ o)
        · exact h1
      · exact h1
  · exact h1.trans (seek_lawsKept s1 o)
  · exact h1

theorem postTest_lawsKept (s : State) (raw : Nat) (came : List Happening) : LawsKept s (s.postTest raw came).1 := by
  unfold State.postTest
  split
  · split
    · exact enterStopping_lawsKept s _
    · exact .refl s
  · exact .refl s

theorem deliver_lawsKept (s : State) (D : Nat) (it : SampleItem) : LawsKept s (s.deliver D it).1 := by
  unfold State.deliver
  extract_lets r v
  have h1 : LawsKept s r.1 := lanesSample_lawsKept s D it
  have h2 : LawsKept r.1 v.1 := trgSample_lawsKept r.1 it _
  clear_value v r
  split
  · exact (h1.trans (observe_lawsKept r.1 it)).trans (enterStopping_lawsKept _ _)
  · exact (h1.trans h2).trans (postTest_lawsKept _ _ _)

theorem setOrigin_lawsKept (s : State) (x : Sampling) : LawsKept s (s.setOrigin x) := by
  unfold State.setOrigin
  split
  · exact (modifyActive_keeps s _).lawsKept.trans (setAcq_lawsKept _ _)
  · exact .refl s

theorem takeSample_lawsKept (s : State) (w : ChannelWord) : LawsKept s (s.takeSample w).1 := by
  unfold State.takeSample
  split
  · next x name _ _ =>
    extract_lets raw word s1 h
    have h1 : LawsKept s s1 := (advanceTo_lawsKept s raw).trans (setOrigin_lawsKept _ x)
    have h2 : LawsKept s1 h.1 := (holdSample_keeps s1 x name word).lawsKept
    split
    · exact ((h1.trans h2).trans (setSmp_lawsKept _ _)).trans (deliver_lawsKept _ _ _)
    · exact (h1.trans h2).trans (enterStopping_lawsKept _ _)
  · exact .refl s

theorem sampleWith_lawsKept (s : State) (h : Happening) (w : ChannelWord) : LawsKept s (s.sampleWith h w) := by
  unfold State.sampleWith
  simp only
  split
  · exact takeSample_lawsKept s w
  · exact .refl s

/-- A sample command that takes the sample only where one is due. -/
theorem sampleIf_lawsKept (s : State) (due : Bool) (w : ChannelWord) : LawsKept s (if due then (s.takeSample w).1 else s) := by
  split
  · exact takeSample_lawsKept s w
  · exact .refl s

theorem execTriggerInEdge_lawsKept {level : Bool} {at_ : Nat} {s t : State} (h : execTriggerInEdge level at_ s = .next t) :
    LawsKept s t := by
  unfold execTriggerInEdge at h
  split at h
  · cases h; exact .refl s
  · cases h; exact .of_same rfl rfl

theorem execTriggerOutPulseEnd_lawsKept {s t : State} (h : execTriggerOutPulseEnd s = .next t) : LawsKept s t := by
  unfold execTriggerOutPulseEnd at h
  split at h
  · cases h; exact .refl s
  · cases h; exact .of_same rfl rfl

/-! ### Every command -/

theorem transaction_lawsKept (s : State) (p : Port) (kind : Byte) (bytes : List Byte) :
    LawsKept s (s.transaction p kind bytes) := (transaction_onlyPorts s p kind bytes).lawsKept

/-- Every command keeps the laws of PRB and of the lanes. -/
theorem exec_lawsKept {c : Instr} {s t : State} (h : exec c s = .next t) : LawsKept s t := by
  cases c with
  | nrst => exact execNrst_lawsKept h
  | sendTransaction p bytes => cases h; exact transaction_lawsKept _ _ _ _
  | fetchTransaction p n => cases h; exact transaction_lawsKept _ _ _ _
  | otherKindTransaction p kind bytes => cases h; exact transaction_lawsKept _ _ _ _
  | ident p tag => exact request_lawsKept (f := fun s => (s, .ident p s.timebase)) LawsKept.refl h
  | planRead p tag sec => exact request_lawsKept (fun u => .of_eq (planReadAnswer_state sec u)) h
  | planEdit p tag sec expected contents => exact request_lawsKept (planEditAnswer_lawsKept p sec expected contents) h
  | arm p tag => exact request_lawsKept armAnswer_lawsKept h
  | stop p tag => exact request_lawsKept stopAnswer_lawsKept h
  | force p tag => exact request_lawsKept forceAnswer_lawsKept h
  | abort p tag => exact request_lawsKept abortAnswer_lawsKept h
  | status p tag => exact request_lawsKept (f := fun s => (s, .status s.statusReport)) LawsKept.refl h
  | captureList p tag =>
    exact request_lawsKept (f := fun s => (s, .captureList (numbered.map s.sto.listEntry))) LawsKept.refl h
  | captureInfo p tag slot num => exact request_lawsKept (fun u => .of_eq (captureInfoAnswer_state slot num u)) h
  | retain p tag slot num => exact request_lawsKept (fun u => (retainAnswer_keeps p slot num u).lawsKept) h
  | release p tag slot num => exact request_lawsKept (fun u => (releaseAnswer_keeps p slot num u).lawsKept) h
  | readRecords p tag slot num start count =>
    exact request_lawsKept (fun u => (readRecordsAnswer_keeps slot num start count u).lawsKept) h
  | eventsRead p tag count => exact request_lawsKept (fun u => (eventsReadAnswer_keeps p count u).lawsKept) h
  | eventsSeek p tag target => exact request_lawsKept (fun u => (eventsSeekAnswer_keeps p target u).lawsKept) h
  | eventsThreshold p tag threshold =>
    exact request_lawsKept (fun u => (eventsThresholdAnswer_keeps p threshold u).lawsKept) h
  | renderStart p tag slot num start width columns channels lanes =>
    exact request_lawsKept (fun u => (renderStartAnswer_keeps p slot num start width columns channels lanes u).lawsKept) h
  | renderFetch p tag count => exact request_lawsKept (fun u => (renderFetchAnswer_keeps p count u).lawsKept) h
  | renderCancel p tag => exact request_lawsKept (fun u => (cancelRender_keeps u p).lawsKept) h
  | noticeRead p tag => exact request_lawsKept (fun _ => .of_same rfl rfl) h
  | noticeEnable p tag enables => exact request_lawsKept (fun u => (noticeEnableAnswer_onlyPorts p enables u).lawsKept) h
  | podInfo p tag pod => exact request_lawsKept (fun u => .of_eq (podInfoAnswer_state pod u)) h
  | podRescan p tag pod => exact request_lawsKept (podRescanAnswer_lawsKept pod) h
  | storeHealth p tag clear => exact request_lawsKept (fun u => (storeHealthAnswer_keeps clear u).lawsKept) h
  | storeTest p tag kind => exact request_lawsKept (fun u => (storeTestAnswer_keeps kind u).lawsKept) h
  | portReset p tag => exact request_lawsKept (portResetAnswer_lawsKept p) h
  | engineReset p tag => exact request_lawsKept (engineResetAnswer_lawsKept p) h
  | sensePresent i at_ => exact execSensePresent_lawsKept h
  | debounceExpiry i => exact execDebounceExpiry_lawsKept h
  | podDetach i at_ => exact execPodDetach_lawsKept h
  | descriptorReadDone i bytes at_ => exact execDescriptorReadDone_lawsKept h
  | addressNak i at_ => exact execAddressNak_lawsKept h
  | clockHoldTimeout i at_ => exact execClockHoldTimeout_lawsKept h
  | retryWaitExpiry i => exact execRetryWaitExpiry_lawsKept h
  | triggerInEdge level at_ => exact execTriggerInEdge_lawsKept h
  | triggerOutPulseEnd => exact execTriggerOutPulseEnd_lawsKept h
  | firstSample w => cases h; exact sampleIf_lawsKept s _ w
  | sample w => cases h; exact sampleIf_lawsKept s _ w
  | armedEntry w => cases h; exact sampleWith_lawsKept s _ w
  | withinExpiry w => cases h; exact sampleWith_lawsKept s _ w
  | stageSatisfied w => cases h; exact sampleWith_lawsKept s _ w
  | postDone w => cases h; exact sampleWith_lawsKept s _ w
  | twoWireStall l w => cases h; exact sampleWith_lawsKept s _ w
  | clockedIdleEnd l w => cases h; exact sampleWith_lawsKept s _ w
  | asyncIdleEnd l w => cases h; exact sampleWith_lawsKept s _ w
  | biphaseIdleEnd l w => cases h; exact sampleWith_lawsKept s _ w
  | drainLimit l w => cases h; exact sampleWith_lawsKept s _ w
  | finalWriteComplete => exact execFinalWriteComplete_lawsKept h
  | columnItem => exact (execColumnItem_keeps h).lawsKept
  | annotationItem => exact (execAnnotationItem_keeps h).lawsKept

theorem step_lawsKept {s t : State} (h : step s = .next t) : LawsKept s t := by
  unfold step at h
  split at h
  · cases h; exact .of_same rfl rfl
  · next c rest _ =>
    have queued : LawsKept s (s.setPending rest) := .of_same rfl rfl
    exact queued.trans (exec_lawsKept h)

/-- Settles O10: every command keeps both laws, one lemma for each operation that reaches a pod record or a lane. -/
theorem podAndLaneLawsKept : Obligations.PodAndLaneLawsKept :=
  ⟨fun _ _ l h => (step_lawsKept h).pods l, fun _ _ l h => (step_lawsKept h).lanes l⟩

/-! ## The state after reset -/

theorem reset_engineLaw : State.reset.engineLaw := by
  refine ⟨⟨rfl, fun i c h => ?_⟩, by decide, by decide, ?_, by decide, by decide, by decide, by decide, rfl⟩
  · rw [show State.reset.sto.slots = Quad.all none from rfl, quad_get_all] at h
    cases h
  · intro x h
    cases h

theorem reset_evl_lawful : State.reset.evl.lawful := by
  refine ⟨List.Pairwise.nil, fun _ h => (nomatch h), fun p => ?_, Nat.zero_le _⟩
  cases p <;> exact ⟨Nat.le_refl 1, Nat.le_refl 1⟩

theorem reset_vrn_lawful : State.reset.vrn.lawful := by
  refine ⟨fun p => ?_, fun p => ?_⟩
  · cases p <;> exact ⟨Nat.zero_le _, rfl, rfl⟩
  · cases p <;> exact (nomatch ·)

/-- Settles O11: each law at the power-on values of its block. -/
theorem lawsHoldAtReset : Obligations.LawsHoldAtReset := by
  refine ⟨reset_engineLaw, reset_evl_lawful, reset_vrn_lawful, fun i => ?_, fun i => ?_, reset_wf⟩
  · rw [show State.reset.pods = Quad.all (Pod.reset false) from rfl, quad_get_all]
    exact reset_pod_lawful false
  · rw [show State.reset.lanes = Quad.all Lane.reset from rfl, quad_get_all]
    exact reset_lane_lawful

/-- The pod records at power-on (R2). -/
theorem podsAtReset_get (s : State) (i : Four) : s.podsAtReset.get i = Pod.reset (s.pods.get i).sense := get_numbered _ i

/-- Settles O13: NRST leaves the power-on values of every block, whatever the state. -/
theorem powerOn : Obligations.PowerOn := by
  intro s
  refine ⟨_, rfl, rfl, rfl, rfl, rfl, rfl, rfl, rfl, rfl, rfl, fun p => ?_, fun i => ?_,
    rfl, rfl, rfl, rfl, rfl, rfl, rfl, rfl⟩
  · cases p <;> rfl
  · simp only [State.setPending_pods, State.setFreeIx_pods, State.setTrg_pods, State.setPods_pods, podsAtReset_get]
    exact ⟨rfl, rfl, rfl, rfl, rfl, rfl, rfl, rfl, rfl, rfl, rfl⟩

/-! ## The threshold code (R11) -/

/-- The quotient of R11 is the magnitude of `n`, plus half the divisor, divided with the remainder dropped, and of `n`'s sign. -/
theorem roundedCodes_eq (n : Int) : roundedCodes n =
    if 0 ≤ n then (((n.natAbs + 25165824) / 50331648 : Nat) : Int) else -(((n.natAbs + 25165824) / 50331648 : Nat) : Int) := by
  unfold roundedCodes
  by_cases h : n < 0
  · simp [h, Int.not_le.2 h]
  · simp [h, Int.not_lt.1 h]

/-- It is `n` over the divisor to the nearest integer: half the divisor off at most. -/
theorem roundedCodes_nearest (n : Int) : 2 * (50331648 * roundedCodes n - n).natAbs ≤ 50331648 := by
  rw [roundedCodes_eq]
  split <;> omega

/-- Where two integers are nearest, it is the one away from zero. -/
theorem roundedCodes_half (n : Int) (h : 2 * (50331648 * roundedCodes n - n).natAbs = 50331648) :
    n.natAbs < 50331648 * (roundedCodes n).natAbs := by
  rw [roundedCodes_eq] at h ⊢
  split at h <;> omega

theorem thresholdCode_eq (requested lo hi gain offset V N q : Int)
    (hV : V = if requested < lo then lo else if hi < requested then hi else requested)
    (hN : N = 16 * V * (2 ^ 20 + gain) + 3 * 2 ^ 20 * offset) (hq : q = roundedCodes N) :
    thresholdCode requested lo hi gain offset =
      ((if 2048 + q < 0 then 0 else if 4095 < 2048 + q then 4095 else (2048 + q).toNat),
        decide (requested < lo ∨ hi < requested), decide (2048 + q < 0 ∨ 4095 < 2048 + q)) := by
  have hN' : N = 16 * V * (1048576 + gain) + 3145728 * offset := by norm_num at hN; exact hN
  subst hV hq
  rw [hN']
  rfl

theorem recompute_thresholdCode {x : Pod} {d : Descriptor} (h : x.desc = some d) :
    (x.recompute.code, x.recompute.rangeClamped, x.recompute.codeClamped) =
      thresholdCode x.requested d.rangeMin d.rangeMax d.gain d.offset := by
  unfold Pod.recompute
  rw [h]

theorem dacCode_setPod (s : State) (i : Four) (x : Pod) : (s.setPod i x).dacCode i = x.code := by
  unfold State.dacCode State.setPod
  rw [State.setPods_pods, quad_get_set]

/-- Settles O44: the computation by its three steps, the rounding by the size of the quotient's error. -/
theorem thresholdCodeRule : Obligations.ThresholdCodeRule := by
  intro requested lo hi gain offset _ V N q hV hN hq
  rw [← roundedCodes_eq] at hq
  refine ⟨thresholdCode_eq requested lo hi gain offset V N q hV hN hq, hq ▸ roundedCodes_nearest N,
    hq ▸ roundedCodes_half N, ?_⟩
  rintro x d rfl hd rfl rfl rfl rfl
  refine ⟨recompute_thresholdCode hd, fun s i => ?_⟩
  rw [dacCode_setPod, ← recompute_thresholdCode hd]

/-! ## Pods and channels -/

/-- A pod's channel in a mask, as the statements count a pod's channels. -/
theorem maskHasPod_iff (m : ChannelWord) (i : Four) :
    maskHasPod m i = true ↔ ∃ ch, 8 * i.val ≤ ch ∧ ch < 8 * i.val + 8 ∧ m.getLsbD ch = true := by
  rw [maskHas]
  exact exists_congr fun ch => and_congr_right fun _ => and_congr_left fun _ => by omega

theorem podOf_channel (i : Four) (k : Fin 8) : podOf (8 * i.val + k.val) = i := by
  apply Fin.ext
  show (8 * i.val + k.val) / 8 % 4 = i.val
  omega

/-- The skew of input `k` of a pod (R13). -/
theorem skewOf_channel (s : State) (i : Four) (k : Fin 8) :
    s.skewOf (8 * i.val + k.val) = (s.pods.get i).latency + (s.pods.get i).trim k +
      s.acq.plan.probe.userSkews[8 * i.val + k.val]'(by omega) := by
  have input : Fin.ofNat 8 (8 * i.val + k.val) = k := Fin.ext (show (8 * i.val + k.val) % 8 = k.val by omega)
  have channel : (8 * i.val + k.val) % 32 = 8 * i.val + k.val := Nat.mod_eq_of_lt (by omega)
  unfold State.skewOf ProbePlan.userSkew
  rw [podOf_channel, input]
  simp [channel]

theorem slotOf_invalid {x : Byte} (h : 4 ≤ x.toNat) : slotOf x = none := dif_neg (by omega)

theorem slotOf_valid {x : Byte} {i : Four} (h : x.toNat = i.val) : slotOf x = some i := by
  unfold slotOf
  rw [dif_pos (by omega)]
  exact congrArg some (Fin.ext h)

theorem activeCapture_eq_some {s : State} {c : Capture} :
    s.activeCapture = some c ↔ ∃ name, s.acq.active = some name ∧ s.sto.capture name = some c := by
  unfold State.activeCapture
  rw [Option.bind_eq_some_iff]

/-- The LOST flag: the ACTIVE capture has the pod in its pod-lost list (R15). -/
theorem podLostFlag_iff (s : State) (i : Four) :
    s.podLostFlag i = true ↔ ∃ name c, s.acq.active = some name ∧ s.sto.capture name = some c ∧
      ∃ e ∈ c.podLost, e.1 = i := by
  have found : s.podLostFlag i = true ↔ ∃ c, s.activeCapture = some c ∧ ∃ e ∈ c.podLost, e.1 = i := by
    unfold State.podLostFlag
    cases s.activeCapture <;> simp
  rw [found]
  constructor
  · rintro ⟨c, hc, he⟩
    obtain ⟨name, ha, hn⟩ := activeCapture_eq_some.1 hc
    exact ⟨name, c, ha, hn, he⟩
  · rintro ⟨name, c, ha, hn, he⟩
    exact ⟨c, activeCapture_eq_some.2 ⟨name, ha, hn⟩, he⟩

/-- A pod is in use: the engine is not IDLE and the ACTIVE capture's mask holds a channel of it (R14). -/
theorem podInUse_iff (s : State) (i : Four) :
    s.podInUse i = true ↔ s.acq.engine ≠ .idle ∧ ∃ name c, s.acq.active = some name ∧ s.sto.capture name = some c ∧
      ∃ ch, 8 * i.val ≤ ch ∧ ch < 8 * i.val + 8 ∧ c.mask.getLsbD ch = true := by
  have found : s.podInUse i = true ↔
      s.acq.engine ≠ .idle ∧ ∃ c, s.activeCapture = some c ∧ maskHasPod c.mask i = true := by
    unfold State.podInUse
    cases s.activeCapture <;> simp
  rw [found]
  refine and_congr_right fun _ => ⟨?_, ?_⟩
  · rintro ⟨c, hc, hm⟩
    obtain ⟨name, ha, hn⟩ := activeCapture_eq_some.1 hc
    exact ⟨name, c, ha, hn, (maskHasPod_iff _ _).1 hm⟩
  · rintro ⟨name, c, ha, hn, hm⟩
    exact ⟨c, activeCapture_eq_some.2 ⟨name, ha, hn⟩, (maskHasPod_iff _ _).2 hm⟩

/-! ## The pod requests (R13 to R15) -/

theorem execPodInfo_taken {p : Port} {tag pod : Byte} {s : State} (h : s.holds p (.podInfo p tag pod)) :
    exec (.podInfo p tag pod) s = .next ((podInfoAnswer pod s).1.answer p tag (podInfoAnswer pod s).2) :=
  request_taken s _ p tag (podInfoAnswer pod) h

theorem execPodRescan_taken {p : Port} {tag pod : Byte} {s : State} (h : s.holds p (.podRescan p tag pod)) :
    exec (.podRescan p tag pod) s = .next ((podRescanAnswer pod s).1.answer p tag (podRescanAnswer pod s).2) :=
  request_taken s _ p tag (podRescanAnswer pod) h

theorem podInfoAnswer_invalid {pod : Byte} (h : 4 ≤ pod.toNat) (s : State) : podInfoAnswer pod s = (s, .plain .invalid) := by
  unfold podInfoAnswer
  rw [slotOf_invalid h]

theorem podInfoAnswer_valid {pod : Byte} {i : Four} (h : pod.toNat = i.val) (s : State) :
    podInfoAnswer pod s =
      (s, .pod { record := s.pods.get i, skews := (podChannels i).map s.skewOf, lost := s.podLostFlag i }) := by
  unfold podInfoAnswer
  rw [slotOf_valid h]

theorem podRescanAnswer_invalid {pod : Byte} (h : 4 ≤ pod.toNat) (s : State) :
    podRescanAnswer pod s = (s, .plain .invalid) := by
  unfold podRescanAnswer
  rw [slotOf_invalid h]

theorem podRescanAnswer_valid {pod : Byte} {i : Four} (h : pod.toNat = i.val) (s : State) :
    podRescanAnswer pod s =
      if (s.pods.get i).state = .absent then (s, .plain .wrongState)
      else if s.podInUse i then (s, .plain .active)
      else (s.setPod i ((s.pods.get i).identify s.timebase), .plain .ok) := by
  unfold podRescanAnswer
  rw [slotOf_valid h]

/-- The same with the descriptor's latency and trim written out, and 0 for a record without one (R13). -/
theorem skewOf_channel_desc (s : State) (i : Four) (k : Fin 8) :
    s.skewOf (8 * i.val + k.val) = (match (s.pods.get i).desc with | some d => (d.latency : Int) + d.trims[k] | none => 0) +
      s.acq.plan.probe.userSkews[8 * i.val + k.val]'(by omega) := by
  rw [skewOf_channel]
  unfold Pod.latency Pod.trim
  cases (s.pods.get i).desc <;> rfl

/-- Settles O47: each answer is that of the request's owner, taken from the port's slot. -/
theorem podRequests : Obligations.PodRequests := by
  refine ⟨skewOf_channel_desc, fun p tag pod s hs => ⟨fun h => ?_, fun i h => ?_⟩,
    fun p tag pod s hs => ⟨fun h => ?_, fun i h => ?_⟩⟩
  · rw [execPodInfo_taken hs, podInfoAnswer_invalid h]
    rfl
  · refine ⟨{ record := s.pods.get i, skews := (podChannels i).map s.skewOf, lost := s.podLostFlag i }, ?_, rfl, rfl,
      podLostFlag_iff s i⟩
    rw [execPodInfo_taken hs, podInfoAnswer_valid h]
    rfl
  · rw [execPodRescan_taken hs, podRescanAnswer_invalid h]
    rfl
  · have answered := execPodRescan_taken hs
    rw [podRescanAnswer_valid h] at answered
    refine ⟨fun ha => ?_, fun ha hu => ?_, fun ha hu => ?_⟩
    · rw [answered, if_pos ha]
      rfl
    · rw [answered, if_neg ha, if_pos ((podInUse_iff s i).2 hu)]
      rfl
    · rw [answered, if_neg ha, if_neg fun h => hu ((podInUse_iff s i).1 h)]
      rfl

/-! ## Attach, debounce and detach (R3 to R5) -/

theorem execSensePresent_unchanged {i : Four} {at_ : Nat} {s : State} (h : (s.pods.get i).sense = true) :
    exec (.sensePresent i at_) s = .next s := by
  show execSensePresent i at_ s = _
  unfold execSensePresent
  simp only [h, if_true]

theorem execSensePresent_changed {i : Four} {at_ : Nat} {s : State} (h : (s.pods.get i).sense = false) :
    exec (.sensePresent i at_) s = .next ((s.advanceTo at_).setPod i { s.pods.get i with
      sense := true
      debounce := if (s.pods.get i).state = .absent then some (max s.timebase at_) else (s.pods.get i).debounce }) := by
  show execSensePresent i at_ s = _
  unfold execSensePresent
  simp only [h, Bool.false_eq_true, if_false]
  rfl

theorem execDebounceExpiry_due {i : Four} {s : State} {t0 : Nat} (hs : (s.pods.get i).state = .absent)
    (hd : (s.pods.get i).debounce = some t0) :
    exec (.debounceExpiry i) s = .next ((s.advanceTo (t0 + Config.debounceTime)).setPod i
      ((s.pods.get i).identify (max s.timebase (t0 + Config.debounceTime)))) := by
  show execDebounceExpiry i s = _
  unfold execDebounceExpiry
  simp only [hs, hd]
  rfl

theorem execDebounceExpiry_not_due {i : Four} {s : State}
    (h : (s.pods.get i).state ≠ .absent ∨ (s.pods.get i).debounce = none) : exec (.debounceExpiry i) s = .next s := by
  show execDebounceExpiry i s = _
  unfold execDebounceExpiry
  simp only
  split
  · next hs hd => simp [hs, hd] at h
  · rfl

theorem execPodDetach_absent {i : Four} {at_ : Nat} {s : State} (h : (s.pods.get i).state = .absent) :
    exec (.podDetach i at_) s = .next ((s.setTimebase (s.detachMoment at_)).setPod i
      { s.pods.get i with sense := false, debounce := none }) := by
  show execPodDetach i at_ s = _
  unfold execPodDetach
  simp only [h]

/-- The record after a detach: ABSENT, with the requested threshold, the code, the flags and the signs kept (R4). -/
def Pod.detached (x : Pod) : Pod :=
  { x with state := .absent, reason := none, desc := none, attempts := 0, bus := .quiet, debounce := none, sense := false }

/-- The state right after a detach, before the loss reaches the capture (R4). -/
def State.detachedAt (s : State) (i : Four) (moment : Nat) : State :=
  ((s.setTimebase moment).setPod i (s.pods.get i).detached).raiseBoth .podChanged

theorem execPodDetach_present {i : Four} {at_ : Nat} {s : State} (h : (s.pods.get i).state ≠ .absent) :
    exec (.podDetach i at_) s = .next ((s.detachedAt i (s.detachMoment at_)).losePod i (s.detachMoment at_)) := by
  show execPodDetach i at_ s = _
  unfold execPodDetach
  extract_lets x moment s1
  split
  · next hs => exact absurd hs h
  · rfl

/-- A loss with its moment, added once for each pod (R5). -/
def withLoss (lost : List (Four × Nat)) (i : Four) (moment : Nat) : List (Four × Nat) :=
  if ∃ e ∈ lost, e.1 = i then lost else lost ++ [(i, moment)]

theorem any_lost_iff (lost : List (Four × Nat)) (i : Four) : (lost.any fun e => e.1 = i) = true ↔ ∃ e ∈ lost, e.1 = i := by
  simp

/-- A pod loss changes SMP and STO alone (R5). -/
theorem losePod_only (s : State) (i : Four) (moment : Nat) :
    s.losePod i moment = (s.setSmp (s.losePod i moment).smp).setSto (s.losePod i moment).sto := by
  have modified : ∀ (u : State) f, u.modifyActive f = u.setSto (u.modifyActive f).sto := by
    intro u f
    unfold State.modifyActive
    split <;> rfl
  unfold State.losePod
  split
  · split
    · simp only
      split
      · rw [modified]; rfl
      · rw [modified]; rfl
    · rfl
  · rfl

/-- Outside ARMING, ARMED and TRIGGERED a loss reaches no capture. -/
theorem losePod_idle {s : State} (h : s.acq.engine.sampling = false) (i : Four) (moment : Nat) : s.losePod i moment = s := by
  unfold State.losePod
  split
  · rw [h]; rfl
  · rfl

/-- The mask of the ACTIVE capture holds no channel of the pod. -/
theorem losePod_unmasked {s : State} {c : Capture} (hc : s.activeCapture = some c) {i : Four} (hm : maskHasPod c.mask i = false)
    (moment : Nat) : s.losePod i moment = s := by
  unfold State.losePod
  split
  · next hc' => rw [hc] at hc'; cases hc'; simp [hm]
  · rfl

/-- A capture that is being sampled and uses the pod: the loss is entered in SMP's set and in the capture's list, once in
each (R5). -/
theorem losePod_masked {s : State} {name : CapName} {c : Capture} {y : Sampling} (he : s.acq.engine.sampling = true)
    (ha : s.acq.active = some name) (hc : s.sto.capture name = some c) (hy : s.smp = some y) {i : Four}
    (hm : maskHasPod c.mask i = true) (moment : Nat) :
    s.losePod i moment = (s.setSmp (some { y with lost := withLoss y.lost i moment })).setSto
      { s.sto with slots := s.sto.slots.set name.slot (some { c with podLost := withLoss c.podLost i moment }) } := by
  have hac : s.activeCapture = some c := activeCapture_eq_some.2 ⟨name, ha, hc⟩
  unfold State.losePod
  simp only [hy, hac, he, hm, Bool.and_self, if_true, any_lost_iff]
  have smp : (if ∃ e ∈ y.lost, e.1 = i then s else s.setSmp (some { y with lost := y.lost ++ [(i, moment)] })) =
      s.setSmp (some { y with lost := withLoss y.lost i moment }) := by
    unfold withLoss
    split
    · rw [← hy]; rfl
    · rfl
  have listed : (if ∃ e ∈ c.podLost, e.1 = i then c else { c with podLost := c.podLost ++ [(i, moment)] }) =
      { c with podLost := withLoss c.podLost i moment } := by
    unfold withLoss
    split <;> rfl
  rw [smp, modifyActive_eq (s := s.setSmp (some { y with lost := withLoss y.lost i moment })) ha hc, listed]
  rfl

/-- What a raise of one class to both ports says of the ports (R182). -/
theorem portsGain_raiseBoth {s t : State} (n : Notice) (h : t.ports = (s.raiseBoth n).ports) : s.portsGain t [n] := by
  refine portsGain_of s t [n] (fun q m => ?_) (fun q => ?_)
  · have same : t.hasNotice q m = (s.raiseBoth n).hasNotice q m := by unfold State.hasNotice; rw [h]
    rw [same, hasNotice_raiseBoth]
    simp
  · obtain ⟨-, ho, he, hd⟩ := ports_raiseBoth s n q
    rw [h]
    exact ⟨ho, he, hd⟩

theorem slotsKept_raiseBoth {s t : State} (n : Notice) (h : t.ports = (s.raiseBoth n).ports) : s.slotsKept t := fun q => by
  obtain ⟨hs, -⟩ := ports_raiseBoth s n q
  rw [h]
  exact hs

/-- All that a detach leaves of the state but SMP and STO (R4). -/
theorem losePod_detachedAt_frame {s t : State} {i : Four} {moment : Nat} (h : t = (s.detachedAt i moment).losePod i moment) :
    t.timebase = moment ∧ t.pods = s.pods.set i (s.pods.get i).detached ∧ t.ports = (s.raiseBoth .podChanged).ports ∧
      t.acq = s.acq ∧ t.trg = s.trg ∧ t.lanes = s.lanes ∧ t.evl = s.evl ∧ t.vrn = s.vrn ∧ t.freeIx = s.freeIx ∧
      t.pending = s.pending := by
  rw [h, losePod_only]
  exact ⟨rfl, rfl, rfl, rfl, rfl, rfl, rfl, rfl, rfl, rfl⟩

/-- A detach while no capture is being sampled (R5). -/
theorem losePod_detachedAt_idle {s : State} (h : s.acq.engine = .idle ∨ s.acq.engine = .stopping) (i : Four) (moment : Nat) :
    (s.detachedAt i moment).losePod i moment = s.detachedAt i moment := by
  refine losePod_idle (s := s.detachedAt i moment) (show s.acq.engine.sampling = false from ?_) i moment
  rcases h with e | e <;> rw [e] <;> rfl

theorem sampling_of_engine {x : Engine} (h : x = .arming ∨ x = .armed ∨ x = .triggered) : x.sampling = true := by
  rcases h with rfl | rfl | rfl <;> rfl

/-- Settles O45: attach and debounce by the equation of each command, the detach by the loss it hands on. -/
theorem podSense : Obligations.PodSense := by
  rintro i at_ s x rfl
  refine ⟨execSensePresent_unchanged, fun h ha => ?_, fun h ha => ?_, fun t0 ha hd => execDebounceExpiry_due ha hd,
    execDebounceExpiry_not_due, execPodDetach_absent, fun ha => ⟨_, execPodDetach_present ha, ?_⟩⟩
  · rw [execSensePresent_changed h, if_pos ha]
    rfl
  · rw [execSensePresent_changed h, if_neg ha]
    rfl
  · obtain ⟨moment, hm⟩ : ∃ moment, moment = s.detachMoment at_ := ⟨_, rfl⟩
    rw [← hm]
    obtain ⟨htime, hpods, hports, hrest⟩ := losePod_detachedAt_frame (s := s) (i := i) (moment := moment) rfl
    obtain ⟨hacq, htrg, hlanes, hevl, hvrn, hfree, hpend⟩ := hrest
    refine ⟨htime, hpods, portsGain_raiseBoth _ hports, slotsKept_raiseBoth _ hports, hacq, htrg, hlanes, hevl, hvrn, hfree,
      hpend, fun he => ?_, fun name c y he hact hc hy => ⟨fun hmask => ?_, fun hmask => ?_⟩⟩
    · rw [losePod_detachedAt_idle he]
      exact ⟨rfl, rfl⟩
    · have active : (s.detachedAt i moment).activeCapture = some c := activeCapture_eq_some.2 ⟨name, hact, hc⟩
      have unmasked : maskHasPod c.mask i = false := by
        rw [← Bool.not_eq_true, maskHasPod_iff]
        rintro ⟨ch, h1, h2, h3⟩
        rw [hmask ch h1 h2] at h3
        cases h3
      rw [losePod_unmasked active unmasked]
      exact ⟨rfl, rfl⟩
    · rw [losePod_masked (s := s.detachedAt i moment) (sampling_of_engine he) hact hc hy ((maskHasPod_iff _ _).2 hmask)]
      exact ⟨rfl, rfl⟩

/-! ## The signs of an attempt (R6) -/

theorem addressSigns_eq (acked : Bool) : addressSigns acked = busByte 0x75 ++ [busAck acked] := rfl

/-- The data bytes by their positions: each is acknowledged but the last. -/
theorem dataSigns_eq (bs : List Byte) :
    dataSigns bs = (List.range bs.length).flatMap fun k => busByte (bs.getD k 0) ++ [busAck (decide (k + 1 < bs.length))] := by
  induction bs with
  | nil => rfl
  | cons x rest ih =>
    cases rest with
    | nil => simp [dataSigns]
    | cons y rest =>
      rw [dataSigns, ih, List.length_cons (a := x), List.range_succ_eq_map]
      simp [List.flatMap_map]

theorem busTime_append (a b : List BusSign) : busTime (a ++ b) = busTime a + busTime b := by
  unfold busTime
  rw [List.filter_append, List.length_append, Nat.add_mul]

theorem busTime_busByte (x : Byte) : busTime (busByte x) = 80000 := by
  have clocks : ((busByte x).filter BusSign.isClock).length = 8 := rfl
  unfold busTime
  rw [clocks]
  decide

theorem busTime_busAck (acked : Bool) : busTime [busAck acked] = 10000 := by
  have clocks : ([busAck acked].filter BusSign.isClock).length = 1 := rfl
  unfold busTime
  rw [clocks]
  decide

/-- A byte takes nine clocks of 10 microseconds with its acknowledge. -/
theorem busTime_dataSigns (bs : List Byte) : busTime (dataSigns bs) = 90000 * bs.length := by
  induction bs with
  | nil => rfl
  | cons x rest ih =>
    cases rest with
    | nil => rw [dataSigns, busTime_append, busTime_busByte, busTime_busAck]; rfl
    | cons y rest =>
      rw [dataSigns, ← List.singleton_append, busTime_append, busTime_append, busTime_busByte, busTime_busAck, ih]
      simp only [List.length_cons]
      omega

theorem busTime_addressSigns (acked : Bool) : busTime (addressSigns acked) = 90000 := by
  rw [addressSigns_eq, busTime_append, busTime_busByte, busTime_busAck]

/-- The clocks of an exchange: nine for the address byte, nine for each data byte. -/
theorem busTime_exchange (bytes : Vector Byte 64) :
    busTime (addressSigns true ++ dataSigns bytes.toList) = 5850000 := by
  rw [busTime_append, busTime_addressSigns, busTime_dataSigns, Vector.length_toList]

/-! ## The checks of a descriptor (R8) -/

theorem checksumOk_iff (bs : List Byte) : checksumOk bs = true ↔ (bs.map fun b => b.toNat).sum % 256 = 0 := by
  unfold checksumOk
  rw [beq_iff_eq]

theorem formatOk_iff (bs : List Byte) :
    formatOk bs = true ↔ fieldAt bs 0 1 = 1 ∧ fieldAt bs 1 1 = 8 ∧ (fieldAt bs 2 1 = 1 ∨ fieldAt bs 2 1 = 2) := by
  unfold formatOk
  simp only [Bool.and_eq_true, Bool.or_eq_true, beq_iff_eq, and_assoc]

theorem trims_getElem (bs : List Byte) (k : Fin 8) : (descriptorOf bs).trims[k] = signedAt bs (12 + k.val) 1 := by
  simp [descriptorOf]

theorem trimsOk_iff (bs : List Byte) :
    ((descriptorOf bs).trims.toList.all fun x => decide (-16 ≤ x ∧ x ≤ 15)) = true ↔
      ∀ k, k < 8 → -16 ≤ signedAt bs (12 + k) 1 ∧ signedAt bs (12 + k) 1 ≤ 15 := by
  have listed : (descriptorOf bs).trims.toList = List.ofFn fun i : Fin 8 => signedAt bs (12 + i.val) 1 := by
    simp [descriptorOf, Vector.toList_ofFn]
  rw [listed, List.all_eq_true]
  simp only [List.mem_ofFn, forall_exists_index, forall_apply_eq_imp_iff, decide_eq_true_eq]
  exact ⟨fun h k hk => h ⟨k, hk⟩, fun h k => h k.val k.isLt⟩

theorem rangesOk_iff (bs : List Byte) :
    rangesOk (descriptorOf bs) = true ↔
      (-6000 ≤ signedAt bs 3 2 ∧ signedAt bs 3 2 < signedAt bs 5 2 ∧ signedAt bs 5 2 ≤ 6000 ∧
        -2048 ≤ signedAt bs 9 2 ∧ signedAt bs 9 2 ≤ 2047 ∧ fieldAt bs 11 1 ≤ 31 ∧
        ∀ k, k < 8 → -16 ≤ signedAt bs (12 + k) 1 ∧ signedAt bs (12 + k) 1 ≤ 15) := by
  unfold rangesOk
  rw [Bool.and_eq_true, trimsOk_iff, decide_eq_true_iff]
  show (-6000 ≤ signedAt bs 3 2 ∧ signedAt bs 3 2 ≤ 6000 ∧ -6000 ≤ signedAt bs 5 2 ∧ signedAt bs 5 2 ≤ 6000 ∧
    signedAt bs 3 2 < signedAt bs 5 2 ∧ -2048 ≤ signedAt bs 9 2 ∧ signedAt bs 9 2 ≤ 2047 ∧
    fieldAt bs 11 1 ≤ 31) ∧ _ ↔ _
  constructor
  · rintro ⟨⟨h1, -, -, h4, h5, h6, h7, h8⟩, ht⟩
    exact ⟨h1, h5, h4, h6, h7, h8, ht⟩
  · rintro ⟨h1, h5, h4, h6, h7, h8, ht⟩
    exact ⟨⟨h1, by omega, by omega, h4, h5, h6, h7, h8⟩, ht⟩

theorem descriptorFault_checksum {bs : List Byte} (h : checksumOk bs = false) : descriptorFault bs = some .badChecksum := by
  unfold descriptorFault
  rw [h]
  rfl

theorem descriptorFault_format {bs : List Byte} (hc : checksumOk bs = true) (h : formatOk bs = false) :
    descriptorFault bs = some .badFormat := by
  unfold descriptorFault
  rw [hc, h]
  rfl

theorem descriptorFault_range {bs : List Byte} (hc : checksumOk bs = true) (hf : formatOk bs = true)
    (h : rangesOk (descriptorOf bs) = false) : descriptorFault bs = some .badRange := by
  unfold descriptorFault
  rw [hc, hf, h]
  rfl

theorem descriptorFault_none {bs : List Byte} (hc : checksumOk bs = true) (hf : formatOk bs = true)
    (h : rangesOk (descriptorOf bs) = true) : descriptorFault bs = none := by
  unfold descriptorFault
  rw [hc, hf, h]
  rfl

/-! ## The commands of an identification (R6, R7) -/

section

variable {i : Four} {s : State}

theorem attemptSince_eq_none {x : Pod} (h : ¬ (x.state = .identifying ∧ ∃ since, x.bus = .attempt since)) :
    x.attemptSince = none := by
  cases hx : x.attemptSince with
  | none => rfl
  | some since =>
    obtain ⟨hs, hb⟩ := attemptSince_eq_some.1 hx
    exact absurd ⟨hs, since, hb⟩ h

theorem execDescriptorReadDone_idle (h : (s.pods.get i).attemptSince = none) (bytes : Vector Byte 64) (at_ : Nat) :
    exec (.descriptorReadDone i bytes at_) s = .next s := by
  show execDescriptorReadDone i bytes at_ s = _
  unfold execDescriptorReadDone
  rw [h]

theorem execAddressNak_idle (h : (s.pods.get i).attemptSince = none) (at_ : Nat) : exec (.addressNak i at_) s = .next s := by
  show execAddressNak i at_ s = _
  unfold execAddressNak
  rw [h]

theorem execClockHoldTimeout_idle (h : (s.pods.get i).attemptSince = none) (at_ : Nat) :
    exec (.clockHoldTimeout i at_) s = .next s := by
  show execClockHoldTimeout i at_ s = _
  unfold execClockHoldTimeout
  rw [h]

theorem execDescriptorReadDone_attempt {since : Nat} (h : (s.pods.get i).attemptSince = some since) (bytes : Vector Byte 64)
    (at_ : Nat) :
    exec (.descriptorReadDone i bytes at_) s = .next (s.finishAttempt i bytes.toList (max at_ (since + 5850000))) := by
  show execDescriptorReadDone i bytes at_ s = _
  unfold execDescriptorReadDone
  rw [h, ← busTime_exchange bytes]

theorem execAddressNak_attempt {since : Nat} (h : (s.pods.get i).attemptSince = some since) (at_ : Nat) :
    exec (.addressNak i at_) s = .next (s.failAttempt i (addressSigns false) (max at_ (since + 90000))) := by
  show execAddressNak i at_ s = _
  unfold execAddressNak
  rw [h, ← busTime_addressSigns false]

theorem execClockHoldTimeout_attempt {since : Nat} (h : (s.pods.get i).attemptSince = some since) (at_ : Nat) :
    exec (.clockHoldTimeout i at_) s = .next (s.failAttempt i [.held] (max at_ since + 25000001)) := by
  show execClockHoldTimeout i at_ s = _
  unfold execClockHoldTimeout
  rw [h]
  rfl

theorem execRetryWaitExpiry_due {due : Nat} (hs : (s.pods.get i).state = .identifying)
    (hb : (s.pods.get i).bus = .retryWait due) :
    exec (.retryWaitExpiry i) s =
      .next ((s.advanceTo due).setPod i ((s.pods.get i).startAttempt (max s.timebase due))) := by
  show execRetryWaitExpiry i s = _
  unfold execRetryWaitExpiry
  simp only [hs, hb]
  rfl

theorem execRetryWaitExpiry_not_due
    (h : (s.pods.get i).state ≠ .identifying ∨ ∀ due, (s.pods.get i).bus ≠ .retryWait due) :
    exec (.retryWaitExpiry i) s = .next s := by
  show execRetryWaitExpiry i s = _
  unfold execRetryWaitExpiry
  extract_lets x
  split
  · next due hs hb => exact (h.elim (absurd hs) fun h => absurd hb (h due))
  · rfl

end

/-- What the completion of an identification by the command `c` at `due` leaves (R9, R10): the record with the outcome and the
code, POD_CHANGED to both ports, the timebase, and nothing else changed. -/
def State.identifies (s : State) (i : Four) (c : Instr) (due : Nat) (signs : List BusSign) (reason : Option DegradeReason)
    (d : Descriptor) : Prop :=
  ∃ t code rc cc, exec c s = .next t ∧
    (code, rc, cc) = thresholdCode (s.pods.get i).requested d.rangeMin d.rangeMax d.gain d.offset ∧
    t.pods = s.pods.set i { s.pods.get i with
      state := if reason = none then .ready else .degraded
      reason := reason, desc := some d, bus := .quiet, exchange := (s.pods.get i).exchange ++ signs
      code := code, rangeClamped := rc, codeClamped := cc } ∧
    s.portsGain t [.podChanged] ∧ s.slotsKept t ∧
    t = ((s.setTimebase (max s.timebase due)).setPods t.pods).setPorts t.ports

theorem completed_eq (x : Pod) (signs : List BusSign) (reason : Option DegradeReason) (d : Descriptor) :
    x.completed signs reason d = { x with
      state := if reason = none then .ready else .degraded
      reason := reason, desc := some d, bus := .quiet, exchange := x.exchange ++ signs
      code := (x.completed signs reason d).code, rangeClamped := (x.completed signs reason d).rangeClamped
      codeClamped := (x.completed signs reason d).codeClamped } := by
  cases reason <;> rfl

theorem completed_thresholdCode (x : Pod) (signs : List BusSign) (reason : Option DegradeReason) (d : Descriptor) :
    ((x.completed signs reason d).code, (x.completed signs reason d).rangeClamped, (x.completed signs reason d).codeClamped) =
      thresholdCode x.requested d.rangeMin d.rangeMax d.gain d.offset :=
  recompute_thresholdCode rfl

/-- A command that completes an identification does what R9 and R10 say. -/
theorem identifies_of_completed {s : State} {i : Four} {c : Instr} {due : Nat} {signs : List BusSign}
    {reason : Option DegradeReason} {d : Descriptor}
    (h : exec c s = .next (((s.advanceTo due).setPod i ((s.pods.get i).completed signs reason d)).raiseBoth .podChanged)) :
    s.identifies i c due signs reason d := by
  exact ⟨_, _, _, _, h, completed_thresholdCode _ signs reason d, congrArg (s.pods.set i) (completed_eq _ signs reason d),
    portsGain_raiseBoth _ rfl, slotsKept_raiseBoth _ rfl, rfl⟩

/-- Where an attempt ends acknowledged, the first failing check decides (R8). -/
theorem identifies_of_read {s : State} {i : Four} {since : Nat} (h : (s.pods.get i).attemptSince = some since)
    (bytes : Vector Byte 64) (at_ : Nat) {reason : Option DegradeReason} (hr : descriptorFault bytes.toList = reason) :
    s.identifies i (.descriptorReadDone i bytes at_) (max at_ (since + 5850000)) (readSigns bytes.toList) reason
      (if reason.isSome then defaultDescriptor else descriptorOf bytes.toList) := by
  apply identifies_of_completed
  rw [execDescriptorReadDone_attempt h, finishAttempt_eq, hr]

/-- The signs of an acknowledged attempt, byte by byte (R6). -/
theorem readSigns_eq (bytes : Vector Byte 64) :
    readSigns bytes.toList = busByte 0x75 ++ [busAck true] ++
      (List.range 64).flatMap (fun k => busByte (bytes.toList.getD k 0) ++ [busAck (decide (k < 63))]) ++ [.stop] := by
  have last : ∀ k, decide (k + 1 < 64) = decide (k < 63) := fun k => decide_eq_decide.2 (by omega)
  unfold readSigns
  rw [addressSigns_eq, dataSigns_eq, Vector.length_toList]
  simp only [last]

/-- A failed attempt with room for another: the stop condition and the wait (R7). -/
theorem failAttempt_again {s : State} {i : Four} (h : (s.pods.get i).attempts < Config.maxAttempts) (signs : List BusSign)
    (due : Nat) :
    s.failAttempt i signs due = (s.setTimebase (max s.timebase due)).setPods (s.pods.set i { s.pods.get i with
      bus := .retryWait (max s.timebase due + 10000000), exchange := (s.pods.get i).exchange ++ signs ++ [.stop] }) := by
  rw [failAttempt_eq, if_pos h]
  rfl

/-- The fourth failure: DEGRADED with NO_ANSWER (R7). -/
theorem failAttempt_last {s : State} {i : Four} (h : Config.maxAttempts ≤ (s.pods.get i).attempts) (signs : List BusSign)
    (due : Nat) :
    s.failAttempt i signs due = ((s.advanceTo due).setPod i ((s.pods.get i).completed signs (some .noAnswer)
      defaultDescriptor)).raiseBoth .podChanged := by
  rw [failAttempt_eq, if_neg (Nat.not_lt.2 h)]

/-- How an attempt that fails goes on, by the attempts counted (R7). -/
theorem failAttempt_outcome {s : State} {i : Four} {c : Instr} {signs : List BusSign} {due : Nat}
    (h : exec c s = .next (s.failAttempt i signs due)) :
    ((s.pods.get i).attempts < 4 → exec c s = .next ((s.setTimebase (max s.timebase due)).setPods (s.pods.set i
      { s.pods.get i with
        bus := .retryWait (max s.timebase due + 10000000), exchange := (s.pods.get i).exchange ++ signs ++ [.stop] }))) ∧
    (4 ≤ (s.pods.get i).attempts → s.identifies i c due signs (some .noAnswer) defaultDescriptor) :=
  ⟨fun again => by rw [h, failAttempt_again again], fun last => identifies_of_completed (by rw [h, failAttempt_last last])⟩

/-- Settles O46: the end of each attempt by its equation, the checks of a descriptor by what each says of the bytes. -/
theorem podIdentification : Obligations.PodIdentification := by
  rintro i bytes at_ s x rfl
  intro bs defaults signsOf acked answered done
  have identified : ∀ c due signs reason d, s.identifies i c due signs reason d → done c due signs reason d :=
    fun _ _ _ _ _ h => h
  have signs_eq : readSigns bs = answered := readSigns_eq bytes
  have nak : addressSigns false = signsOf 0x75 ++ acked false := rfl
  clear_value answered done
  refine ⟨fun h => ?_, fun since hs hb => ?_, fun due hs hb => execRetryWaitExpiry_due hs hb, execRetryWaitExpiry_not_due⟩
  · have none_ := attemptSince_eq_none h
    exact ⟨execDescriptorReadDone_idle none_ _ _, execAddressNak_idle none_ _, execClockHoldTimeout_idle none_ _⟩
  · intro sumFits formatFits rangesFit read
    have attempt := attemptSince_eq_some.2 ⟨hs, hb⟩
    have checked : ∀ reason, descriptorFault bs = reason →
        read reason (if reason.isSome then defaultDescriptor else descriptorOf bs) := fun reason hr =>
      identified _ _ _ _ _ (signs_eq ▸ identifies_of_read attempt bytes at_ hr)
    have sum_iff : checksumOk bs = true ↔ sumFits := checksumOk_iff bs
    have format_iff : formatOk bs = true ↔ formatFits := formatOk_iff bs
    have ranges_iff : rangesOk (descriptorOf bs) = true ↔ rangesFit := rangesOk_iff bs
    clear_value sumFits formatFits rangesFit read
    refine ⟨fun hc => ?_, fun hc hf => ?_, fun hc hf hr => ?_, fun hc hf hr => ?_, ?_⟩
    · exact checked _ (descriptorFault_checksum (Bool.eq_false_iff.2 (mt sum_iff.1 hc)))
    · exact checked _ (descriptorFault_format (sum_iff.2 hc) (Bool.eq_false_iff.2 (mt format_iff.1 hf)))
    · exact checked _ (descriptorFault_range (sum_iff.2 hc) (format_iff.2 hf) (Bool.eq_false_iff.2 (mt ranges_iff.1 hr)))
    · have passed := checked _ (descriptorFault_none (sum_iff.2 hc) (format_iff.2 hf) (ranges_iff.2 hr))
      exact ⟨descriptorOf bs, passed, rfl, rfl, rfl, rfl, rfl, rfl, trims_getElem bs, rfl, rfl⟩
    · rintro c due signs (⟨rfl, rfl, rfl⟩ | ⟨rfl, rfl, rfl⟩)
      · rw [← nak]
        obtain ⟨again, last⟩ := failAttempt_outcome (execAddressNak_attempt attempt at_)
        exact ⟨again, fun h => identified _ _ _ _ _ (last h)⟩
      · obtain ⟨again, last⟩ := failAttempt_outcome (execClockHoldTimeout_attempt attempt at_)
        exact ⟨again, fun h => identified _ _ _ _ _ (last h)⟩

end Sys2Proof.Machine
end

section
/-! SUPPORT. The timebase and the queue along every command: a proof of the statement of the whole machine (R18). -/

namespace Sys2Proof.Machine

open Sys2Proof

/-! ## What a delivered sample can do, for any relation -/

section

variable {R : State → State → Prop} (refl : ∀ a, R a a) (trans : ∀ {a b c}, R a b → R b c → R a c)
  (setTrg : ∀ a x, R a (a.setTrg x)) (acted : ∀ a x n, R a (a.stageActions x n))
  (declared : ∀ a source t, R a (a.declare source t)) (armed : ∀ a, R a a.enterArmed)

include refl trans setTrg acted declared

/-- The evaluation of a sample sets TRG's fields, runs a stage's actions, and may declare the trigger (R95, R97, R99, R100). -/
theorem seek_keeps (s : State) (o : Observed) : R s (s.seek o).1 := by
  unfold State.seek
  split
  · exact refl s
  · extract_lets v trg s1 s2 came
    have h2 : R s s2 := by
      simp only [s2]
      split
      · exact trans (setTrg s _) (acted s1 _ _)
      · exact setTrg s _
    split
    · exact trans h2 (declared _ _ _)
    · split
      · dsimp only
        split
        · exact trans h2 (declared _ _ _)
        · exact h2
      · exact h2

include armed

/-- TRG and ACQ on a held sample: the history and the mark, the entry to ARMED, the evaluation, the declaration (R64, R65, R83). -/
theorem trgSample_keeps (s : State) (it : SampleItem) (offers : List (Four × Nat)) : R s (s.trgSample it offers).1 := by
  have seeks := seek_keeps refl trans setTrg acted declared
  have observed : R s (s.observe it).1 := setTrg s _
  unfold State.trgSample
  extract_lets history r s1 o
  split
  · split
    · exact trans observed (declared _ _ _)
    · split
      · split
        · exact trans (trans observed (armed s1)) (seeks _ o)
        · exact observed
      · exact observed
  · exact trans observed (seeks s1 o)
  · exact observed

/-- A sample is delivered to the lanes, then to TRG and ACQ, and may end the capture (R26, R67, R68). -/
theorem deliver_keeps {D : Nat} {it : SampleItem} (lanes : ∀ a, R a (a.lanesSample D it).1)
    (stopped : ∀ a why, R a (a.enterStopping why)) (s : State) : R s (s.deliver D it).1 := by
  have tested : ∀ a raw came, R a (State.postTest a raw came).1 := fun a raw came => by
    unfold State.postTest
    split
    · split
      · exact stopped a _
      · exact refl a
    · exact refl a
  unfold State.deliver
  dsimp only
  split
  · exact trans (trans (lanes s) (setTrg _ _)) (stopped _ _)
  · exact trans (trans (lanes s) (trgSample_keeps refl trans setTrg acted declared armed _ it _)) (tested _ _ _)

end

/-! ## The clock: what only time-driven events move, and what no command moves -/

/-- The timebase (R18) and the queue of waiting commands. -/
def State.clock (s : State) : Nat × List Instr := (s.timebase, s.pending)

theorem clock_eq_iff {s t : State} : t.clock = s.clock ↔ t.timebase = s.timebase ∧ t.pending = s.pending := Prod.mk_inj

theorem KeepsCore.clock {s t : State} (h : KeepsCore s t) : t.clock = s.clock := clock_eq_iff.2 ⟨h.timebase, h.pending⟩

theorem OnlyPorts.clock {s t : State} (h : OnlyPorts s t) : t.clock = s.clock := by
  unfold OnlyPorts at h
  rw [h]
  rfl

section

variable (s : State)

@[simp] theorem clock_setTimebase (x : Nat) : (s.setTimebase x).clock = (x, s.pending) := rfl
@[simp] theorem clock_setPods (x : Quad Pod) : (s.setPods x).clock = s.clock := rfl
@[simp] theorem clock_setSmp (x : Option Sampling) : (s.setSmp x).clock = s.clock := rfl
@[simp] theorem clock_setSto (x : Store) : (s.setSto x).clock = s.clock := rfl
@[simp] theorem clock_setAcq (x : Acq) : (s.setAcq x).clock = s.clock := rfl
@[simp] theorem clock_setTrg (x : Trg) : (s.setTrg x).clock = s.clock := rfl
@[simp] theorem clock_setLanes (x : Quad Lane) : (s.setLanes x).clock = s.clock := rfl
@[simp] theorem clock_setEvl (x : Evl) : (s.setEvl x).clock = s.clock := rfl
@[simp] theorem clock_setVrn (x : Vrn) : (s.setVrn x).clock = s.clock := rfl
@[simp] theorem clock_setPorts (x : PerPort PortCtl) : (s.setPorts x).clock = s.clock := rfl
@[simp] theorem clock_setPort (p : Port) (x : PortCtl) : (s.setPort p x).clock = s.clock := rfl
@[simp] theorem clock_setPod (i : Four) (x : Pod) : (s.setPod i x).clock = s.clock := rfl
@[simp] theorem clock_raise (p : Port) (n : Notice) : (s.raise p n).clock = s.clock := rfl
@[simp] theorem clock_raiseBoth (n : Notice) : (s.raiseBoth n).clock = s.clock := rfl
@[simp] theorem clock_modifyCapture (name : CapName) (f : Capture → Capture) : (s.modifyCapture name f).clock = s.clock := rfl
@[simp] theorem clock_modifyActive (f : Capture → Capture) : (s.modifyActive f).clock = s.clock := (modifyActive_keeps s f).clock
@[simp] theorem clock_removeCapture (i : Four) : (s.removeCapture i).clock = s.clock := (removeCapture_keeps s i).clock
@[simp] theorem clock_sealFilling (name : CapName) : (s.sealFilling name).clock = s.clock := (sealFilling_keeps s name).clock
@[simp] theorem clock_noteMatches (fx : Quad LaneEffects) : (s.noteMatches fx).clock = s.clock := (noteMatches_keeps s fx).clock
@[simp] theorem clock_enterEvents (fx : Quad LaneEffects) : (s.enterEvents fx).clock = s.clock := (enterAll_keeps _ _ s).clock
@[simp] theorem clock_holdSample (x : Sampling) (name : CapName) (word : ChannelWord) :
    (s.holdSample x name word).1.clock = s.clock := (holdSample_keeps s x name word).clock
@[simp] theorem clock_cancelRender (p : Port) : (s.cancelRender p).clock = s.clock := (cancelRender_keeps s p).clock
@[simp] theorem clock_resetRender (p : Port) : (s.resetRender p).clock = s.clock := (resetRender_keeps s p).clock

/-! ### The lanes -/

@[simp] theorem clock_handOn (lanes : Quad Lane) (out : Quad (List Emission)) (n : Nat) :
    (s.handOn lanes out n).1.clock = s.clock := by simp [State.handOn]

@[simp] theorem clock_lanesSample (D : Nat) (it : SampleItem) : (s.lanesSample D it).1.clock = s.clock := by
  simp [State.lanesSample]

@[simp] theorem clock_lanesOut : s.lanesOut.clock = s.clock := rfl

@[simp] theorem clock_lanesStop (t n : Nat) : (s.lanesStop t n).clock = s.clock := by simp [State.lanesStop]

/-! ### Arming, and the end of a capture -/

theorem clock_armSteps {s u : State} {name : CapName} (h : s.armSteps = .ok (u, name)) : u.clock = s.clock := by
  unfold State.armSteps at h
  split at h
  · cases h
  · split at h
    · cases h
    · split at h
      · cases h
      · next hsec => cases h; exact (secure_keeps hsec).clock

theorem clock_armAnswer : (armAnswer s).1.clock = s.clock := by
  unfold armAnswer
  split
  · rfl
  · split
    · rfl
    · next harm => exact (clock_setAcq _ _).trans (clock_armSteps harm)

@[simp] theorem clock_rearm : s.rearm.clock = s.clock := by
  unfold State.rearm
  split
  · next harm => exact (clock_setAcq _ _).trans (clock_armSteps harm)
  · rfl

@[simp] theorem clock_finishWrite : s.finishWrite.clock = s.clock := by
  unfold State.finishWrite
  split
  · rfl
  · dsimp only
    split
    · simp
    · split
      · simp
      · split <;> simp

@[simp] theorem clock_beginFinalWrite : s.beginFinalWrite.clock = s.clock := by
  unfold State.beginFinalWrite
  split
  · split <;> simp
  · rfl

@[simp] theorem clock_stopEngine (why : EndReason) : (s.stopEngine why).clock = s.clock := rfl

@[simp] theorem clock_enterStopping (why : EndReason) : (s.enterStopping why).clock = s.clock := by
  simp [State.enterStopping]

theorem clock_stopAnswer : (stopAnswer s).1.clock = s.clock := by
  unfold stopAnswer
  split
  · rfl
  · rfl
  · split <;> simp

theorem clock_forceAnswer : (forceAnswer s).1.clock = s.clock := by
  unfold forceAnswer
  split
  · dsimp only
    split <;> rfl
  · dsimp only
    split <;> rfl
  · rfl

theorem clock_discardActive : s.discardActive.clock = s.clock := by
  unfold State.discardActive
  dsimp only
  split <;> simp

theorem clock_abortAnswer : (abortAnswer s).1.clock = s.clock := by
  unfold abortAnswer
  split
  · rfl
  · simp
  · simp [clock_discardActive]

/-! ### The trigger sequencer -/

@[simp] theorem clock_beginPulse : s.beginPulse.clock = s.clock := by
  unfold State.beginPulse
  dsimp only
  split <;> rfl

@[simp] theorem clock_stageActions (a : StageActions) (n : Nat) : (s.stageActions a n).clock = s.clock := by
  unfold State.stageActions
  dsimp only
  split <;> split <;> simp

@[simp] theorem clock_declare (source : TrigSource) (t : Nat) : (s.declare source t).clock = s.clock := by
  unfold State.declare
  cases s.acq.active <;> simp

@[simp] theorem clock_deliver (D : Nat) (it : SampleItem) : (s.deliver D it).1.clock = s.clock :=
  deliver_keeps (R := fun a b => b.clock = a.clock) (fun _ => rfl) (fun h k => k.trans h) (fun _ _ => rfl)
    (fun _ _ _ => clock_stageActions _ _ _) (fun _ _ _ => clock_declare _ _ _) (fun _ => rfl)
    (fun u => clock_lanesSample u D it) (fun _ _ => clock_enterStopping _ _) s

@[simp] theorem clock_setOrigin (x : Sampling) : (s.setOrigin x).clock = s.clock := by
  unfold State.setOrigin
  split <;> simp

/-! ### The plan and the resets -/

theorem clock_editIdle (p : Port) (plan : Plan) : (s.editIdle p plan).1.clock = s.clock := by
  unfold State.editIdle
  split <;> rfl

theorem clock_editProbe (p : Port) (x : ProbePlan) : (s.editProbe p x).1.clock = s.clock := by
  simp [State.editProbe, State.copyThresholds, State.acceptPlan]

theorem clock_editMatch (p : Port) (l : Four) (entries : List MatchEntry) : (s.editMatch p l entries).1.clock = s.clock := by
  unfold State.editMatch
  split
  · rfl
  · simp [State.acceptPlan]

theorem clock_inRangeOr {α : Type} (sec : Section) (r : Except FieldFault α) {f : α → State × Answer}
    (h : ∀ x, (f x).1.clock = s.clock) : (s.inRangeOr sec r f).1.clock = s.clock := by
  unfold State.inRangeOr
  split
  · rfl
  · exact h _

theorem clock_planEditAnswer (p : Port) (sec : Byte) (expected : BitVec 32) (contents : List Byte) :
    (planEditAnswer p sec expected contents s).1.clock = s.clock := by
  unfold planEditAnswer
  split
  · rfl
  · split
    · rfl
    · exact clock_inRangeOr _ _ _ fun _ => clock_editIdle _ _ _
    · exact clock_inRangeOr _ _ _ fun _ => clock_editProbe _ _ _
    · exact clock_inRangeOr _ _ _ fun _ => clock_editIdle _ _ _
    · exact clock_inRangeOr _ _ _ fun _ => clock_editIdle _ _ _
    · exact clock_inRangeOr _ _ _ fun _ => clock_editMatch _ _ _ _

theorem clock_portResetAnswer (p : Port) : (portResetAnswer p s).1.clock = s.clock := by simp [portResetAnswer]

theorem clock_engineResetAnswer (p : Port) : (engineResetAnswer p s).1.clock = s.clock := by
  unfold engineResetAnswer
  split
  · simp [State.engineReset]
  · rfl

theorem clock_podRescanAnswer (pod : Byte) : (podRescanAnswer pod s).1.clock = s.clock := by
  unfold podRescanAnswer
  split
  · rfl
  · split
    · rfl
    · split <;> rfl

/-! ## The commands of a port take no time (R18, log 2) -/

/-- A request answers a next state, and leaves the clock as its owner's answer does. -/
theorem request_clock {f : State → State × Answer} (answer : ∀ u, (f u).1.clock = u.clock) (c : Instr) (p : Port) (tag : Byte) :
    ∃ t, s.request c p tag f = .next t ∧ t.clock = s.clock := by
  have next : ∃ t, s.request c p tag f = .next t := by
    rcases request_cases s c p tag f with ⟨-, e⟩ | ⟨-, -, e⟩ | ⟨-, -, e⟩ | ⟨-, -, e⟩ <;> exact ⟨_, e⟩
  obtain ⟨t, h⟩ := next
  exact ⟨t, h, request_keeps (R := fun a b => b.clock = a.clock) (fun h k => k.trans h) OnlyPorts.clock answer h⟩

end

/-- A command of a port answers a next state and leaves the timebase and the queue as they were. -/
theorem exec_of_port {c : Instr} (hp : (portOf c).isSome) (s : State) : ∃ t, exec c s = .next t ∧ t.clock = s.clock := by
  cases c with
  | sendTransaction p bytes => exact ⟨_, rfl, (transaction_onlyPorts s p _ bytes).clock⟩
  | fetchTransaction p n => exact ⟨_, rfl, (transaction_onlyPorts s p _ _).clock⟩
  | otherKindTransaction p kind bytes => exact ⟨_, rfl, (transaction_onlyPorts s p kind bytes).clock⟩
  | ident p tag => exact request_clock s (f := fun s => (s, .ident p s.timebase)) (fun _ => rfl) _ _ _
  | planRead p tag sec => exact request_clock s (fun u => by rw [planReadAnswer_state]) _ _ _
  | planEdit p tag sec expected contents => exact request_clock s (fun u => clock_planEditAnswer u p sec expected contents) _ _ _
  | arm p tag => exact request_clock s clock_armAnswer _ _ _
  | stop p tag => exact request_clock s clock_stopAnswer _ _ _
  | force p tag => exact request_clock s clock_forceAnswer _ _ _
  | abort p tag => exact request_clock s clock_abortAnswer _ _ _
  | status p tag => exact request_clock s (f := fun s => (s, .status s.statusReport)) (fun _ => rfl) _ _ _
  | captureList p tag =>
    exact request_clock s (f := fun s => (s, .captureList (numbered.map s.sto.listEntry))) (fun _ => rfl) _ _ _
  | captureInfo p tag slot num => exact request_clock s (fun u => by rw [captureInfoAnswer_state]) _ _ _
  | retain p tag slot num => exact request_clock s (fun u => (retainAnswer_keeps p slot num u).clock) _ _ _
  | release p tag slot num => exact request_clock s (fun u => (releaseAnswer_keeps p slot num u).clock) _ _ _
  | readRecords p tag slot num start count =>
    exact request_clock s (fun u => (readRecordsAnswer_keeps slot num start count u).clock) _ _ _
  | eventsRead p tag count => exact request_clock s (fun u => (eventsReadAnswer_keeps p count u).clock) _ _ _
  | eventsSeek p tag target => exact request_clock s (fun u => (eventsSeekAnswer_keeps p target u).clock) _ _ _
  | eventsThreshold p tag threshold =>
    exact request_clock s (fun u => (eventsThresholdAnswer_keeps p threshold u).clock) _ _ _
  | renderStart p tag slot num start width columns channels lanes =>
    exact request_clock s (fun u => (renderStartAnswer_keeps p slot num start width columns channels lanes u).clock) _ _ _
  | renderFetch p tag count => exact request_clock s (fun u => (renderFetchAnswer_keeps p count u).clock) _ _ _
  | renderCancel p tag => exact request_clock s (f := renderCancelAnswer p) (fun u => clock_cancelRender u p) _ _ _
  | noticeRead p tag => exact request_clock s (f := noticeReadAnswer p) (fun _ => rfl) _ _ _
  | noticeEnable p tag enables => exact request_clock s (fun u => (noticeEnableAnswer_onlyPorts p enables u).clock) _ _ _
  | podInfo p tag pod => exact request_clock s (fun u => by rw [podInfoAnswer_state]) _ _ _
  | podRescan p tag pod => exact request_clock s (fun u => clock_podRescanAnswer u pod) _ _ _
  | storeHealth p tag clear => exact request_clock s (fun u => (storeHealthAnswer_keeps clear u).clock) _ _ _
  | storeTest p tag kind => exact request_clock s (fun u => (storeTestAnswer_keeps kind u).clock) _ _ _
  | portReset p tag => exact request_clock s (fun u => clock_portResetAnswer u p) _ _ _
  | engineReset p tag => exact request_clock s (fun u => clock_engineResetAnswer u p) _ _ _
  | _ => exact absurd hp Bool.false_ne_true

/-! ## The other commands bring time, or leave it -/

/-- The queue stays, and the timebase does not run back (R18, log 2). -/
def TimeForward (s t : State) : Prop := t.pending = s.pending ∧ s.timebase ≤ t.timebase

theorem timeForward_of_clock {s t : State} (h : t.clock = s.clock) : TimeForward s t :=
  ⟨(clock_eq_iff.1 h).2, (clock_eq_iff.1 h).1.ge⟩

/-- An event that comes at `m`, or now where `m` has passed, and does nothing else to the clock. -/
theorem timeForward_of_advance {s t : State} (m : Nat) (h : t.clock = (s.advanceTo m).clock) : TimeForward s t :=
  ⟨(clock_eq_iff.1 h).2, (clock_eq_iff.1 h).1.symm ▸ Nat.le_max_left s.timebase m⟩

theorem takeSample_forward (s : State) (w : ChannelWord) : TimeForward s (s.takeSample w).1 := by
  unfold State.takeSample
  split
  · next x name _ _ =>
    refine timeForward_of_advance x.nextRaw ?_
    dsimp only
    split <;> simp
  · exact timeForward_of_clock rfl

/-- A row of the sample step: the whole sample step, or nothing (logs 4, 5). -/
theorem sampleRow_forward (s : State) (b : Bool) (w : ChannelWord) : TimeForward s (if b then (s.takeSample w).1 else s) := by
  split
  · exact takeSample_forward s w
  · exact timeForward_of_clock rfl

theorem failAttempt_forward (s : State) (i : Four) (signs : List BusSign) (t : Nat) : TimeForward s (s.failAttempt i signs t) := by
  rw [failAttempt_eq]
  refine timeForward_of_advance t ?_
  split <;> rfl

theorem finishAttempt_forward (s : State) (i : Four) (bytes : List Byte) (t : Nat) :
    TimeForward s (s.finishAttempt i bytes t) := by
  rw [finishAttempt_eq]
  exact timeForward_of_advance t rfl

theorem clock_losePod (s : State) (i : Four) (moment : Nat) : (s.losePod i moment).clock = s.clock := by
  unfold State.losePod
  split
  · split
    · dsimp only
      split <;> simp
    · rfl
  · rfl

/-- The commands that come in on no port, but for power-on, answer a next state and do not run the timebase back. -/
theorem exec_of_row {c : Instr} (hp : (portOf c).isSome = false) (hn : c ≠ .nrst) (s : State) :
    ∃ t, exec c s = .next t ∧ TimeForward s t := by
  have same : TimeForward s s := timeForward_of_clock rfl
  cases c with
  | nrst => exact absurd rfl hn
  | sensePresent i at_ =>
    unfold exec execSensePresent
    dsimp only
    split
    · exact ⟨s, rfl, same⟩
    · exact ⟨_, rfl, timeForward_of_advance at_ rfl⟩
  | debounceExpiry i =>
    unfold exec execDebounceExpiry
    dsimp only
    split
    · exact ⟨_, rfl, timeForward_of_advance _ rfl⟩
    · exact ⟨s, rfl, same⟩
  | podDetach i at_ =>
    have moment : s.timebase ≤ s.detachMoment at_ := (Nat.le_max_left _ _).trans (Nat.le_max_left _ _)
    unfold exec execPodDetach
    dsimp only
    split
    · exact ⟨_, rfl, rfl, moment⟩
    · refine ⟨_, rfl, ?_⟩
      obtain ⟨time, queue⟩ := clock_eq_iff.1 (clock_losePod ((((s.setTimebase (s.detachMoment at_)).setPod i _).raiseBoth
        .podChanged)) i (s.detachMoment at_))
      exact ⟨queue, time.symm ▸ moment⟩
  | descriptorReadDone i bytes at_ =>
    unfold exec execDescriptorReadDone
    dsimp only
    split
    · exact ⟨_, rfl, finishAttempt_forward _ _ _ _⟩
    · exact ⟨s, rfl, same⟩
  | addressNak i at_ =>
    unfold exec execAddressNak
    dsimp only
    split
    · exact ⟨_, rfl, failAttempt_forward _ _ _ _⟩
    · exact ⟨s, rfl, same⟩
  | clockHoldTimeout i at_ =>
    unfold exec execClockHoldTimeout
    dsimp only
    split
    · exact ⟨_, rfl, failAttempt_forward _ _ _ _⟩
    · exact ⟨s, rfl, same⟩
  | retryWaitExpiry i =>
    unfold exec execRetryWaitExpiry
    dsimp only
    split
    · exact ⟨_, rfl, timeForward_of_advance _ rfl⟩
    · exact ⟨s, rfl, same⟩
  | triggerInEdge level at_ =>
    unfold exec execTriggerInEdge
    dsimp only
    split
    · exact ⟨s, rfl, same⟩
    · exact ⟨_, rfl, timeForward_of_advance at_ rfl⟩
  | triggerOutPulseEnd =>
    unfold exec execTriggerOutPulseEnd
    dsimp only
    split
    · exact ⟨s, rfl, same⟩
    · exact ⟨_, rfl, timeForward_of_advance _ rfl⟩
  | firstSample w => exact ⟨_, rfl, sampleRow_forward s _ w⟩
  | sample w => exact ⟨_, rfl, sampleRow_forward s _ w⟩
  | armedEntry w => exact ⟨_, rfl, sampleRow_forward s _ w⟩
  | withinExpiry w => exact ⟨_, rfl, sampleRow_forward s _ w⟩
  | stageSatisfied w => exact ⟨_, rfl, sampleRow_forward s _ w⟩
  | postDone w => exact ⟨_, rfl, sampleRow_forward s _ w⟩
  | twoWireStall l w => exact ⟨_, rfl, sampleRow_forward s _ w⟩
  | clockedIdleEnd l w => exact ⟨_, rfl, sampleRow_forward s _ w⟩
  | asyncIdleEnd l w => exact ⟨_, rfl, sampleRow_forward s _ w⟩
  | biphaseIdleEnd l w => exact ⟨_, rfl, sampleRow_forward s _ w⟩
  | drainLimit l w => exact ⟨_, rfl, sampleRow_forward s _ w⟩
  | finalWriteComplete =>
    unfold exec execFinalWriteComplete
    dsimp only
    split
    · exact ⟨_, rfl, timeForward_of_clock (clock_finishWrite s)⟩
    · exact ⟨s, rfl, same⟩
  | columnItem =>
    have next : ∃ t, exec .columnItem s = .next t := by
      unfold exec execColumnItem
      dsimp only
      split
      · exact ⟨_, rfl⟩
      · split
        · exact ⟨_, rfl⟩
        · split <;> exact ⟨_, rfl⟩
    exact next.imp fun t h => ⟨h, timeForward_of_clock (execColumnItem_keeps h).clock⟩
  | annotationItem =>
    have next : ∃ t, exec .annotationItem s = .next t := by
      unfold exec execAnnotationItem
      dsimp only
      split
      · exact ⟨_, rfl⟩
      · split
        · exact ⟨_, rfl⟩
        · split <;> exact ⟨_, rfl⟩
    exact next.imp fun t h => ⟨h, timeForward_of_clock (execAnnotationItem_keeps h).clock⟩
  | _ => exact absurd hp.symm Bool.false_ne_true

/-- Settles O2: each port command leaves the clock, each other command but NRST lets the timebase stay or rise, and all of them
answer a next state. -/
theorem everyCommandCompletes : Obligations.EveryCommandCompletes := by
  refine ⟨fun c s => ?_, fun s h => ?_, fun c s t hn h => ?_⟩
  · obtain rfl | hn := eq_or_ne c .nrst
    · exact ⟨_, rfl, rfl⟩
    · by_cases hp : (portOf c).isSome
      · exact (exec_of_port hp s).imp fun t ⟨h, k⟩ => ⟨h, (clock_eq_iff.1 k).2⟩
      · exact (exec_of_row (Bool.eq_false_iff.2 hp) hn s).imp fun t ⟨h, k⟩ => ⟨h, k.1⟩
  · unfold step
    rw [h]
  · by_cases hp : (portOf c).isSome
    · obtain ⟨u, hu, k⟩ := exec_of_port hp s
      obtain rfl : u = t := Host.Outcome.next.inj (hu.symm.trans h)
      have time := (clock_eq_iff.1 k).1
      exact ⟨time.ge, fun _ => time⟩
    · obtain ⟨u, hu, k⟩ := exec_of_row (Bool.eq_false_iff.2 hp) hn s
      obtain rfl : u = t := Host.Outcome.next.inj (hu.symm.trans h)
      exact ⟨k.2, fun h => absurd h hp⟩

end Sys2Proof.Machine
end

section
/-! SUPPORT. The sample step in the store: holding a sample (R25, R38), handing on with no lane at work, the entry to STOPPING, and what
the delivery of a sample keeps of its holding (R26). -/

namespace Sys2Proof.Machine

open Sys2Proof

/-! ## Small facts of the collections and the store -/

theorem quad_ext {α : Type} {x y : Quad α} (h : ∀ i, x.get i = y.get i) : x = y := by
  cases x
  cases y
  have h0 := h 0
  have h1 := h 1
  have h2 := h 2
  have h3 := h 3
  simp only [Quad.get] at h0 h1 h2 h3
  rw [h0, h1, h2, h3]

theorem quad_set_same {α : Type} {x : Quad α} {i : Four} {v : α} (h : x.get i = v) : x.set i v = x := by
  subst h
  rcases four_cases i with rfl | rfl | rfl | rfl <;> rfl

/-- A search for the FILLING block reads the block map alone. -/
theorem filling_of_blocks {x y : Store} (h : y.blocks = x.blocks) (name : CapName) : y.filling name = x.filling name := by
  unfold Store.filling
  rw [h]

/-- A pending store-test request corrupts the record that is placed next (R54). -/
theorem newRecord_eq (x : Store) (word : ChannelWord) : Rec.mk word 1 (testFlips x.test) = x.newRecord word := by
  unfold Store.newRecord
  cases x.test with
  | none => rfl
  | some k => cases k <;> rfl

/-- The block with the next record of the word appended (R38, R54). -/
theorem append_newRecord (x : Store) (b : Block) (word : ChannelWord) (index : Nat) :
    b.append (Rec.mk word 1 (testFlips x.test)) index = { b with
      records := b.records ++ [x.newRecord word], first := if b.records = [] then index else b.first } := by
  simp only [Block.append, newRecord_eq, List.isEmpty_iff]

theorem extended_eq (b : Block) :
    { b with records := modifyLast (fun r => { r with run := r.run + 1 }) b.records } = b.extended := by
  rw [modifyLast_eq]
  rfl

/-- A sample extends the run exactly when the run has its word and room for it (R24). -/
theorem extends_eq_some {x : Sampling} {word : ChannelWord} {r : Run} (hr : x.run = some r) (hw : r.word = word)
    (hlen : r.len < 65536) : x.extends? word = some r := by
  simp [Sampling.extends?, hr, hw, Config.maxRun, hlen]

theorem extends_eq_none {x : Sampling} {word : ChannelWord} (h : ∀ r, x.run = some r → r.word = word → 65536 ≤ r.len) :
    x.extends? word = none := by
  unfold Sampling.extends?
  split
  · next r hr =>
    exact if_neg fun ⟨hw, hlen⟩ => Nat.not_lt.2 (h r hr hw) hlen
  · rfl

/-! ## Holding a sample (R25) -/

theorem holdSample_extends {s : State} {x : Sampling} {name : CapName} {word : ChannelWord} {r : Run} {n : Nat} {b : Block}
    (he : x.extends? word = some r) (hf : s.sto.filling name = some (n, b)) :
    s.holdSample x name word = (s.setSto { s.sto with blocks := insertBlock s.sto.blocks n b.extended }, true) := by
  simp only [State.holdSample, he, Store.extendRecord, hf, extended_eq]

theorem holdSample_places {s : State} {x : Sampling} {word : ChannelWord} (he : x.extends? word = none) (name : CapName) :
    s.holdSample x name word = s.placeRecord name word x.next := by
  simp only [State.holdSample, he]

theorem placeRecord_room {s : State} {name : CapName} {c : Capture} {n : Nat} {b : Block} (hf : s.sto.filling name = some (n, b))
    (hc : s.sto.capture name = some c) (room : b.recordCount < Config.recordsPerBlock) (word : ChannelWord) (index : Nat) :
    s.placeRecord name word index = (s.setSto (s.sto.appendRecord n b word index), true) := by
  simp only [State.placeRecord, hf, hc, if_pos room]

/-- A held sample is delivered (R26). -/
theorem takeSample_delivers {s u : State} {x : Sampling} {name : CapName} {w : ChannelWord} (hx : s.smp = some x)
    (ha : s.acq.active = some name)
    (hold : ((s.advanceTo x.nextRaw).setOrigin x).holdSample x name (x.nextWord w) = (u, true)) :
    s.takeSample w = (u.setSmp (some (x.held (x.nextWord w)))).deliver x.div (x.item name (x.nextWord w)) := by
  rw [takeSample_eq s x name w hx ha, hold, if_pos rfl]

theorem setOrigin_later (s : State) {x : Sampling} (h : x.next ≠ 0) : s.setOrigin x = s := if_neg h

/-! ## Placing a record does not read the timebase -/

section

variable (s : State) (T : Nat)

theorem rendersGone_setTimebase (name : CapName) : (s.setTimebase T).rendersGone name = (s.rendersGone name).setTimebase T := by
  have one : ∀ (u : State) (p : Port),
      (if ((u.setTimebase T).vrn.ctx.get p).names name then (u.setTimebase T).renderGone p else u.setTimebase T) =
        (if (u.vrn.ctx.get p).names name then u.renderGone p else u).setTimebase T := by
    intro u p
    rw [State.setTimebase_vrn]
    split <;> rfl
  simp only [State.rendersGone, allPorts, List.foldl_cons, List.foldl_nil, one]

theorem removeCapture_setTimebase (i : Four) : (s.setTimebase T).removeCapture i = (s.removeCapture i).setTimebase T := by
  unfold State.removeCapture
  simp only [State.setTimebase_sto, State.setTimebase_evl]
  cases s.sto.nameAt i with
  | none => rfl
  | some name =>
    dsimp only
    rw [← rendersGone_setTimebase]
    rfl

theorem reclaim_setTimebase : (s.setTimebase T).reclaim = s.reclaim.map fun u => u.setTimebase T := by
  unfold State.reclaim
  rw [State.setTimebase_sto]
  cases s.sto.victim with
  | none => rfl
  | some i =>
    simp only [Option.map_some, removeCapture_setTimebase]
    rfl

theorem recycle_setTimebase (name : CapName) (c : Capture) (index : Nat) :
    (s.setTimebase T).recycle name c index = (s.recycle name c index).setTimebase T := by
  unfold State.recycle
  dsimp only [State.setTimebase_sto, State.setSto_sto]
  cases (s.sto.recycle name c index).capture name with
  | none => rfl
  | some c' =>
    dsimp only
    cases (s.sto.recycle name c index).oldestTime c' with
    | none => rfl
    | some t => rfl

theorem nextBlock_setTimebase (name : CapName) (c : Capture) (index : Nat) :
    (s.setTimebase T).nextBlock name c index = (s.nextBlock name c index).map fun u => u.setTimebase T := by
  have recycled : (if c.mode = .window && s.sto.canRecycle c then some ((s.recycle name c index).setTimebase T) else none) =
      (if c.mode = .window && s.sto.canRecycle c then some (s.recycle name c index) else none).map fun u => u.setTimebase T := by
    split <;> rfl
  unfold State.nextBlock
  simp only [State.setTimebase_sto, reclaim_setTimebase, recycle_setTimebase]
  split
  · cases s.sto.lowestFree with
    | some n => rfl
    | none =>
      cases s.reclaim with
      | none => exact recycled
      | some u =>
        simp only [Option.map_some, State.setTimebase_sto]
        cases u.sto.lowestFree with
        | none => exact recycled
        | some n => rfl
  · exact recycled

theorem placeRecord_setTimebase (name : CapName) (word : ChannelWord) (index : Nat) :
    (s.setTimebase T).placeRecord name word index =
      ((s.placeRecord name word index).1.setTimebase T, (s.placeRecord name word index).2) := by
  unfold State.placeRecord
  simp only [State.setTimebase_sto]
  cases s.sto.filling name with
  | none => rfl
  | some f =>
    cases s.sto.capture name with
    | none => rfl
    | some c =>
      dsimp only
      split
      · rfl
      · have e : (s.setTimebase T).setSto (s.sto.seal f.1) = (s.setSto (s.sto.seal f.1)).setTimebase T := rfl
        rw [e, nextBlock_setTimebase]
        cases (s.setSto (s.sto.seal f.1)).nextBlock name c index with
        | none => rfl
        | some u =>
          simp only [Option.map_some, State.setTimebase_sto]
          cases u.sto.filling name with
          | none => rfl
          | some g => rfl

end

/-! ## Handing on where the lanes emit nothing -/

/-- What a lane that emits nothing does outside itself: it keeps its last start time. -/
def Lane.noEffects (x : Lane) : LaneEffects :=
  { lastStart := x.ctx.bind LaneCtx.lastStart, events := [], offers := [], hold := 0, release := 0, notify := false, frames := 0,
    errors := 0 }

theorem effectsOfLane_nil (s : State) (i : Four) (x : Lane) : s.effectsOfLane i x [] = x.noEffects := by
  unfold State.effectsOfLane Lane.noEffects
  cases x.ctx <;> rfl

theorem allEffects_nil (s : State) (lanes : Quad Lane) {out : Quad (List Emission)} (h : ∀ i, out.get i = []) :
    s.allEffects lanes out = lanes.map Lane.noEffects := by
  refine quad_ext fun i => ?_
  unfold State.allEffects
  rw [get_numbered, get_map, h i, effectsOfLane_nil]

theorem withLastStart_own (x : Lane) : x.withLastStart x.noEffects.lastStart = x := by
  unfold Lane.withLastStart Lane.noEffects
  obtain ⟨state, frame, pend, ctx⟩ := x
  cases ctx <;> rfl

theorem lanesAfter_noEffects (lanes : Quad Lane) (n : Nat) : lanesAfter lanes (lanes.map Lane.noEffects) n = lanes := by
  refine quad_ext fun i => ?_
  unfold lanesAfter requestLanes
  simp only [get_map, withLastStart_own]
  simp [Quad.map, Quad.toList, Lane.noEffects]

/-- The counts of frames and errors held to their 16 bits, as counting nothing leaves them (R112). -/
def Capture.clampCounts (c : Capture) : Capture :=
  { c with
    frames := numbered.map fun i => min Config.max16 (c.frames.get i)
    errors := numbered.map fun i => min Config.max16 (c.errors.get i) }

theorem clampCounts_of_fit {c : Capture} (h : c.countsFit) : c.clampCounts = c := by
  have frames : (numbered.map fun i => min Config.max16 (c.frames.get i)) = c.frames := quad_ext fun i => by
    rw [get_numbered]
    exact Nat.min_eq_right (h i).1
  have errors : (numbered.map fun i => min Config.max16 (c.errors.get i)) = c.errors := quad_ext fun i => by
    rw [get_numbered]
    exact Nat.min_eq_right (h i).2
  unfold Capture.clampCounts
  rw [frames, errors]

theorem countLanes_noEffects (c : Capture) (lanes : Quad Lane) : c.countLanes (lanes.map Lane.noEffects) = c.clampCounts := by
  simp only [Capture.countLanes, Capture.clampCounts, get_map]
  rfl

theorem handOn_nothing (s : State) (lanes : Quad Lane) {out : Quad (List Emission)} (n : Nat) (h : ∀ i, out.get i = []) :
    s.handOn lanes out n = ((s.setLanes lanes).modifyActive Capture.clampCounts, []) := by
  unfold State.handOn
  simp only [allEffects_nil s lanes h, lanesAfter_noEffects, countLanes_noEffects]
  rfl

/-- No lane at work: each leaves the sample as it is. -/
theorem lanesHandle_off {s : State} (h : s.lanesOff) (D : Nat) (it : SampleItem) :
    s.lanesHandle D it = s.lanes.map fun x => (x, [], []) := by
  refine quad_ext fun i => ?_
  unfold State.lanesHandle laneHandle
  rw [get_numbered, get_map]
  split
  · rfl
  · rw [if_pos (h i)]

theorem lanesSample_off {s : State} (h : s.lanesOff) (D : Nat) (it : SampleItem) :
    s.lanesSample D it = (s.modifyActive Capture.clampCounts, [], []) := by
  have same : (s.lanes.map fun x => (x, ([] : List Emission), ([] : List Happening))).map (fun x => x.1) = s.lanes :=
    quad_ext fun i => by rw [get_map, get_map]
  unfold State.lanesSample
  dsimp only
  rw [lanesHandle_off h, same, handOn_nothing s s.lanes _ fun i => by rw [get_map, get_map]]
  rfl

/-- A lane that is OFF has no frame to cut off (R123). -/
theorem partials_off {s : State} (off : s.lanesOff) (t : Nat) (i : Four) : (s.partials t).get i = [] := by
  unfold State.partials lanePartial
  rw [get_numbered]
  split
  · rw [off i]; rfl
  · rfl

theorem lanesStop_off {s : State} (h : s.lanesOff) (t n : Nat) :
    s.lanesStop t n = (s.modifyActive Capture.clampCounts).lanesOut := by
  unfold State.lanesStop
  rw [handOn_nothing s s.lanes n (partials_off h t)]
  rfl

end Sys2Proof.Machine
end

section
/-! SUPPORT. What the delivery of a held sample keeps of its holding, and the entry to STOPPING (R26, R70). -/

namespace Sys2Proof.Machine

open Sys2Proof

/-! ## What delivery keeps of the holding (R25, R26) -/

/-- The named capture is ACTIVE and not COMPLETE, and it has a FILLING block, in a store of canonical form. -/
structure State.Holding (s : State) (name : CapName) (c : Capture) : Prop where
  wf : s.sto.wf = true
  active : s.acq.active = some name
  capture : s.sto.capture name = some c
  incomplete : c.complete = false
  filling : (s.sto.filling name).isSome = true

/-- With no lane at work: of STO only the named capture's slot may have changed, and EVL, VRN, PRB, the free choices and the request
slots are as they were. -/
structure NoLaneStep (name : CapName) (s t : State) : Prop where
  lanes : t.lanesOff
  sto : t.sto = { s.sto with slots := t.sto.slots }
  slots : ∀ i, i ≠ name.slot → t.sto.slots.get i = s.sto.slots.get i
  evl : t.evl = s.evl
  vrn : t.vrn = s.vrn
  pods : t.pods = s.pods
  freeIx : t.freeIx = s.freeIx
  requests : s.slotsKept t

theorem NoLaneStep.trans {name : CapName} {s t u : State} (h : NoLaneStep name s t) (k : NoLaneStep name t u) :
    NoLaneStep name s u :=
  ⟨k.lanes, by rw [k.sto, h.sto], fun i hi => (k.slots i hi).trans (h.slots i hi), k.evl.trans h.evl, k.vrn.trans h.vrn,
    k.pods.trans h.pods, k.freeIx.trans h.freeIx, fun q => (k.requests q).trans (h.requests q)⟩

/-- What the rest of a sample step keeps of the holding of its sample: the capture `c`, now `c'`, its blocks, its head and its origin. -/
structure HoldKept (name : CapName) (s : State) (c : Capture) (t : State) (c' : Capture) : Prop where
  holding : t.Holding name c'
  head : c'.head = c.head
  origin : c'.origin = c.origin
  owned : t.sto.owned name = s.sto.owned name
  test : t.sto.test = s.sto.test
  quiet : s.lanesOff → NoLaneStep name s t

/-- A part of the sample step after the holding, from a state in which the sample is held. -/
def AfterHold (name : CapName) (s t : State) : Prop := ∀ c, s.Holding name c → ∃ c', HoldKept name s c t c'

theorem AfterHold.trans {name : CapName} {s t u : State} (h : AfterHold name s t) (k : AfterHold name t u) : AfterHold name s u := by
  intro c hc
  obtain ⟨c1, h1⟩ := h c hc
  obtain ⟨c2, h2⟩ := k c1 h1.holding
  exact ⟨c2, h2.holding, h2.head.trans h1.head, h2.origin.trans h1.origin, h2.owned.trans h1.owned, h2.test.trans h1.test,
    fun off => (h1.quiet off).trans (h2.quiet (h1.quiet off).lanes)⟩

/-- A part that leaves STO and the ACTIVE capture as they were. -/
theorem AfterHold.of_sto {name : CapName} {s t : State} (sto : t.sto = s.sto) (active : t.acq.active = s.acq.active)
    (quiet : s.lanesOff → NoLaneStep name s t) : AfterHold name s t := fun c h =>
  ⟨c, ⟨sto ▸ h.wf, active.trans h.active, sto ▸ h.capture, h.incomplete, sto ▸ h.filling⟩, rfl, rfl,
    by rw [sto], by rw [sto], quiet⟩

/-- A part that reaches nothing but the timebase, SMP, TRG and ACQ's other fields. -/
theorem AfterHold.of_same {name : CapName} {s t : State} (sto : t.sto = s.sto) (active : t.acq.active = s.acq.active)
    (lanes : t.lanes = s.lanes) (evl : t.evl = s.evl) (vrn : t.vrn = s.vrn) (pods : t.pods = s.pods) (freeIx : t.freeIx = s.freeIx)
    (requests : s.slotsKept t) : AfterHold name s t :=
  AfterHold.of_sto sto active fun off =>
    ⟨fun l => lanes ▸ off l, by rw [sto], fun _ _ => by rw [sto], evl, vrn, pods, freeIx, requests⟩

theorem AfterHold.refl (name : CapName) (s : State) : AfterHold name s s :=
  .of_same rfl rfl rfl rfl rfl rfl rfl fun _ => rfl

theorem setTrg_afterHold (name : CapName) (s : State) (x : Trg) : AfterHold name s (s.setTrg x) :=
  .of_same rfl rfl rfl rfl rfl rfl rfl fun _ => rfl

theorem setSmp_afterHold (name : CapName) (s : State) (x : Option Sampling) : AfterHold name s (s.setSmp x) :=
  .of_same rfl rfl rfl rfl rfl rfl rfl fun _ => rfl

theorem setAcq_afterHold (name : CapName) (s : State) {x : Acq} (h : x.active = s.acq.active) : AfterHold name s (s.setAcq x) :=
  .of_same rfl h rfl rfl rfl rfl rfl fun _ => rfl

theorem raiseBoth_afterHold (name : CapName) (s : State) (n : Notice) : AfterHold name s (s.raiseBoth n) :=
  .of_same rfl rfl rfl rfl rfl rfl rfl (raiseBoth_keeps s n).slot

theorem beginPulse_afterHold (name : CapName) (s : State) : AfterHold name s s.beginPulse := by
  unfold State.beginPulse
  dsimp only
  split
  · exact .refl name s
  · exact setTrg_afterHold name s _

/-- Holds and releases do not change a lane that is OFF (R98, R106). -/
theorem requestLanes_off {lanes : Quad Lane} (h : ∀ i, (lanes.get i).state = .off) (hold release : LaneSet) (n : Nat) :
    requestLanes lanes hold release n = lanes := by
  refine quad_ext fun i => ?_
  have requested : ∀ b, (lanes.get i).request b n = lanes.get i := fun b => if_pos (h i)
  unfold requestLanes
  rw [get_numbered]
  dsimp only
  split <;> split <;> simp only [requested]

theorem stageActions_afterHold (name : CapName) (s : State) (a : StageActions) (n : Nat) :
    AfterHold name s (s.stageActions a n) := by
  unfold State.stageActions
  extract_lets s1 s2
  have h1 : AfterHold name s s1 := by
    simp only [s1]
    split
    · exact raiseBoth_afterHold name s _
    · exact .refl name s
  have h2 : AfterHold name s1 s2 := .of_sto rfl rfl fun off =>
    ⟨fun l => by simp only [s2, State.setLanes_lanes, requestLanes_off off]; exact off l, rfl, fun _ _ => rfl, rfl, rfl, rfl, rfl,
      fun _ => rfl⟩
  split
  · exact (h1.trans h2).trans (beginPulse_afterHold name s2)
  · exact h1.trans h2

/-- A change of the ACTIVE capture's record that keeps what holding rests on. -/
theorem modifyActive_afterHold (name : CapName) (s : State) {f : Capture → Capture}
    (hf : ∀ c, (f c).num = c.num ∧ (f c).complete = c.complete ∧ (f c).head = c.head ∧ (f c).origin = c.origin) :
    AfterHold name s (s.modifyActive f) := by
  intro c h
  obtain ⟨num, complete, head, origin⟩ := hf c
  rw [modifyActive_eq h.active h.capture]
  refine ⟨f c, ⟨wf_of_blocks rfl h.wf, h.active, ?_, complete.trans h.incomplete, ?_⟩, head, origin, rfl, rfl, fun off => ?_⟩
  · exact capture_set (num.trans (slots_of_capture h.capture).2)
  · exact (congrArg Option.isSome (filling_of_blocks rfl name)).trans h.filling
  · exact ⟨off, rfl, fun i hi => quad_get_set_ne _ _ hi _, rfl, rfl, rfl, rfl, fun _ => rfl⟩

theorem declare_afterHold (name : CapName) (s : State) (source : TrigSource) (t : Nat) : AfterHold name s (s.declare source t) := by
  unfold State.declare
  extract_lets short s1 acq s2 s3 trg s4
  have h1 : AfterHold name s s1 := by
    intro c hc
    have record : s1 = s.modifyActive fun c => { c with
        trigTime := some t, trigSource := some source, trigBlock := (s.sto.filling name).map Prod.fst
        shortPre := c.shortPre || short } := by
      simp only [s1, State.modifyActive, hc.active]
    rw [record]
    refine modifyActive_afterHold name s ?_ c hc
    exact fun _ => ⟨rfl, rfl, rfl, rfl⟩
  have h2 : AfterHold name s1 s2 := setAcq_afterHold name s1 rfl
  have h3 : AfterHold name s2 s3 := (raiseBoth_afterHold name s2 _).trans (raiseBoth_afterHold name _ _)
  have h4 : AfterHold name s3 s4 := setTrg_afterHold name s3 _
  exact (((h1.trans h2).trans h3).trans h4).trans (beginPulse_afterHold name s4)

theorem enterArmed_afterHold (name : CapName) (s : State) : AfterHold name s s.enterArmed := by
  have engine := setAcq_afterHold name s (x := { s.acq with engine := .armed, armedAt := none }) rfl
  exact (engine.trans (raiseBoth_afterHold name _ .engineState)).trans (setTrg_afterHold name _ { s.trg with state := .seeking })

/-- Handing on keeps the holding; what it does with no lane at work is told by an equation. -/
theorem handOn_afterHold (name : CapName) (s : State) (lanes : Quad Lane) (out : Quad (List Emission)) (n : Nat)
    (off : s.lanesOff → (s.handOn lanes out n).1 = s.modifyActive Capture.clampCounts) :
    AfterHold name s (s.handOn lanes out n).1 := by
  intro c h
  have facts := handOn_facts s lanes out n name c h.active h.capture h.incomplete
  obtain ⟨c', hc', record⟩ := facts.capture
  have complete : c'.complete = c.complete := by rw [record]; rfl
  have filling := filling_of_owned facts.owned
  refine ⟨c', ⟨facts.wf h.wf, by rw [facts.acq]; exact h.active, hc', complete.trans h.incomplete, filling.symm ▸ h.filling⟩,
    by rw [record]; rfl, by rw [record]; rfl, facts.owned, facts.test, fun hoff => ?_⟩
  obtain ⟨d, k⟩ := modifyActive_afterHold name s (f := Capture.clampCounts) (fun _ => ⟨rfl, rfl, rfl, rfl⟩) c h
  rw [off hoff]
  exact k.quiet hoff

theorem lanesSample_afterHold (name : CapName) (s : State) (D : Nat) (it : SampleItem) :
    AfterHold name s (s.lanesSample D it).1 :=
  handOn_afterHold name s _ _ _ fun off => congrArg Prod.fst (lanesSample_off off D it)

/-! ## The entry to STOPPING (R70) -/

/-- The entry to STOPPING up to the final write: the capture's end reason, TRG and the lanes stopped, SMP STOPPED, the engine (R70). -/
def State.stopped (s : State) (why : EndReason) : State :=
  ((((s.modifyActive fun c => { c with endReason := some why }).setTrg s.trg.toStandby).lanesStop (s.lastRaw.getD 0)
    s.lastTaken).setSmp none).stopEngine why

theorem enterStopping_eq (s : State) (why : EndReason) : s.enterStopping why = (s.stopped why).beginFinalWrite := rfl

theorem lanesOut_off (s : State) : s.lanesOut.lanesOff := fun i => by
  show ((s.lanes.map Lane.turnOff).get i).state = .off
  rw [get_map]
  rfl

theorem lanesOut_afterHold (name : CapName) (s : State) : AfterHold name s s.lanesOut :=
  .of_sto rfl rfl fun _ => ⟨lanesOut_off s, rfl, fun _ _ => rfl, rfl, rfl, rfl, rfl, fun _ => rfl⟩

theorem lanesStop_afterHold (name : CapName) (s : State) (t n : Nat) : AfterHold name s (s.lanesStop t n) :=
  (handOn_afterHold name s _ _ n fun off =>
    congrArg Prod.fst (handOn_nothing s s.lanes n (partials_off off t))).trans (lanesOut_afterHold name _)

theorem stopEngine_afterHold (name : CapName) (s : State) (why : EndReason) : AfterHold name s (s.stopEngine why) := by
  refine AfterHold.trans (setAcq_afterHold name s ?_) (raiseBoth_afterHold name _ _)
  rfl

theorem stopped_afterHold (name : CapName) (s : State) (why : EndReason) : AfterHold name s (s.stopped why) := by
  have ended : AfterHold name s (s.modifyActive fun c => { c with endReason := some why }) := by
    refine modifyActive_afterHold name s ?_
    exact fun _ => ⟨rfl, rfl, rfl, rfl⟩
  exact (((ended.trans (setTrg_afterHold name _ _)).trans (lanesStop_afterHold name _ _ _)).trans
    (setSmp_afterHold name _ _)).trans (stopEngine_afterHold name _ why)

/-- Where the capture has a FILLING block, its final write does not complete as it begins (R44). -/
theorem enterStopping_of_holding {s : State} {name : CapName} {c : Capture} (h : s.Holding name c) (why : EndReason) :
    s.enterStopping why = s.stopped why := by
  obtain ⟨c', k⟩ := stopped_afterHold name s why c h
  rw [enterStopping_eq]
  unfold State.beginFinalWrite
  rw [k.holding.active]
  dsimp only
  rw [if_neg (by rw [Option.isNone_iff_eq_none, ← Option.not_isSome_iff_eq_none, not_not]; exact k.holding.filling)]

theorem enterStopping_afterHold (name : CapName) (s : State) (why : EndReason) : AfterHold name s (s.enterStopping why) := by
  intro c h
  rw [enterStopping_of_holding h]
  exact stopped_afterHold name s why c h

/-- The delivery of a held sample keeps its holding (R25, R26). -/
theorem deliver_afterHold (name : CapName) (s : State) (D : Nat) (it : SampleItem) : AfterHold name s (s.deliver D it).1 :=
  deliver_keeps (AfterHold.refl name) AfterHold.trans (setTrg_afterHold name) (stageActions_afterHold name)
    (declare_afterHold name) (enterArmed_afterHold name) (fun a => lanesSample_afterHold name a D it)
    (enterStopping_afterHold name) s

/-- The state that the entry to STOPPING leaves before the final write (R67, R68, R70). -/
structure StopFacts (name : CapName) (c : Capture) (s : State) (why : EndReason) (t : State) : Prop where
  acq : t.acq = { s.acq with
    engine := .stopping, force := none, armedAt := none, stopPending := false, repeatFlag := s.acq.repeatFlag && why == .postDone }
  smp : t.smp = none
  trg : t.trg = s.trg.toStandby
  lanes : s.lanesOffOf t
  capture : ∃ c', t.sto.capture name = some c' ∧ c' = { c with
    endReason := some why, frames := c'.frames, errors := c'.errors, expired := c'.expired, truncated := c'.truncated }
  owned : t.sto.owned name = s.sto.owned name
  wf : s.sto.wf = true → t.sto.wf = true
  engineState : ∀ q, t.hasNotice q .engineState = true
  notices : ∀ q m, ¬ m.ofEvents → m ≠ .laneMatch → m ≠ .engineState → t.hasNotice q m = s.hasNotice q m

theorem stopped_facts {s : State} {name : CapName} {c : Capture} (ha : s.acq.active = some name)
    (hc : s.sto.capture name = some c) (hn : c.complete = false) (why : EndReason) : StopFacts name c s why (s.stopped why) := by
  unfold State.stopped
  rw [modifyActive_eq ha hc]
  obtain ⟨u, hu⟩ : ∃ u, u = (s.setSto { s.sto with
    slots := s.sto.slots.set name.slot (some { c with endReason := some why }) }).setTrg s.trg.toStandby := ⟨_, rfl⟩
  rw [← hu]
  have uc : u.sto.capture name = some { c with endReason := some why } := hu ▸ capture_set (slots_of_capture hc).2
  have ua : u.acq.active = some name := hu ▸ ha
  have facts := handOn_facts u u.lanes (u.partials (s.lastRaw.getD 0)) s.lastTaken name _ ua uc hn
  have out : u.lanesStop (s.lastRaw.getD 0) s.lastTaken =
    (u.handOn u.lanes (u.partials (s.lastRaw.getD 0)) s.lastTaken).1.lanesOut := rfl
  rw [out]
  generalize (u.handOn u.lanes (u.partials (s.lastRaw.getD 0)) s.lastTaken).1 = v at facts
  generalize u.allEffects u.lanes (u.partials (s.lastRaw.getD 0)) = fx at facts
  have acq : v.acq = s.acq := facts.acq.trans (hu ▸ rfl)
  have frames : ∀ l, (v.lanes.get l).frame = (s.lanes.get l).frame := fun l => by
    rw [facts.lanes_, (lanesAfter_frame _ _ _ _).1, hu]
    rfl
  obtain ⟨c', hc', record⟩ := facts.capture
  unfold State.stopEngine
  refine ⟨?_, rfl, facts.trg.trans (hu ▸ rfl), fun l => ?_, ⟨c', hc', ?_⟩, facts.owned.trans (hu ▸ rfl),
    fun w => facts.wf (hu ▸ wf_of_blocks rfl w), fun q => ?_, fun q m h1 h2 h3 => ?_⟩
  · rw [← acq]
    rfl
  · show (v.lanes.map Lane.turnOff).get l = _
    rw [get_map, Lane.turnOff, frames]
  · rw [record]
    rfl
  · rw [hasNotice_raiseBoth]
    exact Bool.or_true _
  · rw [hasNotice_raiseBoth, decide_eq_false h3, Bool.or_false]
    exact (facts.notices q m h1 h2).trans (hu ▸ rfl)

/-- The entry to STOPPING with no lane at work, for a capture whose counts fit (R70, R112). -/
theorem stopped_off {s : State} {name : CapName} {c : Capture} (off : s.lanesOff) (ha : s.acq.active = some name)
    (hc : s.sto.capture name = some c) (fit : c.countsFit) (why : EndReason) :
    s.stopped why = ((((s.setSto { s.sto with slots := s.sto.slots.set name.slot (some { c with endReason := some why }) }).setTrg
      s.trg.toStandby).lanesOut).setSmp none).stopEngine why := by
  have ended : Capture.countsFit { c with endReason := some why } := fit
  have uc : ((s.setSto { s.sto with slots := s.sto.slots.set name.slot (some { c with endReason := some why }) }).setTrg
      s.trg.toStandby).sto.capture name = some { c with endReason := some why } := capture_set (slots_of_capture hc).2
  have same : s.sto.slots.set name.slot (some { c with endReason := some why }) =
      (s.sto.slots.set name.slot (some { c with endReason := some why })).set name.slot
        (some (Capture.clampCounts { c with endReason := some why })) := by rw [clampCounts_of_fit ended, quad_set_set]
  unfold State.stopped
  rw [modifyActive_eq ha hc, lanesStop_off (by exact off), modifyActive_eq (by exact ha) uc]
  simp only [State.setTrg_sto, State.setSto_sto, ← same]
  rfl

end Sys2Proof.Machine
end

section
/-! SUPPORT. The samples: proofs of the statements on how a sample is held, on samples with no lane at work, and on the samples on which a
capture ends. -/

namespace Sys2Proof.Machine

open Sys2Proof

/-! ## The next sample as a command -/

/-- FIRST_SAMPLE where sample 0 is to come, SAMPLE where a later one is. -/
theorem exec_nextSample {s : State} {x : Sampling} (hx : s.smp = some x) (w : ChannelWord) :
    exec (if x.next = 0 then .firstSample w else .sample w) s = .next (s.takeSample w).1 := by
  split
  · next h => simp [exec, execFirstSample, State.awaitsFirst, State.beforeSampleZero, hx, h]
  · next h => simp [exec, execSample, State.awaitsLater, hx, h]

theorem exec_laterSample {s : State} {x : Sampling} (hx : s.smp = some x) (later : x.next ≠ 0) (w : ChannelWord) :
    exec (.sample w) s = .next (s.takeSample w).1 := by
  have h := exec_nextSample hx w
  rwa [if_neg later] at h

theorem exec_firstSample_idle {s : State} (h : s.smp = none ∨ ∃ x, s.smp = some x ∧ x.next ≠ 0) (w : ChannelWord) :
    exec (.firstSample w) s = .next s := by
  obtain h | ⟨x, h, hn⟩ := h
  · simp [exec, execFirstSample, State.awaitsFirst, State.beforeSampleZero, h]
  · simp [exec, execFirstSample, State.awaitsFirst, State.beforeSampleZero, h, hn]

theorem exec_sample_idle {s : State} (h : s.smp = none ∨ ∃ x, s.smp = some x ∧ x.next = 0) (w : ChannelWord) :
    exec (.sample w) s = .next s := by
  obtain h | ⟨x, h, hn⟩ := h
  · simp [exec, execSample, State.awaitsLater, h]
  · simp [exec, execSample, State.awaitsLater, h, hn]

/-! ## The state word (R22) -/

theorem nextRaw_eq (x : Sampling) :
    x.nextRaw = (match x.origin with | some o => o | none => x.armDone + 1) + x.next * x.div := by
  unfold Sampling.nextRaw
  cases x.origin <;> rfl

/-- A pod's mask holds exactly its eight channels. -/
theorem podMask_getLsbD (i : Four) {ch : Nat} (h : ch < 32) : (podMask i).getLsbD ch = decide (ch / 8 = i.val) := by
  revert i
  interval_cases ch <;> decide

/-- The channels masked out are those of the pods lost by then, and those in the accumulator. -/
theorem lostMask_fold_getLsbD (raw : Nat) {ch : Nat} (h : ch < 32) (lost : List (Four × Nat)) (acc : ChannelWord) :
    (lost.foldl (fun acc e => if e.2 ≤ raw then acc ||| podMask e.1 else acc) acc).getLsbD ch = true ↔
      acc.getLsbD ch = true ∨ ∃ e ∈ lost, e.2 ≤ raw ∧ ch / 8 = e.1.val := by
  induction lost generalizing acc with
  | nil => simp
  | cons e rest ih =>
    rw [List.foldl_cons, ih]
    by_cases he : e.2 ≤ raw
    · simp [he, podMask_getLsbD e.1 h, or_assoc]
    · simp [he]

theorem stateWord_getLsbD (mask w : ChannelWord) (lost : List (Four × Nat)) (raw : Nat) {ch : Nat} (h : ch < 32) :
    (stateWord mask lost raw w).getLsbD ch = true ↔
      w.getLsbD ch = true ∧ mask.getLsbD ch = true ∧ ∀ e ∈ lost, e.2 ≤ raw → ch / 8 ≠ e.1.val := by
  have masked : (lostMask lost raw).getLsbD ch = true ↔ ∃ e ∈ lost, e.2 ≤ raw ∧ ch / 8 = e.1.val := by
    refine (lostMask_fold_getLsbD raw h lost 0).trans (or_iff_right ?_)
    simp
  have kept : (~~~lostMask lost raw).getLsbD ch = true ↔ ∀ e ∈ lost, e.2 ≤ raw → ch / 8 ≠ e.1.val := by
    rw [BitVec.getLsbD_not, decide_eq_true h, Bool.true_and, Bool.not_eq_true', Bool.eq_false_iff, ne_eq, masked]
    simp
  rw [stateWord, BitVec.getLsbD_and, BitVec.getLsbD_and, Bool.and_eq_true, Bool.and_eq_true, kept, and_assoc]

/-! ## The holding of a sample, and its delivery -/

theorem Held.holding {s t : State} {x : Sampling} {name : CapName} {c : Capture} {n : Nat} {b : Block} {word : ChannelWord}
    (h : Held s x name c n b word t) (ha : s.acq.active = some name) (hn : c.complete = false) :
    t.Holding name (if x.next = 0 then { c with origin := some x.nextRaw } else c) := by
  refine ⟨h.wf, ?_, h.capture, ?_, ?_⟩
  · rw [h.acq]
    split <;> exact ha
  · split <;> exact hn
  · cases he : x.extends? word with
    | some r => rw [(h.extended r he).1]; rfl
    | none => rw [(h.placed he).1]; rfl

/-- A sample for which the FILLING block has room is held by its open record or by a new one (R24, R25, R38). -/
theorem nextSample_held {s : State} {x : Sampling} {name : CapName} {c : Capture} {n : Nat} {b : Block} (w : ChannelWord)
    (wf : s.sto.wf = true) (h : s.canHold x name c) (hf : s.sto.filling name = some (n, b)) :
    ∃ t, exec (if x.next = 0 then .firstSample w else .sample w) s = .next t ∧ t.timebase = max s.timebase x.nextRaw ∧
      (∀ r, x.extends? (x.nextWord w) = some r → t.sto.filling name = some (n, b.extended)) ∧
      (x.extends? (x.nextWord w) = none →
        t.sto.filling name = some (n, b.append (Rec.mk (x.nextWord w) 1 (testFlips s.sto.test)) x.next)) ∧
      (x.next = 0 → ∃ c', t.sto.capture name = some c' ∧ c'.origin = some x.nextRaw) := by
  obtain ⟨u, held, taken⟩ := takeSample_held s x name c n b w wf h hf
  obtain ⟨hx, ha, hc, hn, -⟩ := h
  obtain ⟨c', kept⟩ := deliver_afterHold name u x.div (x.item name (x.nextWord w)) _ (held.holding ha hn)
  have filling := filling_of_owned kept.owned
  refine ⟨_, exec_nextSample hx w, ?_, fun r he => ?_, fun he => ?_, fun h0 => ⟨c', ?_, ?_⟩⟩ <;> rw [taken] at *
  · exact (clock_eq_iff.1 (clock_deliver u _ _)).1.trans held.timebase
  · rw [filling, (held.extended r he).1, extended_eq]
  · rw [filling, (held.placed he).1]
  · exact kept.holding.capture
  · rw [kept.origin, if_pos h0]

/-! ## Where a new record goes: the capture after it is placed (R38 to R41) -/

@[simp] theorem modifyBlock_slots (x : Store) (n : Nat) (f : Block → Block) : (x.modifyBlock n f).slots = x.slots := by
  unfold Store.modifyBlock
  split <;> rfl

@[simp] theorem appendBlock_slots (x : Store) (name : CapName) (c : Capture) (n index : Nat) :
    (x.appendBlock name c n index).slots = x.slots := by
  unfold Store.appendBlock
  dsimp only
  split
  · exact modifyBlock_slots _ _ _
  · rfl

/-- A capture that a step may give another head and more expired or truncated events, and nothing else (R41, R141). -/
def Capture.movedTo (c d : Capture) : Prop := d = { c with head := d.head, expired := d.expired, truncated := d.truncated }

theorem Capture.movedTo.refl (c : Capture) : c.movedTo c := rfl

theorem Capture.movedTo.trans {c d e : Capture} (h : c.movedTo d) (k : d.movedTo e) : c.movedTo e := by
  unfold Capture.movedTo at *
  rw [k, h]

theorem modify_movedTo {x : Store} {name : CapName} {c : Capture} (hc : x.capture name = some c) {f : Capture → Capture}
    (hf : c.movedTo (f c)) : ∃ d, (x.modify name f).capture name = some d ∧ c.movedTo d := by
  refine ⟨f c, ?_, hf⟩
  unfold Store.modify
  rw [hc]
  exact capture_set ((congrArg Capture.num hf).trans (slots_of_capture hc).2)

theorem storeRecycle_movedTo {x : Store} {name : CapName} {c : Capture} (hc : x.capture name = some c) (index : Nat) :
    ∃ d, (x.recycle name c index).capture name = some d ∧ c.movedTo d := by
  unfold Store.recycle
  split
  · split
    · simp only [capture_of_slots (appendBlock_slots _ _ _ _ _)]
      exact modify_movedTo (x := { x with blocks := x.blocks.filter fun e => e.1 ≠ c.head }) hc rfl
    · exact ⟨c, hc, .refl c⟩
  · exact ⟨c, hc, .refl c⟩

theorem recycle_movedTo {s : State} {name : CapName} {c : Capture} (hc : s.sto.capture name = some c) (index : Nat) :
    ∃ d, (s.recycle name c index).sto.capture name = some d ∧ c.movedTo d := by
  obtain ⟨d, hd, moved⟩ := storeRecycle_movedTo hc index
  unfold State.recycle
  simp only [State.setSto_sto, hd]
  split
  · obtain ⟨e, he, k⟩ := modify_movedTo hd (f := fun c => { c with expired := satAdd Config.max32 c.expired _ }) rfl
    exact ⟨e, he, moved.trans k⟩
  · exact ⟨d, hd, moved⟩

theorem nextBlock_movedTo {s t : State} {name : CapName} {c : Capture} {index : Nat} (h : s.nextBlock name c index = some t)
    (hc : s.sto.capture name = some c) (hn : c.complete = false) : ∃ d, t.sto.capture name = some d ∧ c.movedTo d := by
  have recycled : (if c.mode = .window && s.sto.canRecycle c then some (s.recycle name c index) else none) = some t →
      ∃ d, t.sto.capture name = some d ∧ c.movedTo d := by
    intro e
    split at e
    · cases e; exact recycle_movedTo hc index
    · cases e
  have appended : ∀ (u : State) d n, u.sto.capture name = some d → c.movedTo d →
      ∃ d, (u.setSto (u.sto.appendBlock name c n index)).sto.capture name = some d ∧ c.movedTo d := fun u d n hd moved =>
    ⟨d, (capture_of_slots (appendBlock_slots _ _ _ _ _) _).trans hd, moved⟩
  unfold State.nextBlock at h
  dsimp only at h
  split at h
  · split at h
    · cases h; exact appended s c _ hc (.refl c)
    · split at h
      · next u hr =>
        split at h
        · obtain ⟨d, hd, record⟩ := (reclaim_active name hr).capture c hc hn
          cases h
          exact appended u d _ hd (record.trans (by rw [record]))
        · exact recycled h
      · exact recycled h
  · exact recycled h

/-- A record that is placed leaves its capture holding, with its counts of frames and errors (R38, R39, R41). -/
theorem placeRecord_holding {s u : State} {name : CapName} {c : Capture} {word : ChannelWord} {index : Nat}
    (placed : s.placeRecord name word index = (u, true)) (wf : s.sto.wf = true) (ha : s.acq.active = some name)
    (hc : s.sto.capture name = some c) (hn : c.complete = false) : ∃ d, u.Holding name d ∧ c.movedTo d := by
  have appended : ∀ (v : State) (n : Nat) (b : Block) d, KeepsCore s v → v.sto.wf = true → v.sto.filling name = some (n, b) →
      v.sto.capture name = some d → c.movedTo d → (v.setSto (v.sto.appendRecord n b word index)).Holding name d := by
    intro v n b d keeps vwf hf hd moved
    obtain ⟨owner, filling⟩ := filling_props hf
    refine ⟨appendRecord_wf b word index (filling_lt vwf hf) vwf, keeps.acq ▸ ha, hd,
      (congrArg Capture.complete moved).trans hn, ?_⟩
    exact congrArg Option.isSome (filling_insert vwf hf (b' := b.append (Rec.mk word 1 (testFlips v.sto.test)) index) owner filling)
  unfold State.placeRecord at placed
  split at placed
  · next n b d hf hd =>
    obtain rfl : d = c := Option.some.inj (hd.symm.trans hc)
    split at placed
    · cases placed
      exact ⟨d, appended s n b d (.rfl' s) wf hf hc (.refl d), .refl d⟩
    · have swf : (s.setSto (s.sto.seal n)).sto.wf = true := seal_wf _ _ wf
      have sealed_ : KeepsCore s (s.setSto (s.sto.seal n)) := setSto_keeps s _ (seal_nextNum _ _)
      have sc : (s.setSto (s.sto.seal n)).sto.capture name = some d := (capture_of_slots (seal_slots _ _) _).trans hc
      dsimp only at placed
      split at placed
      · next v hv =>
        obtain ⟨e, he, moved⟩ := nextBlock_movedTo hv sc hn
        split at placed
        · next m y hy =>
          cases placed
          exact ⟨e, appended v m y e (sealed_.trans (nextBlock_keeps hv)) (nextBlock_wf hv swf) hy he moved, moved⟩
        · cases placed
      · cases placed
  · cases placed

/-! ## What the sample step leaves of the holding -/

/-- With no lane at work the lanes leave a sample as it is, where the counts fit (R26, R112). -/
theorem lanesSample_idle {v : State} {name : CapName} {d : Capture} (off : v.lanesOff) (ha : v.acq.active = some name)
    (hd : v.sto.capture name = some d) (fit : d.countsFit) (D : Nat) (it : SampleItem) : v.lanesSample D it = (v, [], []) := by
  rw [lanesSample_off off, modifyActive_eq ha hd, clampCounts_of_fit fit, quad_set_same (slots_of_capture hd).1]
  rfl

/-- With no lane at work, in TRIGGERED before the post end time, delivery reaches TRG's history and mark alone (R19, R67, R83, R84). -/
theorem deliver_runsOn {v : State} {D : Nat} {it : SampleItem} (idle : v.lanesSample D it = (v, [], []))
    (engine : v.acq.engine = .triggered) (stop : v.acq.stopPending = false) {e : Nat} (post : v.acq.postEnd = some e)
    (before : it.raw < e) : v.deliver D it = ((v.observe it).1, []) := by
  have observed : (v.observe it).1.acq = v.acq := rfl
  unfold State.deliver
  simp only [idle, stop, Bool.false_eq_true, if_false, State.trgSample, observed, engine]
  simp only [State.postTest, observed, engine, post, if_neg (Nat.not_le.2 before), List.append_nil]

theorem deliveredFrom_of_holding {s u : State} {x : Sampling} {name : CapName} {c d : Capture} (word : ChannelWord)
    (keeps : KeepsCore s u) (hd : u.Holding name d) (moved : c.movedTo d) :
    s.deliveredFrom u (((u.setTimebase (max s.timebase x.nextRaw)).setSmp (some (x.held word))).deliver x.div (x.item name word)).1
      x name c word := by
  obtain ⟨v, hv⟩ : ∃ v, v = (u.setTimebase (max s.timebase x.nextRaw)).setSmp (some (x.held word)) := ⟨_, rfl⟩
  have sto : v.sto = u.sto := hv ▸ rfl
  have acq : v.acq = s.acq := hv ▸ keeps.acq
  have trg : v.trg = s.trg := hv ▸ keeps.trg
  have lanes : v.lanes = s.lanes := hv ▸ keeps.lanes
  have holding : v.Holding name d :=
    ⟨sto ▸ hd.wf, acq ▸ keeps.acq ▸ hd.active, sto ▸ hd.capture, hd.incomplete, sto ▸ hd.filling⟩
  rw [← hv]
  obtain ⟨d', kept⟩ := deliver_afterHold name v x.div (x.item name word) d holding
  have owned := kept.owned
  rw [sto] at owned
  refine ⟨(clock_eq_iff.1 (clock_deliver v _ _)).1.trans (hv ▸ rfl), filling_of_owned owned, fun k b hb => ?_,
    kept.test.trans (by rw [sto]), ⟨d, d', hd.capture, kept.holding.capture, kept.head, kept.origin⟩, fun off => ?_⟩
  · exact ⟨fun h => lookupBlock_of_owned hd.wf owned.symm h hb, fun h => lookupBlock_of_owned kept.holding.wf owned h hb⟩
  · have voff : v.lanesOff := fun l => lanes ▸ off l
    have quiet := kept.quiet voff
    refine ⟨sto ▸ quiet.sto, fun i hi => (quiet.slots i hi).trans (by rw [sto]), quiet.evl.trans (hv ▸ rfl),
      quiet.vrn.trans (hv ▸ rfl), fun fit ⟨engine, stop, e, post, before⟩ => ?_⟩
    have dfit : d.countsFit := by rw [moved]; exact fit
    have idle := lanesSample_idle voff holding.active holding.capture dfit x.div (x.item name word)
    rw [deliver_runsOn idle (acq ▸ engine) (acq ▸ stop) (acq ▸ post) before, ← hv, ← trg]
    rfl

/-- A later sample that is held as `u` tells is delivered from there. -/
theorem laterSample_deliveredFrom {s u : State} {x : Sampling} {name : CapName} {c d : Capture} (w : ChannelWord)
    (hx : s.smp = some x) (later : x.next ≠ 0) (ha : s.acq.active = some name)
    (hold : (s.setTimebase (max s.timebase x.nextRaw)).holdSample x name (x.nextWord w) =
      (u.setTimebase (max s.timebase x.nextRaw), true))
    (keeps : KeepsCore s u) (hd : u.Holding name d) (moved : c.movedTo d) :
    ∃ t, exec (.sample w) s = .next t ∧ s.deliveredFrom u t x name c (x.nextWord w) := by
  refine ⟨_, exec_laterSample hx later w, ?_⟩
  rw [takeSample_delivers hx ha (by rw [setOrigin_later _ later]; exact hold)]
  exact deliveredFrom_of_holding _ keeps hd moved

/-- Settles O49: a sample with room is held as Laws/Samples has it and delivery keeps the FILLING block; in a full block the record goes
where placing it goes, from which the same delivery starts. -/
theorem samplesHeld : Obligations.SamplesHeld := by
  refine ⟨nextRaw_eq, fun mask w lost raw ch h => stateWord_getLsbD mask w lost raw h, fun s w h => exec_firstSample_idle h w,
    fun s w h => exec_sample_idle h w, fun s x name c n b w wf h hf => ?_, fun s x name c n b w wf hx later ha hc hn hf _ => ⟨?_, ?_⟩⟩
  · obtain ⟨t, next, time, extended, placed, origin⟩ := nextSample_held w wf h hf
    exact ⟨t, next, time, fun r hr hw hlen _ => extended r (extends_eq_some hr hw hlen), fun full =>
      (placed (extends_eq_none full)).trans (congrArg (fun y => some (n, y)) (append_newRecord s.sto b _ _)), origin⟩
  · intro r hr hw hlen
    obtain ⟨owner, filling⟩ := filling_props hf
    obtain ⟨u, hu⟩ : ∃ u, u = s.setSto { s.sto with blocks := insertBlock s.sto.blocks n b.extended } := ⟨_, rfl⟩
    have ufilling : u.sto.filling name = some (n, b.extended) := hu ▸ filling_insert wf hf owner filling
    have hold : (s.setTimebase (max s.timebase x.nextRaw)).holdSample x name (x.nextWord w) =
        (u.setTimebase (max s.timebase x.nextRaw), true) := by
      rw [hu]
      exact holdSample_extends (extends_eq_some hr hw hlen) hf
    have keeps : KeepsCore s u := hu ▸ setSto_keeps s _ rfl
    have holding : u.Holding name c :=
      ⟨hu ▸ insertBlock_sorted _ (filling_lt wf hf) wf, hu ▸ ha, hu ▸ hc, hn, by rw [ufilling]; rfl⟩
    obtain ⟨t, next, delivered⟩ := laterSample_deliveredFrom w hx later ha hold keeps holding (.refl c)
    refine ⟨u, t, next, hu ▸ rfl, ufilling, hu ▸ lookupBlock_insertBlock _ _ _, fun m hm => ?_, delivered⟩
    exact hu ▸ lookupBlock_insertBlock_ne _ _ hm
  · intro u full placed
    obtain ⟨d, holding, moved⟩ := placeRecord_holding placed wf ha hc hn
    have keeps : KeepsCore s u := by
      have k := placeRecord_keeps s name (x.nextWord w) x.next
      rwa [placed] at k
    refine laterSample_deliveredFrom w hx later ha ?_ keeps holding moved
    rw [holdSample_places (extends_eq_none full), placeRecord_setTimebase, placed]

end Sys2Proof.Machine
end

section
/-! SUPPORT. Samples with no lane at work, and the samples on which a capture ends: proofs of both statements. -/

namespace Sys2Proof.Machine

open Sys2Proof

/-! ## Samples with no lane at work -/

theorem held_extends {x : Sampling} {word : ChannelWord} {r : Run} (h : x.extends? word = some r) :
    x.held word = { x with
      origin := some (match x.origin with | some o => o | none => x.armDone + 1), run := some { r with len := r.len + 1 }
      prev := some word, next := x.next + 1 } := by
  unfold Sampling.held
  rw [h]
  cases x.origin <;> rfl

theorem held_new {x : Sampling} {word : ChannelWord} (h : x.extends? word = none) :
    x.held word = { x with
      origin := some (match x.origin with | some o => o | none => x.armDone + 1), run := some (Run.mk word 1 x.next)
      prev := some word, next := x.next + 1 } := by
  unfold Sampling.held
  rw [h]
  cases x.origin <;> rfl

/-- In DECLARED the trigger-in mark is not taken, and the history takes the sample's changes (R83, R84). -/
theorem observe_declared {v : State} (hs : v.trg.state = .declared) {h : ChannelHistory} (hh : v.trg.history = some h)
    (it : SampleItem) : (v.observe it).1 = v.setTrg { v.trg with history := some (h.apply it) } := by
  unfold State.observe
  simp [hs, hh]

/-- A sample changes the channels on which its word differs from the one before it (R26). -/
theorem item_changes {x : Sampling} {before : ChannelWord} (h : x.prev = some before) (name : CapName) (word : ChannelWord)
    {k : Nat} (hk : k < 32) : (x.item name word).changes k = (word.getLsbD k != before.getLsbD k) := by
  simp only [SampleItem.changes, SampleItem.rises, SampleItem.falls, Sampling.item, h, Option.getD_some, BitVec.getLsbD_and,
    BitVec.getLsbD_not, hk, decide_true, Bool.true_and]
  cases word.getLsbD k <;> cases before.getLsbD k <;> rfl

theorem apply_starts {x : Sampling} {before : ChannelWord} (hp : x.prev = some before) (h : ChannelHistory) (name : CapName)
    (word : ChannelWord) (k : Fin 32) :
    (h.apply (x.item name word)).starts[k] =
      if word.getLsbD k.val = before.getLsbD k.val then h.starts[k] else some x.nextRaw := by
  have raw : (x.item name word).raw = x.nextRaw := rfl
  simp only [ChannelHistory.apply, Fin.getElem_fin, Vector.getElem_ofFn, item_changes hp name word k.isLt, raw, bne_iff_ne,
    ne_eq, ite_not]

/-- A later sample while the capture runs on, held by a change of STO to `sto'` (R19, R24, R26, R67, R83). -/
theorem sample_runsOn {s : State} {x : Sampling} {name : CapName} {c : Capture} {h : ChannelHistory} {w : ChannelWord}
    {sto' : Store} (hx : s.smp = some x) (later : x.next ≠ 0) (ha : s.acq.active = some name) (runs : s.runsOn x)
    (off : s.lanesOff) (fit : c.countsFit) (hs : s.trg.state = .declared) (hh : s.trg.history = some h)
    (hold : (s.setTimebase (max s.timebase x.nextRaw)).holdSample x name (x.nextWord w) =
      ((s.setTimebase (max s.timebase x.nextRaw)).setSto sto', true))
    (hc : sto'.capture name = some c) :
    exec (.sample w) s = .next ((((s.setTimebase (max s.timebase x.nextRaw)).setSto sto').setSmp
      (some (x.held (x.nextWord w)))).setTrg { s.trg with history := some (h.apply (x.item name (x.nextWord w))) }) := by
  obtain ⟨engine, stop, e, post, before⟩ := runs
  obtain ⟨v, hv⟩ : ∃ v, v = ((s.setTimebase (max s.timebase x.nextRaw)).setSto sto').setSmp (some (x.held (x.nextWord w))) :=
    ⟨_, rfl⟩
  have acq : v.acq = s.acq := hv ▸ rfl
  have idle : v.lanesSample x.div (x.item name (x.nextWord w)) = (v, [], []) :=
    lanesSample_idle (hv ▸ off) (acq ▸ ha) (hv ▸ hc) fit _ _
  rw [exec_laterSample hx later, takeSample_delivers hx ha (by rw [setOrigin_later _ later]; exact hold), ← hv,
    deliver_runsOn idle (acq ▸ engine) (acq ▸ stop) (acq ▸ post) before,
    observe_declared (v := v) (h := h) (hv ▸ hs) (hv ▸ hh), hv]
  rfl

/-- In GATED with no history yet, a sample starts the history and takes a mark that has come by then (R83, R84). -/
theorem observe_gated {v : State} (hs : v.trg.state = .gated) (hh : v.trg.history = none) (it : SampleItem) :
    (v.observe it).1 = v.setTrg { v.trg with
      history := some (ChannelHistory.mk it.word (Vector.replicate 32 none))
      mark := v.trg.mark.filter fun m => decide (it.raw < m) } := by
  unfold State.observe
  cases v.trg.mark with
  | none => simp [hs, hh, ChannelHistory.start]
  | some m =>
    by_cases h : m ≤ it.raw
    · simp [hs, hh, ChannelHistory.start, Option.filter, h, Nat.not_lt.2 h]
    · simp [hs, hh, ChannelHistory.start, Option.filter, h, Nat.not_le.1 h]

/-- Sample 0 with no lane at work, before the arm-to-armed time and with no STOP or FORCE waiting: delivery reaches TRG's history and mark
alone (R64, R83, R84). -/
theorem deliver_beforeArmed {v : State} {D : Nat} {it : SampleItem} (idle : v.lanesSample D it = (v, [], []))
    (engine : v.acq.engine = .arming) (stop : v.acq.stopPending = false) (force : v.acq.force = none) {m : Nat}
    (armed : v.acq.armedAt = some m) (before : it.raw < m) (gated : v.trg.state = .gated) (history : v.trg.history = none) :
    (v.deliver D it).1 = v.setTrg { v.trg with
      history := some (ChannelHistory.mk it.word (Vector.replicate 32 none))
      mark := v.trg.mark.filter fun m => decide (it.raw < m) } := by
  have observed : (v.observe it).1.acq = v.acq := rfl
  rw [← observe_gated gated history]
  unfold State.deliver
  simp only [idle, stop, Bool.false_eq_true, if_false, State.trgSample, observed, engine, force, Option.isSome_none, armed,
    if_neg (Nat.not_le.2 before)]
  simp only [State.postTest, observed, engine]

/-- Sample 0 with no lane at work and a STOP waiting: the capture ends on it (R68, R70). -/
theorem deliver_stopPending {v : State} {name : CapName} {d : Capture} {D : Nat} {it : SampleItem}
    (idle : v.lanesSample D it = (v, [], [])) (holding : v.Holding name d) (off : v.lanesOff) (fit : d.countsFit)
    (stop : v.acq.stopPending = true) :
    (v.deliver D it).1 = ((((v.setSto { v.sto with
      slots := v.sto.slots.set name.slot (some { d with endReason := some .stopTaken }) }).setTrg
        v.trg.toStandby).lanesOut).setSmp none).stopEngine .stopTaken := by
  obtain ⟨u, hu⟩ : ∃ u, u = (v.observe it).1 := ⟨_, rfl⟩
  have uholding : u.Holding name d :=
    hu ▸ ⟨holding.wf, holding.active, holding.capture, holding.incomplete, holding.filling⟩
  have ended : (v.deliver D it).1 = u.enterStopping .stopTaken := by
    unfold State.deliver
    simp only [idle, stop, if_true, hu]
  rw [ended, enterStopping_of_holding uholding, stopped_off (hu ▸ off) uholding.active uholding.capture fit, hu]
  rfl

/-- Sample 0 as it is held, before it is delivered: the origin, the arm-to-armed time, the first record (R21, R25, R63). -/
def State.zeroHeld (s : State) (x : Sampling) (name : CapName) (c : Capture) (a : AcqPlan) (n : Nat) (b : Block) (word : ChannelWord) :
    State :=
  (((s.setTimebase (max s.timebase (x.armDone + 1))).setSto { s.sto with
      blocks := insertBlock s.sto.blocks n { b with first := 0, records := [s.sto.newRecord word] }
      slots := s.sto.slots.set name.slot (some { c with origin := some (x.armDone + 1) })
      test := none }).setAcq { s.acq with armedAt := some (x.armDone + 1 + a.pre) }).setSmp (some { x with
        origin := some (x.armDone + 1), next := 1, run := some (Run.mk word 1 0), prev := some word })

theorem firstSample_delivers {s : State} {x : Sampling} {name : CapName} {c : Capture} {a : AcqPlan} {n : Nat} {b : Block}
    (w : ChannelWord) (h : s.canHold x name c) (hf : s.sto.filling name = some (n, b)) (empty : b.records = []) (h0 : x.next = 0)
    (ho : x.origin = none) (hr : x.run = none) (hcopy : s.acq.copy = some a) :
    exec (.firstSample w) s =
      .next ((s.zeroHeld x name c a n b (x.nextWord w)).deliver x.div (x.item name (x.nextWord w))).1 := by
  obtain ⟨hx, ha, hc, -, m, y, hy, room⟩ := h
  obtain ⟨rfl, rfl⟩ : n = m ∧ b = y := Prod.mk.inj (Option.some.inj (hf.symm.trans hy))
  have raw : x.nextRaw = x.armDone + 1 := by simp [Sampling.nextRaw, ho, h0]
  have notExtended : x.extends? (x.nextWord w) = none := by simp [Sampling.extends?, hr]
  obtain ⟨s1, hs1⟩ : ∃ s1, s1 = (s.advanceTo x.nextRaw).setOrigin x := ⟨_, rfl⟩
  have origin : s1 = ((s.setTimebase (max s.timebase (x.armDone + 1))).setSto { s.sto with
      slots := s.sto.slots.set name.slot (some { c with origin := some (x.armDone + 1) }) }).setAcq
        { s.acq with armedAt := some (x.armDone + 1 + a.pre) } := by
    rw [hs1, setOrigin_eq (s.advanceTo x.nextRaw) x name c ha hc, if_pos h0, raw]
    simp only [State.advanceTo, State.setTimebase_acq, hcopy]
    rfl
  have filling : s1.sto.filling name = some (n, b) := origin ▸ hf
  have capture : s1.sto.capture name = some { c with origin := some (x.armDone + 1) } :=
    origin ▸ capture_set (slots_of_capture hc).2
  have record : b.append (Rec.mk (x.nextWord w) 1 (testFlips s.sto.test)) 0 =
      { b with first := 0, records := [s.sto.newRecord (x.nextWord w)] } := by
    rw [append_newRecord, if_pos empty, empty]
    rfl
  have held : x.held (x.nextWord w) = { x with
      origin := some (x.armDone + 1), next := 1, run := some (Run.mk (x.nextWord w) 1 0), prev := some (x.nextWord w) } := by
    rw [held_new notExtended, ho, h0]
  have next := exec_nextSample hx w
  rw [if_pos h0] at next
  rw [next, takeSample_delivers hx ha (by
    rw [← hs1, holdSample_places notExtended]
    exact placeRecord_room filling capture room _ _), held, origin]
  unfold State.zeroHeld
  rw [← record, h0]
  rfl

/-- What holding sample 0 rests on, and keeps. -/
theorem zeroHeld_holding {s : State} {x : Sampling} {name : CapName} {c : Capture} (a : AcqPlan) {n : Nat} {b : Block}
    (word : ChannelWord) (wf : s.sto.wf = true) (h : s.canHold x name c) (hf : s.sto.filling name = some (n, b)) :
    (s.zeroHeld x name c a n b word).Holding name { c with origin := some (x.armDone + 1) } ∧
      (s.zeroHeld x name c a n b word).sto.filling name =
        some (n, { b with first := 0, records := [s.sto.newRecord word] }) := by
  obtain ⟨-, ha, hc, hn, -⟩ := h
  obtain ⟨owner, state⟩ := filling_props hf
  have filling : (s.zeroHeld x name c a n b word).sto.filling name =
      some (n, { b with first := 0, records := [s.sto.newRecord word] }) :=
    (filling_of_blocks rfl name).trans
      (filling_insert wf hf (b' := { b with first := 0, records := [s.sto.newRecord word] }) owner state)
  exact ⟨⟨insertBlock_sorted _ (filling_lt wf hf) wf, ha,
    capture_set (x := { s.sto with
      blocks := insertBlock s.sto.blocks n { b with first := 0, records := [s.sto.newRecord word] }, test := none })
      (c := { c with origin := some (x.armDone + 1) }) (slots_of_capture hc).2,
    hn, by rw [filling]; rfl⟩, filling⟩

/-- Sample 0 with no lane at work, whatever ACQ and TRG make of it (R21, R25, R26, R38, R63). -/
theorem firstSample_quiet {s : State} {x : Sampling} {name : CapName} {c : Capture} (a : AcqPlan) {n : Nat} {b : Block}
    (word : ChannelWord) (D : Nat) (it : SampleItem) (wf : s.sto.wf = true) (h : s.canHold x name c)
    (hf : s.sto.filling name = some (n, b)) (off : s.lanesOff) {t : State}
    (ht : t = ((s.zeroHeld x name c a n b word).deliver D it).1) :
    (∃ c', t.sto.capture name = some c' ∧ c'.origin = some (x.armDone + 1)) ∧
      (∀ i, i ≠ name.slot → t.sto.slots.get i = s.sto.slots.get i) ∧
      t.sto.filling name = some (n, { b with first := 0, records := [s.sto.newRecord word] }) ∧
      lookupBlock t.sto.blocks n = some { b with first := 0, records := [s.sto.newRecord word] } ∧
      (∀ m, m ≠ n → lookupBlock t.sto.blocks m = lookupBlock s.sto.blocks m) ∧
      t.sto = { s.sto with blocks := t.sto.blocks, slots := t.sto.slots, test := none } ∧
      t.evl = s.evl ∧ t.vrn = s.vrn ∧ s.slotsKept t ∧ t.pods = s.pods ∧ t.pending = s.pending ∧ t.freeIx = s.freeIx := by
  obtain ⟨holding, filling⟩ := zeroHeld_holding a word wf h hf
  obtain ⟨c', kept⟩ := deliver_afterHold name (s.zeroHeld x name c a n b word) D it _ holding
  rw [← ht] at kept
  have quiet := kept.quiet off
  have blocks : t.sto.blocks = insertBlock s.sto.blocks n { b with first := 0, records := [s.sto.newRecord word] } :=
    congrArg Store.blocks quiet.sto
  have clock := ht ▸ clock_deliver (s.zeroHeld x name c a n b word) D it
  refine ⟨⟨c', kept.holding.capture, kept.origin⟩, fun i hi => (quiet.slots i hi).trans (quad_get_set_ne _ _ hi _),
    (filling_of_owned kept.owned).trans filling, ?_, fun m hm => ?_, ?_, quiet.evl, quiet.vrn, quiet.requests, quiet.pods,
    (clock_eq_iff.1 clock).2, quiet.freeIx⟩
  · rw [blocks, lookupBlock_insertBlock]
  · rw [blocks, lookupBlock_insertBlock_ne _ _ hm]
  · rw [blocks]
    exact quiet.sto

/-- Settles O50: both samples are delivered to lanes that leave them as they are, so TRG's history and mark alone follow the holding,
and on sample 0 with a STOP waiting the entry to STOPPING. -/
theorem plainSamples : Obligations.PlainSamples := by
  refine ⟨fun s x name c a n b w wf h hf empty off fit h0 ho hr _ engine hcopy gated history => ?_,
    fun s x name c n b hist before w wf h hf later runs off fit declared history hp => ?_⟩
  · have next := firstSample_delivers w h hf empty h0 ho hr hcopy
    obtain ⟨holding, -⟩ := zeroHeld_holding a (x.nextWord w) wf h hf
    have raw : (x.item name (x.nextWord w)).raw = x.armDone + 1 := by simp [Sampling.item, Sampling.nextRaw, ho, h0]
    have idle := lanesSample_idle (v := s.zeroHeld x name c a n b (x.nextWord w)) off holding.active holding.capture fit x.div
      (x.item name (x.nextWord w))
    have clock := clock_deliver (s.zeroHeld x name c a n b (x.nextWord w)) x.div (x.item name (x.nextWord w))
    obtain ⟨t, ht⟩ : ∃ t, t = ((s.zeroHeld x name c a n b (x.nextWord w)).deliver x.div (x.item name (x.nextWord w))).1 :=
      ⟨_, rfl⟩
    obtain ⟨⟨c', hc', origin⟩, quiet⟩ := firstSample_quiet a (x.nextWord w) x.div (x.item name (x.nextWord w)) wf h hf off ht
    rw [← ht] at next clock
    obtain ⟨slots, filling, lookup, others, sto, evl, vrn, requests, pods, pending, freeIx⟩ := quiet
    refine ⟨t, c', next, (clock_eq_iff.1 clock).1, hc', origin, slots, filling, lookup, others, sto, evl, vrn, requests, pods,
      pending, freeIx, fun stop force pre => ?_, fun stop => ?_⟩
    · rw [deliver_beforeArmed idle engine stop force rfl (by omega) gated history, raw] at ht
      have capture : t.sto.capture name = some { c with origin := some (x.armDone + 1) } := ht ▸ holding.capture
      exact ⟨Option.some.inj (hc'.symm.trans capture), ht ▸ rfl, ht ▸ rfl, ht ▸ rfl, ht ▸ rfl, ht ▸ rfl⟩
    · rw [deliver_stopPending idle holding off fit stop] at ht
      have capture : t.sto.capture name = some { c with origin := some (x.armDone + 1), endReason := some .stopTaken } :=
        ht ▸ capture_set (slots_of_capture holding.capture).2
      refine ⟨Option.some.inj (hc'.symm.trans capture), ?_, ht ▸ rfl, ht ▸ rfl, lanesOff_map s t (ht ▸ rfl),
        portsGain_raiseBoth _ (ht ▸ rfl)⟩
      rw [ht]
      exact congrArg (fun r => { s.acq with
        engine := .stopping, force := none, armedAt := none, stopPending := false, repeatFlag := r }) (Bool.and_false _)
  · obtain ⟨hx, ha, hc, hn, m, y, hy, room⟩ := h
    obtain ⟨rfl, rfl⟩ : n = m ∧ b = y := Prod.mk.inj (Option.some.inj (hf.symm.trans hy))
    have later' : x.next ≠ 0 := Nat.ne_of_gt later
    have starts := apply_starts hp hist name (x.nextWord w)
    cases he : x.extends? (x.nextWord w) with
    | some r =>
      have next := sample_runsOn hx later' ha runs off fit declared history (holdSample_extends he hf) hc
      rw [held_extends he] at next
      refine ⟨_, _, _, next, rfl, fun u hu hw hlen => ?_, fun full => ?_, fun k hk => lookupBlock_insertBlock_ne _ _ hk, rfl, starts⟩
      · obtain rfl : r = u := Option.some.inj (he.symm.trans (extends_eq_some hu hw hlen))
        exact ⟨rfl, rfl, lookupBlock_insertBlock _ _ _⟩
      · cases he.symm.trans (extends_eq_none full)
    | none =>
      have placed := placeRecord_room (s := s.setTimebase (max s.timebase x.nextRaw)) hf hc room (x.nextWord w) x.next
      have next := sample_runsOn hx later' ha runs off fit declared history ((holdSample_places he name).trans placed) hc
      rw [held_new he] at next
      refine ⟨_, _, _, next, rfl, fun u hu hw hlen => ?_, fun _ => ⟨rfl, rfl, ?_⟩, fun k hk => lookupBlock_insertBlock_ne _ _ hk,
        rfl, starts⟩
      · cases he.symm.trans (extends_eq_some hu hw hlen)
      · exact (lookupBlock_insertBlock _ _ _).trans (congrArg some (append_newRecord s.sto b _ _))

end Sys2Proof.Machine
end

section
/-! SUPPORT. The samples on which a capture ends: the proof of the statement. -/

namespace Sys2Proof.Machine

open Sys2Proof

/-! ## POST_DONE (R67, R70) -/

/-- In TRIGGERED, a sample at or after the post end time takes the engine to STOPPING once the lanes and TRG have had it. -/
theorem deliver_postDone {v : State} {D : Nat} {it : SampleItem} (stop : v.acq.stopPending = false)
    (engine : (v.lanesSample D it).1.acq.engine = .triggered) {e : Nat}
    (post : (v.lanesSample D it).1.acq.postEnd = some e) (reached : e ≤ it.raw) :
    v.deliver D it =
      ((((v.lanesSample D it).1.observe it).1.enterStopping .postDone), (v.lanesSample D it).2.2 ++ [.postDone]) := by
  have observed : (((v.lanesSample D it).1.observe it).1).acq = (v.lanesSample D it).1.acq := rfl
  unfold State.deliver
  simp only [stop, Bool.false_eq_true, if_false, State.trgSample, observed, engine]
  simp only [State.postTest, observed, engine, post, if_pos reached, List.append_nil]

theorem sampleWith_came {s t : State} {h : Happening} {w : ChannelWord} {before : List Happening}
    (taken : s.takeSample w = (t, before ++ [h])) : s.sampleWith h w = t := by
  simp [State.sampleWith, taken]

/-- What the lanes' handling of a sample leaves (R26, R129). -/
theorem lanesSample_facts {v : State} {name : CapName} {c : Capture} (h : v.Holding name c) (D : Nat) (it : SampleItem) :
    ∃ lanes fx, HandedOn v lanes fx it.index name c (v.lanesSample D it).1 :=
  ⟨_, _, handOn_facts v _ _ it.index name c h.active h.capture h.incomplete⟩

/-- What a held sample leaves that ends its capture by POST_DONE, whatever the lanes do on it. -/
theorem deliver_ends {v : State} {name : CapName} {c : Capture} (h : v.Holding name c) (D : Nat) {it : SampleItem}
    (stop : v.acq.stopPending = false) (engine : v.acq.engine = .triggered) {e : Nat} (post : v.acq.postEnd = some e)
    (reached : e ≤ it.raw) :
    ∃ t came c', v.deliver D it = (t, came ++ [.postDone]) ∧
      t.acq = { v.acq with engine := .stopping, force := none, armedAt := none } ∧ t.smp = none ∧
      t.trg = v.trg.toStandby ∧ (∀ l, (t.lanes.get l).state = .off ∧ (t.lanes.get l).pend = [] ∧ (t.lanes.get l).ctx = none) ∧
      t.sto.capture name = some c' ∧ c'.endReason = some .postDone ∧ c'.complete = false ∧ c'.trigTime = c.trigTime ∧
      (t.sto.filling name).isSome = true ∧
      ∀ q, t.hasNotice q .engineState = true ∧ t.hasNotice q .captureEnded = v.hasNotice q .captureEnded := by
  obtain ⟨lanes, fx, handed⟩ := lanesSample_facts h D it
  obtain ⟨c1, hc1, record⟩ := handed.capture
  have delivered := deliver_postDone stop (by rw [handed.acq]; exact engine) (by rw [handed.acq]; exact post) reached
  obtain ⟨u, hu⟩ : ∃ u, u = ((v.lanesSample D it).1.observe it).1 := ⟨_, rfl⟩
  have acq : u.acq = v.acq := (hu ▸ rfl : u.acq = (v.lanesSample D it).1.acq).trans handed.acq
  have trg : u.trg.toStandby = v.trg.toStandby :=
    (hu ▸ rfl : u.trg.toStandby = (v.lanesSample D it).1.trg.toStandby).trans (congrArg Trg.toStandby handed.trg)
  obtain ⟨d, hd⟩ := (lanesSample_afterHold name v D it).trans (setTrg_afterHold name _ _) c h
  have holding : u.Holding name d := hu ▸ hd.holding
  obtain rfl : c1 = d := Option.some.inj (hc1.symm.trans hd.holding.capture)
  have facts := stopped_facts holding.active holding.capture holding.incomplete .postDone
  obtain ⟨c', hc', ended⟩ := facts.capture
  have same : c1.trigTime = c.trigTime := by rw [record]; rfl
  rw [← hu, enterStopping_of_holding holding] at delivered
  refine ⟨_, _, c', delivered, ?_, facts.smp, facts.trg.trans trg, fun l => ?_, hc', ?_, ?_, ?_, ?_,
    fun q => ⟨facts.engineState q, ?_⟩⟩
  · simp [facts.acq, acq, stop]
  · rw [facts.lanes l]
    exact ⟨rfl, rfl, rfl⟩
  · rw [ended]
  · rw [ended]
    exact holding.incomplete
  · rw [ended]
    exact same
  · rw [filling_of_owned facts.owned]
    exact holding.filling
  · have other : ¬ Notice.ofEvents .captureEnded := by simp [Notice.ofEvents]
    rw [facts.notices q _ other (by decide) (by decide)]
    exact (hu ▸ rfl : u.hasNotice q .captureEnded = (v.lanesSample D it).1.hasNotice q .captureEnded).trans
      (handed.notices q _ other (by decide))

/-! ## STORE_FULL (R42, R69) -/

theorem victim_of_slots {x y : Store} (h : y.slots = x.slots) : y.victim = x.victim := by
  unfold Store.victim Store.reclaimable
  rw [h]

theorem reclaim_none_of_slots {s t : State} (h : t.sto.slots = s.sto.slots) (hs : s.reclaim = none) : t.reclaim = none := by
  unfold State.reclaim at *
  rw [victim_of_slots h]
  exact Option.map_eq_none_iff.2 (Option.map_eq_none_iff.1 hs)

/-- Writing a listed block again with the same owner leaves who owns what (R31). -/
theorem insertBlock_owners {l : List (Nat × Block)} {n : Nat} {b b' : Block} (sorted : blocksSorted l = true)
    (hb : lookupBlock l n = some b) (owner : b'.owner = b.owner) :
    (insertBlock l n b').map (fun e => e.2.owner) = l.map fun e => e.2.owner := by
  have rising := ((blocksSorted_iff l).1 sorted).1
  clear sorted
  induction l with
  | nil => cases hb
  | cons e rest ih =>
    obtain ⟨m, d⟩ := e
    obtain ⟨above, rising⟩ := List.pairwise_cons.1 rising
    unfold lookupBlock at hb
    split at hb
    · next here =>
      cases hb
      simp [insertBlock, here, owner]
    · next elsewhere =>
      have after : m < n := above _ (lookupBlock_mem hb)
      simp [insertBlock, Nat.lt_asymm after, Nat.ne_of_gt after, ih hb rising]

theorem ownedCount_seal {x : Store} (wf : x.wf = true) {n : Nat} {b : Block} (hb : lookupBlock x.blocks n = some b)
    (name : CapName) : (x.seal n).ownedCount name = x.ownedCount name := by
  have count : ∀ y : Store, y.ownedCount name = (y.blocks.map fun e => e.2.owner).countP fun o => decide (o = name) := by
    intro y
    rw [List.countP_map, List.countP_eq_length_filter]
    rfl
  have owners : ((x.seal n).blocks.map fun e => e.2.owner) = x.blocks.map fun e => e.2.owner := by
    unfold Store.seal Store.modifyBlock
    rw [hb]
    exact insertBlock_owners wf hb rfl
  rw [count, count, owners]

/-- A capture without a FILLING block once its own is sealed. -/
theorem filling_seal_none {x : Store} (wf : x.wf = true) {name : CapName} {n : Nat} {b : Block} (hb : lookupBlock x.blocks n = some b)
    (others : ∀ m y, lookupBlock x.blocks m = some y → y.owner = name → m ≠ n → y.state = .sealed) :
    (x.seal n).filling name = none := by
  obtain ⟨here, elsewhere⟩ := seal_lookup x n b hb
  unfold Store.filling
  rw [List.find?_eq_none]
  rintro ⟨m, y⟩ hm
  have hy := lookupBlock_of_mem (seal_wf x n wf) hm
  by_cases e : m = n
  · subst e
    rw [here] at hy
    cases hy
    simp
  · rw [elsewhere m e] at hy
    rw [decide_eq_true_eq, not_and]
    intro owner
    rw [others m y hy owner e]
    exact nofun

/-- The head cannot be recycled while it is the last block of its chain, or holds the trigger (R41). -/
theorem canRecycle_seal {x : Store} {n : Nat} {b : Block} (hb : lookupBlock x.blocks n = some b) (last : b.next = none) {c : Capture}
    (h : c.head = n ∨ c.trigBlock = some c.head) : (x.seal n).canRecycle c = false := by
  unfold Store.canRecycle
  obtain head | trig := h
  · rw [head, (seal_lookup x n b hb).1]
    simp [last]
  · split
    · simp [trig]
    · rfl

/-- No block is found for a record at quota, or with no FREE block and nothing to reclaim, where the head is not to be recycled
(R39, R42). -/
theorem nextBlock_none {s : State} {name : CapName} {c : Capture} (index : Nat)
    (full : c.quota ≤ s.sto.ownedCount name ∨ (s.sto.lowestFree = none ∧ s.reclaim = none))
    (kept : c.mode = .fill ∨ s.sto.canRecycle c = false) : s.nextBlock name c index = none := by
  have recycled : (if c.mode = .window && s.sto.canRecycle c then some (s.recycle name c index) else none) = none := by
    obtain h | h := kept <;> simp [h]
  unfold State.nextBlock
  dsimp only
  rw [recycled]
  obtain quota | ⟨free, reclaim⟩ := full
  · rw [if_neg (Nat.not_lt.2 quota)]
  · rw [free, reclaim]
    split <;> rfl

/-- The full FILLING block is sealed and the record is not placed (R42). -/
theorem placeRecord_refused {s : State} {name : CapName} {c : Capture} {n : Nat} {b : Block} (hf : s.sto.filling name = some (n, b))
    (hc : s.sto.capture name = some c) (full : b.records.length = 4096) (word : ChannelWord) {index : Nat}
    (notFound : (s.setSto (s.sto.seal n)).nextBlock name c index = none) :
    s.placeRecord name word index = (s.setSto (s.sto.seal n), false) := by
  have noRoom : ¬ b.recordCount < Config.recordsPerBlock := by simp [Block.recordCount, full, Config.recordsPerBlock]
  simp only [State.placeRecord, hf, hc, if_neg noRoom, notFound]

/-- A capture with nothing left to write is COMPLETE as its final write begins (R44, R71, log 22). -/
theorem beginFinalWrite_nothing {v : State} {name : CapName} {c : Capture} (ha : v.acq.active = some name)
    (hc : v.sto.capture name = some c) (hf : v.sto.filling name = none) (keep : c.discard = false)
    (single : v.acq.repeatFlag = false) :
    v.beginFinalWrite = (((v.setSto { v.sto with slots := v.sto.slots.set name.slot (some { c with complete := true }) }).setAcq
      v.acq.release).raiseBoth .captureEnded).raiseBoth .engineState := by
  have unsealed : v.sealFilling name = v := by
    unfold State.sealFilling
    rw [hf]
  unfold State.beginFinalWrite
  rw [ha]
  dsimp only
  rw [hf, Option.isNone_none, if_pos rfl, finish_eq v name c ha hc]
  dsimp only
  rw [unsealed, modifyCapture_eq hc, if_neg (by simp [keep])]
  exact if_neg fun h => Bool.false_ne_true (single.symm.trans h.1)

/-- What STORE_FULL leaves of a capture whose FILLING block has been sealed (R42, R44, R69, R71). -/
theorem enterStopping_storeFull {s : State} {name : CapName} {c : Capture} (ha : s.acq.active = some name)
    (hc : s.sto.capture name = some c) (hn : c.complete = false) (keep : c.discard = false) (hf : s.sto.filling name = none) :
    ∃ t c', s.enterStopping .storeFull = t ∧
      t.acq = { s.acq with
        engine := .idle, active := none, copy := none, armedAt := none, postEnd := none, force := none, stopPending := false
        repeatFlag := false } ∧
      t.smp = none ∧ t.trg.state = .standby ∧ s.lanesOffOf t ∧ t.sto.capture name = some c' ∧ c'.complete = true ∧
      c'.endReason = some .storeFull ∧ c'.head = c.head ∧
      (∀ n b, s.sto.wf = true → lookupBlock s.sto.blocks n = some b → b.owner = name → lookupBlock t.sto.blocks n = some b) ∧
      ∀ q, t.hasNotice q .engineState = true ∧ t.hasNotice q .captureEnded = true := by
  have facts := stopped_facts ha hc hn .storeFull
  rw [enterStopping_eq]
  generalize s.stopped .storeFull = v at facts
  have acq : v.acq = { s.acq with
      engine := .stopping, force := none, armedAt := none, stopPending := false, repeatFlag := false } :=
    facts.acq.trans (congrArg (fun r => { s.acq with
      engine := .stopping, force := none, armedAt := none, stopPending := false, repeatFlag := r }) (Bool.and_false _))
  obtain ⟨d, hd, ended⟩ := facts.capture
  have reason : d.endReason = some .storeFull := by rw [ended]
  have head : d.head = c.head := by rw [ended]
  have completed := beginFinalWrite_nothing (by rw [acq]; exact ha) hd ((filling_of_owned facts.owned).trans hf)
    (by rw [ended]; exact keep) (by rw [acq])
  refine ⟨_, { d with complete := true }, completed, ?_, facts.smp, congrArg Trg.state facts.trg, facts.lanes,
    capture_set (slots_of_capture hd).2, rfl, reason, head,
    fun n b wf hb owner => lookupBlock_of_owned (facts.wf wf) facts.owned hb owner, fun q => ⟨?_, ?_⟩⟩
  · exact congrArg Acq.release acq
  · rw [hasNotice_raiseBoth]
    exact Bool.or_true _
  · rw [hasNotice_raiseBoth, hasNotice_raiseBoth]
    exact Bool.or_eq_true_iff.2 (.inl (Bool.or_true _))

/-- Settles O52: POST_DONE by the entry to STOPPING after the lanes and TRG have had the sample; STORE_FULL by sealing the full block,
after which the final write has nothing to write. -/
theorem captureEndSamples : Obligations.CaptureEndSamples := by
  refine ⟨fun s x name c e w wf h later stop engine post reached => ?_,
    fun s x name c n b w wf hx later ha hc hn keep hf full last others runFull noBlock noRecycle => ?_⟩
  · have ⟨_, ha, hc, hn, n, b, hf, _⟩ := h
    obtain ⟨u, held, taken⟩ := takeSample_held s x name c n b w wf h hf
    have acq : u.acq = s.acq := held.acq.trans (if_neg later)
    have holding := held.holding ha hn
    rw [if_neg later] at holding
    obtain ⟨t, came, c', delivered, tacq, smp, trg, lanes, hc', reason, incomplete, trigTime, filling, notices⟩ :=
      deliver_ends holding x.div (it := x.item name (x.nextWord w)) (acq ▸ stop) (acq ▸ engine) (acq ▸ post) reached
    have clock := clock_deliver u x.div (x.item name (x.nextWord w))
    have row : exec (.postDone w) s = .next t := congrArg Host.Outcome.next (sampleWith_came (taken.trans delivered))
    rw [delivered] at clock
    rw [acq] at tacq
    rw [held.trg] at trg
    have captureEnded : ∀ q, u.hasNotice q .captureEnded = s.hasNotice q .captureEnded := fun q => by
      unfold State.hasNotice
      rw [held.ports]
    refine ⟨t, c', row, (clock_eq_iff.1 clock).1.trans held.timebase, tacq, smp, ?_, ?_, ?_, ?_, ?_, lanes, hc', reason, incomplete,
      trigTime, filling, fun q => ⟨(notices q).1, (notices q).2.trans (captureEnded q)⟩⟩
    all_goals rw [trg]; rfl
  · have hb := filling_lookup wf hf
    obtain ⟨owner, -⟩ := filling_props hf
    obtain ⟨u, hu⟩ : ∃ u, u = (s.advanceTo x.nextRaw).setSto (s.sto.seal n) := ⟨_, rfl⟩
    have uc : u.sto.capture name = some c := hu ▸ (capture_of_slots (seal_slots _ _) _).trans hc
    have uf : u.sto.filling name = none := hu ▸ filling_seal_none wf hb others
    obtain ⟨sealedHere, sealedElse⟩ := seal_lookup s.sto n b hb
    have notFound : u.nextBlock name c x.next = none := by
      refine nextBlock_none x.next (noBlock.imp (fun quota => ?_) fun ⟨free, reclaim⟩ => ⟨?_, ?_⟩)
        (noRecycle.imp id fun h => hu ▸ canRecycle_seal hb last h)
      · rw [hu]
        exact (ownedCount_seal wf hb name).symm ▸ quota
      · refine lowestFree_none _ fun m hm => ?_
        rw [hu]
        by_cases e : m = n
        · subst e
          exact sealedHere.symm ▸ nofun
        · exact (sealedElse m e).symm ▸ free m hm
      · exact reclaim_none_of_slots (hu ▸ seal_slots _ _) reclaim
    have hold : ((s.advanceTo x.nextRaw).setOrigin x).holdSample x name (x.nextWord w) = (u, false) := by
      rw [setOrigin_later _ later, holdSample_places (extends_eq_none runFull), hu]
      exact placeRecord_refused (s := s.advanceTo x.nextRaw) hf hc full _ (hu ▸ notFound)
    have taken : s.takeSample w = (u.enterStopping .storeFull, []) := by
      rw [takeSample_eq s x name w hx ha, hold]
      rfl
    obtain ⟨t, c', ht, acq, smp, trg, lanes, hc', complete, reason, head, blocks, notices⟩ :=
      enterStopping_storeFull (s := u) (hu ▸ ha) uc hn keep uf
    have clock := clock_enterStopping u .storeFull
    rw [ht] at taken clock
    refine ⟨t, c', ?_, (clock_eq_iff.1 clock).1.trans (hu ▸ rfl), acq.trans (hu ▸ rfl), smp, trg,
      fun l => (lanes l).trans (hu ▸ rfl), hc', complete, reason, head, ?_, notices⟩
    · rw [exec_laterSample hx later, taken]
    · exact blocks n _ (hu ▸ seal_wf _ _ wf) (hu ▸ sealedHere) owner

end Sys2Proof.Machine
end

section
/-! SUPPORT. What a command does to the captures: the commands that reach STO, ACQ, SMP, TRG's state, the lanes or the event list, and the
rule that a relation kept by their effects is kept by every command. -/

namespace Sys2Proof.Machine

open Sys2Proof

/-! ## What the laws of the captures read -/

/-- What the part holds of captures, samples and events: ACQ, SMP, STO, TRG's state, the lanes and the listed events. -/
def State.holdings (s : State) : Acq × Option Sampling × Store × TrgState × Quad Lane × List Event :=
  (s.acq, s.smp, s.sto, s.trg.state, s.lanes, s.evl.events)

theorem holdings_eq_iff {s t : State} : t.holdings = s.holdings ↔ t.acq = s.acq ∧ t.smp = s.smp ∧ t.sto = s.sto ∧
    t.trg.state = s.trg.state ∧ t.lanes = s.lanes ∧ t.evl.events = s.evl.events := by
  simp only [State.holdings, Prod.mk_inj]

theorem OnlyPorts.holdings {s t : State} (h : OnlyPorts s t) : t.holdings = s.holdings := by
  unfold OnlyPorts at h
  rw [h]
  rfl

section

variable (s : State)

@[simp] theorem holdings_setTimebase (x : Nat) : (s.setTimebase x).holdings = s.holdings := rfl
@[simp] theorem holdings_advanceTo (x : Nat) : (s.advanceTo x).holdings = s.holdings := rfl
@[simp] theorem holdings_setPods (x : Quad Pod) : (s.setPods x).holdings = s.holdings := rfl
@[simp] theorem holdings_setPod (i : Four) (x : Pod) : (s.setPod i x).holdings = s.holdings := rfl
@[simp] theorem holdings_setVrn (x : Vrn) : (s.setVrn x).holdings = s.holdings := rfl
@[simp] theorem holdings_setPort (p : Port) (x : PortCtl) : (s.setPort p x).holdings = s.holdings := rfl
@[simp] theorem holdings_raise (p : Port) (n : Notice) : (s.raise p n).holdings = s.holdings := rfl
@[simp] theorem holdings_raiseBoth (n : Notice) : (s.raiseBoth n).holdings = s.holdings := rfl
@[simp] theorem holdings_setFreeIx (x : Nat) : (s.setFreeIx x).holdings = s.holdings := rfl
@[simp] theorem holdings_setPending (x : List Instr) : (s.setPending x).holdings = s.holdings := rfl
@[simp] theorem holdings_renderGone (p : Port) : (s.renderGone p).holdings = s.holdings := rfl
@[simp] theorem holdings_modifyEventPort (p : Port) (f : EventPort → EventPort) :
    (s.modifyEventPort p f).holdings = s.holdings := rfl

@[simp] theorem holdings_checkReady (p : Port) : (s.checkReady p).holdings = s.holdings := by
  unfold State.checkReady
  dsimp only
  split <;> rfl

@[simp] theorem holdings_rearmReady (p : Port) : (s.rearmReady p).holdings = s.holdings := holdings_checkReady _ p

/-! ### Operations of the renderer, the event list's ports and PRB -/

@[simp] theorem holdings_afterFetch (p : Port) (n : Nat) : (s.afterFetch p n).holdings = s.holdings := by
  unfold State.afterFetch
  dsimp only
  split
  · split <;> rfl
  · split <;> rfl
  · rfl

@[simp] theorem holdings_cancelRender (p : Port) : (s.cancelRender p).holdings = s.holdings := by
  unfold State.cancelRender
  split <;> rfl

@[simp] theorem holdings_resetRender (p : Port) : (s.resetRender p).holdings = s.holdings := by
  unfold State.resetRender
  split <;> rfl

@[simp] theorem holdings_queueItem (p : Port) (x : RenderCtx) (item : Item) : (s.queueItem p x item).holdings = s.holdings := by
  unfold State.queueItem
  dsimp only
  split <;> rfl

@[simp] theorem holdings_seekTo (p : Port) (found : Option Event) : (seekTo p found s).1.holdings = s.holdings := by
  simp [seekTo]

theorem holdings_eventsReadAnswer (p : Port) (count : Byte) : (eventsReadAnswer p count s).1.holdings = s.holdings := by
  unfold eventsReadAnswer
  split <;> simp

theorem holdings_eventsSeekAnswer (p : Port) (target : SeekTarget) : (eventsSeekAnswer p target s).1.holdings = s.holdings := by
  unfold eventsSeekAnswer
  split
  · split <;> simp
  · split <;> simp
  · simp
  · rfl

theorem holdings_eventsThresholdAnswer (p : Port) (threshold : BitVec 16) :
    (eventsThresholdAnswer p threshold s).1.holdings = s.holdings := by
  unfold eventsThresholdAnswer
  split <;> simp

theorem holdings_renderStartAnswer (p : Port) (slot : Byte) (num : BitVec 16) (start width : BitVec 64) (columns : BitVec 16)
    (channels : List Byte) (lanes : Byte) :
    (renderStartAnswer p slot num start width columns channels lanes s).1.holdings = s.holdings := by
  unfold renderStartAnswer
  split
  · rfl
  · rfl
  · dsimp only
    split <;> rfl

theorem holdings_renderFetchAnswer (p : Port) (count : Byte) : (renderFetchAnswer p count s).1.holdings = s.holdings := by
  unfold renderFetchAnswer
  split
  · rfl
  · dsimp only
    split
    · simp
    · split <;> rfl

theorem holdings_podRescanAnswer (pod : Byte) : (podRescanAnswer pod s).1.holdings = s.holdings := by
  unfold podRescanAnswer
  split
  · rfl
  · split
    · rfl
    · split <;> rfl

theorem holdings_failAttempt (i : Four) (signs : List BusSign) (t : Nat) : (s.failAttempt i signs t).holdings = s.holdings := by
  rw [failAttempt_eq]
  split <;> rfl

theorem holdings_finishAttempt (i : Four) (bytes : List Byte) (t : Nat) : (s.finishAttempt i bytes t).holdings = s.holdings := by
  rw [finishAttempt_eq]
  rfl

end

/-! ## The rule of every command -/

/-- What a relation must keep of a command for `exec_keeps`: the effect of the command on STO, ACQ, SMP, TRG's state, the lanes and the
list; nothing for a command that has none. -/
def EffectKept (R : State → State → Prop) : Instr → Prop
  | .nrst => ∀ u t, execNrst u = .next t → R u t
  | .planEdit p _ sec expected contents => ∀ u, R u (planEditAnswer p sec expected contents u).1
  | .arm _ _ => ∀ u, R u (armAnswer u).1
  | .stop _ _ => ∀ u, R u (stopAnswer u).1
  | .force _ _ => ∀ u, R u (forceAnswer u).1
  | .abort _ _ => ∀ u, R u (abortAnswer u).1
  | .retain p _ slot num => ∀ u, R u (retainAnswer p slot num u).1
  | .release p _ slot num => ∀ u, R u (releaseAnswer p slot num u).1
  | .readRecords _ _ slot num start count => ∀ u, R u (readRecordsAnswer slot num start count u).1
  | .storeHealth _ _ clear => ∀ u, R u (storeHealthAnswer clear u).1
  | .storeTest _ _ kind => ∀ u, R u (storeTestAnswer kind u).1
  | .portReset p _ => ∀ u, R u (portResetAnswer p u).1
  | .engineReset p _ => ∀ u, R u (engineResetAnswer p u).1
  | .podDetach i _ => ∀ u moment, R u (u.losePod i moment)
  | .firstSample w => ∀ u, R u (u.takeSample w).1
  | .sample w => ∀ u, R u (u.takeSample w).1
  | .armedEntry w => ∀ u, R u (u.takeSample w).1
  | .withinExpiry w => ∀ u, R u (u.takeSample w).1
  | .stageSatisfied w => ∀ u, R u (u.takeSample w).1
  | .postDone w => ∀ u, R u (u.takeSample w).1
  | .twoWireStall _ w => ∀ u, R u (u.takeSample w).1
  | .clockedIdleEnd _ w => ∀ u, R u (u.takeSample w).1
  | .asyncIdleEnd _ w => ∀ u, R u (u.takeSample w).1
  | .biphaseIdleEnd _ w => ∀ u, R u (u.takeSample w).1
  | .drainLimit _ w => ∀ u, R u (u.takeSample w).1
  | .finalWriteComplete => ∀ u, u.acq.engine = .stopping → R u u.finishWrite
  | .columnItem => ∀ u name es, R u (u.noteReads name es)
  | _ => True

section

variable {R : State → State → Prop} (trans : ∀ {a b c}, R a b → R b c → R a c)
  (same : ∀ {a b : State}, b.holdings = a.holdings → R a b)

include same

theorem sampleRow_keeps {s : State} {due : Bool} {w : ChannelWord} (taken : ∀ u, R u (State.takeSample u w).1) :
    R s (if due then (s.takeSample w).1 else s) := by
  split
  · exact taken s
  · exact same rfl

include trans

/-- Every command keeps a relation that is kept where nothing of the holdings changes, and by the command's own effect on them. -/
theorem exec_keeps {c : Instr} (effect : EffectKept R c) {s t : State} (h : exec c s = .next t) : R s t := by
  have ports : ∀ {a b : State}, OnlyPorts a b → R a b := fun h => same h.holdings
  have asked : ∀ {f : State → State × Answer}, (∀ u, R u (f u).1) → ∀ {d p tag}, s.request d p tag f = .next t → R s t :=
    fun answer _ _ _ => request_keeps (R := R) trans ports answer
  cases c with
  | nrst => exact effect s t h
  | sendTransaction p bytes => cases h; exact ports (transaction_onlyPorts _ _ _ _)
  | fetchTransaction p n => cases h; exact ports (transaction_onlyPorts _ _ _ _)
  | otherKindTransaction p kind bytes => cases h; exact ports (transaction_onlyPorts _ _ _ _)
  | ident p tag => exact asked (f := fun s => (s, .ident p s.timebase)) (fun _ => same rfl) h
  | planRead p tag sec => exact asked (fun u => same (by rw [planReadAnswer_state])) h
  | planEdit p tag sec expected contents => exact asked effect h
  | arm p tag => exact asked effect h
  | stop p tag => exact asked effect h
  | force p tag => exact asked effect h
  | abort p tag => exact asked effect h
  | status p tag => exact asked (f := fun s => (s, .status s.statusReport)) (fun _ => same rfl) h
  | captureList p tag =>
    exact asked (f := fun s => (s, .captureList (numbered.map s.sto.listEntry))) (fun _ => same rfl) h
  | captureInfo p tag slot num => exact asked (fun u => same (by rw [captureInfoAnswer_state])) h
  | retain p tag slot num => exact asked effect h
  | release p tag slot num => exact asked effect h
  | readRecords p tag slot num start count => exact asked effect h
  | eventsRead p tag count => exact asked (fun u => same (holdings_eventsReadAnswer u p count)) h
  | eventsSeek p tag target => exact asked (fun u => same (holdings_eventsSeekAnswer u p target)) h
  | eventsThreshold p tag threshold =>
    exact asked (fun u => same (holdings_eventsThresholdAnswer u p threshold)) h
  | renderStart p tag slot num start width columns channels lanes =>
    exact asked
      (fun u => same (holdings_renderStartAnswer u p slot num start width columns channels lanes)) h
  | renderFetch p tag count => exact asked (fun u => same (holdings_renderFetchAnswer u p count)) h
  | renderCancel p tag => exact asked (f := renderCancelAnswer p) (fun u => same (holdings_cancelRender u p)) h
  | noticeRead p tag => exact asked (f := noticeReadAnswer p) (fun _ => same rfl) h
  | noticeEnable p tag enables => exact asked (fun u => ports (noticeEnableAnswer_onlyPorts p enables u)) h
  | podInfo p tag pod => exact asked (fun u => same (by rw [podInfoAnswer_state])) h
  | podRescan p tag pod => exact asked (fun u => same (holdings_podRescanAnswer u pod)) h
  | storeHealth p tag clear => exact asked effect h
  | storeTest p tag kind => exact asked effect h
  | portReset p tag => exact asked effect h
  | engineReset p tag => exact asked effect h
  | sensePresent i at_ =>
    unfold exec execSensePresent at h
    dsimp only at h
    split at h <;> (cases h; exact same rfl)
  | debounceExpiry i =>
    unfold exec execDebounceExpiry at h
    dsimp only at h
    split at h <;> (cases h; exact same rfl)
  | podDetach i at_ =>
    unfold exec execPodDetach at h
    dsimp only at h
    split at h
    · cases h; exact same rfl
    · cases h
      refine trans ?_ (effect _ _)
      exact same rfl
  | descriptorReadDone i bytes at_ =>
    unfold exec execDescriptorReadDone at h
    dsimp only at h
    split at h
    · cases h; exact same (holdings_finishAttempt _ _ _ _)
    · cases h; exact same rfl
  | addressNak i at_ =>
    unfold exec execAddressNak at h
    dsimp only at h
    split at h
    · cases h; exact same (holdings_failAttempt _ _ _ _)
    · cases h; exact same rfl
  | clockHoldTimeout i at_ =>
    unfold exec execClockHoldTimeout at h
    dsimp only at h
    split at h
    · cases h; exact same (holdings_failAttempt _ _ _ _)
    · cases h; exact same rfl
  | retryWaitExpiry i =>
    unfold exec execRetryWaitExpiry at h
    dsimp only at h
    split at h <;> (cases h; exact same rfl)
  | triggerInEdge level at_ =>
    unfold exec execTriggerInEdge at h
    dsimp only at h
    split at h <;> (cases h; exact same rfl)
  | triggerOutPulseEnd =>
    unfold exec execTriggerOutPulseEnd at h
    dsimp only at h
    split at h <;> (cases h; exact same rfl)
  | firstSample w => cases h; exact sampleRow_keeps same effect
  | sample w => cases h; exact sampleRow_keeps same effect
  | armedEntry w => cases h; exact sampleRow_keeps same effect
  | withinExpiry w => cases h; exact sampleRow_keeps same effect
  | stageSatisfied w => cases h; exact sampleRow_keeps same effect
  | postDone w => cases h; exact sampleRow_keeps same effect
  | twoWireStall l w => cases h; exact sampleRow_keeps same effect
  | clockedIdleEnd l w => cases h; exact sampleRow_keeps same effect
  | asyncIdleEnd l w => cases h; exact sampleRow_keeps same effect
  | biphaseIdleEnd l w => cases h; exact sampleRow_keeps same effect
  | drainLimit l w => cases h; exact sampleRow_keeps same effect
  | finalWriteComplete =>
    unfold exec execFinalWriteComplete at h
    dsimp only at h
    split at h
    · next stopping => cases h; exact effect s stopping
    · cases h; exact same rfl
  | columnItem =>
    unfold exec execColumnItem at h
    dsimp only at h
    split at h
    · cases h; exact same rfl
    · split at h
      · cases h; exact same rfl
      · split at h
        · cases h; exact trans (effect _ _ _) (same (holdings_queueItem _ _ _ _))
        · cases h; exact same rfl
  | annotationItem =>
    unfold exec execAnnotationItem at h
    dsimp only at h
    split at h
    · cases h; exact same rfl
    · split at h
      · cases h; exact same rfl
      · split at h
        · cases h; exact same (holdings_queueItem _ _ _ _)
        · cases h; exact same rfl

end

end Sys2Proof.Machine
end

section
/-! SUPPORT. The law of retention: a COMPLETE capture that a port retains stays through every command but the port's own release and
resets, and power-on (R40, R46 to R48, R184). -/

namespace Sys2Proof.Machine

open Sys2Proof

/-- The named capture is held, COMPLETE and retained by the port; its slot is not the ACTIVE capture's (R46). -/
structure State.Retains (s : State) (name : CapName) (q : Port) : Prop where
  held : ∃ c, s.sto.capture name = some c ∧ c.complete = true ∧ c.retain.get q = true
  inactive : ∀ a, s.acq.active = some a → a.slot ≠ name.slot

/-- A step through which the capture stays retained. -/
def RetainStays (name : CapName) (q : Port) (s t : State) : Prop := s.Retains name q → t.Retains name q

theorem capture_of_slot {x y : Store} {name : CapName} (h : y.slots.get name.slot = x.slots.get name.slot) :
    y.capture name = x.capture name := by
  unfold Store.capture
  rw [h]

/-- The law of the engine keeps the ACTIVE capture apart from the COMPLETE ones (R58). -/
theorem retains_of_engineLaw {s : State} (law : s.engineLaw) {name : CapName} {x : Capture} {q : Port}
    (hx : s.sto.capture name = some x) (complete : x.complete = true) (retained : x.retain.get q = true) : s.Retains name q := by
  refine ⟨⟨x, hx, complete, retained⟩, fun a ha same => ?_⟩
  have active := law.1
  rw [ha] at active
  obtain ⟨-, ⟨c, hc, incomplete⟩, -⟩ := active
  have there := (slots_of_capture hc).1
  rw [same, (slots_of_capture hx).1] at there
  cases there
  exact Bool.false_ne_true (incomplete.symm.trans complete)

section

variable {name : CapName} {q : Port}

namespace RetainStays

variable {s t u : State}

theorem refl (s : State) : RetainStays name q s s := id

theorem trans (h : RetainStays name q s t) (k : RetainStays name q t u) : RetainStays name q s u := k ∘ h

/-- A step that leaves the capture's slot, and takes no ACTIVE capture there. -/
theorem of_slot (slot : s.Retains name q → t.sto.slots.get name.slot = s.sto.slots.get name.slot)
    (active : ∀ a, t.acq.active = some a → s.acq.active = some a ∨ s.sto.slots.get a.slot = none) : RetainStays name q s t := by
  intro h
  obtain ⟨c, hc, props⟩ := h.held
  refine ⟨⟨c, (capture_of_slot (slot h)).trans hc, props⟩, fun a ha same => ?_⟩
  obtain before | empty := active a ha
  · exact h.inactive a before same
  · rw [same, (slots_of_capture hc).1] at empty
    cases empty

theorem of_slots (slots : t.sto.slots = s.sto.slots) (active : t.acq.active = s.acq.active) : RetainStays name q s t :=
  of_slot (fun _ => by rw [slots]) fun _ ha => .inl (active ▸ ha)

theorem of_core (h : KeepsCore s t) (slots : t.sto.slots = s.sto.slots) : RetainStays name q s t :=
  of_slots slots (by rw [h.acq])

theorem of_holdings (h : t.holdings = s.holdings) : RetainStays name q s t := by
  obtain ⟨acq, -, sto, -⟩ := holdings_eq_iff.1 h
  exact of_slots (by rw [sto]) (by rw [acq])

/-- A change of a capture record that takes neither its number, nor COMPLETE, nor the port's retain. -/
theorem of_modify (nm : CapName) {f : Capture → Capture} (hf : ∀ c, (f c).num = c.num ∧
    (c.complete = true → (f c).complete = true) ∧ (c.retain.get q = true → (f c).retain.get q = true)) :
    RetainStays name q s (s.modifyCapture nm f) := by
  intro h
  refine ⟨?_, h.inactive⟩
  obtain ⟨c, hc, complete, retained⟩ := h.held
  show ∃ c, (s.sto.modify nm f).capture name = some c ∧ _
  cases hd : s.sto.capture nm with
  | none =>
    refine ⟨c, ?_, complete, retained⟩
    unfold Store.modify
    rw [hd]
    exact hc
  | some d =>
    unfold Store.modify
    rw [hd]
    by_cases e : name.slot = nm.slot
    · obtain ⟨there, num⟩ := slots_of_capture hc
      rw [e, (slots_of_capture hd).1] at there
      cases there
      obtain ⟨sameNum, keepsComplete, keepsRetain⟩ := hf c
      refine ⟨f c, ?_, keepsComplete complete, keepsRetain retained⟩
      rw [← e]
      exact capture_set (sameNum.trans num)
    · exact ⟨c, (capture_set_ne e).trans hc, complete, retained⟩

end RetainStays

open RetainStays

/-! ## Removals and events (R40, R45, R138 to R143) -/

/-- What is left of the capture table by a removal. -/
theorem removeCapture_slots (s : State) (i : Four) : (s.removeCapture i).sto.slots = s.sto.slots.set i none := by
  unfold State.removeCapture Store.nameAt
  cases h : s.sto.slots.get i with
  | none => exact (quad_set_same h).symm
  | some c =>
    obtain ⟨-, sto, -⟩ := rendersGone_spec ((s.setSto { s.sto with
        blocks := s.sto.blocks.filter fun e => e.2.owner ≠ ⟨i, c.num⟩, slots := s.sto.slots.set i none }).setEvl
      (s.evl.remove fun e => e.cap = ⟨i, c.num⟩)) ⟨i, c.num⟩
    exact congrArg Store.slots sto

theorem removeCapture_retainStays (s : State) {i : Four} (h : s.Retains name q → i ≠ name.slot) :
    RetainStays name q s (s.removeCapture i) := by
  refine of_slot (fun r => ?_) fun a ha => .inl ?_
  · rw [removeCapture_slots, quad_get_set_ne _ _ (h r).symm]
  · rw [(removeCapture_keeps s i).acq] at ha
    exact ha

/-- A reclaim's victim is retained by no port (R40). -/
theorem reclaim_retainStays {s t : State} (h : s.reclaim = some t) : RetainStays name q s t := by
  unfold State.reclaim at h
  obtain ⟨i, hv, e⟩ := Option.map_eq_some_iff.1 h
  obtain ⟨v, hslot, -, freeA, freeB, -⟩ := victim_some _ _ hv
  cases e
  refine RetainStays.trans (removeCapture_retainStays s ?_) (of_holdings (holdings_raiseBoth _ _))
  rintro r rfl
  obtain ⟨c, hc, -, retained⟩ := r.held
  rw [(slots_of_capture hc).1] at hslot
  cases hslot
  cases q
  · exact Bool.false_ne_true (freeA.symm.trans retained)
  · exact Bool.false_ne_true (freeB.symm.trans retained)

theorem appendEvent_retainStays (s : State) (e : Event) : RetainStays name q s (s.appendEvent e) :=
  of_core (appendEvent_keeps s e) (by rw [appendEvent_sto])

theorem enterWithRoom_retainStays (fuel : Nat) (e : Event) (s : State) :
    RetainStays name q s (State.enterWithRoom fuel e s) := by
  have counted : ∀ u : State, RetainStays name q u
      (u.modifyCapture e.cap fun c => { c with truncated := satAdd Config.max32 c.truncated 1 }) := fun u =>
    of_modify _ fun _ => ⟨rfl, id, id⟩
  induction fuel generalizing s with
  | zero =>
    unfold State.enterWithRoom
    split
    · exact appendEvent_retainStays s e
    · exact counted s
  | succ n ih =>
    unfold State.enterWithRoom
    split
    · exact appendEvent_retainStays s e
    · split
      · next hf hr => cases hf; exact (reclaim_retainStays hr).trans (ih _)
      · exact counted s

theorem enterEvent_retainStays (s : State) (e : Event) : RetainStays name q s (s.enterEvent e) := by
  unfold State.enterEvent
  split
  · exact .refl s
  · split
    · exact of_modify _ fun _ => ⟨rfl, id, id⟩
    · exact enterWithRoom_retainStays _ _ _

theorem enterHead_retainStays (s : State) (l : List Event) : RetainStays name q s (l.head?.elim s s.enterEvent) := by
  cases l with
  | nil => exact .refl s
  | cons e _ => exact enterEvent_retainStays s e

theorem enterAll_retainStays (fuel : Nat) (events : Quad (List Event)) (s : State) :
    RetainStays name q s (State.enterAll fuel events s) := by
  induction fuel generalizing s events with
  | zero => exact .refl s
  | succ n ih =>
    unfold State.enterAll
    split
    · exact .refl s
    · exact (enterHead_retainStays s _).trans (ih _ _)
    · have chosen : RetainStays name q s (s.setFreeIx (s.freeIx + 1)) := of_holdings rfl
      exact (chosen.trans (enterHead_retainStays _ _)).trans (ih _ _)

theorem modifyActive_retainStays (s : State) {f : Capture → Capture} (hf : ∀ c, (f c).num = c.num ∧
    (c.complete = true → (f c).complete = true) ∧ (c.retain.get q = true → (f c).retain.get q = true)) :
    RetainStays name q s (s.modifyActive f) := by
  unfold State.modifyActive
  split
  · exact of_modify _ hf
  · exact .refl s

/-! ## Placing records, reading them, and the events of a sample (R38 to R42, R49 to R52, R129) -/

theorem recycle_retainStays (s : State) (nm : CapName) (c : Capture) (index : Nat) :
    RetainStays name q s (s.recycle nm c index) := by
  have stored : RetainStays name q s (s.setSto (s.sto.recycle nm c index)) := by
    unfold Store.recycle
    split
    · next b _ =>
      split
      · next h _ =>
        refine RetainStays.trans (t := s.modifyCapture nm fun c => { c with head := h }) (of_modify _ fun _ => ⟨rfl, id, id⟩) ?_
        refine of_slots ?_ rfl
        simp only [State.setSto_sto, appendBlock_slots]
        unfold State.modifyCapture Store.modify Store.capture
        simp only [State.setSto_sto]
        split <;> rfl
      · exact .refl s
    · exact .refl s
  have expired : ∀ (u : State) (t : Nat), RetainStays name q u (u.expireEvents nm t) := fun u t => by
    unfold State.expireEvents
    extract_lets gone k
    have left_ : RetainStays name q u (u.setEvl (u.evl.remove fun e => gone e)) := of_slots rfl rfl
    exact left_.trans (of_modify nm fun _ => ⟨rfl, id, id⟩)
  unfold State.recycle
  dsimp only
  split
  · split
    · exact stored.trans (expired _ _)
    · exact stored
  · exact stored

theorem nextBlock_retainStays {s t : State} {nm : CapName} {c : Capture} {index : Nat} (h : s.nextBlock nm c index = some t) :
    RetainStays name q s t := by
  have recycled : ∀ {u}, (if c.mode = .window && s.sto.canRecycle c then some (s.recycle nm c index) else none) = some u →
      RetainStays name q s u := by
    intro u hu
    split at hu
    · cases hu; exact recycle_retainStays _ _ _ _
    · cases hu
  have appended : ∀ (u : State) n, RetainStays name q u (u.setSto (u.sto.appendBlock nm c n index)) := fun u n =>
    of_slots (appendBlock_slots _ _ _ _ _) rfl
  unfold State.nextBlock at h
  dsimp only at h
  split at h
  · split at h
    · cases h; exact appended _ _
    · split at h
      · next hr =>
        split at h
        · cases h; exact (reclaim_retainStays hr).trans (appended _ _)
        · exact recycled h
      · exact recycled h
  · exact recycled h

theorem holdSample_retainStays (s : State) (x : Sampling) (nm : CapName) (word : ChannelWord) :
    RetainStays name q s (s.holdSample x nm word).1 := by
  have placed : ∀ (u : State) n b index, RetainStays name q u (u.setSto (u.sto.appendRecord n b word index)) := fun _ _ _ _ =>
    of_slots rfl rfl
  unfold State.holdSample
  split
  · refine of_slots ?_ rfl
    simp only [State.setSto_sto]
    unfold Store.extendRecord
    split <;> rfl
  · unfold State.placeRecord
    split
    · next n b c _ _ =>
      split
      · exact placed s n b _
      · have sealed_ : RetainStays name q s (s.setSto (s.sto.seal n)) := of_slots (seal_slots _ _) rfl
        dsimp only
        split
        · next hn =>
          have found := sealed_.trans (nextBlock_retainStays hn)
          split
          · exact found.trans (placed _ _ _ _)
          · exact found
        · exact sealed_
    · exact .refl s

theorem noteReads_retainStays (s : State) (nm : CapName) (es : List ReadEntry) : RetainStays name q s (s.noteReads nm es) := by
  have one : ∀ (u : State) e, RetainStays name q u (State.noteRead nm u e) := by
    intro u e
    unfold State.noteRead
    split
    · exact .refl u
    · exact of_slots rfl rfl
    · refine RetainStays.trans (RetainStays.trans ?_ (of_modify nm ?_)) (of_holdings (holdings_raiseBoth _ _))
      · exact of_slots (modifyBlock_slots _ _ _) rfl
      · exact fun _ => ⟨rfl, id, id⟩
  induction es generalizing s with
  | nil => exact .refl s
  | cons e es ih => exact (one s e).trans (ih _)

theorem handOn_retainStays (s : State) (lanes : Quad Lane) (out : Quad (List Emission)) (n : Nat) :
    RetainStays name q s (s.handOn lanes out n).1 := by
  unfold State.handOn
  extract_lets fx
  have counted : RetainStays name q (s.setLanes (lanesAfter lanes fx n))
      ((s.setLanes (lanesAfter lanes fx n)).modifyActive fun c => c.countLanes fx) :=
    modifyActive_retainStays _ fun _ => ⟨rfl, id, id⟩
  have told : ∀ u : State, RetainStays name q u (u.noteMatches fx) := fun u => by
    unfold State.noteMatches
    split
    · exact of_holdings rfl
    · exact .refl u
  have handed : RetainStays name q s (s.setLanes (lanesAfter lanes fx n)) := of_slots rfl rfl
  exact ((handed.trans counted).trans (told _)).trans (enterAll_retainStays _ _ _)

/-! ## Arming and the end of a capture (R37, R44, R45, R70 to R75) -/

theorem secureBlock_retainStays {fuel : Nat} {s : State} {r : State × Nat} (h : State.secureBlock fuel s = some r) :
    RetainStays name q s r.1 := by
  induction fuel generalizing s with
  | zero =>
    unfold State.secureBlock at h
    split at h
    · cases h; exact .refl s
    · cases h
  | succ n ih =>
    unfold State.secureBlock at h
    split at h
    · cases h; exact .refl s
    · split at h
      · next hf hr => cases hf; exact (reclaim_retainStays hr).trans (ih h)
      · cases h

theorem reclaim_slots {s t : State} (h : s.reclaim = some t) : ∃ i, s.sto.victim = some i ∧ t.sto.slots = s.sto.slots.set i none := by
  unfold State.reclaim at h
  obtain ⟨i, hv, e⟩ := Option.map_eq_some_iff.1 h
  cases e
  exact ⟨i, hv, removeCapture_slots s i⟩

theorem quad_set_none_get {α : Type} {x : Quad (Option α)} {i j : Four} (h : x.get i = none) : (x.set j none).get i = none := by
  by_cases e : i = j
  · rw [e, quad_get_set]
  · rw [quad_get_set_ne _ _ e, h]

theorem secureBlock_slot {fuel : Nat} {s : State} {r : State × Nat} {i : Four} (h : State.secureBlock fuel s = some r)
    (empty : s.sto.slots.get i = none) : r.1.sto.slots.get i = none := by
  induction fuel generalizing s with
  | zero =>
    unfold State.secureBlock at h
    split at h
    · cases h; exact empty
    · cases h
  | succ n ih =>
    unfold State.secureBlock at h
    split at h
    · cases h; exact empty
    · split at h
      · next hf hr =>
        cases hf
        obtain ⟨j, -, slots⟩ := reclaim_slots hr
        exact ih h (by rw [slots]; exact quad_set_none_get empty)
      · cases h

/-- What is secured for a new capture: an EMPTY slot, in a state that reclaims at most have changed (R37). -/
theorem secure_retainStays {s u : State} {i : Four} {n : Nat} (h : s.secure = some (u, i, n)) :
    RetainStays name q s u ∧ u.sto.slots.get i = none := by
  unfold State.secure at h
  split at h
  · next j hj =>
    obtain ⟨r, hr, e⟩ := Option.map_eq_some_iff.1 h
    cases e
    have empty : (s.sto.slots.get i).isNone = true := List.find?_some (p := fun i => (s.sto.slots.get i).isNone) hj
    exact ⟨secureBlock_retainStays hr, secureBlock_slot hr (Option.isNone_iff_eq_none.1 empty)⟩
  · split at h
    · next j v hv hr =>
      obtain ⟨r, hb, e⟩ := Option.map_eq_some_iff.1 h
      cases e
      obtain ⟨k, hk, slots⟩ := reclaim_slots hr
      obtain rfl : i = k := Option.some.inj (hv.symm.trans hk)
      exact ⟨(reclaim_retainStays hr).trans (secureBlock_retainStays hb),
        secureBlock_slot hb (by rw [slots, quad_get_set])⟩
    · cases h

theorem completeArm_retainStays {s : State} {i : Four} (n : Nat) (empty : s.sto.slots.get i = none) :
    RetainStays name q s (s.completeArm i n) := by
  refine of_slot (fun r => ?_) fun a ha => .inr ?_
  · refine quad_get_set_ne _ _ (fun e => ?_) _
    obtain ⟨c, hc, -⟩ := r.held
    rw [← e, (slots_of_capture hc).1] at empty
    cases empty
  · cases ha
    exact empty

theorem armSteps_retainStays {s u : State} {nm : CapName} (h : s.armSteps = .ok (u, nm)) : RetainStays name q s u := by
  unfold State.armSteps at h
  split at h
  · cases h
  · split at h
    · cases h
    · split at h
      · cases h
      · next hsec =>
        cases h
        obtain ⟨stays, empty⟩ := secure_retainStays (name := name) (q := q) hsec
        exact stays.trans (completeArm_retainStays _ empty)

theorem armAnswer_retainStays (s : State) : RetainStays name q s (armAnswer s).1 := by
  unfold armAnswer
  split
  · exact .refl s
  · split
    · exact .refl s
    · next harm => exact (armSteps_retainStays harm).trans (of_slots rfl rfl)

theorem rearm_retainStays (s : State) : RetainStays name q s s.rearm := by
  unfold State.rearm
  split
  · next harm => exact (armSteps_retainStays harm).trans (of_slots rfl rfl)
  · exact of_slots rfl rfl

/-- The release of ACQ's fields about a capture leaves none ACTIVE. -/
theorem release_retainStays (s : State) {x : Acq} (h : x.active = none) : RetainStays name q s (s.setAcq x) :=
  of_slot (fun _ => rfl) fun a ha => by rw [State.setAcq_acq, h] at ha; cases ha

theorem sealFilling_retainStays (s : State) (nm : CapName) : RetainStays name q s (s.sealFilling nm) :=
  of_core (sealFilling_keeps s nm) (by rw [(sealed_facts s nm).2])

theorem finishWrite_retainStays (s : State) : RetainStays name q s s.finishWrite := by
  unfold State.finishWrite
  split
  · exact .refl s
  · next nm ha =>
    extract_lets s1 removed done_ ended
    have h1 : RetainStays name q s s1 := sealFilling_retainStays s nm
    have active : s1.acq.active = some nm := (congrArg Acq.active (sealFilling_keeps s nm).acq).trans ha
    split
    · exact h1
    · split
      · have h2 : RetainStays name q s1 removed := removeCapture_retainStays s1 fun r => r.inactive nm active
        exact ((h1.trans h2).trans (release_retainStays removed rfl)).trans (of_holdings rfl)
      · have h2 : RetainStays name q s1 done_ := of_modify _ fun _ => ⟨rfl, fun _ => rfl, id⟩
        have h3 : RetainStays name q done_ ended := (release_retainStays done_ rfl).trans (of_holdings rfl)
        dsimp only
        split
        · exact ((h1.trans h2).trans h3).trans (rearm_retainStays ended)
        · exact (h1.trans h2).trans h3

theorem enterStopping_retainStays (s : State) (why : EndReason) : RetainStays name q s (s.enterStopping why) := by
  have begun : ∀ u : State, RetainStays name q u u.beginFinalWrite := fun u => by
    unfold State.beginFinalWrite
    split
    · split
      · exact finishWrite_retainStays u
      · exact .refl u
    · exact .refl u
  unfold State.enterStopping
  extract_lets ended
  have h1 : RetainStays name q s ended := modifyActive_retainStays s fun _ => ⟨rfl, id, id⟩
  have h2 : RetainStays name q ended (ended.setTrg s.trg.toStandby) := of_slots rfl rfl
  have h3 : ∀ (u : State) t n, RetainStays name q u (u.lanesStop t n) := fun u t n =>
    (handOn_retainStays u _ _ _).trans (of_slots rfl rfl)
  have h4 : ∀ u : State, RetainStays name q u ((u.setSmp none).stopEngine why) := fun _ => of_slots rfl rfl
  exact (((h1.trans h2).trans (h3 _ _ _)).trans (h4 _)).trans (begun _)

theorem stopAnswer_retainStays (s : State) : RetainStays name q s (stopAnswer s).1 := by
  unfold stopAnswer
  split
  · exact .refl s
  · exact of_slots rfl rfl
  · split
    · exact of_slots rfl rfl
    · exact enterStopping_retainStays s _

theorem forceAnswer_retainStays (s : State) : RetainStays name q s (forceAnswer s).1 := by
  unfold forceAnswer
  split
  · dsimp only
    split <;> exact of_slots rfl rfl
  · dsimp only
    split <;> exact of_slots rfl rfl
  · exact .refl s

theorem abortAnswer_retainStays (s : State) : RetainStays name q s (abortAnswer s).1 := by
  have discarded : RetainStays name q s s.discardActive := by
    unfold State.discardActive
    extract_lets s1 s2
    have h1 : RetainStays name q s s1 := of_slots rfl rfl
    have h2 : RetainStays name q s1 s2 := by
      simp only [s2]
      split
      · next nm ha => exact removeCapture_retainStays s1 fun r => r.inactive nm ha
      · exact .refl s1
    exact (h1.trans h2).trans (release_retainStays s2 rfl)
  unfold abortAnswer
  split
  · exact .refl s
  · refine RetainStays.trans (t := s.modifyActive fun c => { c with discard := true })
      (modifyActive_retainStays s fun _ => ⟨rfl, id, id⟩) ?_
    exact of_slots rfl (congrArg Acq.active (modifyActive_keeps s _).acq).symm
  · exact discarded.trans (of_holdings rfl)

/-! ## The sample step (R21 to R26, R64 to R68) -/

theorem beginPulse_retainStays (s : State) : RetainStays name q s s.beginPulse := by
  unfold State.beginPulse
  dsimp only
  split <;> exact of_slots rfl rfl

theorem stageActions_retainStays (s : State) (a : StageActions) (n : Nat) : RetainStays name q s (s.stageActions a n) := by
  unfold State.stageActions
  extract_lets s1 s2
  have h1 : RetainStays name q s s1 := by
    simp only [s1]
    split <;> exact of_slots rfl rfl
  have h2 : RetainStays name q s1 s2 := of_slots rfl rfl
  split
  · exact (h1.trans h2).trans (beginPulse_retainStays s2)
  · exact h1.trans h2

theorem declare_retainStays (s : State) (source : TrigSource) (t : Nat) : RetainStays name q s (s.declare source t) := by
  unfold State.declare
  extract_lets short s1 acq s2 s3 trg s4
  have h1 : RetainStays name q s s1 := by
    simp only [s1]
    split
    · exact of_modify _ fun _ => ⟨rfl, id, id⟩
    · exact .refl s
  have h4 : RetainStays name q s1 s4 := of_slots rfl rfl
  exact (h1.trans h4).trans (beginPulse_retainStays s4)

theorem deliver_retainStays (s : State) (D : Nat) (it : SampleItem) : RetainStays name q s (s.deliver D it).1 :=
  deliver_keeps (R := RetainStays name q) RetainStays.refl RetainStays.trans (fun _ _ => of_slots rfl rfl)
    stageActions_retainStays declare_retainStays (fun _ => of_slots rfl rfl) (fun a => handOn_retainStays a _ _ _)
    enterStopping_retainStays s

theorem setOrigin_retainStays (s : State) (x : Sampling) : RetainStays name q s (s.setOrigin x) := by
  unfold State.setOrigin
  split
  · extract_lets origin
    have marked : RetainStays name q s (s.modifyActive fun c => { c with origin := some origin }) :=
      modifyActive_retainStays s fun _ => ⟨rfl, id, id⟩
    refine marked.trans (of_slots rfl ?_)
    rw [(modifyActive_keeps s _).acq]
    rfl
  · exact .refl s

theorem takeSample_retainStays (s : State) (w : ChannelWord) : RetainStays name q s (s.takeSample w).1 := by
  have sampled : ∀ (u : State) x, RetainStays name q u (u.setSmp x) := fun _ _ => of_slots rfl rfl
  unfold State.takeSample
  split
  · next x nm _ _ =>
    extract_lets raw word s1 h
    have h1 : RetainStays name q s s1 := (of_holdings (holdings_advanceTo s raw)).trans (setOrigin_retainStays _ x)
    have h2 : RetainStays name q s1 h.1 := holdSample_retainStays s1 x nm word
    split
    · exact ((h1.trans h2).trans (sampled h.1 _)).trans (deliver_retainStays _ _ _)
    · exact (h1.trans h2).trans (enterStopping_retainStays _ _)
  · exact .refl s

/-! ## The other commands, and the law (R46) -/

theorem losePod_retainStays (s : State) (i : Four) (moment : Nat) : RetainStays name q s (s.losePod i moment) := by
  have noted : ∀ u : State, RetainStays name q u (u.modifyActive fun c =>
      if c.podLost.any fun e => e.1 = i then c else { c with podLost := c.podLost ++ [(i, moment)] }) := fun u =>
    modifyActive_retainStays u fun c => by split <;> exact ⟨rfl, id, id⟩
  unfold State.losePod
  split
  · split
    · dsimp only
      split
      · exact noted s
      · refine RetainStays.trans ?_ (noted _)
        exact of_slots rfl rfl
    · exact .refl s
  · exact .refl s

theorem planEditAnswer_retainStays (p : Port) (sec : Byte) (expected : BitVec 32) (contents : List Byte) (s : State) :
    RetainStays name q s (planEditAnswer p sec expected contents s).1 := by
  have accepted : ∀ plan, RetainStays name q s (s.acceptPlan p plan) := fun _ => of_slots rfl rfl
  have idle : ∀ plan, RetainStays name q s (s.editIdle p plan).1 := fun plan => by
    unfold State.editIdle
    split
    · exact .refl s
    · exact accepted plan
  have probe : ∀ x, RetainStays name q s (s.editProbe p x).1 := fun x => by
    unfold State.editProbe
    extract_lets plan s1
    have h1 : RetainStays name q s s1 := of_slots rfl rfl
    exact h1.trans (modifyActive_retainStays s1 fun c => by split <;> exact ⟨rfl, id, id⟩)
  have matching : ∀ l entries, RetainStays name q s (s.editMatch p l entries).1 := fun l entries => by
    unfold State.editMatch
    split
    · exact .refl s
    · extract_lets plan s1
      have h1 : RetainStays name q s s1 := of_slots rfl rfl
      exact h1.trans (modifyActive_retainStays s1 fun c => by split <;> exact ⟨rfl, id, id⟩)
  have ranged : ∀ {α : Type} (sec : Section) (r : Except FieldFault α) (f : α → State × Answer),
      (∀ x, RetainStays name q s (f x).1) → RetainStays name q s (s.inRangeOr sec r f).1 := fun sec r f h => by
    unfold State.inRangeOr
    split
    · exact .refl s
    · exact h _
  unfold planEditAnswer
  split
  · exact .refl s
  · split
    · exact .refl s
    · exact ranged _ _ _ fun _ => idle _
    · exact ranged _ _ _ probe
    · exact ranged _ _ _ fun _ => idle _
    · exact ranged _ _ _ fun _ => idle _
    · exact ranged _ _ _ fun _ => matching _ _

theorem retainAnswer_retainStays (p : Port) (slot : Byte) (num : BitVec 16) (s : State) :
    RetainStays name q s (retainAnswer p slot num s).1 := by
  unfold retainAnswer
  split
  · exact .refl s
  · split
    · exact of_modify _ fun c => ⟨rfl, id, fun h => by cases p <;> cases q <;> first | rfl | exact h⟩
    · exact .refl s

/-- The capture that a request names (R35). -/
theorem named_ok {s : State} {slot : Byte} {num : BitVec 16} {nm : CapName} {c : Capture} (h : s.named slot num = .ok (nm, c)) :
    slot.toNat = nm.slot.val ∧ num.toNat = nm.num ∧ s.sto.capture nm = some c := by
  unfold State.named slotOf at h
  split at h
  · cases h
  · next i hi =>
    split at h
    · next hc =>
      cases h
      split at hi
      · cases hi; exact ⟨rfl, rfl, hc⟩
      · cases hi
    · cases h

/-- A RELEASE takes the retain of its own port from the capture it names, and no other (R48). -/
theorem releaseAnswer_retainStays {p : Port} {slot : Byte} {num : BitVec 16}
    (other : p = q → ¬ (slot.toNat = name.slot.val ∧ num.toNat = name.num)) (s : State) :
    RetainStays name q s (releaseAnswer p slot num s).1 := by
  unfold releaseAnswer
  split
  · exact .refl s
  · next nm c hnamed =>
    split
    · by_cases e : q = p
      · intro r
        obtain ⟨slotEq, numEq, hc⟩ := named_ok hnamed
        obtain ⟨c', hc', props⟩ := r.held
        have elsewhere : name.slot ≠ nm.slot := fun same => by
          obtain ⟨there, num'⟩ := slots_of_capture hc'
          obtain ⟨here, num''⟩ := slots_of_capture hc
          rw [same, here] at there
          cases there
          exact other e.symm ⟨by rw [same, slotEq], by rw [numEq, ← num'', num']⟩
        refine ⟨⟨c', ?_, props⟩, r.inactive⟩
        dsimp only
        rw [modifyCapture_eq hc]
        exact (capture_set_ne elsewhere).trans hc'
      · exact of_modify _ fun c => ⟨rfl, id, fun h => (congrArg (· = true) (perPort_get_set_ne _ _ e _)).mpr h⟩
    · exact .refl s

/-- A PORT_RESET takes its own port's retains alone (R46, R183). -/
theorem portResetAnswer_retainStays {p : Port} (other : q ≠ p) (s : State) : RetainStays name q s (portResetAnswer p s).1 := by
  have dropped : RetainStays name q s (s.setSto (s.sto.dropRetains p)) := by
    intro r
    refine ⟨?_, r.inactive⟩
    obtain ⟨c, hc, complete, retained⟩ := r.held
    obtain ⟨there, num⟩ := slots_of_capture hc
    refine ⟨{ c with retain := c.retain.set p false }, ?_, complete, (perPort_get_set_ne _ _ other _).trans retained⟩
    simp [Store.capture, Store.dropRetains, there, num]
  refine dropped.trans (of_slots ?_ ?_)
  · exact congrArg Store.slots (holdings_eq_iff.1 (holdings_cancelRender (s.setSto (s.sto.dropRetains p)) p)).2.2.1
  · exact congrArg Acq.active (holdings_eq_iff.1 (holdings_cancelRender (s.setSto (s.sto.dropRetains p)) p)).1

/-- An ENGINE_RESET is refused while the other port retains a capture (R184). -/
theorem engineResetAnswer_retainStays {p : Port} (other : q ≠ p) (s : State) :
    RetainStays name q s (engineResetAnswer p s).1 := by
  unfold engineResetAnswer
  split
  · next none_ =>
    intro r
    obtain ⟨c, hc, -, retained⟩ := r.held
    have retainer : p.other = q := by cases p <;> cases q <;> first | rfl | exact absurd rfl other
    have listed : CapName.mk name.slot c.num ∈ s.sto.retainedBy p.other :=
      List.mem_filterMap.2 ⟨name.slot, mem_allFour _, by rw [(slots_of_capture hc).1]; simp [retainer, retained]⟩
    rw [none_] at listed
    cases listed
  · exact .refl s

end

/-- Settles O12: the operations of every command keep a retained COMPLETE capture apart from the ACTIVE one, and a reclaim, a discard
and the requests of the other port leave it retained. -/
theorem retainedCaptureSurvives : Obligations.RetainedCaptureSurvives := by
  intro c s t name x q law hx complete retained notNrst notRelease notPortReset notEngineReset h
  have stays : RetainStays name q s t := by
    refine exec_keeps (R := RetainStays name q) RetainStays.trans RetainStays.of_holdings ?_ h
    cases c with
    | nrst => exact absurd rfl notNrst
    | planEdit p tag sec expected contents => exact planEditAnswer_retainStays p sec expected contents
    | arm p tag => exact armAnswer_retainStays
    | stop p tag => exact stopAnswer_retainStays
    | force p tag => exact forceAnswer_retainStays
    | abort p tag => exact abortAnswer_retainStays
    | retain p tag slot num => exact retainAnswer_retainStays p slot num
    | release p tag slot num => exact releaseAnswer_retainStays fun e => notRelease tag slot num (e ▸ rfl)
    | readRecords p tag slot num start count =>
      intro u
      show RetainStays name q u (readRecordsAnswer slot num start count u).1
      unfold readRecordsAnswer
      split
      · exact .refl u
      · split
        · exact .refl u
        · dsimp only
          split
          · exact .refl u
          · exact noteReads_retainStays u _ _
    | storeHealth p tag clear =>
      intro u
      show RetainStays name q u (storeHealthAnswer clear u).1
      unfold storeHealthAnswer
      dsimp only
      split <;> exact .of_slots rfl rfl
    | storeTest p tag kind =>
      intro u
      show RetainStays name q u (storeTestAnswer kind u).1
      unfold storeTestAnswer
      split <;> exact .of_slots rfl rfl
    | portReset p tag => exact portResetAnswer_retainStays fun e => notPortReset tag (e ▸ rfl)
    | engineReset p tag => exact engineResetAnswer_retainStays fun e => notEngineReset tag (e ▸ rfl)
    | podDetach i at_ => exact fun u moment => losePod_retainStays u i moment
    | firstSample w => exact fun u => takeSample_retainStays u w
    | sample w => exact fun u => takeSample_retainStays u w
    | armedEntry w => exact fun u => takeSample_retainStays u w
    | withinExpiry w => exact fun u => takeSample_retainStays u w
    | stageSatisfied w => exact fun u => takeSample_retainStays u w
    | postDone w => exact fun u => takeSample_retainStays u w
    | twoWireStall l w => exact fun u => takeSample_retainStays u w
    | clockedIdleEnd l w => exact fun u => takeSample_retainStays u w
    | asyncIdleEnd l w => exact fun u => takeSample_retainStays u w
    | biphaseIdleEnd l w => exact fun u => takeSample_retainStays u w
    | drainLimit l w => exact fun u => takeSample_retainStays u w
    | finalWriteComplete => exact fun u _ => finishWrite_retainStays u
    | columnItem => exact fun u nm es => noteReads_retainStays u nm es
    | _ => exact trivial
  exact (stays (retains_of_engineLaw law hx complete retained)).held

end Sys2Proof.Machine
end

section
/-! SUPPORT. The law of held events and of the ownership of blocks as a law of the store, and what each operation of STO owes to it
(R31, R33, R139, R141, R142). -/

namespace Sys2Proof.Machine

open Sys2Proof

/-! ## The law of the store -/

/-- The event belongs to a held capture with an origin and starts no earlier than its oldest held time (R139). -/
def Store.holdsEvent (x : Store) (e : Event) : Prop :=
  ∃ c o, x.capture e.cap = some c ∧ c.origin = some o ∧ ((o + x.oldestIndex c * c.div : Nat) : Int) ≤ e.start

/-- The part of `State.heldLaw` that speaks of the store, the ACTIVE capture's name and the listed events. -/
structure Store.Lawful (x : Store) (active : Option CapName) (events : List Event) : Prop where
  incomplete : ∀ i c, x.slots.get i = some c → c.complete = false → active = some ⟨i, c.num⟩
  activeHeld : ∀ name, active = some name → ∃ c, x.capture name = some c ∧ c.complete = false
  wf : x.wf = true
  owner : ∀ n b, lookupBlock x.blocks n = some b → x.capture b.owner ≠ none
  filling : ∀ n b, lookupBlock x.blocks n = some b → b.state = .filling → active = some b.owner
  next : ∀ n b m, lookupBlock x.blocks n = some b → b.next = some m → ∃ y, lookupBlock x.blocks m = some y ∧ y.owner = b.owner
  oneFilling : ∀ m n b d, lookupBlock x.blocks m = some b → lookupBlock x.blocks n = some d → b.state = .filling →
    d.state = .filling → m = n
  heads : ∀ i c, x.slots.get i = some c → ∃ b, lookupBlock x.blocks c.head = some b ∧ b.owner = CapName.mk i c.num
  events : ∀ e ∈ events, x.holdsEvent e

theorem capture_of_slot_num {x : Store} {i : Four} {c : Capture} (h : x.slots.get i = some c) :
    x.capture ⟨i, c.num⟩ = some c := by
  unfold Store.capture
  simp only [h, if_true]

theorem capture_of_slots_set {x y : Store} {name : CapName} {c : Capture} (slots : y.slots = x.slots.set name.slot (some c))
    (num : c.num = name.num) : y.capture name = some c := by
  unfold Store.capture
  simp only [slots, quad_get_set, num, if_true]

theorem capture_none_of_slot {x : Store} {name : CapName} (h : x.slots.get name.slot = none) : x.capture name = none := by
  unfold Store.capture
  rw [h]

/-- The FILLING block of a capture, where at most one block is FILLING. -/
theorem filling_iff {x : Store} {active : Option CapName} {events : List Event} (law : x.Lawful active events) (name : CapName)
    (n : Nat) (b : Block) :
    x.filling name = some (n, b) ↔ lookupBlock x.blocks n = some b ∧ b.owner = name ∧ b.state = .filling := by
  refine ⟨fun h => ⟨filling_lookup law.wf h, filling_props h⟩, fun ⟨hb, owner, state⟩ => ?_⟩
  cases hf : x.filling name with
  | none =>
    have := List.find?_eq_none.1 hf (n, b) (lookupBlock_mem hb)
    simp [owner, state] at this
  | some f =>
    obtain ⟨m, d⟩ := f
    have hd := filling_lookup law.wf hf
    obtain rfl := law.oneFilling m n d b hd hb (filling_props hf).2 state
    rw [hd] at hb
    cases hb
    rfl

/-! ## Changes that the law does not see -/

/-- The block keeps its owner, its place in the chain and its first index; it does not become FILLING, nor lose its records. -/
structure Block.Like (b d : Block) : Prop where
  owner : d.owner = b.owner
  next : d.next = b.next
  first : d.first = b.first
  filling : d.state = .filling → b.state = .filling
  records : d.records = [] → b.records = []

/-- The capture keeps its number, its times, its head and whether it is COMPLETE. -/
structure Capture.Like (c d : Capture) : Prop where
  num : d.num = c.num
  complete : d.complete = c.complete
  origin : d.origin = c.origin
  div : d.div = c.div
  head : d.head = c.head

/-- The store keeps its captures and its blocks in what the law of the store reads of them. -/
structure Store.Like (x y : Store) : Prop where
  wf : x.wf = true → y.wf = true
  blocks : ∀ n, Option.Rel Block.Like (lookupBlock x.blocks n) (lookupBlock y.blocks n)
  slots : ∀ i, Option.Rel Capture.Like (x.slots.get i) (y.slots.get i)

theorem Block.Like.refl (b : Block) : b.Like b := ⟨rfl, rfl, rfl, id, id⟩

theorem Capture.Like.refl (c : Capture) : c.Like c := ⟨rfl, rfl, rfl, rfl, rfl⟩

theorem rel_refl {α : Type} {r : α → α → Prop} (h : ∀ a, r a a) (x : Option α) : Option.Rel r x x := by
  cases x with
  | none => exact .none
  | some a => exact .some (h a)

theorem rel_some_right {α β : Type} {r : α → β → Prop} {x : Option α} {y : Option β} {b : β} (h : Option.Rel r x y)
    (hy : y = some b) : ∃ a, x = some a ∧ r a b := by
  subst hy
  cases h with
  | some h => exact ⟨_, rfl, h⟩

theorem rel_some_left {α β : Type} {r : α → β → Prop} {x : Option α} {y : Option β} {a : α} (h : Option.Rel r x y)
    (hx : x = some a) : ∃ b, y = some b ∧ r a b := by
  subst hx
  cases h with
  | some h => exact ⟨_, rfl, h⟩

namespace Store.Like

variable {x y : Store}

theorem refl (x : Store) : x.Like x := ⟨id, fun _ => rel_refl Block.Like.refl _, fun _ => rel_refl Capture.Like.refl _⟩

/-- The counts, the last error and the store-test request are not read by the law. -/
theorem of_same (blocks : y.blocks = x.blocks) (slots : y.slots = x.slots) : x.Like y :=
  ⟨wf_of_blocks blocks, fun _ => blocks ▸ rel_refl Block.Like.refl _, fun _ => slots ▸ rel_refl Capture.Like.refl _⟩

theorem of_blocks (wf : x.wf = true → y.wf = true)
    (blocks : ∀ n, Option.Rel Block.Like (lookupBlock x.blocks n) (lookupBlock y.blocks n)) (slots : y.slots = x.slots) : x.Like y :=
  ⟨wf, blocks, fun _ => slots ▸ rel_refl Capture.Like.refl _⟩

theorem of_slots (blocks : y.blocks = x.blocks) (slots : ∀ i, Option.Rel Capture.Like (x.slots.get i) (y.slots.get i)) : x.Like y :=
  ⟨wf_of_blocks blocks, fun _ => blocks ▸ rel_refl Block.Like.refl _, slots⟩

theorem trans {z : Store} (h : x.Like y) (k : y.Like z) : x.Like z := by
  refine ⟨k.wf ∘ h.wf, fun n => ?_, fun i => ?_⟩
  · have h' := h.blocks n
    have k' := k.blocks n
    generalize lookupBlock x.blocks n = u at h'
    generalize lookupBlock y.blocks n = v at h' k'
    generalize lookupBlock z.blocks n = w at k'
    cases h' with
    | none => exact k'
    | some h' =>
      cases k' with
      | some k' => exact .some ⟨k'.owner.trans h'.owner, k'.next.trans h'.next, k'.first.trans h'.first, h'.filling ∘ k'.filling,
          h'.records ∘ k'.records⟩
  · have h' := h.slots i
    have k' := k.slots i
    generalize x.slots.get i = u at h'
    generalize y.slots.get i = v at h' k'
    generalize z.slots.get i = w at k'
    cases h' with
    | none => exact k'
    | some h' =>
      cases k' with
      | some k' => exact .some ⟨k'.num.trans h'.num, k'.complete.trans h'.complete, k'.origin.trans h'.origin, k'.div.trans h'.div,
          k'.head.trans h'.head⟩

theorem capture (h : x.Like y) (name : CapName) : Option.Rel Capture.Like (x.capture name) (y.capture name) := by
  have here := h.slots name.slot
  unfold Store.capture
  generalize x.slots.get name.slot = u at here
  generalize y.slots.get name.slot = v at here
  cases here with
  | none => exact .none
  | some like =>
    dsimp only
    rw [like.num]
    split
    · exact .some like
    · exact .none

theorem oldestIndex (h : x.Like y) {c d : Capture} (like : c.Like d) : y.oldestIndex d = x.oldestIndex c := by
  have here := h.blocks c.head
  unfold Store.oldestIndex
  rw [like.head]
  generalize lookupBlock x.blocks c.head = u at here
  generalize lookupBlock y.blocks c.head = v at here
  cases here with
  | none => rfl
  | some b => exact b.first

theorem holdsEvent (h : x.Like y) {e : Event} (held : x.holdsEvent e) : y.holdsEvent e := by
  obtain ⟨c, o, hc, origin, start⟩ := held
  obtain ⟨d, hd, like⟩ := rel_some_left (h.capture e.cap) hc
  refine ⟨d, o, hd, like.origin.trans origin, ?_⟩
  rw [h.oldestIndex like, like.div]
  exact start

end Store.Like

/-- A change that the law does not see, with events that may have left the list, keeps the law. -/
theorem Store.Lawful.of_like {x y : Store} {active : Option CapName} {events rest : List Event} (law : x.Lawful active events)
    (like : x.Like y) (sub : ∀ e ∈ rest, e ∈ events) : y.Lawful active rest where
  incomplete i d hd incomplete := by
    obtain ⟨c, hc, same⟩ := rel_some_right (like.slots i) hd
    rw [same.num]
    exact law.incomplete i c hc (same.complete ▸ incomplete)
  activeHeld name ha := by
    obtain ⟨c, hc, incomplete⟩ := law.activeHeld name ha
    obtain ⟨d, hd, same⟩ := rel_some_left (like.capture name) hc
    exact ⟨d, hd, same.complete.trans incomplete⟩
  wf := like.wf law.wf
  owner n d hd := by
    obtain ⟨b, hb, same⟩ := rel_some_right (like.blocks n) hd
    obtain ⟨c, hc⟩ := Option.ne_none_iff_exists'.1 (law.owner n b hb)
    obtain ⟨e, he, -⟩ := rel_some_left (like.capture b.owner) hc
    rw [same.owner, he]
    exact Option.some_ne_none e
  filling n d hd state := by
    obtain ⟨b, hb, same⟩ := rel_some_right (like.blocks n) hd
    rw [same.owner]
    exact law.filling n b hb (same.filling state)
  next n d m hd next := by
    obtain ⟨b, hb, same⟩ := rel_some_right (like.blocks n) hd
    obtain ⟨y, hy, owner⟩ := law.next n b m hb (same.next ▸ next)
    obtain ⟨z, hz, same'⟩ := rel_some_left (like.blocks m) hy
    exact ⟨z, hz, by rw [same'.owner, owner, same.owner]⟩
  oneFilling m n b d hb hd fb fd := by
    obtain ⟨b', hb', sb⟩ := rel_some_right (like.blocks m) hb
    obtain ⟨d', hd', sd⟩ := rel_some_right (like.blocks n) hd
    exact law.oneFilling m n b' d' hb' hd' (sb.filling fb) (sd.filling fd)
  heads i d hd := by
    obtain ⟨c, hc, same⟩ := rel_some_right (like.slots i) hd
    obtain ⟨b, hb, owner⟩ := law.heads i c hc
    obtain ⟨b', hb', same'⟩ := rel_some_left (like.blocks c.head) hb
    exact ⟨b', by rw [same.head, hb'], by rw [same'.owner, owner, same.num]⟩
  events e he := like.holdsEvent (law.events e (sub e he))

/-! ### Operations of that kind -/

theorem modify_slots_rel {x : Store} {name : CapName} {f : Capture → Capture} {r : Capture → Capture → Prop} (refl : ∀ c, r c c)
    (hf : ∀ c, x.capture name = some c → r c (f c)) (i : Four) :
    Option.Rel r (x.slots.get i) ((x.modify name f).slots.get i) := by
  unfold Store.modify
  cases hc : x.capture name with
  | none => exact rel_refl refl _
  | some c =>
    dsimp only
    by_cases e : i = name.slot
    · subst e
      rw [quad_get_set, (slots_of_capture hc).1]
      exact .some (hf c hc)
    · rw [quad_get_set_ne _ _ e]
      exact rel_refl refl _

/-- A change of a capture record that keeps what the law reads of it. -/
theorem modify_like (x : Store) (name : CapName) {f : Capture → Capture} (hf : ∀ c : Capture, c.Like (f c)) : x.Like (x.modify name f) :=
  Store.Like.of_slots (modify_blocks x name f) (modify_slots_rel Capture.Like.refl fun c _ => hf c)

/-- Writing one listed block again. -/
theorem insertBlock_like {x : Store} {n : Nat} {b d : Block} (hb : lookupBlock x.blocks n = some b) (like : b.Like d) :
    x.Like { x with blocks := insertBlock x.blocks n d } := by
  refine Store.Like.of_blocks (fun wf => insertBlock_sorted d (lookupBlock_lt wf hb) wf) (fun m => ?_) rfl
  by_cases e : m = n
  · subst e
    rw [hb, lookupBlock_insertBlock]
    exact .some like
  · rw [lookupBlock_insertBlock_ne _ _ e]
    exact rel_refl Block.Like.refl _

theorem modifyBlock_like (x : Store) (n : Nat) {f : Block → Block} (hf : ∀ b : Block, b.Like (f b)) : x.Like (x.modifyBlock n f) := by
  unfold Store.modifyBlock
  split
  · next hb => exact insertBlock_like hb (hf _)
  · exact .refl x

theorem seal_like (x : Store) (n : Nat) : x.Like (x.seal n) := modifyBlock_like x n fun _ => ⟨rfl, rfl, rfl, nofun, id⟩

/-- A record appended to a listed block: to an empty one under the block's own first index. -/
theorem appendRecord_like {x : Store} {n : Nat} {b : Block} (hb : lookupBlock x.blocks n = some b) (word : ChannelWord) {index : Nat}
    (first : b.records = [] → b.first = index) : x.Like (x.appendRecord n b word index) := by
  refine (insertBlock_like hb ?_).trans (Store.Like.of_same rfl rfl)
  refine ⟨rfl, rfl, ?_, id, fun empty => ?_⟩
  · unfold Block.append
    split
    · next h => exact (first (List.isEmpty_iff.1 h)).symm
    · rfl
  · exact absurd empty (List.append_ne_nil_of_right_ne_nil _ (List.cons_ne_nil _ _))

theorem modifyLast_eq_nil {α : Type} {f : α → α} {l : List α} (h : modifyLast f l = []) : l = [] := by
  rw [modifyLast_eq, List.append_eq_nil_iff, Option.toList_eq_nil_iff, Option.map_eq_none_iff, List.getLast?_eq_none_iff] at h
  exact h.2

theorem extendRecord_like {x : Store} (wf : x.wf = true) (name : CapName) : x.Like (x.extendRecord name) := by
  unfold Store.extendRecord
  split
  · next hf =>
    refine insertBlock_like (filling_lookup wf hf) ?_
    exact ⟨rfl, rfl, rfl, id, modifyLast_eq_nil⟩
  · exact .refl x

/-! ## Removals, blocks that join a chain, and captures that begin and end -/

namespace Store.Lawful

variable {x y : Store} {active : Option CapName} {events : List Event}

/-- The law in a store that holds nothing (R55, R56). -/
theorem empty (blocks : x.blocks = []) (slots : x.slots = .all none) : x.Lawful none [] where
  incomplete i c hc := by rw [slots, quad_get_all] at hc; cases hc
  activeHeld name h := by cases h
  wf := by unfold Store.wf; rw [blocks]; rfl
  owner n b hb := by rw [blocks] at hb; cases hb
  filling n b hb := by rw [blocks] at hb; cases hb
  next n b m hb := by rw [blocks] at hb; cases hb
  oneFilling m n b d hb := by rw [blocks] at hb; cases hb
  heads i c hc := by rw [slots, quad_get_all] at hc; cases hc
  events e he := nomatch he

/-- An event that is not already expired joins the list (R138, R139). -/
theorem append_event (law : x.Lawful active events) {e : Event} (held : x.holdsEvent e) (seq : Nat) :
    x.Lawful active (events ++ [{ e with seq := seq }]) where
  __ := law
  events f hf := by
    obtain h | h := List.mem_append.1 hf
    · exact law.events f h
    · rw [List.mem_singleton.1 h]
      exact held

/-- Two captures in different slots have different names. -/
theorem capture_other_slot {i : Four} {v : Option Capture} {name : CapName} (h : name.slot ≠ i)
    (slots : y.slots = x.slots.set i v) : y.capture name = x.capture name :=
  capture_of_slot (by rw [slots, quad_get_set_ne _ _ h])

/-- A held capture in the slot of another has its name. -/
theorem name_of_slot {name : CapName} {c v : Capture} {i : Four} (hv : x.slots.get i = some v) (hc : x.capture name = some c)
    (h : name.slot = i) : name = ⟨i, v.num⟩ := by
  obtain ⟨there, num⟩ := slots_of_capture hc
  rw [h, hv] at there
  cases there
  cases name
  simp_all

/-- A capture is removed with its blocks and events; if it was the ACTIVE one, none is ACTIVE (R40, R45, R142). -/
theorem remove (law : x.Lawful active events) {i : Four} {v : Capture} (hv : x.slots.get i = some v) (wf : y.wf = true)
    (blocks : ∀ n, lookupBlock y.blocks n = (lookupBlock x.blocks n).filter fun b => b.owner ≠ ⟨i, v.num⟩)
    (slots : y.slots = x.slots.set i none) {rest : List Event}
    (gone : ∀ e ∈ rest, e ∈ events ∧ e.cap ≠ ⟨i, v.num⟩) :
    y.Lawful (if active = some ⟨i, v.num⟩ then none else active) rest := by
  have listed : ∀ {n b}, lookupBlock y.blocks n = some b → lookupBlock x.blocks n = some b ∧ b.owner ≠ ⟨i, v.num⟩ := by
    intro n b hb
    rw [blocks, Option.filter_eq_some_iff] at hb
    exact ⟨hb.1, of_decide_eq_true hb.2⟩
  have stays : ∀ {n b}, lookupBlock x.blocks n = some b → b.owner ≠ ⟨i, v.num⟩ → lookupBlock y.blocks n = some b := by
    intro n b hb ne
    rw [blocks, Option.filter_eq_some_iff]
    exact ⟨hb, decide_eq_true ne⟩
  have slot : ∀ {name c}, x.capture name = some c → name ≠ ⟨i, v.num⟩ → name.slot ≠ i := fun hc ne e =>
    ne (name_of_slot hv hc e)
  have others : ∀ {j c}, y.slots.get j = some c → j ≠ i ∧ x.slots.get j = some c := by
    intro j c hc
    have ne : j ≠ i := fun e => by rw [slots, e, quad_get_set] at hc; cases hc
    exact ⟨ne, by rwa [slots, quad_get_set_ne _ _ ne] at hc⟩
  have still : ∀ {name}, active = some name → name ≠ ⟨i, v.num⟩ → (if active = some ⟨i, v.num⟩ then none else active) = some name := by
    intro name ha ne
    rw [ha, if_neg fun h => ne (Option.some.inj h)]
  refine ⟨fun j c hc incomplete => ?_, fun name ha => ?_, wf, fun n b hb => ?_, fun n b hb state => ?_, fun n b m hb next => ?_,
    fun m n b d hb hd fb fd => law.oneFilling m n b d (listed hb).1 (listed hd).1 fb fd, fun j c hc => ?_, fun e he => ?_⟩
  · obtain ⟨ne, hc⟩ := others hc
    exact still (law.incomplete j c hc incomplete) fun e => ne (congrArg CapName.slot e)
  · split at ha
    · cases ha
    · next other =>
      obtain ⟨c, hc, incomplete⟩ := law.activeHeld name ha
      exact ⟨c, (capture_other_slot (slot hc fun e => other (e ▸ ha)) slots).trans hc, incomplete⟩
  · obtain ⟨hb, ne⟩ := listed hb
    obtain ⟨c, hc⟩ := Option.ne_none_iff_exists'.1 (law.owner n b hb)
    rw [capture_other_slot (slot hc ne) slots]
    exact law.owner n b hb
  · obtain ⟨hb, ne⟩ := listed hb
    exact still (law.filling n b hb state) ne
  · obtain ⟨hb, ne⟩ := listed hb
    obtain ⟨d, hd, owner⟩ := law.next n b m hb next
    exact ⟨d, stays hd (owner ▸ ne), owner⟩
  · obtain ⟨ne, hc⟩ := others hc
    obtain ⟨b, hb, owner⟩ := law.heads j c hc
    exact ⟨b, stays hb fun e => ne (congrArg CapName.slot (owner.symm.trans e)), owner⟩
  · obtain ⟨listed_, ne⟩ := gone e he
    obtain ⟨c, o, hc, origin, start⟩ := law.events e listed_
    refine ⟨c, o, (capture_other_slot (slot hc ne) slots).trans hc, origin, ?_⟩
    obtain ⟨b, hb, owner⟩ := law.heads e.cap.slot c (slots_of_capture hc).1
    have named : CapName.mk e.cap.slot c.num = e.cap := by rw [(slots_of_capture hc).2]
    have first : y.oldestIndex c = x.oldestIndex c := by
      unfold Store.oldestIndex
      rw [hb, stays hb (by rw [owner, named]; exact ne)]
    rw [first]
    exact start

/-- An empty block joins the chain of the ACTIVE capture as its FILLING block, a FREE one or one of its own; its head may move (R32, R39,
R41). Block `n` is the one that joins, and one other block of the capture may get it as its next. -/
theorem join {name : CapName} (law : x.Lawful (some name) events) {c d : Capture} (hc : x.capture name = some c)
    (noFilling : ∀ k b, lookupBlock x.blocks k = some b → b.state ≠ .filling) {n : Nat} {new : Block} (wf : y.wf = true)
    (joined : lookupBlock y.blocks n = some new) (owner : new.owner = name) (last : new.next = none)
    (free : ∀ b, lookupBlock x.blocks n = some b → b.owner = name)
    (others : ∀ k, k ≠ n → Option.Rel (fun b d => d = b ∨ b.owner = name ∧ d = { b with next := some n })
      (lookupBlock x.blocks k) (lookupBlock y.blocks k))
    (slots : y.slots = x.slots.set name.slot (some d)) (num : d.num = c.num) (complete : d.complete = c.complete)
    (head : ∃ b, lookupBlock y.blocks d.head = some b ∧ b.owner = name) {rest : List Event}
    (held : ∀ e ∈ rest, e ∈ events ∧ (e.cap = name → y.holdsEvent e)) : y.Lawful (some name) rest := by
  obtain ⟨here, cnum⟩ := slots_of_capture hc
  have hd : y.capture name = some d := by
    exact capture_of_slots_set slots (num.trans cnum)
  have incomplete : c.complete = false := by
    obtain ⟨c', hc', h⟩ := law.activeHeld name rfl
    rw [hc] at hc'
    cases hc'
    exact h
  have named : CapName.mk name.slot c.num = name := by rw [cnum]
  have kept : ∀ {nm e}, x.capture nm = some e → nm ≠ name → y.capture nm = some e := by
    intro nm e he ne
    refine (capture_other_slot (fun s => ne ?_) slots).trans he
    rw [name_of_slot here he s, named]
  have captured : ∀ {nm}, x.capture nm ≠ none → y.capture nm ≠ none := by
    intro nm h
    by_cases e : nm = name
    · rw [e, hd]
      exact Option.some_ne_none d
    · obtain ⟨c', hc'⟩ := Option.ne_none_iff_exists'.1 h
      rw [kept hc' e]
      exact Option.some_ne_none c'
  have listed : ∀ {k b}, lookupBlock y.blocks k = some b → k ≠ n → ∃ b', lookupBlock x.blocks k = some b' ∧ b.owner = b'.owner ∧
      b.state = b'.state ∧ b.first = b'.first ∧ (b.next = b'.next ∨ b.owner = name ∧ b.next = some n) := by
    intro k b hb ne
    obtain ⟨b', hb', e | ⟨own, e⟩⟩ := rel_some_right (others k ne) hb
    · exact ⟨b', hb', by rw [e], by rw [e], by rw [e], .inl (by rw [e])⟩
    · exact ⟨b', hb', by rw [e], by rw [e], by rw [e], .inr ⟨by rw [e, ← own], by rw [e]⟩⟩
  have stays : ∀ {k b}, lookupBlock x.blocks k = some b → ∃ b', lookupBlock y.blocks k = some b' ∧ b'.owner = b.owner ∧
      (k ≠ n → b'.first = b.first) := by
    intro k b hb
    by_cases e : k = n
    · subst e
      exact ⟨new, joined, owner.trans (free b hb).symm, fun h => absurd rfl h⟩
    · obtain ⟨b', hb', e | ⟨own, e⟩⟩ := rel_some_left (others k e) hb
      · exact ⟨b', hb', by rw [e], fun _ => by rw [e]⟩
      · exact ⟨b', hb', by rw [e], fun _ => by rw [e]⟩
  refine ⟨fun i e he inc => ?_, fun nm h => ?_, wf, fun k b hb => ?_, fun k b hb state => ?_, fun k b m hb next => ?_,
    fun k m b e hb he fb fe => ?_, fun i e he => ?_, fun e he => ?_⟩
  · by_cases s : i = name.slot
    · subst s
      rw [slots, quad_get_set] at he
      cases he
      rw [num, named]
    · rw [slots, quad_get_set_ne _ _ s] at he
      exact law.incomplete i e he inc
  · cases h
    exact ⟨d, hd, complete.trans incomplete⟩
  · by_cases e : k = n
    · subst e
      rw [joined] at hb
      cases hb
      rw [owner, hd]
      exact Option.some_ne_none d
    · obtain ⟨b', hb', own, -⟩ := listed hb e
      rw [own]
      exact captured (law.owner k b' hb')
  · by_cases e : k = n
    · subst e
      rw [joined] at hb
      cases hb
      rw [owner]
    · obtain ⟨b', hb', -, st, -⟩ := listed hb e
      exact absurd (st.symm.trans state) (noFilling k b' hb')
  · by_cases e : k = n
    · subst e
      rw [joined] at hb
      cases hb
      rw [last] at next
      cases next
    · obtain ⟨b', hb', own, -, -, same | ⟨isName, toNew⟩⟩ := listed hb e
      · obtain ⟨z, hz, zown⟩ := law.next k b' m hb' (same.symm.trans next)
        obtain ⟨z', hz', z'own, -⟩ := stays hz
        exact ⟨z', hz', by rw [z'own, zown, own]⟩
      · rw [toNew] at next
        cases next
        exact ⟨new, joined, owner.trans isName.symm⟩
  · have only : ∀ {k b}, lookupBlock y.blocks k = some b → b.state = .filling → k = n := fun {k b} hb state => by
      by_contra ne
      obtain ⟨b', hb', -, st, -⟩ := listed hb ne
      exact noFilling k b' hb' (st.symm.trans state)
    rw [only hb fb, only he fe]
  · by_cases s : i = name.slot
    · subst s
      rw [slots, quad_get_set] at he
      cases he
      rw [num, named]
      exact head
    · rw [slots, quad_get_set_ne _ _ s] at he
      obtain ⟨b, hb, own⟩ := law.heads i e he
      obtain ⟨b', hb', own', -⟩ := stays hb
      exact ⟨b', hb', own'.trans own⟩
  · obtain ⟨before, its⟩ := held e he
    by_cases cap : e.cap = name
    · exact its cap
    · obtain ⟨c', o, hc', origin, start⟩ := law.events e before
      obtain ⟨b, hb, own⟩ := law.heads e.cap.slot c' (slots_of_capture hc').1
      have capName : CapName.mk e.cap.slot c'.num = e.cap := by rw [(slots_of_capture hc').2]
      have ne : c'.head ≠ n := fun h => cap (by rw [← capName, ← own, free b (h ▸ hb)])
      obtain ⟨b', hb', -, first⟩ := stays hb
      have same : y.oldestIndex c' = x.oldestIndex c' := by
        unfold Store.oldestIndex
        rw [hb, hb']
        exact first ne
      exact ⟨c', o, kept hc' cap, origin, by rw [same]; exact start⟩

/-- The ACTIVE capture gets its origin: no event of it is listed yet (R21, R63). -/
theorem set_origin {name : CapName} (law : x.Lawful (some name) events) {c d : Capture} (hc : x.capture name = some c)
    (none_ : c.origin = none) (num : d.num = c.num) (complete : d.complete = c.complete) (head : d.head = c.head)
    (blocks : y.blocks = x.blocks) (slots : y.slots = x.slots.set name.slot (some d)) : y.Lawful (some name) events := by
  obtain ⟨here, cnum⟩ := slots_of_capture hc
  have named : CapName.mk name.slot c.num = name := by rw [cnum]
  have hd : y.capture name = some d := capture_of_slots_set slots (num.trans cnum)
  have kept : ∀ {nm e}, x.capture nm = some e → nm ≠ name → y.capture nm = some e := by
    intro nm e he ne
    refine (capture_other_slot (fun s => ne ?_) slots).trans he
    rw [name_of_slot here he s, named]
  refine ⟨fun i e he inc => ?_, fun nm h => ?_, wf_of_blocks blocks law.wf, fun k b hb => ?_, ?_, ?_, ?_, fun i e he => ?_,
    fun e he => ?_⟩
  · by_cases s : i = name.slot
    · subst s
      rw [slots, quad_get_set] at he
      cases he
      rw [num, named]
    · rw [slots, quad_get_set_ne _ _ s] at he
      exact law.incomplete i e he inc
  · cases h
    obtain ⟨c', hc', inc⟩ := law.activeHeld name rfl
    rw [hc] at hc'
    cases hc'
    exact ⟨d, hd, complete.trans inc⟩
  · rw [blocks] at hb
    by_cases e : b.owner = name
    · rw [e, hd]
      exact Option.some_ne_none d
    · obtain ⟨c', hc'⟩ := Option.ne_none_iff_exists'.1 (law.owner k b hb)
      rw [kept hc' e]
      exact Option.some_ne_none c'
  · rw [blocks]
    exact law.filling
  · rw [blocks]
    exact law.next
  · rw [blocks]
    exact law.oneFilling
  · rw [blocks]
    by_cases s : i = name.slot
    · subst s
      rw [slots, quad_get_set] at he
      cases he
      rw [head, num]
      exact law.heads name.slot c here
    · rw [slots, quad_get_set_ne _ _ s] at he
      exact law.heads i e he
  · obtain ⟨c', o, hc', origin, start⟩ := law.events e he
    have ne : e.cap ≠ name := fun h => by
      rw [h, hc] at hc'
      cases hc'
      rw [none_] at origin
      cases origin
    have same : y.oldestIndex c' = x.oldestIndex c' := by
      unfold Store.oldestIndex
      rw [blocks]
    exact ⟨c', o, kept hc' ne, origin, by rw [same]; exact start⟩

/-- The ACTIVE capture becomes COMPLETE once no block is FILLING (R44, R71). -/
theorem complete {name : CapName} (law : x.Lawful (some name) events) {c : Capture} (hc : x.capture name = some c)
    (noFilling : ∀ k b, lookupBlock x.blocks k = some b → b.state ≠ .filling) :
    Store.Lawful { x with slots := x.slots.set name.slot (some { c with complete := true }) } none events := by
  obtain ⟨here, cnum⟩ := slots_of_capture hc
  have rel : ∀ i, Option.Rel (fun c d : Capture => d = { c with complete := d.complete }) (x.slots.get i)
      ((x.slots.set name.slot (some { c with complete := true })).get i) := by
    intro i
    by_cases s : i = name.slot
    · rw [s, quad_get_set, here]
      exact .some rfl
    · rw [quad_get_set_ne _ _ s]
      exact rel_refl (r := fun c d : Capture => d = { c with complete := d.complete }) (fun _ => rfl) _
  obtain ⟨y, hy⟩ : ∃ y, y = { x with slots := x.slots.set name.slot (some { c with complete := true }) } := ⟨_, rfl⟩
  have blocks : y.blocks = x.blocks := hy ▸ rfl
  have captured : ∀ {nm e}, x.capture nm = some e → ∃ d, y.capture nm = some d ∧ d = { e with complete := d.complete } := by
    intro nm e he
    obtain ⟨there, num⟩ := slots_of_capture he
    obtain ⟨d, hd, same⟩ := rel_some_left (rel nm.slot) there
    refine ⟨d, ?_, same⟩
    have : d.num = nm.num := by rw [same]; exact num
    rw [hy]
    unfold Store.capture
    dsimp only
    rw [hd]
    exact if_pos this
  rw [← hy]
  refine ⟨fun i e he inc => ?_, fun nm h => (nomatch h), wf_of_blocks blocks law.wf, fun k b hb => ?_, fun k b hb state => ?_, ?_, ?_,
    fun i e he => ?_, fun e he => ?_⟩
  · rw [hy] at he
    by_cases s : i = name.slot
    · subst s
      rw [quad_get_set] at he
      cases he
      cases inc
    · rw [quad_get_set_ne _ _ s] at he
      exact absurd (congrArg CapName.slot (Option.some.inj (law.incomplete i e he inc))) (Ne.symm s)
  · rw [blocks] at hb
    obtain ⟨c', hc'⟩ := Option.ne_none_iff_exists'.1 (law.owner k b hb)
    obtain ⟨d, hd, -⟩ := captured hc'
    rw [hd]
    exact Option.some_ne_none d
  · rw [blocks] at hb
    exact absurd state (noFilling k b hb)
  · rw [blocks]
    exact law.next
  · rw [blocks]
    exact law.oneFilling
  · rw [hy] at he
    obtain ⟨c', hc', same⟩ := rel_some_right (rel i) he
    rw [blocks, same]
    exact law.heads i c' hc'
  · obtain ⟨c', o, hc', origin, start⟩ := law.events e he
    obtain ⟨d, hd, same⟩ := captured hc'
    refine ⟨d, o, hd, by rw [same]; exact origin, ?_⟩
    have : y.oldestIndex d = x.oldestIndex c' := by
      unfold Store.oldestIndex
      rw [blocks, same]
    rw [this, same]
    exact start

/-- A capture begins in an EMPTY slot with a FREE block, while none is ACTIVE (R37, R63). -/
theorem arm (law : x.Lawful none events) {i : Four} {n : Nat} {c : Capture} {b : Block} (emptySlot : x.slots.get i = none)
    (free : lookupBlock x.blocks n = none) (inRange : n < Config.blockCount) (blocks : y.blocks = insertBlock x.blocks n b)
    (slots : y.slots = x.slots.set i (some c)) (incomplete : c.complete = false) (head : c.head = n) (owner : b.owner = ⟨i, c.num⟩)
    (last : b.next = none) : y.Lawful (some ⟨i, c.num⟩) events := by
  have hc : y.capture ⟨i, c.num⟩ = some c := capture_of_slot_num (by rw [slots, quad_get_set])
  have kept : ∀ {nm e}, x.capture nm = some e → y.capture nm = some e := by
    intro nm e he
    refine (capture_other_slot (fun s => ?_) slots).trans he
    rw [← s, (slots_of_capture he).1] at emptySlot
    cases emptySlot
  have new : lookupBlock y.blocks n = some b := by rw [blocks, lookupBlock_insertBlock]
  have old : ∀ {k}, k ≠ n → lookupBlock y.blocks k = lookupBlock x.blocks k := fun ne => by
    rw [blocks, lookupBlock_insertBlock_ne _ _ ne]
  have listed : ∀ {k d}, lookupBlock x.blocks k = some d → lookupBlock y.blocks k = some d := fun {k d} hd =>
    (old fun e => by rw [e, free] at hd; cases hd).trans hd
  refine ⟨fun j e he inc => ?_, fun nm h => ?_, ?_, fun k d hd => ?_, fun k d hd state => ?_, fun k d m hd next => ?_,
    fun k m d e hd he fd fe => ?_, fun j e he => ?_, fun e he => ?_⟩
  · by_cases s : j = i
    · subst s
      rw [slots, quad_get_set] at he
      cases he
      rfl
    · rw [slots, quad_get_set_ne _ _ s] at he
      cases law.incomplete j e he inc
  · cases h
    exact ⟨c, hc, incomplete⟩
  · unfold Store.wf
    rw [blocks]
    exact insertBlock_sorted b inRange law.wf
  · by_cases e : k = n
    · subst e
      rw [new] at hd
      cases hd
      rw [owner, hc]
      exact Option.some_ne_none c
    · rw [old e] at hd
      obtain ⟨c', hc'⟩ := Option.ne_none_iff_exists'.1 (law.owner k d hd)
      rw [kept hc']
      exact Option.some_ne_none c'
  · by_cases e : k = n
    · subst e
      rw [new] at hd
      cases hd
      rw [owner]
    · rw [old e] at hd
      cases law.filling k d hd state
  · by_cases e : k = n
    · subst e
      rw [new] at hd
      cases hd
      rw [last] at next
      cases next
    · rw [old e] at hd
      obtain ⟨z, hz, own⟩ := law.next k d m hd next
      exact ⟨z, listed hz, own⟩
  · have only : ∀ {k d}, lookupBlock y.blocks k = some d → d.state = .filling → k = n := fun {k d} hd state => by
      by_contra ne
      rw [old ne] at hd
      cases law.filling k d hd state
    rw [only hd fd, only he fe]
  · by_cases s : j = i
    · subst s
      rw [slots, quad_get_set] at he
      cases he
      exact ⟨b, by rw [head, new], owner⟩
    · rw [slots, quad_get_set_ne _ _ s] at he
      obtain ⟨d, hd, own⟩ := law.heads j e he
      exact ⟨d, listed hd, own⟩
  · obtain ⟨c', o, hc', origin, start⟩ := law.events e he
    obtain ⟨d, hd, -⟩ := law.heads e.cap.slot c' (slots_of_capture hc').1
    have same : y.oldestIndex c' = x.oldestIndex c' := by
      unfold Store.oldestIndex
      rw [hd, listed hd]
    exact ⟨c', o, kept hc', origin, by rw [same]; exact start⟩

end Store.Lawful

end Sys2Proof.Machine
end

section
/-! SUPPORT. The law of the store along the operations of STO and EVL: removals and reclaims (R40, R45, R142), the block that joins a chain
(R39, R41, R141), records placed (R38), and events entered (R138 to R140). -/

namespace Sys2Proof.Machine

open Sys2Proof

/-- The law of the store with the listed events, for the ACTIVE capture given. -/
def State.storeLaw (s : State) (active : Option CapName) : Prop := s.sto.Lawful active s.evl.events

/-- A change that the law does not see. -/
theorem State.storeLaw.of_like {s t : State} {active : Option CapName} (law : s.storeLaw active) (like : s.sto.Like t.sto)
    (events : t.evl.events = s.evl.events) : t.storeLaw active :=
  Store.Lawful.of_like law like fun _ he => events ▸ he

theorem State.storeLaw.of_same {s t : State} {active : Option CapName} (law : s.storeLaw active) (sto : t.sto = s.sto)
    (events : t.evl.events = s.evl.events) : t.storeLaw active :=
  law.of_like (sto ▸ .refl s.sto) events

/-! ## Removals (R40, R45, R142) -/

theorem removeCapture_storeLaw {s : State} {active : Option CapName} (law : s.storeLaw active) {i : Four} {v : Capture}
    (hv : s.sto.slots.get i = some v) :
    (s.removeCapture i).storeLaw (if active = some ⟨i, v.num⟩ then none else active) := by
  have named : s.sto.nameAt i = some ⟨i, v.num⟩ := by rw [Store.nameAt, hv]; rfl
  obtain ⟨⟨blocks, -, events, -⟩, -⟩ := removeCapture_removed s i _ law.wf named
  refine law.remove hv (removeCapture_wf s i law.wf) blocks (removeCapture_slots s i) fun e he => ?_
  rw [events, List.mem_filter] at he
  exact ⟨he.1, of_decide_eq_true he.2⟩

/-- A reclaim is the removal of a COMPLETE capture with its notice (R40). -/
theorem reclaim_removes {s t : State} (h : s.reclaim = some t) :
    ∃ i v, s.sto.slots.get i = some v ∧ v.complete = true ∧ t = (s.removeCapture i).raiseBoth .captureReclaimed := by
  unfold State.reclaim at h
  obtain ⟨i, hv, e⟩ := Option.map_eq_some_iff.1 h
  obtain ⟨v, slot, complete, -⟩ := victim_some _ _ hv
  exact ⟨i, v, slot, complete, e.symm⟩

theorem reclaim_storeLaw {s t : State} {active : Option CapName} (law : s.storeLaw active) (h : s.reclaim = some t) :
    t.storeLaw active := by
  obtain ⟨i, v, slot, complete, rfl⟩ := reclaim_removes h
  have other : active ≠ some ⟨i, v.num⟩ := fun e => by
    obtain ⟨c, hc, incomplete⟩ := law.activeHeld _ e
    rw [capture_of_slot_num slot] at hc
    cases hc
    exact Bool.false_ne_true (incomplete.symm.trans complete)
  have removed := removeCapture_storeLaw law slot
  rw [if_neg other] at removed
  exact removed.of_same rfl rfl

/-- A reclaim leaves no block that was not there. -/
theorem reclaim_lookup {s t : State} (wf : s.sto.wf = true) (h : s.reclaim = some t) {n : Nat} {b : Block}
    (hb : lookupBlock t.sto.blocks n = some b) : lookupBlock s.sto.blocks n = some b := by
  obtain ⟨i, v, slot, -, rfl⟩ := reclaim_removes h
  have named : s.sto.nameAt i = some ⟨i, v.num⟩ := by rw [Store.nameAt, slot]; rfl
  obtain ⟨⟨blocks, -⟩, -⟩ := removeCapture_removed s i _ wf named
  have listed : lookupBlock (s.removeCapture i).sto.blocks n = some b := hb
  rw [blocks, Option.filter_eq_some_iff] at listed
  exact listed.1

/-! ## The block that joins a chain (R32, R39, R41) -/

theorem modifyBlock_lookup (x : Store) (n k : Nat) (f : Block → Block) :
    lookupBlock (x.modifyBlock n f).blocks k = if k = n then (lookupBlock x.blocks n).map f else lookupBlock x.blocks k := by
  unfold Store.modifyBlock
  cases hb : lookupBlock x.blocks n with
  | none =>
    by_cases e : k = n
    · rw [if_pos e, e]
      exact hb
    · rw [if_neg e]
  | some b =>
    by_cases e : k = n
    · rw [if_pos e, e]
      exact lookupBlock_insertBlock _ _ _
    · rw [if_neg e]
      exact lookupBlock_insertBlock_ne _ _ e

/-- A chain that starts in a capture stays in it, where no block's next leads out of it (R33). -/
theorem chainFrom_owned {blocks : List (Nat × Block)} {name : CapName}
    (next : ∀ n b m d, lookupBlock blocks n = some b → b.owner = name → b.next = some m → lookupBlock blocks m = some d → d.owner = name)
    (fuel : Nat) {n : Nat} (start : ∀ b, lookupBlock blocks n = some b → b.owner = name) :
    ∀ e ∈ chainFrom blocks fuel (some n), lookupBlock blocks e.1 = some e.2 ∧ e.2.owner = name := by
  induction fuel generalizing n with
  | zero => exact fun _ he => nomatch he
  | succ fuel ih =>
    intro e he
    unfold chainFrom at he
    cases hb : lookupBlock blocks n with
    | none => rw [hb] at he; cases he
    | some b =>
      rw [hb] at he
      obtain rfl | he := List.mem_cons.1 he
      · exact ⟨hb, start b hb⟩
      · cases hm : b.next with
        | none => rw [hm] at he; cases fuel <;> cases he
        | some m =>
          rw [hm] at he
          exact ih (fun d hd => next n b m d hb (start b hb) hm hd) e he

/-- The block map after a block has joined a chain: the block itself, and the tail that leads to it. -/
theorem appendBlock_lookup {x : Store} {name : CapName} {c : Capture}
    (owned : ∀ e ∈ x.chain c, lookupBlock x.blocks e.1 = some e.2 ∧ e.2.owner = name) (n index : Nat) :
    lookupBlock (x.appendBlock name c n index).blocks n = some (Block.mk .filling name index false none []) ∧
    ∀ k, k ≠ n → Option.Rel (fun b d => d = b ∨ b.owner = name ∧ d = { b with next := some n }) (lookupBlock x.blocks k)
      (lookupBlock (x.appendBlock name c n index).blocks k) := by
  have same : ∀ b : Option Block, Option.Rel (fun b d => d = b ∨ b.owner = name ∧ d = { b with next := some n }) b b :=
    rel_refl fun _ => .inl rfl
  refine ⟨lookupBlock_insertBlock _ _ _, fun k ne => ?_⟩
  unfold Store.appendBlock
  dsimp only
  rw [lookupBlock_insertBlock_ne _ _ ne]
  split
  · next t b tail =>
    obtain ⟨hb, owner⟩ := owned (t, b) (List.mem_of_getLast? tail)
    rw [modifyBlock_lookup]
    split
    · next e =>
      rw [e, hb]
      exact .some (.inr ⟨owner, rfl⟩)
    · exact same _
  · exact same _

namespace Store.Lawful

variable {x : Store} {name : CapName} {events : List Event} {c : Capture}

/-- A FREE block joins the chain of the ACTIVE capture (R39). -/
theorem append_free (law : x.Lawful (some name) events) (hc : x.capture name = some c)
    (noFilling : ∀ k b, lookupBlock x.blocks k = some b → b.state ≠ .filling) {n : Nat} (free : lookupBlock x.blocks n = none)
    (inRange : n < Config.blockCount) (index : Nat) : (x.appendBlock name c n index).Lawful (some name) events := by
  obtain ⟨here, num⟩ := slots_of_capture hc
  obtain ⟨b, hb, owner⟩ := law.heads name.slot c here
  rw [num] at owner
  have start : ∀ d, lookupBlock x.blocks c.head = some d → d.owner = name := fun d hd => by
    rw [hb] at hd
    cases hd
    exact owner
  have follows : ∀ n b m d, lookupBlock x.blocks n = some b → b.owner = name → b.next = some m → lookupBlock x.blocks m = some d →
      d.owner = name := fun n b m d hb owner next hd => by
    obtain ⟨y, hy, own⟩ := law.next n b m hb next
    rw [hy] at hd
    cases hd
    exact own.trans owner
  obtain ⟨joined, others⟩ := appendBlock_lookup (chainFrom_owned follows Config.blockCount start) n index
  have ne : c.head ≠ n := fun e => by rw [e, free] at hb; cases hb
  obtain ⟨b', hb', same⟩ := rel_some_left (others c.head ne) hb
  have headOwner : b'.owner = name := by
    obtain e | ⟨-, e⟩ := same
    · rw [e]; exact owner
    · rw [e]; exact owner
  have headFirst : b'.first = b.first := by
    obtain e | ⟨-, e⟩ := same
    · rw [e]
    · rw [e]
  refine law.join hc noFilling (appendBlock_wf _ _ _ inRange law.wf) joined rfl rfl (fun d hd => by rw [free] at hd; cases hd) others
    ((appendBlock_slots _ _ _ _ _).trans (quad_set_same here).symm) rfl rfl ⟨b', hb', headOwner⟩ fun e he => ⟨he, fun cap => ?_⟩
  obtain ⟨c', o, hc', origin, first⟩ := law.events e he
  rw [cap, hc] at hc'
  cases hc'
  refine ⟨c, o, by rw [cap]; exact (capture_of_slots (appendBlock_slots _ _ _ _ _) _).trans hc, origin, ?_⟩
  have oldest : (x.appendBlock name c n index).oldestIndex c = x.oldestIndex c := by
    unfold Store.oldestIndex
    rw [hb, hb']
    exact headFirst
  rw [oldest]
  exact first

end Store.Lawful

/-- Taking a block out of the map. -/
theorem lookupBlock_without (blocks : List (Nat × Block)) (n k : Nat) :
    lookupBlock (blocks.filter fun e => e.1 ≠ n) k = if k = n then none else lookupBlock blocks k := by
  induction blocks with
  | nil => exact (ite_self _).symm
  | cons e rest ih =>
    obtain ⟨m, b⟩ := e
    by_cases h : m = n
    · rw [List.filter_cons_of_neg (by simp [h]), ih]
      split
      · rfl
      · next ne => exact (if_neg fun e => ne (e.symm.trans h)).symm
    · rw [List.filter_cons_of_pos (by simp [h])]
      unfold lookupBlock
      rw [ih]
      split
      · next e => rw [if_neg (e ▸ h)]
      · rfl

/-- The block map and the capture after the capture's head block has gone to its tail (R41, steps 1 and 2). -/
theorem recycle_eq {x : Store} {name : CapName} {c : Capture} {b : Block} {h : Nat} (hc : x.capture name = some c)
    (hb : lookupBlock x.blocks c.head = some b) (next : b.next = some h) (index : Nat) :
    x.recycle name c index = Store.appendBlock
      { x with blocks := x.blocks.filter fun e => e.1 ≠ c.head, slots := x.slots.set name.slot (some { c with head := h }) }
      name { c with head := h } c.head index := by
  have held : Store.capture { x with blocks := x.blocks.filter fun e => e.1 ≠ c.head } name = some c := hc
  unfold Store.recycle
  simp only [hb, next]
  unfold Store.modify
  rw [held]

namespace Store.Lawful

variable {x : Store} {name : CapName} {events : List Event} {c : Capture}

/-- The head block of the ACTIVE capture goes to its tail, and the events that start before the new oldest held time have left the list
(R41, R141). -/
theorem recycle (law : x.Lawful (some name) events) (hc : x.capture name = some c)
    (noFilling : ∀ k b, lookupBlock x.blocks k = some b → b.state ≠ .filling) {b : Block} {h : Nat}
    (hb : lookupBlock x.blocks c.head = some b) (next : b.next = some h) (index : Nat) {rest : List Event}
    (held : ∀ e ∈ rest, e ∈ events ∧ (e.cap = name → ∀ d t, (x.recycle name c index).capture name = some d →
      (x.recycle name c index).oldestTime d = some t → (t : Int) ≤ e.start)) :
    (x.recycle name c index).Lawful (some name) rest ∧
      lookupBlock (x.recycle name c index).blocks c.head = some (Block.mk .filling name index false none []) := by
  obtain ⟨here, num⟩ := slots_of_capture hc
  obtain ⟨b', hb', owner⟩ := law.heads name.slot c here
  rw [hb] at hb'
  cases hb'
  rw [num] at owner
  obtain ⟨d, hd, own⟩ := law.next c.head b h hb next
  have eq := recycle_eq hc hb next index
  obtain ⟨y, hy⟩ : ∃ y, y = x.recycle name c index := ⟨_, rfl⟩
  obtain ⟨z, hz⟩ : ∃ z : Store, z = { x with
    blocks := x.blocks.filter fun e => e.1 ≠ c.head, slots := x.slots.set name.slot (some { c with head := h }) } := ⟨_, rfl⟩
  rw [← hz, ← hy] at eq
  rw [← hy] at held ⊢
  have without : ∀ k, lookupBlock z.blocks k = if k = c.head then none else lookupBlock x.blocks k := fun k => by
    rw [hz]
    exact lookupBlock_without x.blocks c.head k
  have listed : ∀ {k d}, lookupBlock z.blocks k = some d → lookupBlock x.blocks k = some d := fun {k d} hd => by
    rw [without] at hd
    split at hd
    · cases hd
    · exact hd
  have start : ∀ d, lookupBlock z.blocks h = some d → d.owner = name := fun e he => by
    have := listed he
    rw [hd] at this
    cases this
    exact own.trans owner
  have follows : ∀ n b m d, lookupBlock z.blocks n = some b → b.owner = name → b.next = some m → lookupBlock z.blocks m = some d →
      d.owner = name := fun n b m d hb owner next hd => by
    obtain ⟨y, hy, own⟩ := law.next n b m (listed hb) next
    rw [listed hd] at hy
    cases hy
    exact own.trans owner
  obtain ⟨joined, others⟩ := appendBlock_lookup (c := { c with head := h }) (chainFrom_owned follows Config.blockCount start)
    c.head index
  rw [← eq] at joined others
  have slots : y.slots = x.slots.set name.slot (some { c with head := h }) := by rw [eq, appendBlock_slots, hz]
  have captured : y.capture name = some { c with head := h } := capture_of_slots_set slots num
  have head : ∃ e, lookupBlock y.blocks h = some e ∧ e.owner = name := by
    by_cases e : h = c.head
    · exact ⟨_, e ▸ joined, rfl⟩
    · have there := others h e
      rw [without, if_neg e] at there
      obtain ⟨d', hd', same⟩ := rel_some_left there hd
      refine ⟨d', hd', ?_⟩
      obtain e | ⟨-, e⟩ := same
      · rw [e]; exact own.trans owner
      · rw [e]; exact own.trans owner
  refine ⟨law.join hc noFilling ?_ joined rfl rfl (fun d hd => ?_) (fun k ne => ?_) slots rfl rfl head fun e he => ?_, joined⟩
  · rw [hy]
    exact recycle_wf x name c index law.wf
  · rw [hb] at hd
    cases hd
    exact owner
  · have there := others k ne
    rw [without, if_neg ne] at there
    exact there
  · obtain ⟨before, after⟩ := held e he
    refine ⟨before, fun cap => ?_⟩
    obtain ⟨c', o, hc', origin, -⟩ := law.events e before
    rw [cap, hc] at hc'
    cases hc'
    refine ⟨{ c with head := h }, o, by rw [cap]; exact captured, origin, after cap _ _ captured ?_⟩
    unfold Store.oldestTime Capture.timeOf
    rw [origin]
    rfl

end Store.Lawful

end Sys2Proof.Machine
end

section
/-! SUPPORT. The law of the store when a sample is held (R25, R38 to R42) and when the lanes' events are entered (R138 to R140). -/

namespace Sys2Proof.Machine

open Sys2Proof

/-! ## The next block (R39, R41, R141) -/

/-- No block is FILLING. -/
def Store.noFilling (x : Store) : Prop := ∀ k b, lookupBlock x.blocks k = some b → b.state ≠ .filling

theorem Store.noFilling.filling {x : Store} (h : x.noFilling) (wf : x.wf = true) (name : CapName) : x.filling name = none := by
  cases hf : x.filling name with
  | none => rfl
  | some f => exact absurd (filling_props hf).2 (h f.1 f.2 (filling_lookup wf hf))

/-- A reclaim leaves the ACTIVE capture as it is. -/
theorem reclaim_capture {s t : State} {name : CapName} (law : s.storeLaw (some name)) (h : s.reclaim = some t) :
    t.sto.capture name = s.sto.capture name := by
  obtain ⟨i, v, slot, complete, rfl⟩ := reclaim_removes h
  obtain ⟨c, hc, incomplete⟩ := law.activeHeld name rfl
  have ne : name.slot ≠ i := fun e => by
    rw [← e, (slots_of_capture hc).1] at slot
    cases slot
    exact Bool.false_ne_true (incomplete.symm.trans complete)
  exact Store.Lawful.capture_other_slot ne (removeCapture_slots s i)

theorem canRecycle_iff {x : Store} {c : Capture} : x.canRecycle c = true ↔
    ∃ b h, lookupBlock x.blocks c.head = some b ∧ b.state = .sealed ∧ b.next = some h ∧ c.trigBlock ≠ some c.head := by
  unfold Store.canRecycle
  cases lookupBlock x.blocks c.head with
  | none => simp
  | some b => simp [Option.isSome_iff_exists, and_assoc]

/-- The recycle takes the events that start before the new oldest held time off the list (R41, step 3; R141). -/
theorem recycle_cases (s : State) (name : CapName) (c : Capture) (index : Nat) :
    (s.sto.recycle name c index).Like (s.recycle name c index).sto ∧
    ∀ e ∈ (s.recycle name c index).evl.events, e ∈ s.evl.events ∧ (e.cap = name → ∀ d t,
      (s.sto.recycle name c index).capture name = some d → (s.sto.recycle name c index).oldestTime d = some t → (t : Int) ≤ e.start) := by
  unfold State.recycle
  extract_lets s1
  have sto : s1.sto = s.sto.recycle name c index := rfl
  have evl : s1.evl = s.evl := rfl
  rw [← sto]
  split
  · next d hd =>
    split
    · next t ht =>
      refine ⟨modify_like _ _ fun _ => ⟨rfl, rfl, rfl, rfl, rfl⟩, fun e he => ?_⟩
      have left_ : e ∈ s.evl.events ∧ (e.cap = name → (t : Int) ≤ e.start) := by
        simpa [State.expireEvents, State.modifyCapture, Evl.remove, evl, ← imp_iff_not_or] using he
      refine ⟨left_.1, fun cap d' t' hd' ht' => ?_⟩
      rw [hd] at hd'
      cases hd'
      rw [ht] at ht'
      cases ht'
      exact left_.2 cap
    · next ht =>
      refine ⟨.refl _, fun e he => ⟨he, fun _ d' t' hd' ht' => ?_⟩⟩
      rw [hd] at hd'
      cases hd'
      rw [ht] at ht'
      cases ht'
  · next hd => exact ⟨.refl _, fun e he => ⟨he, fun _ d' t' hd' => by rw [hd] at hd'; cases hd'⟩⟩

/-- An empty FILLING block of the capture, whose first index is that of the record to come. -/
def emptyBlock (name : CapName) (index : Nat) : Block := Block.mk .filling name index false none []

theorem recycle_storeLaw {s : State} {name : CapName} {c : Capture} (law : s.storeLaw (some name))
    (hc : s.sto.capture name = some c) (noFilling : s.sto.noFilling) (can : s.sto.canRecycle c = true) (index : Nat) :
    (s.recycle name c index).storeLaw (some name) ∧
      ∃ n, lookupBlock (s.recycle name c index).sto.blocks n = some (emptyBlock name index) := by
  obtain ⟨b, h, hb, -, next, -⟩ := canRecycle_iff.1 can
  obtain ⟨like, events⟩ := recycle_cases s name c index
  obtain ⟨kept, joined⟩ := Store.Lawful.recycle law hc noFilling hb next index events
  refine ⟨kept.of_like like fun _ he => he, c.head, ?_⟩
  have blocks : (s.recycle name c index).sto.blocks = (s.sto.recycle name c index).blocks := by
    unfold State.recycle
    dsimp only
    split
    · split
      · exact modify_blocks _ _ _
      · rfl
    · rfl
  rw [blocks]
  exact joined

/-- The block that follows a full one joins the chain empty, as the capture's FILLING block (R39, R41). -/
theorem nextBlock_storeLaw {s t : State} {name : CapName} {c : Capture} {index : Nat} (h : s.nextBlock name c index = some t)
    (law : s.storeLaw (some name)) (hc : s.sto.capture name = some c) (noFilling : s.sto.noFilling) :
    t.storeLaw (some name) ∧ ∃ n, lookupBlock t.sto.blocks n = some (emptyBlock name index) := by
  have recycled : (if c.mode = .window && s.sto.canRecycle c then some (s.recycle name c index) else none) = some t →
      t.storeLaw (some name) ∧ ∃ n, lookupBlock t.sto.blocks n = some (emptyBlock name index) := by
    intro e
    split at e
    · next can =>
      cases e
      exact recycle_storeLaw law hc noFilling (Bool.and_eq_true_iff.1 can).2 index
    · cases e
  have appended : ∀ {u : State} {n}, u.storeLaw (some name) → u.sto.capture name = some c → u.sto.noFilling →
      u.sto.lowestFree = some n → (u.setSto (u.sto.appendBlock name c n index)).storeLaw (some name) ∧
        ∃ n', lookupBlock (u.setSto (u.sto.appendBlock name c n index)).sto.blocks n' = some (emptyBlock name index) :=
    fun {u n} law hc noFilling free => ⟨Store.Lawful.append_free law hc noFilling (lowestFreeFrom_free free) (lowestFree_lt free) index,
      n, lookupBlock_insertBlock _ _ _⟩
  unfold State.nextBlock at h
  dsimp only at h
  split at h
  · split at h
    · next n free => cases h; exact appended law hc noFilling free
    · split at h
      · next u hr =>
        split at h
        · next n free =>
          cases h
          exact appended (reclaim_storeLaw law hr) ((reclaim_capture law hr).trans hc)
            (fun k b hb => noFilling k b (reclaim_lookup law.wf hr hb)) free
        · exact recycled h
      · exact recycled h
  · exact recycled h

/-! ## A sample held (R25, R38 to R42) -/

/-- Every FILLING block of the capture holds a record. -/
def Store.recorded (x : Store) (name : CapName) : Prop := ∀ n b, x.filling name = some (n, b) → b.records ≠ []

/-- The capture has an origin: sample 0 has been taken (R21). -/
def State.hasOrigin (s : State) (name : CapName) : Prop := ∃ c o, s.sto.capture name = some c ∧ c.origin = some o

theorem State.hasOrigin.of_slots {s t : State} {name : CapName} (h : s.hasOrigin name) (slots : t.sto.slots = s.sto.slots) :
    t.hasOrigin name := by
  obtain ⟨c, o, hc, origin⟩ := h
  exact ⟨c, o, (capture_of_slots slots name).trans hc, origin⟩

/-- A record placed in the FILLING block of the ACTIVE capture. -/
theorem appendRecord_storeLaw {s : State} {name : CapName} {n : Nat} {b : Block} {index : Nat} (law : s.storeLaw (some name))
    (hf : s.sto.filling name = some (n, b)) (first : b.records = [] → b.first = index) (word : ChannelWord) :
    (s.setSto (s.sto.appendRecord n b word index)).storeLaw (some name) ∧
      (s.setSto (s.sto.appendRecord n b word index)).sto.recorded name := by
  refine ⟨law.of_like (appendRecord_like (filling_lookup law.wf hf) word first) rfl, fun m d hd => ?_⟩
  have placed := filling_insert law.wf hf (b' := b.append (Rec.mk word 1 (testFlips s.sto.test)) index) (filling_props hf).1
    (filling_props hf).2
  have same : (m, d) = (n, b.append (Rec.mk word 1 (testFlips s.sto.test)) index) := Option.some.inj (hd.symm.trans placed)
  rw [(Prod.mk.inj same).2]
  exact List.append_ne_nil_of_right_ne_nil _ (List.cons_ne_nil _ _)

/-- Once its FILLING block is sealed, the ACTIVE capture has none. -/
theorem seal_noFilling {x : Store} {name : CapName} {events : List Event} (law : x.Lawful (some name) events) {n : Nat} {b : Block}
    (hf : x.filling name = some (n, b)) : (x.seal n).noFilling := by
  intro k d hd state
  have hb := filling_lookup law.wf hf
  obtain ⟨sealed_, others⟩ := seal_lookup x n b hb
  by_cases e : k = n
  · rw [e, sealed_] at hd
    cases hd
    cases state
  · rw [others k e] at hd
    exact e (law.oneFilling k n d b hd hb state (filling_props hf).2)

theorem placeRecord_storeLaw {s : State} {name : CapName} {index : Nat} (law : s.storeLaw (some name))
    (first : ∀ n b, s.sto.filling name = some (n, b) → b.records = [] → b.first = index) (word : ChannelWord) :
    (s.placeRecord name word index).1.storeLaw (some name) ∧ (s.placeRecord name word index).1.sto.recorded name ∧
      (s.hasOrigin name → (s.placeRecord name word index).1.hasOrigin name) := by
  have placed : ∀ {u : State} {n b}, u.storeLaw (some name) → u.sto.filling name = some (n, b) → (b.records = [] → b.first = index) →
      (s.hasOrigin name → u.hasOrigin name) → (u.setSto (u.sto.appendRecord n b word index)).storeLaw (some name) ∧
        (u.setSto (u.sto.appendRecord n b word index)).sto.recorded name ∧
        (s.hasOrigin name → (u.setSto (u.sto.appendRecord n b word index)).hasOrigin name) := by
    intro u n b law hf first origin
    obtain ⟨kept, recorded⟩ := appendRecord_storeLaw law hf first word
    exact ⟨kept, recorded, fun h => (origin h).of_slots rfl⟩
  obtain ⟨c, hc, incomplete⟩ := law.activeHeld name rfl
  cases hf : s.sto.filling name with
  | none =>
    have same : s.placeRecord name word index = (s, false) := by unfold State.placeRecord; rw [hf]
    rw [same]
    exact ⟨law, fun n b h => (nomatch hf.symm.trans h), id⟩
  | some f =>
    obtain ⟨n, b⟩ := f
    have sealedLaw : (s.setSto (s.sto.seal n)).storeLaw (some name) := law.of_like (seal_like _ _) rfl
    have sealedCapture : (s.setSto (s.sto.seal n)).sto.capture name = some c := (capture_of_slots (seal_slots _ _) _).trans hc
    have none_ := seal_noFilling law hf
    unfold State.placeRecord
    simp only [hf, hc]
    split
    · exact placed law hf (first n b hf) id
    · split
      · next t ht =>
        obtain ⟨kept, m, hm⟩ := nextBlock_storeLaw ht sealedLaw sealedCapture none_
        obtain ⟨d, hd, moved⟩ := nextBlock_movedTo ht sealedCapture incomplete
        have hfm := (filling_iff kept name m _).2 ⟨hm, rfl, rfl⟩
        rw [hfm]
        refine placed kept hfm (fun _ => rfl) fun ⟨c', o, hc', origin⟩ => ⟨d, o, hd, ?_⟩
        rw [hc] at hc'
        cases hc'
        rw [moved]
        exact origin
      · exact ⟨sealedLaw, fun m d hd => (nomatch (none_.filling sealedLaw.wf name).symm.trans hd),
          fun h => h.of_slots (seal_slots _ _)⟩

/-- Holding a sample: the open record grows, or a record is placed (R25). -/
theorem holdSample_storeLaw {s : State} {name : CapName} {x : Sampling} (law : s.storeLaw (some name))
    (first : ∀ n b, s.sto.filling name = some (n, b) → b.records = [] → b.first = x.next ∧ x.run = none) (word : ChannelWord) :
    (s.holdSample x name word).1.storeLaw (some name) ∧ (s.holdSample x name word).1.sto.recorded name ∧
      (s.hasOrigin name → (s.holdSample x name word).1.hasOrigin name) := by
  unfold State.holdSample
  split
  · next r hr =>
    have slots : (s.sto.extendRecord name).slots = s.sto.slots := by unfold Store.extendRecord; split <;> rfl
    refine ⟨law.of_like (extendRecord_like law.wf name) rfl, fun n d hd => ?_, fun h => h.of_slots slots⟩
    cases hf : s.sto.filling name with
    | none =>
      have same : s.sto.extendRecord name = s.sto := by unfold Store.extendRecord; rw [hf]
      rw [same] at hd
      cases hf.symm.trans hd
    | some f =>
      obtain ⟨m, b⟩ := f
      have grown : (s.sto.extendRecord name).filling name = some (m, { b with
          records := modifyLast (fun r => { r with run := r.run + 1 }) b.records }) := by
        unfold Store.extendRecord
        simp only [hf]
        refine filling_insert law.wf hf ?_ ?_
        · exact (filling_props hf).1
        · exact (filling_props hf).2
      have same := Option.some.inj (hd.symm.trans grown)
      rw [(Prod.mk.inj same).2]
      intro empty
      obtain ⟨-, run⟩ := first m b hf (modifyLast_eq_nil empty)
      unfold Sampling.extends? at hr
      rw [run] at hr
      cases hr
  · exact placeRecord_storeLaw law (fun n b hf empty => (first n b hf empty).1) word

/-! ## Events entered (R138 to R140, R145) -/

theorem appendEvent_storeLaw {s : State} {active : Option CapName} (law : s.storeLaw active) {e : Event} (held : s.sto.holdsEvent e) :
    (s.appendEvent e).storeLaw active := by
  have entered := Store.Lawful.append_event law held s.evl.nextSeq
  have events : (s.appendEvent e).evl.events = s.evl.events ++ [{ e with seq := s.evl.nextSeq }] := by
    have checked : ∀ u : State, ((u.checkReady .a).checkReady .b).evl.events = u.evl.events := fun u => by
      obtain ⟨-, -, -, -, -, events⟩ := holdings_eq_iff.1 ((holdings_checkReady (u.checkReady .a) .b).trans (holdings_checkReady u .a))
      exact events
    exact checked _
  unfold State.storeLaw
  rw [appendEvent_sto, events]
  exact entered

/-- An event of the ACTIVE capture stays one that is held, while that capture and its blocks are kept. -/
theorem holdsEvent_of_active {s t : State} {name : CapName} (law : s.storeLaw (some name)) (kept : ActiveKept name s t)
    (wf : t.sto.wf = true) {e : Event} (cap : e.cap = name) (held : s.sto.holdsEvent e) : t.sto.holdsEvent e := by
  obtain ⟨c, o, hc, origin, start⟩ := held
  obtain ⟨c', hc', incomplete⟩ := law.activeHeld name rfl
  rw [cap] at hc
  rw [hc] at hc'
  cases hc'
  obtain ⟨d, hd, record⟩ := kept.capture c hc incomplete
  obtain ⟨here, num⟩ := slots_of_capture hc
  obtain ⟨b, hb, owner⟩ := law.heads name.slot c here
  rw [num] at owner
  have hb' := lookupBlock_of_owned wf (kept.owned c hc incomplete) hb owner
  have head : d.head = c.head := by rw [record]
  have oldest : t.sto.oldestIndex d = s.sto.oldestIndex c := by
    unfold Store.oldestIndex
    rw [head, hb, hb']
  refine ⟨d, o, by rw [cap]; exact hd, by rw [record]; exact origin, ?_⟩
  rw [oldest, record]
  exact start

theorem modifyCapture_storeLaw {s : State} {active : Option CapName} (law : s.storeLaw active) (name : CapName)
    {f : Capture → Capture} (hf : ∀ c : Capture, c.Like (f c)) : (s.modifyCapture name f).storeLaw active :=
  law.of_like (modify_like _ _ hf) rfl

theorem enterWithRoom_storeLaw (fuel : Nat) {s : State} {name : CapName} (law : s.storeLaw (some name)) {e : Event}
    (cap : e.cap = name) (held : s.sto.holdsEvent e) : (State.enterWithRoom fuel e s).storeLaw (some name) := by
  have counted : ∀ {u : State}, u.storeLaw (some name) →
      (u.modifyCapture e.cap fun c => { c with truncated := satAdd Config.max32 c.truncated 1 }).storeLaw (some name) := fun law =>
    modifyCapture_storeLaw law _ fun _ => ⟨rfl, rfl, rfl, rfl, rfl⟩
  induction fuel generalizing s with
  | zero =>
    unfold State.enterWithRoom
    split
    · exact appendEvent_storeLaw law held
    · exact counted law
  | succ n ih =>
    unfold State.enterWithRoom
    split
    · exact appendEvent_storeLaw law held
    · split
      · next hf hr =>
        cases hf
        have kept := reclaim_storeLaw law hr
        exact ih kept (holdsEvent_of_active law (reclaim_active name hr) kept.wf cap held)
      · exact counted law

theorem hasOrigin_of_active {s t : State} {name : CapName} (law : s.storeLaw (some name)) (kept : ActiveKept name s t)
    (origin : s.hasOrigin name) : t.hasOrigin name := by
  obtain ⟨c, o, hc, ho⟩ := origin
  obtain ⟨c', hc', incomplete⟩ := law.activeHeld name rfl
  rw [hc] at hc'
  cases hc'
  obtain ⟨d, hd, record⟩ := kept.capture c hc incomplete
  exact ⟨d, o, hd, by rw [record]; exact ho⟩

theorem recorded_of_active {s t : State} {name : CapName} (law : s.storeLaw (some name)) (kept : ActiveKept name s t)
    (recorded : s.sto.recorded name) : t.sto.recorded name := by
  obtain ⟨c, hc, incomplete⟩ := law.activeHeld name rfl
  intro n b hf
  rw [filling_of_owned (kept.owned c hc incomplete)] at hf
  exact recorded n b hf

theorem enterEvent_storeLaw {s : State} {name : CapName} (law : s.storeLaw (some name)) (origin : s.hasOrigin name) {e : Event}
    (cap : e.cap = name) : (s.enterEvent e).storeLaw (some name) := by
  obtain ⟨c, o, hc, ho⟩ := origin
  unfold State.enterEvent
  rw [cap, hc]
  dsimp only
  split
  · exact modifyCapture_storeLaw law _ fun _ => ⟨rfl, rfl, rfl, rfl, rfl⟩
  · next fresh =>
    refine enterWithRoom_storeLaw 5 law cap ⟨c, o, by rw [cap]; exact hc, ho, ?_⟩
    unfold Store.alreadyExpired Store.oldestTime Capture.timeOf at fresh
    rw [ho] at fresh
    simpa using fresh

theorem enterHead_storeLaw {s : State} {name : CapName} (law : s.storeLaw (some name)) (origin : s.hasOrigin name) {l : List Event}
    (cap : ∀ e ∈ l, e.cap = name) : (l.head?.elim s s.enterEvent).storeLaw (some name) := by
  cases l with
  | nil => exact law
  | cons e l => exact enterEvent_storeLaw law origin (cap e (List.mem_cons_self ..))

theorem enterAll_storeLaw (fuel : Nat) {q : Quad (List Event)} {s : State} {name : CapName} (law : s.storeLaw (some name))
    (origin : s.hasOrigin name) (cap : ∀ i, ∀ e ∈ q.get i, e.cap = name) : (State.enterAll fuel q s).storeLaw (some name) := by
  have rest : ∀ {q : Quad (List Event)} (j : Four), (∀ i, ∀ e ∈ q.get i, e.cap = name) →
      ∀ i, ∀ e ∈ (q.set j (q.get j).tail).get i, e.cap = name := by
    intro q j cap i e he
    by_cases h : i = j
    · rw [h, quad_get_set] at he
      exact cap j e (List.mem_of_mem_tail he)
    · rw [quad_get_set_ne _ _ h] at he
      exact cap i e he
  induction fuel generalizing s q with
  | zero => exact law
  | succ f ih =>
    unfold State.enterAll
    split
    · exact law
    · next i _ =>
      exact ih (enterHead_storeLaw law origin (cap i)) (hasOrigin_of_active law (enterHead_active name s _) origin) (rest i cap)
    · next i l _ =>
      extract_lets j
      have law' : (s.setFreeIx (s.freeIx + 1)).storeLaw (some name) := law
      exact ih (enterHead_storeLaw law' origin (cap j)) (hasOrigin_of_active law' (enterHead_active name _ _) origin) (rest j cap)

end Sys2Proof.Machine
end

section
/-! SUPPORT. The lanes keep the capture they work for, so the events that they emit on a sample name it (R104, R110, R129). -/

namespace Sys2Proof.Machine

open Sys2Proof

/-! ## A lane works for one capture (R104) -/

namespace LaneWork

variable (w : LaneWork)

@[simp] theorem emit_capture (kind value attrs err bits t0 t1) :
    (w.emit kind value attrs err bits t0 t1).ctx.capture = w.ctx.capture := rfl
@[simp] theorem note_capture (h : Happening) : (w.note h).ctx.capture = w.ctx.capture := rfl
@[simp] theorem withKind_capture (f : KindCtx → KindCtx) : (w.withKind f).ctx.capture = w.ctx.capture := rfl
@[simp] theorem openFrame_capture (t : Nat) : (w.openFrame t).ctx.capture = w.ctx.capture := rfl
@[simp] theorem leaveFrame_capture (basis : HuntBasis) : (w.leaveFrame basis).ctx.capture = w.ctx.capture := rfl
@[simp] theorem emitStop_capture (t : Nat) : (w.emitStop t).ctx.capture = w.ctx.capture := rfl
@[simp] theorem emitPartial_capture (t : Nat) : (w.emitPartial t).ctx.capture = w.ctx.capture := rfl
@[simp] theorem takeBit_capture (b : Bool) (t : Nat) : (w.takeBit b t).ctx.capture = w.ctx.capture := rfl

@[simp] theorem withHunt_capture (hunt : Option HuntBasis) :
    (w.withCtx fun c => { c with hunt := hunt }).ctx.capture = w.ctx.capture := rfl

@[simp] theorem completeWord_capture (kind value attrs t0 t1) :
    (w.completeWord kind value attrs t0 t1).ctx.capture = w.ctx.capture := by
  unfold completeWord
  dsimp only
  split
  · rfl
  · split <;> rfl

@[simp] theorem disposeWord_capture (msb : Bool) (least t : Nat) : (w.disposeWord msb least t).ctx.capture = w.ctx.capture := by
  unfold disposeWord
  dsimp only
  split
  · split <;> rfl
  · rfl

/-! ### TWO_WIRE -/

@[simp] theorem twoWireByte_capture (x : WordProgress) (t : Nat) : (w.twoWireByte x t).ctx.capture = w.ctx.capture := by
  unfold twoWireByte
  dsimp only
  split <;> simp

@[simp] theorem withKindIf_capture (b : Bool) (f : KindCtx → KindCtx) :
    (if b then w.withKind f else w).ctx.capture = w.ctx.capture := by
  split <;> rfl

theorem twoWireFrame_capture (it : SampleItem) : (w.twoWireFrame it).ctx.capture = w.ctx.capture := by
  unfold twoWireFrame
  extract_lets clk dat w1 bit w2 steady w3
  have h1 : w1.ctx.capture = w.ctx.capture := withKindIf_capture _ _ _
  have h2 : w2.ctx.capture = w1.ctx.capture := by
    simp only [w2]
    split
    · split
      · split <;> simp [bit]
      · simp [bit]
    · rfl
  have h3 : w3.ctx.capture = w2.ctx.capture := by
    simp only [w3]
    split
    · simp
    · split <;> simp
  have h := h3.trans (h2.trans h1)
  split
  · split
    · simpa using h
    · exact h
  · exact h

theorem twoWireHunt_capture (it : SampleItem) : (w.twoWireHunt it).ctx.capture = w.ctx.capture := by
  unfold twoWireHunt
  split <;> rfl

/-! ### CLOCKED -/

@[simp] theorem clockedBit_capture (it : SampleItem) : (w.clockedBit it).ctx.capture = w.ctx.capture := by
  unfold clockedBit
  dsimp only
  split
  · split
    · split <;> simp
    · simp
  · rfl

theorem clockedFrame_capture (it : SampleItem) : (w.clockedFrame it).ctx.capture = w.ctx.capture := by
  unfold clockedFrame
  dsimp only
  split
  · split <;> simp
  · split
    · split <;> simp
    · simp

theorem clockedHunt_capture (basis : HuntBasis) (it : SampleItem) : (w.clockedHunt basis it).ctx.capture = w.ctx.capture := by
  unfold clockedHunt
  dsimp only
  split
  · split <;> simp
  · split
    · split
      · split <;> simp
      · rfl
    · rfl

/-! ### ASYNC -/

@[simp] theorem asyncComplete_capture (ch : AsyncChar) (it : SampleItem) : (w.asyncComplete ch it).ctx.capture = w.ctx.capture := by
  unfold asyncComplete
  dsimp only
  split <;> simp

theorem asyncRead_capture (ch : AsyncChar) (D : Nat) (it : SampleItem) : (w.asyncRead ch D it).ctx.capture = w.ctx.capture := by
  unfold asyncRead
  extract_lets cfg ch1 ch2
  split
  · split
    · split <;> rfl
    · split <;> simp
  · rfl

theorem asyncGap_capture (it : SampleItem) : (w.asyncGap it).ctx.capture = w.ctx.capture := by
  unfold asyncGap
  dsimp only
  split
  · rfl
  · split <;> rfl

theorem asyncFrame_capture (D : Nat) (it : SampleItem) : (w.asyncFrame D it).ctx.capture = w.ctx.capture := by
  unfold asyncFrame
  extract_lets cfg w1
  have h1 : w1.ctx.capture = w.ctx.capture := by
    simp only [w1]
    split
    · exact asyncRead_capture w _ D it
    · exact asyncGap_capture w it
  split
  · split
    · simpa using h1
    · exact h1
  · exact h1

theorem asyncHunt_capture (basis : HuntBasis) (D : Nat) (it : SampleItem) : (w.asyncHunt basis D it).ctx.capture = w.ctx.capture := by
  unfold asyncHunt
  extract_lets cfg toIdle w1 ready
  have h1 : w1.ctx.capture = w.ctx.capture := by
    simp only [w1]
    split <;> rfl
  split
  · split
    · split
      · exact h1
      · simpa using h1
    · exact h1
  · split
    · split
      · exact h1
      · exact h1
    · exact h1

/-! ### BIPHASE -/

@[simp] theorem biphaseBit_capture (b : Bool) (cell t : Nat) : (w.biphaseBit b cell t).ctx.capture = w.ctx.capture := by
  unfold biphaseBit
  dsimp only
  split
  · split <;> simp
  · simp

@[simp] theorem biphaseError_capture (t : Nat) : (w.biphaseError t).ctx.capture = w.ctx.capture := rfl

theorem biphaseFrame_capture (it : SampleItem) : (w.biphaseFrame it).ctx.capture = w.ctx.capture := by
  unfold biphaseFrame
  dsimp only
  split
  · rfl
  · split
    · split <;> simp
    · split <;> simp

theorem biphaseHunt_capture (basis : HuntBasis) (it : SampleItem) : (w.biphaseHunt basis it).ctx.capture = w.ctx.capture := by
  unfold biphaseHunt
  dsimp only
  split
  · split
    · split <;> rfl
    · rfl
  · rfl

/-! ### A sample -/

theorem hunt_capture (D : Nat) (it : SampleItem) : (w.hunt D it).ctx.capture = w.ctx.capture := by
  unfold LaneWork.hunt
  extract_lets basis w1
  have h1 : w1.ctx.capture = w.ctx.capture := rfl
  split
  · exact h1
  · exact (twoWireHunt_capture w1 it).trans h1
  · exact (clockedHunt_capture w1 basis it).trans h1
  · exact (asyncHunt_capture w1 basis D it).trans h1
  · exact (biphaseHunt_capture w1 basis it).trans h1

theorem inside_capture (D : Nat) (it : SampleItem) : (w.inside D it).ctx.capture = w.ctx.capture := by
  unfold LaneWork.inside
  split
  · rfl
  · exact twoWireFrame_capture w it
  · exact clockedFrame_capture w it
  · exact asyncFrame_capture w D it
  · exact biphaseFrame_capture w it

theorem cutDrain_capture (it : SampleItem) : (w.cutDrain it).ctx.capture = w.ctx.capture := by
  unfold cutDrain
  split
  · split <;> rfl
  · rfl

theorem applyHold_capture (t : Nat) : (w.applyHold t).ctx.capture = w.ctx.capture := by
  unfold applyHold
  split <;> rfl

theorem applyRelease_capture : w.applyRelease.ctx.capture = w.ctx.capture := by
  unfold applyRelease
  split <;> rfl

end LaneWork

/-- The lane works for the capture, if for any. -/
def Lane.worksFor (x : Lane) (name : CapName) : Prop := ∀ k, x.ctx = some k → k.capture = name

theorem laneHandle_worksFor (ix : Four) {x : Lane} {name : CapName} (h : x.worksFor name) (D : Nat) (it : SampleItem) :
    (laneHandle ix x D it).1.worksFor name := by
  unfold laneHandle
  split
  · exact h
  · next c hc =>
    split
    · exact h
    · extract_lets due w held released last
      have h1 : held.ctx.capture = c.capture := by
        simp only [held]
        split
        · exact LaneWork.applyHold_capture w _
        · rfl
      have h2 : released.ctx.capture = held.ctx.capture := by
        simp only [released]
        split
        · exact LaneWork.applyRelease_capture held
        · rfl
      have h3 : last.ctx.capture = released.ctx.capture := by
        simp only [last]
        split
        · exact LaneWork.hunt_capture released D it
        · exact LaneWork.inside_capture released D it
        · exact (LaneWork.cutDrain_capture _ it).trans (LaneWork.inside_capture released D it)
        · rfl
      intro k hk
      cases hk
      exact (h3.trans (h2.trans h1)).trans (h c hc)

theorem withLastStart_worksFor {x : Lane} {name : CapName} (h : x.worksFor name) (l : Option Int) : (x.withLastStart l).worksFor name := by
  intro k hk
  obtain ⟨c, hc, e⟩ := Option.map_eq_some_iff.1 hk
  rw [← e]
  exact h c hc

theorem lanesAfter_worksFor {lanes : Quad Lane} {name : CapName} (h : ∀ i, (lanes.get i).worksFor name) (fx : Quad LaneEffects)
    (n : Nat) (i : Four) : ((lanesAfter lanes fx n).get i).worksFor name := by
  obtain ⟨-, -, ctx⟩ := lanesAfter_frame lanes fx n i
  intro k hk
  rw [ctx] at hk
  exact withLastStart_worksFor (h i) _ k hk

/-! ## The events of a lane name its capture (R110) -/

theorem laneEffects_cap (ix : Four) (c : LaneCtx) (entries : List MatchEntry) (skew : Int) (out : List Emission) :
    ∀ e ∈ (laneEffects ix c entries skew out).events, e.cap = c.capture := by
  have folded : ∀ (x : LaneEffects), (∀ e ∈ x.events, e.cap = c.capture) →
      ∀ e ∈ (out.foldl (effectOf ix c entries skew) x).events, e.cap = c.capture := by
    induction out with
    | nil => exact fun _ h => h
    | cons o rest ih =>
      refine fun x h => ih _ fun e he => ?_
      obtain he | he := List.mem_append.1 he
      · exact h e he
      · rw [List.mem_singleton.1 he]
  exact folded _ fun e he => nomatch he

theorem allEffects_cap (s : State) {lanes : Quad Lane} {name : CapName} (h : ∀ i, (lanes.get i).worksFor name)
    (out : Quad (List Emission)) (i : Four) : ∀ e ∈ ((s.allEffects lanes out).get i).events, e.cap = name := by
  unfold State.allEffects
  rw [get_numbered]
  unfold State.effectsOfLane
  intro e he
  split at he
  · next c hc => rw [laneEffects_cap _ _ _ _ _ e he, h i c hc]
  · cases he

end Sys2Proof.Machine
end

section
/-! SUPPORT. The law of held events in four parts (R31, R33, R139), and the requests, removals, ends and arms that keep it. -/

namespace Sys2Proof.Machine

open Sys2Proof

/-! ## The law in parts -/

/-- The state of TRG that goes with a state of the engine (R81). -/
def Engine.trgState : Engine → TrgState
  | .arming => .gated
  | .armed => .seeking
  | .triggered => .declared
  | _ => .standby

/-- The part of `State.engineLaw` that speaks of ACQ, SMP and TRG's state. -/
structure EngineForm (x : Acq) (smp : Option Sampling) (trg : TrgState) : Prop where
  idle : x.active = none ↔ x.engine = .idle
  copy : x.copy.isSome ↔ x.engine ≠ .idle
  sampling : smp.isSome ↔ x.engine.sampling = true
  first : ∀ y, smp = some y → y.next = 0 → x.engine = .arming
  armedAt : x.armedAt.isSome → x.engine = .arming
  force : x.force.isSome → x.engine = .arming ∨ x.engine = .armed
  post : x.engine = .triggered → x.postEnd.isSome
  postEnd : x.postEnd.isSome → x.engine = .triggered ∨ x.engine = .stopping
  state : trg = x.engine.trgState

/-- `State.heldLaw` in its four parts: ACQ, SMP and TRG; the store; the lanes; the sample to come. -/
structure State.HeldParts (s : State) : Prop where
  form : EngineForm s.acq s.smp s.trg.state
  store : s.storeLaw s.acq.active
  lanes : ∀ l k, (s.lanes.get l).ctx = some k → s.acq.active = some k.capture ∧ s.smp ≠ none
  sample : ∀ x name c, s.smp = some x → s.acq.active = some name → s.sto.capture name = some c →
    (c.origin = none ↔ x.next = 0) ∧ ∀ n b, s.sto.filling name = some (n, b) → b.records = [] → b.first = x.next ∧ x.run = none

theorem heldLaw_iff (s : State) : s.heldLaw ↔ s.HeldParts := by
  constructor
  · rintro ⟨⟨active, copy, smp, first, armedAt, force, post, postEnd, trg⟩, wf, blocks, oneFilling, heads, events, lanes, sample⟩
    refine ⟨⟨?_, copy, smp, first, armedAt, force, post, postEnd, ?_⟩, ⟨fun i c hc incomplete => ?_, fun name ha => ?_, wf,
      fun n b hb => (blocks n b hb).1, fun n b hb => (blocks n b hb).2.1, fun n b m hb => (blocks n b hb).2.2 m, oneFilling, heads,
      events⟩, lanes, sample⟩
    · split at active
      · next h => exact iff_of_true h active.1
      · next name h => exact iff_of_false (h ▸ Option.some_ne_none name) active.1
    · rw [Engine.trgState.eq_def]
      split at trg <;> simp_all
    · split at active
      · exact absurd (incomplete.symm.trans (active.2 i c hc)) Bool.false_ne_true
      · next name h =>
        obtain ⟨-, ⟨d, hd, -⟩, only⟩ := active
        obtain rfl := only i c hc incomplete
        obtain ⟨there, num⟩ := slots_of_capture hd
        rw [hc] at there
        cases there
        rw [h, num]
    · rw [ha] at active
      exact active.2.1
  · rintro ⟨⟨idle, copy, smp, first, armedAt, force, post, postEnd, trg⟩, store, lanes, sample⟩
    refine ⟨⟨?_, copy, smp, first, armedAt, force, post, postEnd, ?_⟩, store.wf,
      fun n b hb => ⟨store.owner n b hb, store.filling n b hb, fun m => store.next n b m hb⟩, store.oneFilling, store.heads,
      store.events, lanes, sample⟩
    · split
      · next h =>
        refine ⟨idle.1 h, fun i c hc => ?_⟩
        cases hcomplete : c.complete with
        | true => rfl
        | false => exact nomatch h.symm.trans (store.incomplete i c hc hcomplete)
      · next name h =>
        refine ⟨fun e => ?_, store.activeHeld name h, fun i c hc incomplete => ?_⟩
        · rw [idle.2 e] at h
          cases h
        · have := h.symm.trans (store.incomplete i c hc incomplete)
          cases this
          rfl
    · rw [trg]
      cases s.acq.engine <;> rfl

/-! ## Changes that the law does not see -/

namespace State.HeldParts

variable {s t : State}

/-- The law reads of STO what a change of blocks and captures in kind leaves, and of SMP the next index and the run. -/
theorem of_like (h : s.HeldParts) (form : EngineForm t.acq t.smp t.trg.state) (active : t.acq.active = s.acq.active)
    (like : s.sto.Like t.sto) (events : t.evl.events = s.evl.events) (lanes : t.lanes = s.lanes)
    (smp : Option.Rel (fun x y : Sampling => x.next = y.next ∧ x.run = y.run) s.smp t.smp) : t.HeldParts where
  form := form
  store := active ▸ h.store.of_like like events
  lanes l k hk := by
    obtain ⟨works, sampling⟩ := h.lanes l k (lanes ▸ hk)
    refine ⟨active.trans works, fun e => sampling ?_⟩
    rw [e] at smp
    cases hs : s.smp with
    | none => rfl
    | some x => rw [hs] at smp; cases smp
  sample y name d hy ha hd := by
    obtain ⟨x, hx, next, run⟩ := rel_some_right smp hy
    obtain ⟨c, hc, same⟩ := rel_some_right (like.capture name) hd
    have ha' := active.symm.trans ha
    have law := h.store
    rw [ha'] at law
    obtain ⟨origin, first⟩ := h.sample x name c hx ha' hc
    refine ⟨by rw [same.origin, origin, next], fun n b hf empty => ?_⟩
    have lawT := law.of_like like events
    obtain ⟨hb, owner, state⟩ := (filling_iff lawT name n b).1 hf
    obtain ⟨b', hb', sameBlock⟩ := rel_some_right (like.blocks n) hb
    have hf' := (filling_iff law name n b').2 ⟨hb', sameBlock.owner.symm.trans owner, sameBlock.filling state⟩
    rw [sameBlock.first, ← next, ← run]
    exact first n b' hf' (sameBlock.records empty)

/-- A change of STO alone, with what the law does not read. -/
theorem of_sto (h : s.HeldParts) (acq : t.acq = s.acq) (smp : t.smp = s.smp) (trg : t.trg.state = s.trg.state)
    (like : s.sto.Like t.sto) (events : t.evl.events = s.evl.events) (lanes : t.lanes = s.lanes) : t.HeldParts :=
  h.of_like (by rw [acq, smp, trg]; exact h.form) (by rw [acq]) like events lanes (smp ▸ rel_refl (fun _ => ⟨rfl, rfl⟩) _)

theorem of_holdings (h : s.HeldParts) (same : t.holdings = s.holdings) : t.HeldParts := by
  obtain ⟨acq, smp, sto, trg, lanes, events⟩ := holdings_eq_iff.1 same
  exact h.of_sto acq smp trg (sto ▸ .refl s.sto) events lanes

/-- A change of ACQ's other fields. -/
theorem setAcq (h : s.HeldParts) {x : Acq} (form : EngineForm x s.smp s.trg.state) (active : x.active = s.acq.active) :
    (s.setAcq x).HeldParts :=
  h.of_like form active (.refl _) rfl rfl (rel_refl (fun _ => ⟨rfl, rfl⟩) _)

theorem modifyCapture (h : s.HeldParts) (name : CapName) {f : Capture → Capture} (hf : ∀ c : Capture, c.Like (f c)) :
    (s.modifyCapture name f).HeldParts := h.of_sto rfl rfl rfl (modify_like _ _ hf) rfl rfl

theorem modifyActive (h : s.HeldParts) {f : Capture → Capture} (hf : ∀ c : Capture, c.Like (f c)) :
    (s.modifyActive f).HeldParts := by
  unfold State.modifyActive
  split
  · exact h.modifyCapture _ hf
  · exact h

end State.HeldParts

/-! ## Requests that leave captures and blocks in kind -/

theorem acceptPlan_heldParts {s : State} (h : s.HeldParts) (p : Port) (plan : Plan) : (s.acceptPlan p plan).HeldParts := by
  refine State.HeldParts.of_holdings (s := s.setAcq { s.acq with plan := plan, gen := s.acq.gen + 1 }) (h.setAcq ?_ rfl) rfl
  exact { h.form with }

theorem planEditAnswer_heldParts {s : State} (h : s.HeldParts) (p : Port) (sec : Byte) (expected : BitVec 32) (contents : List Byte) :
    (planEditAnswer p sec expected contents s).1.HeldParts := by
  have idle : ∀ plan, (s.editIdle p plan).1.HeldParts := fun plan => by
    unfold State.editIdle
    split
    · exact h
    · exact acceptPlan_heldParts h p plan
  have probe : ∀ x, (s.editProbe p x).1.HeldParts := fun x => by
    unfold State.editProbe
    have copied : ((s.acceptPlan p { s.acq.plan with probe := x }).copyThresholds).HeldParts :=
      (acceptPlan_heldParts h p _).of_holdings rfl
    refine copied.modifyActive fun c => ?_
    split
    · exact .refl c
    · exact ⟨rfl, rfl, rfl, rfl, rfl⟩
  have matches_ : ∀ lane entries, (s.editMatch p lane entries).1.HeldParts := fun lane entries => by
    unfold State.editMatch
    split
    · exact h
    · refine (acceptPlan_heldParts h p _).modifyActive fun c => ?_
      split
      · exact .refl c
      · exact ⟨rfl, rfl, rfl, rfl, rfl⟩
  have ranged : ∀ {α : Type} (sec : Section) (r : Except FieldFault α) (f : α → State × Answer), (∀ x, (f x).1.HeldParts) →
      (s.inRangeOr sec r f).1.HeldParts := fun sec r f kept => by
    unfold State.inRangeOr
    split
    · exact h
    · exact kept _
  unfold planEditAnswer
  split
  · exact h
  · split
    · exact h
    · exact ranged _ _ _ fun _ => idle _
    · exact ranged _ _ _ probe
    · exact ranged _ _ _ fun _ => idle _
    · exact ranged _ _ _ fun _ => idle _
    · exact ranged _ _ _ fun x => matches_ x.1 x.2

theorem forceAnswer_heldParts {s : State} (h : s.HeldParts) : (forceAnswer s).1.HeldParts := by
  unfold forceAnswer
  split
  · next e =>
    dsimp only
    split
    · exact h
    · exact h.setAcq { h.form with force := fun _ => .inl e } rfl
  · next e =>
    dsimp only
    split
    · exact h
    · exact h.setAcq { h.form with force := fun _ => .inr e } rfl
  · exact h

theorem retainAnswer_heldParts {s : State} (h : s.HeldParts) (p : Port) (slot : Byte) (num : BitVec 16) :
    (retainAnswer p slot num s).1.HeldParts := by
  unfold retainAnswer
  split
  · exact h
  · split
    · exact h.modifyCapture _ fun _ => ⟨rfl, rfl, rfl, rfl, rfl⟩
    · exact h

theorem releaseAnswer_heldParts {s : State} (h : s.HeldParts) (p : Port) (slot : Byte) (num : BitVec 16) :
    (releaseAnswer p slot num s).1.HeldParts := by
  unfold releaseAnswer
  split
  · exact h
  · split
    · exact h.modifyCapture _ fun _ => ⟨rfl, rfl, rfl, rfl, rfl⟩
    · exact h

theorem noteRead_heldParts {s : State} (h : s.HeldParts) (name : CapName) (e : ReadEntry) : (State.noteRead name s e).HeldParts := by
  unfold State.noteRead
  split
  · exact h
  · exact h.of_sto rfl rfl rfl (.of_same rfl rfl) rfl rfl
  · refine h.of_sto rfl rfl rfl ?_ rfl rfl
    refine Store.Like.trans ?_ (modify_like _ _ fun _ => ⟨rfl, rfl, rfl, rfl, rfl⟩)
    refine Store.Like.trans ?_ (modifyBlock_like _ _ ?_)
    · exact .of_same rfl rfl
    · exact fun _ => ⟨rfl, rfl, rfl, id, id⟩

theorem noteReads_heldParts {s : State} (h : s.HeldParts) (name : CapName) (es : List ReadEntry) :
    (s.noteReads name es).HeldParts := by
  unfold State.noteReads
  induction es generalizing s with
  | nil => exact h
  | cons e rest ih => exact ih (noteRead_heldParts h name e)

theorem readRecordsAnswer_heldParts {s : State} (h : s.HeldParts) (slot : Byte) (num : BitVec 16) (start : BitVec 64) (count : Byte) :
    (readRecordsAnswer slot num start count s).1.HeldParts := by
  unfold readRecordsAnswer
  split
  · exact h
  · split
    · exact h
    · dsimp only
      split
      · exact h
      · exact noteReads_heldParts h _ _

theorem storeHealthAnswer_heldParts {s : State} (h : s.HeldParts) (clear : Byte) : (storeHealthAnswer clear s).1.HeldParts := by
  unfold storeHealthAnswer
  dsimp only
  split
  · exact h.of_sto rfl rfl rfl (.of_same rfl rfl) rfl rfl
  · exact h
  · exact h

theorem storeTestAnswer_heldParts {s : State} (h : s.HeldParts) (kind : Byte) : (storeTestAnswer kind s).1.HeldParts := by
  unfold storeTestAnswer
  split
  · exact h.of_sto rfl rfl rfl (.of_same rfl rfl) rfl rfl
  · exact h.of_sto rfl rfl rfl (.of_same rfl rfl) rfl rfl
  · exact h

theorem dropRetains_like (x : Store) (p : Port) : x.Like (x.dropRetains p) := by
  refine .of_slots rfl fun i => ?_
  show Option.Rel Capture.Like (x.slots.get i) ((x.slots.map _).get i)
  rw [get_map]
  cases x.slots.get i with
  | none => exact .none
  | some c => exact .some ⟨rfl, rfl, rfl, rfl, rfl⟩

theorem portResetAnswer_heldParts {s : State} (h : s.HeldParts) (p : Port) : (portResetAnswer p s).1.HeldParts := by
  have dropped : (s.setSto (s.sto.dropRetains p)).HeldParts := h.of_sto rfl rfl rfl (dropRetains_like _ p) rfl rfl
  exact (dropped.of_holdings (holdings_cancelRender _ p)).of_holdings rfl

theorem losePod_heldParts {s : State} (h : s.HeldParts) (i : Four) (moment : Nat) : (s.losePod i moment).HeldParts := by
  unfold State.losePod
  split
  · next x c hx hc =>
    split
    · extract_lets t
      have lost : t.HeldParts := by
        simp only [t]
        split
        · exact h
        · refine h.of_like ?_ rfl (.refl _) rfl rfl ?_
          · have sampling := h.form.sampling
            rw [hx] at sampling
            refine { h.form with sampling := sampling, first := fun y hy => ?_ }
            cases hy
            exact h.form.first x hx
          · show Option.Rel _ s.smp (some _)
            rw [hx]
            exact .some ⟨rfl, rfl⟩
      refine lost.modifyActive fun c => ?_
      split
      · exact .refl c
      · exact ⟨rfl, rfl, rfl, rfl, rfl⟩
    · exact h
  · exact h

/-! ## The end of a capture -/

/-- With none ACTIVE, the law is that of the store, of an idle engine and of lanes that work for none. -/
theorem heldParts_of_idle {s : State} (form : EngineForm s.acq s.smp s.trg.state) (idle : s.acq.active = none)
    (store : s.storeLaw none) (lanes : ∀ l, (s.lanes.get l).ctx = none) : s.HeldParts where
  form := form
  store := idle ▸ store
  lanes l k hk := by rw [lanes l] at hk; cases hk
  sample x name c _ ha := by rw [idle] at ha; cases ha

/-- ACQ with no capture ACTIVE and SMP STOPPED, TRG in STANDBY. -/
theorem engineForm_idle {x : Acq} (engine : x.engine = .idle) (active : x.active = none) (copy : x.copy = none)
    (armedAt : x.armedAt = none) (postEnd : x.postEnd = none) (force : x.force = none) : EngineForm x none .standby where
  idle := ⟨fun _ => engine, fun _ => active⟩
  copy := by rw [copy, engine]; simp
  sampling := by rw [engine]; simp [Engine.sampling]
  first _ h := nomatch h
  armedAt := by rw [armedAt]; nofun
  force := by rw [force]; nofun
  post := by rw [engine]; nofun
  postEnd := by rw [postEnd]; nofun
  state := by rw [engine]; rfl

theorem release_engineForm (x : Acq) : EngineForm x.release none .standby := engineForm_idle rfl rfl rfl rfl rfl rfl

theorem execNrst_heldParts {s t : State} (h : execNrst s = .next t) : t.HeldParts := by
  cases h
  refine heldParts_of_idle (engineForm_idle rfl rfl rfl rfl rfl rfl) rfl ?_ fun l => ?_
  · exact Store.Lawful.empty rfl rfl
  · show ((Quad.all Lane.reset).get l).ctx = none
    rw [quad_get_all]
    rfl

theorem reset_heldParts : State.reset.HeldParts := by
  refine heldParts_of_idle (engineForm_idle rfl rfl rfl rfl rfl rfl) rfl ?_ fun l => ?_
  · exact Store.Lawful.empty rfl rfl
  · show ((Quad.all Lane.reset).get l).ctx = none
    rw [quad_get_all]
    rfl

theorem engineReset_heldParts (s : State) (p : Port) : (s.engineReset p).HeldParts := by
  unfold State.engineReset
  extract_lets s1 s2 s3 s4
  have cleared : s3.HeldParts := by
    refine heldParts_of_idle (engineForm_idle rfl rfl rfl rfl rfl rfl) rfl ?_ fun l => ?_
    · exact Store.Lawful.empty rfl rfl
    · show ((Quad.all Lane.reset).get l).ctx = none
      rw [quad_get_all]
      rfl
  have rendered : s4.HeldParts := (cleared.of_holdings (holdings_resetRender _ .a)).of_holdings (holdings_resetRender _ .b)
  exact rendered.of_holdings rfl

theorem engineResetAnswer_heldParts {s : State} (h : s.HeldParts) (p : Port) : (engineResetAnswer p s).1.HeldParts := by
  unfold engineResetAnswer
  split
  · exact engineReset_heldParts s p
  · exact h

theorem turnOff_ctx (s : State) (l : Four) : (s.lanesOut.lanes.get l).ctx = none := by
  show ((s.lanes.map Lane.turnOff).get l).ctx = none
  rw [get_map]
  rfl

/-- The law of the store once the ACTIVE capture is removed. -/
theorem removeActive_storeLaw {s : State} {name : CapName} (law : s.storeLaw (some name)) :
    (s.removeCapture name.slot).storeLaw none := by
  obtain ⟨c, hc, -⟩ := law.activeHeld name rfl
  obtain ⟨slot, num⟩ := slots_of_capture hc
  have removed := removeCapture_storeLaw law slot
  rw [num] at removed
  rwa [if_pos rfl] at removed

theorem discardActive_heldParts {s : State} (h : s.HeldParts) : s.discardActive.HeldParts := by
  unfold State.discardActive
  extract_lets s1 s2
  have sto : s1.storeLaw s.acq.active := h.store
  have kept : KeepsCore s1 s2 ∧ s2.storeLaw none := by
    simp only [s2]
    have acq : s1.acq.active = s.acq.active := rfl
    rw [acq]
    cases ha : s.acq.active with
    | none => rw [ha] at sto; exact ⟨.rfl' s1, sto⟩
    | some name => rw [ha] at sto; exact ⟨removeCapture_keeps s1 _, removeActive_storeLaw sto⟩
  obtain ⟨core, store⟩ := kept
  refine heldParts_of_idle ?_ rfl store fun l => ?_
  · show EngineForm _ s2.smp s2.trg.state
    rw [core.smp, core.trg]
    exact engineForm_idle rfl rfl rfl rfl rfl rfl
  · show (s2.lanes.get l).ctx = none
    rw [core.lanes]
    exact turnOff_ctx _ l

theorem abortAnswer_heldParts {s : State} (h : s.HeldParts) : (abortAnswer s).1.HeldParts := by
  unfold abortAnswer
  split
  · exact h
  · have marked : (s.modifyActive fun c => { c with discard := true }).HeldParts := h.modifyActive fun _ => ⟨rfl, rfl, rfl, rfl, rfl⟩
    have core := modifyActive_keeps s fun c => { c with discard := true }
    refine marked.setAcq ?_ ?_
    · rw [core.smp, core.trg]
      exact { h.form with }
    · exact (congrArg Acq.active core.acq).symm
  · exact (discardActive_heldParts h).of_holdings rfl

/-! ## Arming (R37, R60 to R63) -/

theorem reclaim_heldParts {s t : State} (h : s.HeldParts) (hr : s.reclaim = some t) : t.HeldParts := by
  have core := reclaim_keeps hr
  have store := reclaim_storeLaw h.store hr
  refine ⟨?_, by rw [core.acq]; exact store, fun l k hk => ?_, fun x name c hx ha hc => ?_⟩
  · rw [core.acq, core.smp, core.trg]
    exact h.form
  · rw [core.acq, core.smp]
    exact h.lanes l k (core.lanes ▸ hk)
  · rw [core.smp] at hx
    rw [core.acq] at ha
    have law := h.store
    rw [ha] at law
    rw [reclaim_capture law hr] at hc
    obtain ⟨d, hd, incomplete⟩ := law.activeHeld name rfl
    rw [filling_of_owned ((reclaim_active name hr).owned d hd incomplete)]
    exact h.sample x name c hx ha hc

theorem secureBlock_heldParts {fuel : Nat} {s : State} {r : State × Nat} (h : s.HeldParts) (hr : State.secureBlock fuel s = some r) :
    r.1.HeldParts ∧ r.1.sto.lowestFree = some r.2 := by
  induction fuel generalizing s with
  | zero =>
    unfold State.secureBlock at hr
    split at hr
    · next free => cases hr; exact ⟨h, free⟩
    · cases hr
  | succ n ih =>
    unfold State.secureBlock at hr
    split at hr
    · next free => cases hr; exact ⟨h, free⟩
    · split at hr
      · next hf hre => cases hf; exact ih (reclaim_heldParts h hre) hr
      · cases hr

/-- What is secured for a new capture (R37): an EMPTY slot and the lowest FREE block. -/
theorem secure_heldParts {s u : State} {i : Four} {n : Nat} (h : s.HeldParts) (hs : s.secure = some (u, i, n)) :
    u.HeldParts ∧ u.sto.slots.get i = none ∧ u.sto.lowestFree = some n := by
  obtain ⟨-, empty⟩ := secure_retainStays (name := ⟨0, 0⟩) (q := .a) hs
  have kept : u.HeldParts ∧ u.sto.lowestFree = some n := by
    unfold State.secure at hs
    split at hs
    · obtain ⟨r, hr, e⟩ := Option.map_eq_some_iff.1 hs
      cases e
      exact secureBlock_heldParts h hr
    · split at hs
      · next hre =>
        obtain ⟨r, hr, e⟩ := Option.map_eq_some_iff.1 hs
        cases e
        exact secureBlock_heldParts (reclaim_heldParts h hre) hr
      · cases hs
  exact ⟨kept.1, empty, kept.2⟩

theorem completeArm_heldParts {s : State} (h : s.HeldParts) (idle : s.acq.engine = .idle) {i : Four} {n : Nat}
    (empty : s.sto.slots.get i = none) (free : s.sto.lowestFree = some n) : (s.completeArm i n).HeldParts := by
  have law := h.store
  rw [h.form.idle.2 idle] at law
  have armed : (s.completeArm i n).storeLaw (some ⟨i, s.sto.nextNum⟩) :=
    Store.Lawful.arm (c := s.newCapture n) law empty (lowestFreeFrom_free free) (lowestFree_lt free) rfl rfl rfl rfl rfl rfl
  have smp : (s.completeArm i n).smp = some (Sampling.mk s.acq.plan.acq.div s.acq.plan.acq.mask s.timebase none 0 [] none none) := rfl
  have capture : (s.completeArm i n).sto.capture ⟨i, s.sto.nextNum⟩ = some (s.newCapture n) :=
    capture_of_slots_set (name := ⟨i, s.sto.nextNum⟩) (x := s.sto) rfl rfl
  refine ⟨⟨⟨nofun, nofun⟩, ⟨nofun, fun _ => rfl⟩, ⟨fun _ => rfl, fun _ => rfl⟩, fun _ _ _ => rfl, nofun, nofun, nofun, nofun, rfl⟩,
    armed, fun l k hk => ?_, fun x name c hx ha hc => ?_⟩
  · have worker : ((s.completeArm i n).lanes.get l).ctx = (Lane.atArm (s.acq.plan.lanes.get l) ⟨i, s.sto.nextNum⟩).ctx := by
      show ((s.acq.plan.lanes.map fun cfg => Lane.atArm cfg _).get l).ctx = _
      rw [get_map]
    rw [worker] at hk
    cases hk
    exact ⟨rfl, by rw [smp]; exact Option.some_ne_none _⟩
  · rw [smp] at hx
    cases hx
    cases ha
    rw [capture] at hc
    cases hc
    refine ⟨⟨fun _ => rfl, fun _ => rfl⟩, fun m b hf _ => ?_⟩
    obtain ⟨hb, -, filling⟩ := (filling_iff armed _ m b).1 hf
    by_cases e : m = n
    · subst e
      rw [show lookupBlock (s.completeArm i m).sto.blocks m = some (Block.mk .filling ⟨i, s.sto.nextNum⟩ 0 false none []) from
        lookupBlock_insertBlock _ _ _] at hb
      cases hb
      exact ⟨rfl, rfl⟩
    · have old : lookupBlock (s.completeArm i n).sto.blocks m = lookupBlock s.sto.blocks m := lookupBlock_insertBlock_ne _ _ e
      cases law.filling m b (old ▸ hb) filling

theorem armSteps_heldParts {s t : State} {name : CapName} (h : s.HeldParts) (idle : s.acq.engine = .idle)
    (armed : s.armSteps = .ok (t, name)) : t.HeldParts := by
  unfold State.armSteps at armed
  split at armed
  · cases armed
  · split at armed
    · cases armed
    · split at armed
      · cases armed
      · next hs =>
        cases armed
        obtain ⟨kept, empty, free⟩ := secure_heldParts h hs
        exact completeArm_heldParts kept ((congrArg Acq.engine (secure_keeps hs).acq).trans idle) empty free

theorem armAnswer_heldParts {s : State} (h : s.HeldParts) : (armAnswer s).1.HeldParts := by
  unfold armAnswer
  split
  · exact h
  · next idle =>
    split
    · exact h
    · next t name armed =>
      have kept := armSteps_heldParts h (not_not.1 idle) armed
      exact kept.setAcq { kept.form with } rfl

/-! ## The final write (R44, R71, R74, R75) -/

theorem rearm_heldParts {s : State} (h : s.HeldParts) (idle : s.acq.engine = .idle) : s.rearm.HeldParts := by
  unfold State.rearm
  split
  · next armed =>
    have kept := armSteps_heldParts h idle armed
    exact kept.setAcq { kept.form with } rfl
  · exact (h.setAcq (x := { s.acq with repeatFlag := false, halt := _ }) { h.form with } rfl).of_holdings rfl

/-- Sealing the ACTIVE capture's FILLING block, if it has one, is a change in kind and leaves no block FILLING. -/
theorem sealFilling_like {s : State} {name : CapName} (law : s.storeLaw (some name)) :
    s.sto.Like (s.sealFilling name).sto ∧ (s.sealFilling name).sto.noFilling := by
  unfold State.sealFilling
  cases hf : s.sto.filling name with
  | none =>
    refine ⟨.refl _, fun k b hb state => ?_⟩
    have owner := Option.some.inj (law.filling k b hb state)
    rw [(filling_iff law name k b).2 ⟨hb, owner.symm, state⟩] at hf
    cases hf
  | some f => exact ⟨seal_like _ _, seal_noFilling law hf⟩

theorem finishWrite_heldParts {s : State} (h : s.HeldParts) (stopping : s.acq.engine = .stopping) : s.finishWrite.HeldParts := by
  cases ha : s.acq.active with
  | none => exact absurd ((h.form.idle.1 ha).symm.trans stopping) nofun
  | some name =>
    have law := h.store
    rw [ha] at law
    obtain ⟨c, hc, -⟩ := law.activeHeld name rfl
    obtain ⟨only, sto⟩ := sealed_facts s name
    have core := sealFilling_keeps s name
    obtain ⟨like, noFilling⟩ := sealFilling_like law
    have smp : s.smp = none := by
      rw [← Option.not_isSome_iff_eq_none, h.form.sampling, stopping]
      nofun
    have trg : s.trg.state = .standby := by rw [h.form.state, stopping]; rfl
    have lanes : ∀ l, (s.lanes.get l).ctx = none := fun l => by
      cases hk : (s.lanes.get l).ctx with
      | none => rfl
      | some k => exact absurd smp (h.lanes l k hk).2
    rw [finish_eq s name c ha hc]
    generalize s.sealFilling name = u at only sto core like noFilling
    have sealedLaw : u.storeLaw (some name) := law.of_like like (by rw [only]; rfl)
    have captured : u.sto.capture name = some c := by rw [sto]; exact hc
    -- what follows in ACQ, SMP, TRG and the lanes is the same, whether the capture is removed or COMPLETE
    have released : ∀ {v : State}, KeepsCore u v → v.storeLaw none → (v.setAcq v.acq.release).HeldParts := by
      intro v k store
      refine heldParts_of_idle ?_ rfl store fun l => ?_
      · show EngineForm _ v.smp v.trg.state
        rw [k.smp, k.trg, core.smp, core.trg, smp, trg]
        exact release_engineForm _
      · show (v.lanes.get l).ctx = none
        rw [k.lanes, core.lanes]
        exact lanes l
    dsimp only
    split
    · exact (released (removeCapture_keeps u name.slot) (removeActive_storeLaw sealedLaw)).of_holdings rfl
    · have completed : (u.modifyCapture name fun c => { c with complete := true }).storeLaw none := by
        rw [modifyCapture_eq captured]
        exact Store.Lawful.complete sealedLaw captured noFilling
      have ended := released (modifyCapture_keeps u name fun c => { c with complete := true }) completed
      split
      · exact rearm_heldParts (ended.of_holdings rfl) rfl
      · exact ended.of_holdings rfl

end Sys2Proof.Machine
end

section
/-! SUPPORT. The law of held events along a sample (R21 to R26, R64 to R68), and its proof for every step. -/

namespace Sys2Proof.Machine

open Sys2Proof

/-! ## What delivery keeps of the ACTIVE capture -/

/-- The capture is ACTIVE with an origin, the store is lawful, and the lanes work for the capture. -/
structure State.Ready (s : State) (name : CapName) : Prop where
  active : s.acq.active = some name
  store : s.storeLaw (some name)
  origin : s.hasOrigin name
  lanes : ∀ l, (s.lanes.get l).worksFor name

/-- A part of the sample step that keeps `State.Ready`, and records in the FILLING block. -/
def ReadyKept (name : CapName) (s t : State) : Prop :=
  s.Ready name → t.Ready name ∧ (s.sto.recorded name → t.sto.recorded name)

namespace ReadyKept

variable {name : CapName} {s t u : State}

theorem refl (s : State) : ReadyKept name s s := fun h => ⟨h, id⟩

theorem trans (h : ReadyKept name s t) (k : ReadyKept name t u) : ReadyKept name s u := fun r =>
  ⟨(k (h r).1).1, (k (h r).1).2 ∘ (h r).2⟩

theorem of_like (active : t.acq.active = s.acq.active) (like : s.sto.Like t.sto) (events : t.evl.events = s.evl.events)
    (lanes : ∀ l, (s.lanes.get l).worksFor name → (t.lanes.get l).worksFor name) : ReadyKept name s t := by
  intro h
  have store := h.store.of_like like events
  refine ⟨⟨active.trans h.active, store, ?_, fun l => lanes l (h.lanes l)⟩, fun recorded n d hd empty => ?_⟩
  · obtain ⟨c, o, hc, origin⟩ := h.origin
    obtain ⟨d, hd, same⟩ := rel_some_left (like.capture name) hc
    exact ⟨d, o, hd, same.origin.trans origin⟩
  · obtain ⟨hb, owner, state⟩ := (filling_iff store name n d).1 hd
    obtain ⟨b, hb', same⟩ := rel_some_right (like.blocks n) hb
    exact recorded n b ((filling_iff h.store name n b).2 ⟨hb', same.owner.symm.trans owner, same.filling state⟩) (same.records empty)

theorem of_sto (active : t.acq.active = s.acq.active) (sto : t.sto = s.sto) (events : t.evl.events = s.evl.events)
    (lanes : t.lanes = s.lanes) : ReadyKept name s t :=
  of_like active (sto ▸ .refl s.sto) events fun _ h => lanes ▸ h

end ReadyKept

/-- The declaration changes the ACTIVE capture's trigger fields, ACQ, TRG's state, the notices and the pulses (R66, R99). -/
theorem declare_eq (s : State) (source : TrigSource) (t : Nat) : ∃ f : Capture → Capture, (∀ c : Capture, c.Like (f c)) ∧ ∃ stop : Nat,
    s.declare source t = (State.setTrg ((((s.modifyActive f).setAcq { (s.modifyActive f).acq with
      postEnd := some stop, force := none, engine := .triggered, armedAt := none }).raiseBoth .engineState).raiseBoth .triggered)
      { (s.modifyActive f).trg with state := .declared, pendingEntry := none }).beginPulse := by
  cases ha : s.acq.active with
  | none =>
    refine ⟨id, .refl, t + (s.acq.copy.map AcqPlan.post).getD 0, ?_⟩
    unfold State.declare State.modifyActive
    simp only [ha]
    rfl
  | some name =>
    refine ⟨fun c => { c with
      trigTime := some t, trigSource := some source, trigBlock := (s.sto.filling name).map Prod.fst
      shortPre := c.shortPre || (s.acq.force = some .arming && source = .force) }, fun _ => ⟨rfl, rfl, rfl, rfl, rfl⟩, t + (s.acq.copy.map AcqPlan.post).getD 0, ?_⟩
    unfold State.declare State.modifyActive
    simp only [ha]
    rfl

section

variable (name : CapName)

theorem setTrg_readyKept (s : State) (x : Trg) : ReadyKept name s (s.setTrg x) := .of_sto rfl rfl rfl rfl

theorem beginPulse_readyKept (s : State) : ReadyKept name s s.beginPulse := by
  unfold State.beginPulse
  dsimp only
  split
  · exact .refl s
  · exact setTrg_readyKept name s _

theorem request_worksFor {x : Lane} {name : CapName} (h : x.worksFor name) (hold : Bool) (n : Nat) :
    (x.request hold n).worksFor name := by
  unfold Lane.request
  split <;> exact h

theorem stageActions_readyKept (s : State) (a : StageActions) (n : Nat) : ReadyKept name s (s.stageActions a n) := by
  unfold State.stageActions
  extract_lets s1 s2
  have h1 : ReadyKept name s s1 := by
    simp only [s1]
    split
    · exact .of_sto rfl rfl rfl rfl
    · exact .refl s
  have h2 : ReadyKept name s1 s2 := by
    refine .of_like rfl (.refl _) rfl fun l h => ?_
    simp only [s2, State.setLanes_lanes, requestLanes, get_numbered]
    split <;> split
    · exact request_worksFor (request_worksFor h _ _) _ _
    · exact request_worksFor h _ _
    · exact request_worksFor h _ _
    · exact h
  split
  · exact (h1.trans h2).trans (beginPulse_readyKept name s2)
  · exact h1.trans h2

theorem modifyCapture_readyKept (s : State) (nm : CapName) {f : Capture → Capture} (hf : ∀ c : Capture, c.Like (f c)) :
    ReadyKept name s (s.modifyCapture nm f) := .of_like rfl (modify_like _ _ hf) rfl fun _ => id

theorem modifyActive_readyKept (s : State) {f : Capture → Capture} (hf : ∀ c : Capture, c.Like (f c)) :
    ReadyKept name s (s.modifyActive f) := by
  unfold State.modifyActive
  split
  · exact modifyCapture_readyKept name s _ hf
  · exact .refl s

theorem declare_readyKept (s : State) (source : TrigSource) (t : Nat) : ReadyKept name s (s.declare source t) := by
  obtain ⟨f, hf, stop, e⟩ := declare_eq s source t
  rw [e]
  have recorded := modifyActive_readyKept name s hf
  generalize s.modifyActive f = u at recorded
  have told : ReadyKept name u (((u.setAcq { u.acq with
      postEnd := stop, force := none, engine := .triggered, armedAt := none }).raiseBoth .engineState).raiseBoth .triggered) :=
    .of_sto rfl rfl rfl rfl
  exact ((recorded.trans told).trans (setTrg_readyKept name _ _)).trans (beginPulse_readyKept name _)

theorem enterArmed_readyKept (s : State) : ReadyKept name s s.enterArmed := .of_sto rfl rfl rfl rfl

/-- Handing on a sample's events counts them, and enters them under the capture's name (R112, R129, R138). -/
theorem handOn_readyKept (s : State) {lanes : Quad Lane} (works : s.Ready name → ∀ l, (lanes.get l).worksFor name)
    (out : Quad (List Emission)) (n : Nat) : ReadyKept name s (s.handOn lanes out n).1 := by
  intro h
  obtain ⟨c, hc, incomplete⟩ := h.store.activeHeld name rfl
  have facts := handOn_facts s lanes out n name c h.active hc incomplete
  obtain ⟨d, hd, record⟩ := facts.capture
  refine ⟨⟨by rw [facts.acq]; exact h.active, ?_, ?_, fun l => ?_⟩, fun recorded m b hf => ?_⟩
  · unfold State.handOn
    extract_lets fx
    have handed : (s.setLanes (lanesAfter lanes fx n)).Ready name :=
      ⟨h.active, h.store, h.origin, fun l => lanesAfter_worksFor (works h) fx n l⟩
    obtain ⟨counted, -⟩ := modifyActive_readyKept name (s.setLanes (lanesAfter lanes fx n)) (f := fun c => c.countLanes fx)
      (fun _ => ⟨rfl, rfl, rfl, rfl, rfl⟩) handed
    have told : (((s.setLanes (lanesAfter lanes fx n)).modifyActive fun c => c.countLanes fx).noteMatches fx).Ready name := by
      unfold State.noteMatches
      split
      · refine (ReadyKept.of_sto ?_ ?_ ?_ ?_ counted).1 <;> rfl
      · exact counted
    refine enterAll_storeLaw _ told.store told.origin fun i e he => ?_
    rw [get_map] at he
    exact allEffects_cap s (works h) out i e he
  · obtain ⟨c', o, hc', origin⟩ := h.origin
    rw [hc] at hc'
    cases hc'
    exact ⟨d, o, hd, by rw [record]; exact origin⟩
  · rw [facts.lanes_]
    exact lanesAfter_worksFor (works h) _ n l
  · rw [filling_of_owned facts.owned] at hf
    exact recorded m b hf

theorem lanesSample_readyKept (s : State) (D : Nat) (it : SampleItem) : ReadyKept name s (s.lanesSample D it).1 := by
  refine handOn_readyKept name s (fun h l => ?_) _ _
  rw [get_map]
  unfold State.lanesHandle
  rw [get_numbered]
  exact laneHandle_worksFor l (h.lanes l) D it

theorem lanesOut_readyKept (s : State) : ReadyKept name s s.lanesOut :=
  .of_like rfl (.refl _) rfl fun l _ k hk => by rw [turnOff_ctx s l] at hk; cases hk

theorem stopped_readyKept (s : State) (why : EndReason) : ReadyKept name s (s.stopped why) := by
  unfold State.stopped
  have ended : ReadyKept name s ((s.modifyActive fun c => { c with endReason := some why }).setTrg s.trg.toStandby) :=
    by
    refine ReadyKept.trans (modifyActive_readyKept name s ?_) (setTrg_readyKept name _ _)
    exact fun _ => ⟨rfl, rfl, rfl, rfl, rfl⟩
  refine ended.trans ?_
  generalize (s.modifyActive fun c => { c with endReason := some why }).setTrg s.trg.toStandby = u
  have cut : ReadyKept name u (u.lanesStop (s.lastRaw.getD 0) s.lastTaken) :=
    (handOn_readyKept name u (fun h => h.lanes) _ _).trans (lanesOut_readyKept name _)
  exact cut.trans (.of_sto rfl rfl rfl rfl)

/-! ## The engine along a sample (R58, R64 to R67, R81) -/

/-- A sample is held, and the engine stands as R58 lays down. -/
structure State.Sampled (s : State) : Prop where
  form : EngineForm s.acq s.smp s.trg.state
  smp : ∃ x, s.smp = some x ∧ x.next ≠ 0

end

theorem State.Sampled.of_same {s t : State} (h : s.Sampled) (acq : t.acq = s.acq) (smp : t.smp = s.smp)
    (trg : t.trg.state = s.trg.state) : t.Sampled :=
  ⟨by rw [acq, smp, trg]; exact h.form, smp ▸ h.smp⟩

theorem beginPulse_sampled {s : State} (h : s.Sampled) : s.beginPulse.Sampled := by
  unfold State.beginPulse
  dsimp only
  split
  · exact h
  · exact h.of_same rfl rfl rfl

theorem stageActions_sampled {s : State} (h : s.Sampled) (a : StageActions) (n : Nat) : (s.stageActions a n).Sampled := by
  unfold State.stageActions
  extract_lets s1 s2
  have h1 : s1.Sampled := by
    simp only [s1]
    split
    · exact h.of_same rfl rfl rfl
    · exact h
  have h2 : s2.Sampled := h1.of_same rfl rfl rfl
  split
  · exact beginPulse_sampled h2
  · exact h2

theorem State.Sampled.sampling {s : State} (h : s.Sampled) : s.acq.engine.sampling = true := by
  obtain ⟨x, hx, -⟩ := h.smp
  exact h.form.sampling.1 (by rw [hx]; rfl)

theorem State.Sampled.active {s : State} (h : s.Sampled) : s.acq.active ≠ none := fun e => by
  have idle := h.sampling
  rw [h.form.idle.1 e] at idle
  cases idle

theorem declare_sampled {s : State} (h : s.Sampled) (source : TrigSource) (t : Nat) : (s.declare source t).Sampled := by
  obtain ⟨f, -, stop, e⟩ := declare_eq s source t
  rw [e]
  have core := modifyActive_keeps s f
  have same : (s.modifyActive f).Sampled := h.of_same core.acq core.smp (by rw [core.trg])
  generalize s.modifyActive f = u at same
  have form := same.form
  have running : u.acq.engine ≠ .idle := fun e => same.active (form.idle.2 e)
  have triggered : EngineForm { u.acq with postEnd := some stop, force := none, engine := .triggered, armedAt := none } u.smp
      .declared := by
    refine ⟨iff_of_false same.active nofun, iff_of_true (form.copy.2 running) nofun, iff_of_true (form.sampling.2 same.sampling) rfl,
      fun y hy zero => ?_, nofun, nofun, fun _ => rfl, fun _ => .inl rfl, rfl⟩
    obtain ⟨x, hx, later⟩ := same.smp
    cases hx.symm.trans hy
    exact absurd zero later
  exact beginPulse_sampled ⟨triggered, same.smp⟩

theorem seek_sampled {s : State} (h : s.Sampled) (o : Observed) : (s.seek o).1.Sampled := by
  unfold State.seek
  split
  · exact h
  · extract_lets v trg s1 s2 came
    have h2 : s2.Sampled := by
      have h1 : s1.Sampled := h.of_same rfl rfl rfl
      simp only [s2]
      split
      · exact stageActions_sampled h1 _ _
      · exact h1
    split
    · exact declare_sampled h2 _ _
    · split
      · dsimp only
        split
        · exact declare_sampled h2 _ _
        · exact h2
      · exact h2

theorem enterArmed_sampled {s : State} (h : s.Sampled) (arming : s.acq.engine = .arming) : s.enterArmed.Sampled := by
  refine ⟨?_, h.smp⟩
  have form := h.form
  refine ⟨iff_of_false h.active nofun, iff_of_true (form.copy.2 (by rw [arming]; nofun)) nofun,
    iff_of_true (form.sampling.2 h.sampling) rfl, fun y hy zero => ?_, nofun, fun _ => .inr rfl, nofun, fun post => ?_, rfl⟩
  · obtain ⟨x, hx, later⟩ := h.smp
    cases hx.symm.trans hy
    exact absurd zero later
  · obtain e | e := form.postEnd post <;> cases arming.symm.trans e

theorem trgSample_sampled {s : State} (h : s.Sampled) (it : SampleItem) (offers : List (Four × Nat)) :
    (s.trgSample it offers).1.Sampled := by
  unfold State.trgSample
  extract_lets history r s1 o
  have observed : s1.Sampled := h.of_same rfl rfl rfl
  split
  · next arming =>
    split
    · exact declare_sampled observed _ _
    · split
      · split
        · exact seek_sampled (enterArmed_sampled observed arming) o
        · exact observed
      · exact observed
  · exact seek_sampled observed o
  · exact observed

end Sys2Proof.Machine
end

section
/-! SUPPORT. The law of held events on every sample and along every step: the proof of its statement (O8). -/

namespace Sys2Proof.Machine

open Sys2Proof

/-! ## The entry to STOPPING (R70) -/

/-- The entry to STOPPING, from any state of SAMPLING whose capture has an origin. -/
theorem enterStopping_heldParts {s : State} {name : CapName} (ready : s.Ready name) (form : EngineForm s.acq s.smp s.trg.state)
    (why : EndReason) : (s.enterStopping why).HeldParts := by
  obtain ⟨c, hc, incomplete⟩ := ready.store.activeHeld name rfl
  have facts := stopped_facts ready.active hc incomplete why
  obtain ⟨after, -⟩ := stopped_readyKept name s why ready
  have engine : (s.stopped why).acq.engine = .stopping := by rw [facts.acq]
  have parts : (s.stopped why).HeldParts := by
    refine ⟨?_, after.active ▸ after.store, fun l k hk => ?_, fun x _ _ hx => ?_⟩
    · rw [facts.acq, facts.smp, facts.trg]
      have active : s.acq.active ≠ none := by rw [ready.active]; exact Option.some_ne_none _
      have running : s.acq.engine ≠ .idle := fun e => active (form.idle.2 e)
      exact ⟨iff_of_false active nofun, iff_of_true (form.copy.2 running) nofun, iff_of_false nofun nofun, nofun, nofun, nofun, nofun,
        fun _ => .inr rfl, rfl⟩
    · rw [facts.lanes l] at hk
      cases hk
    · rw [facts.smp] at hx
      cases hx
  rw [enterStopping_eq]
  unfold State.beginFinalWrite
  split
  · split
    · exact finishWrite_heldParts parts engine
    · exact parts
  · exact parts

/-! ## A sample (R21 to R26, R64 to R68) -/

/-- Once a sample is held and its record stands in the FILLING block, the law holds. -/
theorem heldParts_of_sampled {s : State} {name : CapName} (ready : s.Ready name) (recorded : s.sto.recorded name)
    (sampled : s.Sampled) : s.HeldParts := by
  obtain ⟨x, hx, later⟩ := sampled.smp
  refine ⟨sampled.form, ready.active ▸ ready.store, fun l k hk => ⟨?_, by rw [hx]; exact Option.some_ne_none x⟩,
    fun y nm c hy ha hc => ?_⟩
  · rw [ready.lanes l k hk]
    exact ready.active
  · cases hx.symm.trans hy
    cases ready.active.symm.trans ha
    obtain ⟨c', o, hc', origin⟩ := ready.origin
    cases hc.symm.trans hc'
    refine ⟨iff_of_false (by rw [origin]; exact Option.some_ne_none o) later, fun n b hf empty => absurd empty (recorded n b hf)⟩

theorem postTest_heldParts {s : State} {name : CapName} (ready : s.Ready name) (recorded : s.sto.recorded name) (sampled : s.Sampled)
    (raw : Nat) (came : List Happening) : (s.postTest raw came).1.HeldParts := by
  unfold State.postTest
  split
  · split
    · exact enterStopping_heldParts ready sampled.form .postDone
    · exact heldParts_of_sampled ready recorded sampled
  · exact heldParts_of_sampled ready recorded sampled

theorem deliver_heldParts {s : State} {name : CapName} (ready : s.Ready name) (recorded : s.sto.recorded name) (sampled : s.Sampled)
    (D : Nat) (it : SampleItem) : (s.deliver D it).1.HeldParts := by
  obtain ⟨c, hc, incomplete⟩ := ready.store.activeHeld name rfl
  obtain ⟨ready1, recorded1⟩ := lanesSample_readyKept name s D it ready
  have sampled1 : (s.lanesSample D it).1.Sampled := by
    have facts := handOn_facts s ((s.lanesHandle D it).map fun x => x.1) ((s.lanesHandle D it).map fun x => x.2.1) it.index name c
      ready.active hc incomplete
    exact sampled.of_same facts.acq facts.smp (congrArg Trg.state facts.trg)
  unfold State.deliver
  extract_lets r v
  split
  · have observed : (r.1.observe it).1.Sampled := sampled1.of_same rfl rfl rfl
    exact enterStopping_heldParts (setTrg_readyKept name r.1 _ ready1).1 observed.form .stopTaken
  · have evaluated : v.1.Sampled := trgSample_sampled sampled1 it _
    have kept : ReadyKept name r.1 v.1 := trgSample_keeps ReadyKept.refl ReadyKept.trans (setTrg_readyKept name)
      (stageActions_readyKept name) (declare_readyKept name) (enterArmed_readyKept name) r.1 it r.2.1
    obtain ⟨ready2, recorded2⟩ := kept ready1
    exact postTest_heldParts ready2 (recorded2 (recorded1 recorded)) evaluated _ _

/-- Sample 0 gives the capture its origin; a later sample finds it set (R21). -/
theorem setOrigin_ready {s : State} (h : s.HeldParts) {x : Sampling} {name : CapName} (hx : s.smp = some x)
    (ha : s.acq.active = some name) : (s.setOrigin x).Ready name ∧ EngineForm (s.setOrigin x).acq (some x) (s.setOrigin x).trg.state ∧
      (s.setOrigin x).sto.blocks = s.sto.blocks := by
  have law := h.store
  rw [ha] at law
  obtain ⟨c, hc, incomplete⟩ := law.activeHeld name rfl
  obtain ⟨origin, -⟩ := h.sample x name c hx ha hc
  have works : ∀ l, (s.lanes.get l).worksFor name := fun l k hk => by
    obtain ⟨active, -⟩ := h.lanes l k hk
    exact Option.some.inj (active.symm.trans ha)
  have form := h.form
  rw [hx] at form
  by_cases zero : x.next = 0
  · have num : c.num = name.num := (slots_of_capture hc).2
    rw [setOrigin_eq s x name c ha hc, if_pos zero]
    refine ⟨⟨ha, ?_, ?_, works⟩, ?_, rfl⟩
    · exact Store.Lawful.set_origin law hc (origin.2 zero) (d := { c with origin := some x.nextRaw }) rfl rfl rfl rfl rfl
    · exact ⟨{ c with origin := some x.nextRaw }, x.nextRaw, capture_set (x := s.sto) num, rfl⟩
    · exact { form with armedAt := fun _ => form.first x rfl zero }
  · rw [setOrigin_later s zero]
    obtain ⟨o, ho⟩ := Option.ne_none_iff_exists'.1 (zero ∘ origin.1)
    exact ⟨⟨ha, law, ⟨c, o, hc, ho⟩, works⟩, form, rfl⟩

theorem takeSample_heldParts {s : State} (h : s.HeldParts) (w : ChannelWord) : (s.takeSample w).1.HeldParts := by
  cases hx : s.smp with
  | none => unfold State.takeSample; rw [hx]; exact h
  | some x =>
    cases ha : s.acq.active with
    | none => unfold State.takeSample; rw [hx, ha]; exact h
    | some name =>
      have arrived : (s.advanceTo x.nextRaw).HeldParts := h.of_holdings rfl
      obtain ⟨ready, form, blocks⟩ := setOrigin_ready arrived hx ha
      rw [takeSample_eq s x name w hx ha]
      have first : ∀ n b, ((s.advanceTo x.nextRaw).setOrigin x).sto.filling name = some (n, b) → b.records = [] →
          b.first = x.next ∧ x.run = none := fun n b hf => by
        have law := h.store
        rw [ha] at law
        obtain ⟨c, hc, -⟩ := law.activeHeld name rfl
        rw [filling_of_blocks blocks] at hf
        exact (h.sample x name c hx ha hc).2 n b hf
      have smp : ((s.advanceTo x.nextRaw).setOrigin x).smp = some x := by
        unfold State.setOrigin
        split
        · exact (modifyActive_keeps _ _).smp.trans hx
        · exact hx
      generalize (s.advanceTo x.nextRaw).setOrigin x = u at *
      obtain ⟨store, recorded, origin⟩ := holdSample_storeLaw ready.store first (x.nextWord w)
      have core := holdSample_keeps u x name (x.nextWord w)
      generalize u.holdSample x name (x.nextWord w) = r at *
      have held : r.1.Ready name := ⟨by rw [core.acq]; exact ready.active, store, origin ready.origin,
        fun l => by rw [core.lanes]; exact ready.lanes l⟩
      split
      · have sampled : (r.1.setSmp (some (x.held (x.nextWord w)))).Sampled := by
          refine ⟨?_, _, rfl, Nat.succ_ne_zero x.next⟩
          rw [← core.acq, ← core.trg] at form
          exact { form with first := fun y hy zero => by cases hy; exact absurd zero (Nat.succ_ne_zero x.next) }
        have ready' : (r.1.setSmp (some (x.held (x.nextWord w)))).Ready name := ⟨held.active, held.store, held.origin, held.lanes⟩
        have recorded' : (r.1.setSmp (some (x.held (x.nextWord w)))).sto.recorded name := recorded
        exact deliver_heldParts ready' recorded' sampled _ _
      · refine enterStopping_heldParts held ?_ .storeFull
        rw [core.acq, core.smp, core.trg, smp]
        exact form

/-- STOP taken in SAMPLING ends the capture on the last sample, or waits for sample 0 (R68). -/
theorem stopAnswer_heldParts {s : State} (h : s.HeldParts) : (stopAnswer s).1.HeldParts := by
  unfold stopAnswer
  split
  · exact h
  · exact h.setAcq { h.form with } rfl
  · next idle stopping =>
    split
    · exact h.setAcq { h.form with } rfl
    · next later =>
      have sampling : s.acq.engine.sampling = true := by
        cases e : s.acq.engine with
        | idle => exact absurd e idle
        | stopping => exact absurd e stopping
        | _ => rfl
      obtain ⟨x, hx⟩ := Option.isSome_iff_exists.1 (h.form.sampling.2 sampling)
      obtain ⟨name, ha⟩ := Option.ne_none_iff_exists'.1 (mt h.form.idle.1 idle)
      have nonzero : x.next ≠ 0 := by
        unfold State.beforeSampleZero at later
        rw [hx] at later
        simpa using later
      obtain ⟨ready, -⟩ := setOrigin_ready h hx ha
      rw [setOrigin_later s nonzero] at ready
      exact enterStopping_heldParts ready h.form .stopTaken

/-! ## Every step -/

theorem exec_heldParts {c : Instr} {s t : State} (h : s.HeldParts) (ran : exec c s = .next t) : t.HeldParts := by
  refine exec_keeps (R := fun a b => a.HeldParts → b.HeldParts) (fun h k => k ∘ h) (fun same h => h.of_holdings same) ?_ ran h
  cases c with
  | nrst => exact fun u v k _ => execNrst_heldParts k
  | planEdit p tag sec expected contents => exact fun u k => planEditAnswer_heldParts k p sec expected contents
  | arm => exact fun u k => armAnswer_heldParts k
  | stop => exact fun u k => stopAnswer_heldParts k
  | force => exact fun u k => forceAnswer_heldParts k
  | abort => exact fun u k => abortAnswer_heldParts k
  | retain p tag slot num => exact fun u k => retainAnswer_heldParts k p slot num
  | release p tag slot num => exact fun u k => releaseAnswer_heldParts k p slot num
  | readRecords p tag slot num start count => exact fun u k => readRecordsAnswer_heldParts k slot num start count
  | storeHealth p tag clear => exact fun u k => storeHealthAnswer_heldParts k clear
  | storeTest p tag kind => exact fun u k => storeTestAnswer_heldParts k kind
  | portReset p => exact fun u k => portResetAnswer_heldParts k p
  | engineReset p => exact fun u k => engineResetAnswer_heldParts k p
  | podDetach i => exact fun u moment k => losePod_heldParts k i moment
  | finalWriteComplete => exact fun u stopping k => finishWrite_heldParts k stopping
  | columnItem => exact fun u name es k => noteReads_heldParts k name es
  | firstSample w | sample w | armedEntry w | withinExpiry w | stageSatisfied w | postDone w | twoWireStall l w | clockedIdleEnd l w
  | asyncIdleEnd l w | biphaseIdleEnd l w | drainLimit l w => exact fun u k => takeSample_heldParts k w
  | _ => trivial

theorem step_heldParts {s t : State} (h : s.HeldParts) (ran : step s = .next t) : t.HeldParts := by
  unfold step at ran
  split at ran
  · cases ran
    exact h.of_holdings rfl
  · next c rest _ =>
    have queued : (s.setPending rest).HeldParts := h.of_holdings rfl
    exact exec_heldParts queued ran

/-- Settles O8: the law in its four parts is kept by each part of a step, and holds at reset. -/
theorem heldLawsKept : Obligations.HeldLawsKept := by
  unfold Obligations.HeldLawsKept
  simp only [heldLaw_iff]
  exact ⟨fun s t => step_heldParts, reset_heldParts⟩

end Sys2Proof.Machine
end

section
/-! SUPPORT. Reclaims, the completion of the final write and the store's requests: proofs of the statements (O29, O32, O35). -/

namespace Sys2Proof.Machine

open Sys2Proof

/-! ## A reclaim (R40) -/

/-- A removal is judged by the store, the event list, the renders and RENDER_ENDED. -/
theorem removed_of_same {s t u : State} {name : CapName} (h : s.removed t name) (sto : u.sto = t.sto) (evl : u.evl = t.evl)
    (vrn : u.vrn = t.vrn) (ended : ∀ q, u.hasNotice q .renderEnded = t.hasNotice q .renderEnded) : s.removed u name := by
  unfold State.removed
  simp only [sto, evl, vrn, ended]
  exact h

theorem hasNotice_raiseBoth_ne (s : State) (q : Port) {n m : Notice} (h : m ≠ n) : (s.raiseBoth n).hasNotice q m = s.hasNotice q m := by
  rw [hasNotice_raiseBoth, decide_eq_false h, Bool.or_false]

theorem hasNotice_raiseBoth_same (s : State) (q : Port) (n : Notice) : (s.raiseBoth n).hasNotice q n = true := by
  rw [hasNotice_raiseBoth, decide_eq_true rfl, Bool.or_true]

/-- Settles O29: the victim of the search is an oldest unretained COMPLETE capture, and what is done with it is a removal with its
notice. -/
theorem reclaimTakesOldest : Obligations.ReclaimTakesOldest := by
  intro s wf
  refine ⟨?_, fun t h => ?_⟩
  · rw [← victim_none]
    exact Option.map_eq_none_iff
  · have core := reclaim_keeps h
    obtain ⟨i, hv, e⟩ := Option.map_eq_some_iff.1 h
    obtain ⟨v, slot, complete, freeA, freeB, oldest⟩ := victim_some _ _ hv
    have named : s.sto.nameAt i = some ⟨i, v.num⟩ := by rw [Store.nameAt, slot]; rfl
    obtain ⟨removed, freeIx, notices⟩ := removeCapture_removed s i _ wf named
    subst e
    refine ⟨i, v, slot, complete, freeA, freeB, oldest, ?_, fun q => hasNotice_raiseBoth_same _ q _, fun q n ne ended => ?_, core.slot,
      core.acq, core.smp, core.trg, core.lanes, core.timebase, core.pods, core.pending, freeIx⟩
    · exact removed_of_same removed rfl rfl rfl fun q => hasNotice_raiseBoth_ne _ q nofun
    · exact (hasNotice_raiseBoth_ne _ q ne).trans (notices q n ended)

/-! ## The completion of the final write (R44, R45, R71) -/

/-- The block map after the capture's FILLING block, if it has one, is sealed (R44). -/
theorem sealFilling_lookup {s : State} (wf : s.sto.wf = true) (name : CapName) :
    (∀ n b, s.sto.filling name = some (n, b) → lookupBlock (s.sealFilling name).sto.blocks n = some { b with state := .sealed } ∧
      ∀ m, m ≠ n → lookupBlock (s.sealFilling name).sto.blocks m = lookupBlock s.sto.blocks m) ∧
    (s.sto.filling name = none → (s.sealFilling name).sto.blocks = s.sto.blocks) := by
  unfold State.sealFilling
  refine ⟨fun n b hf => ?_, fun hf => ?_⟩
  · rw [hf]
    exact seal_lookup s.sto n b (filling_lookup wf hf)
  · rw [hf]

/-- Sealing a capture's own block leaves the blocks of the others. -/
theorem sealFilling_others {s : State} (wf : s.sto.wf = true) (name : CapName) (k : Nat) :
    (lookupBlock (s.sealFilling name).sto.blocks k).filter (fun b => b.owner ≠ name) =
      (lookupBlock s.sto.blocks k).filter fun b => b.owner ≠ name := by
  obtain ⟨sealed_, none_⟩ := sealFilling_lookup wf name
  cases hf : s.sto.filling name with
  | none => rw [none_ hf]
  | some f =>
    obtain ⟨n, b⟩ := f
    obtain ⟨here, others⟩ := sealed_ n b hf
    by_cases e : k = n
    · rw [e, here, filling_lookup wf hf]
      simp [Option.filter, (filling_props hf).1]
    · rw [others k e]

theorem sealFilling_eq (s : State) (name : CapName) :
    s.sealFilling name = s.setSto { s.sto with blocks := (s.sealFilling name).sto.blocks } := by
  obtain ⟨only, sto⟩ := sealed_facts s name
  exact only.trans (congrArg s.setSto sto)

theorem exec_finalWriteComplete {s : State} (h : s.acq.engine = .stopping) : exec .finalWriteComplete s = .next s.finishWrite := if_pos h

/-- Both ports gain two classes by two raises, and keep the rest (R182). -/
theorem portsGain_two {s t : State} (n m : Notice) (h : t.ports = ((s.raiseBoth n).raiseBoth m).ports) :
    s.portsGain t [n, m] ∧ s.slotsKept t := by
  have core := (raiseBoth_keeps s n).trans (raiseBoth_keeps _ m)
  refine ⟨fun q => ⟨fun k => ?_, ?_, ?_, ?_⟩, fun q => ?_⟩
  · have same : t.hasNotice q k = ((s.raiseBoth n).raiseBoth m).hasNotice q k := by unfold State.hasNotice; rw [h]
    rw [same, hasNotice_raiseBoth, hasNotice_raiseBoth, Bool.or_assoc]
    congr 1
    simp
  · rw [h]; exact core.overrun q
  · rw [h]; exact core.enables q
  · rw [h]; exact core.driven q
  · rw [h]; exact core.slot q

/-- Settles O32: the completion is the sealing of the FILLING block, then the end of the capture's record or its removal. -/
theorem finalWriteCompletes : Obligations.FinalWriteCompletes := by
  refine ⟨fun s other => if_neg other, fun s name c wf stopping ha hc keep single => ?_, fun s name c wf stopping ha hc discard => ?_⟩
  · obtain ⟨sealed_, unsealed⟩ := sealFilling_lookup wf name
    have sealedEq := sealFilling_eq s name
    refine ⟨_, exec_finalWriteComplete stopping, ?_⟩
    rw [finish_eq s name c ha hc]
    generalize (s.sealFilling name).sto.blocks = blocks at *
    rw [sealedEq]
    have captured : (s.setSto { s.sto with blocks := blocks }).sto.capture name = some c := hc
    dsimp only
    rw [modifyCapture_eq captured, if_neg (Bool.eq_false_iff.1 keep)]
    rw [if_neg (by exact single)]
    obtain ⟨gain, slots⟩ := portsGain_two (s := s) (t := ((s.raiseBoth .captureEnded).raiseBoth .engineState)) _ _ rfl
    exact ⟨rfl, rfl, sealed_, unsealed, gain, slots, rfl, rfl, rfl, rfl, rfl, rfl, rfl, rfl, rfl⟩
  · have others := sealFilling_others wf name
    have sealedEq := sealFilling_eq s name
    have swf : (s.sealFilling name).sto.wf = true := by
      unfold State.sealFilling
      split
      · exact seal_wf _ _ wf
      · exact wf
    refine ⟨_, exec_finalWriteComplete stopping, ?_⟩
    rw [finish_eq s name c ha hc]
    generalize (s.sealFilling name).sto.blocks = blocks at *
    rw [sealedEq] at swf ⊢
    have captured : (s.setSto { s.sto with blocks := blocks }).sto.capture name = some c := hc
    dsimp only
    rw [if_pos discard]
    obtain ⟨⟨listed, rest⟩, freeIx, notices⟩ := removeCapture_removed _ name.slot name swf (nameAt_of_capture captured)
    have core := removeCapture_keeps (s.setSto { s.sto with blocks := blocks }) name.slot
    have removed : s.removed ((s.setSto { s.sto with blocks := blocks }).removeCapture name.slot) name :=
      ⟨fun n => (listed n).trans (others n), rest⟩
    generalize (s.setSto { s.sto with blocks := blocks }).removeCapture name.slot = t at *
    refine ⟨?_, removed_of_same removed rfl rfl rfl fun q => hasNotice_raiseBoth_ne _ q nofun, fun q => hasNotice_raiseBoth_same _ q _,
      fun q n ne ended => (hasNotice_raiseBoth_ne _ q ne).trans (notices q n ended), fun q => ?_, core.smp, core.trg, core.lanes,
      core.timebase, core.pods, core.pending, freeIx⟩
    · exact congrArg Acq.release core.acq
    · exact ((raiseBoth_keeps _ _).slot q).trans (core.slot q)

/-! ## The store's requests (R47, R48, R53, R54) -/

theorem slotOf_outside {slot : Byte} (h : 4 ≤ slot.toNat) : slotOf slot = none := dif_neg (Nat.not_lt.2 h)

theorem slotOf_inside {slot : Byte} {i : Four} (h : slot.toNat = i.val) : slotOf slot = some i := by
  unfold slotOf
  rw [dif_pos (h ▸ i.isLt)]
  exact congrArg some (Fin.ext h)

/-- A request that names a slot outside 0 to 3 (R35). -/
theorem named_invalid (s : State) {slot : Byte} (h : 4 ≤ slot.toNat) (num : BitVec 16) :
    s.named slot num = .error (.plain .invalid) := by
  unfold State.named
  rw [slotOf_outside h]

/-- A request that names a capture that is gone (R35). -/
theorem named_gone {s : State} {slot : Byte} {num : BitVec 16} {i : Four} (h : slot.toNat = i.val)
    (gone : ∀ c, s.sto.slots.get i = some c → c.num ≠ num.toNat) : s.named slot num = .error (.plain .gone) := by
  have none_ : s.sto.capture ⟨i, num.toNat⟩ = none := by
    unfold Store.capture
    cases hc : s.sto.slots.get i with
    | none => rfl
    | some c => exact if_neg (gone c hc)
  unfold State.named
  rw [slotOf_inside h]
  simp only [none_]

/-- A request that names a held capture (R35). -/
theorem named_held {s : State} {slot : Byte} {num : BitVec 16} {i : Four} {c : Capture} (h : slot.toNat = i.val)
    (hc : s.sto.slots.get i = some c) (hn : c.num = num.toNat) : s.named slot num = .ok (⟨i, num.toNat⟩, c) := by
  have held : s.sto.capture ⟨i, num.toNat⟩ = some c := hn ▸ capture_of_slot_num hc
  unfold State.named
  rw [slotOf_inside h]
  simp only [held]

theorem execRetain_taken {s : State} {p : Port} {tag slot : Byte} {num : BitVec 16} (h : s.holds p (.retain p tag slot num)) :
    exec (.retain p tag slot num) s =
      .next ((retainAnswer p slot num s).1.answer p tag (retainAnswer p slot num s).2) := request_taken _ _ _ _ _ h

theorem execRelease_taken {s : State} {p : Port} {tag slot : Byte} {num : BitVec 16} (h : s.holds p (.release p tag slot num)) :
    exec (.release p tag slot num) s =
      .next ((releaseAnswer p slot num s).1.answer p tag (releaseAnswer p slot num s).2) := request_taken _ _ _ _ _ h

/-- Settles O35: each request by the capture it names, or by its option. -/
theorem storeRequests : Obligations.StoreRequests := by
  refine ⟨fun p tag slot num s => ?_, fun p tag clear s h => ?_, fun p tag kind s h => ?_, fun s name c n b word index hf hc room => ?_⟩
  · extract_lets after marked
    refine ⟨fun h => ⟨fun outside => ?_, fun i hi => ⟨fun gone => ?_, fun c hc num_ active => ?_, fun c hc num_ complete => ?_⟩⟩,
      fun h => ⟨fun outside => ?_, fun i hi => ⟨fun gone => ?_, fun c hc num_ active => ?_, fun c hc num_ complete => ?_⟩⟩⟩
    · rw [execRetain_taken h, retainAnswer, named_invalid s outside]
      rfl
    · rw [execRetain_taken h, retainAnswer, named_gone hi gone]
      rfl
    · rw [execRetain_taken h, retainAnswer, named_held hi hc num_]
      simp only [active]
      rfl
    · rw [execRetain_taken h, retainAnswer, named_held hi hc num_]
      simp only [complete, if_true]
      rw [modifyCapture_eq (num_ ▸ capture_of_slot_num hc)]
      rfl
    · rw [execRelease_taken h, releaseAnswer, named_invalid s outside]
      rfl
    · rw [execRelease_taken h, releaseAnswer, named_gone hi gone]
      rfl
    · rw [execRelease_taken h, releaseAnswer, named_held hi hc num_]
      simp only [active]
      rfl
    · rw [execRelease_taken h, releaseAnswer, named_held hi hc num_]
      simp only [complete, if_true]
      rw [modifyCapture_eq (num_ ▸ capture_of_slot_num hc)]
      rfl
  · extract_lets a after
    have taken : exec (.storeHealth p tag clear) s =
      .next ((storeHealthAnswer clear s).1.answer p tag (storeHealthAnswer clear s).2) := request_taken _ _ _ _ _ h
    rw [taken]
    refine ⟨fun e => ?_, fun e => ?_, fun one two => ?_⟩
    · rw [e]; rfl
    · rw [e]; rfl
    · have other : storeHealthAnswer clear s = (s, .plain .invalid) := by
        unfold storeHealthAnswer
        dsimp only
        split
        · next e => exact absurd (BitVec.eq_of_toNat_eq e) one
        · next e => exact absurd (BitVec.eq_of_toNat_eq e) two
        · rfl
      rw [other]
      rfl
  · extract_lets after
    have taken : exec (.storeTest p tag kind) s =
      .next ((storeTestAnswer kind s).1.answer p tag (storeTestAnswer kind s).2) := request_taken _ _ _ _ _ h
    rw [taken]
    refine ⟨fun e => ?_, fun e => ?_, fun one two => ?_⟩
    · rw [e]; rfl
    · rw [e]; rfl
    · have other : storeTestAnswer kind s = (s, .plain .invalid) := by
        unfold storeTestAnswer
        split
        · next e => exact absurd (BitVec.eq_of_toNat_eq e) one
        · next e => exact absurd (BitVec.eq_of_toNat_eq e) two
        · rfl
      rw [other]
      rfl
  · refine ⟨_, testFlips s.sto.test, placeRecord_room hf hc room word index, rfl, ?_, ?_⟩
    · show (lookupBlock (insertBlock s.sto.blocks n _) n).map _ = _
      rw [lookupBlock_insertBlock]
      rfl
    · cases s.sto.test with
      | none => rfl
      | some k => cases k <;> rfl

end Sys2Proof.Machine
end

section
/-! SUPPORT. Placing a record (R38 to R42): the chain behind its tail, the block that follows a full one, and the proof of the statement
(O37). -/

namespace Sys2Proof.Machine

open Sys2Proof

/-! ## Chains (R33) -/

theorem chainFrom_lookup {blocks : List (Nat × Block)} {fuel : Nat} {start : Option Nat} :
    ∀ e ∈ chainFrom blocks fuel start, lookupBlock blocks e.1 = some e.2 := by
  induction fuel generalizing start with
  | zero => exact fun _ he => nomatch he
  | succ fuel ih =>
    intro e he
    cases start with
    | none => cases he
    | some n =>
      unfold chainFrom at he
      cases hb : lookupBlock blocks n with
      | none => rw [hb] at he; cases he
      | some b =>
        rw [hb] at he
        obtain rfl | he := List.mem_cons.1 he
        · exact hb
        · exact ih e he

/-- A chain is the same in another map that lists its blocks, where its last block leads nowhere. -/
theorem chainFrom_same {blocks other : List (Nat × Block)} {fuel more : Nat} {start : Option Nat} {n : Nat} {b : Block}
    (listed : ∀ e ∈ chainFrom blocks fuel start, lookupBlock other e.1 = some e.2)
    (last : (chainFrom blocks fuel start).getLast? = some (n, b)) (ends : b.next = none) (enough : fuel ≤ more) :
    chainFrom other more start = chainFrom blocks fuel start := by
  induction fuel generalizing start more with
  | zero => cases last
  | succ fuel ih =>
    obtain ⟨more, rfl⟩ : ∃ k, more = k + 1 := ⟨more - 1, by omega⟩
    cases start with
    | none => cases last
    | some k =>
      unfold chainFrom at listed last ⊢
      cases hk : lookupBlock blocks k with
      | none => rw [hk] at last; cases last
      | some d =>
        rw [hk] at listed last
        dsimp only at listed last ⊢
        rw [listed (k, d) (List.mem_cons_self ..)]
        dsimp only
        congr 1
        cases hrest : chainFrom blocks fuel d.next with
        | nil =>
          rw [hrest] at last
          cases last
          rw [ends]
          cases more <;> rfl
        | cons e rest =>
          rw [hrest, List.getLast?_cons_cons] at last
          rw [← hrest] at last ⊢
          exact ih (fun e he => listed e (List.mem_cons_of_mem _ he)) last (by omega)

/-- A change of the blocks that leaves their order in the chain. -/
theorem chainFrom_map {blocks other : List (Nat × Block)} {f : Nat → Block → Block} (next : ∀ k b, (f k b).next = b.next)
    (mapped : ∀ k, lookupBlock other k = (lookupBlock blocks k).map (f k)) (fuel : Nat) (start : Option Nat) :
    chainFrom other fuel start = (chainFrom blocks fuel start).map fun e => (e.1, f e.1 e.2) := by
  induction fuel generalizing start with
  | zero => rfl
  | succ fuel ih =>
    cases start with
    | none => rfl
    | some k =>
      unfold chainFrom
      rw [mapped]
      cases lookupBlock blocks k with
      | none => rfl
      | some b =>
        simp only [Option.map_some, List.map_cons, next]
        rw [ih]

/-- Block `n` sealed, every other as it is (R32). -/
def sealedAt (n k : Nat) (b : Block) : Block := if k = n then { b with state := .sealed } else b

theorem seal_lookup_map (x : Store) (n k : Nat) : lookupBlock (x.seal n).blocks k = (lookupBlock x.blocks k).map (sealedAt n k) := by
  unfold Store.seal
  rw [modifyBlock_lookup]
  by_cases e : k = n
  · have here : sealedAt n n = fun b => { b with state := .sealed } := funext fun b => if_pos rfl
    rw [if_pos e, e, here]
  · have same : sealedAt n k = id := funext fun b => if_neg e
    rw [if_neg e, same, Option.map_id_fun, id]

theorem chain_seal (x : Store) (n : Nat) (c : Capture) : (x.seal n).chain c = (x.chain c).map fun e => (e.1, sealedAt n e.1 e.2) := by
  refine chainFrom_map (fun k b => ?_) (seal_lookup_map x n) _ _
  unfold sealedAt
  split <;> rfl

/-- What the search for the FILLING block finds, where the capture has one alone. -/
theorem filling_of_only {x : Store} (wf : x.wf = true) {name : CapName} {m : Nat} {y : Block} (hy : lookupBlock x.blocks m = some y)
    (owner : y.owner = name) (state : y.state = .filling)
    (only : ∀ k z, lookupBlock x.blocks k = some z → z.owner = name → z.state = .filling → k = m) : x.filling name = some (m, y) := by
  cases hf : x.filling name with
  | none =>
    have := List.find?_eq_none.1 hf (m, y) (lookupBlock_mem hy)
    simp [owner, state] at this
  | some f =>
    obtain ⟨k, z⟩ := f
    have hz := filling_lookup wf hf
    obtain rfl := only k z hz (filling_props hf).1 (filling_props hf).2
    rw [hz] at hy
    cases hy
    rfl

/-! ## The block that follows a full one (R32, R39) -/

/-- The capture has no FILLING block, and block `n`, with the record `d`, is the last of its chain. -/
structure Store.Tail (x : Store) (name : CapName) (c : Capture) (n : Nat) (d : Block) : Prop where
  wf : x.wf = true
  last : (x.chain c).getLast? = some (n, d)
  sealed_ : ∀ k y, lookupBlock x.blocks k = some y → y.owner = name → y.state ≠ .filling

theorem modifyBlock_only (x : Store) (n : Nat) (f : Block → Block) : x.modifyBlock n f = { x with blocks := (x.modifyBlock n f).blocks } := by
  unfold Store.modifyBlock
  split <;> rfl

theorem appendBlock_only (x : Store) (name : CapName) (c : Capture) (n index : Nat) :
    x.appendBlock name c n index = { x with blocks := (x.appendBlock name c n index).blocks } := by
  unfold Store.appendBlock
  dsimp only
  split
  · next t _ _ => rw [modifyBlock_only x t]
  · rfl

/-- A block that is not listed joins the chain behind its tail, empty. -/
structure Store.Joined (x y : Store) (name : CapName) (n : Nat) (d : Block) (m index : Nat) : Prop where
  filling : y.filling name = some (m, emptyBlock name index)
  new : lookupBlock y.blocks m = some (emptyBlock name index)
  tail : lookupBlock y.blocks n = some { d with next := some m }
  others : ∀ k, k ≠ n → k ≠ m → lookupBlock y.blocks k = lookupBlock x.blocks k
  only : y = { x with blocks := y.blocks }
  wf : y.wf = true

theorem appendBlock_joined {x : Store} {name : CapName} {c : Capture} {n : Nat} {d : Block} (t : x.Tail name c n d) {m : Nat}
    (inRange : m < 2048) (free : lookupBlock x.blocks m = none) (index : Nat) :
    x.Joined (x.appendBlock name c m index) name n d m index := by
  have hd : lookupBlock x.blocks n = some d := chainFrom_lookup (n, d) (List.mem_of_getLast? t.last)
  have ne : n ≠ m := fun e => by rw [e, free] at hd; cases hd
  have eq : x.appendBlock name c m index =
      { x.modifyBlock n (fun b => { b with next := some m }) with
        blocks := insertBlock (x.modifyBlock n (fun b => { b with next := some m })).blocks m (emptyBlock name index) } := by
    unfold Store.appendBlock
    simp only [t.last]
    rfl
  have wf : (x.appendBlock name c m index).wf = true := appendBlock_wf name c index inRange t.wf
  have new : lookupBlock (x.appendBlock name c m index).blocks m = some (emptyBlock name index) := lookupBlock_insertBlock _ _ _
  have tail : lookupBlock (x.appendBlock name c m index).blocks n = some { d with next := some m } := by
    rw [eq]
    dsimp only
    rw [lookupBlock_insertBlock_ne _ _ ne, modifyBlock_lookup, if_pos rfl, hd]
    rfl
  have others : ∀ k, k ≠ n → k ≠ m → lookupBlock (x.appendBlock name c m index).blocks k = lookupBlock x.blocks k := by
    intro k hn hm
    rw [eq]
    dsimp only
    rw [lookupBlock_insertBlock_ne _ _ hm, modifyBlock_lookup, if_neg hn]
  refine ⟨filling_of_only wf new rfl rfl fun k z hz owner state => ?_, new, tail, others, appendBlock_only _ _ _ _ _, wf⟩
  by_contra hm
  by_cases hn : k = n
  · rw [hn, tail] at hz
    cases hz
    exact t.sealed_ n d hd owner state
  · rw [others k hn hm] at hz
    exact t.sealed_ k z hz owner state

/-- The record that goes into the block that joined, corrupted by a pending store-test request (R38, R54). -/
theorem appendRecord_joined {x y : Store} {name : CapName} {n m index : Nat} {d : Block} (j : x.Joined y name n d m index) (ne : n ≠ m)
    (word : ChannelWord) :
    lookupBlock (y.appendRecord m (emptyBlock name index) word index).blocks n = some { d with next := some m } ∧
    lookupBlock (y.appendRecord m (emptyBlock name index) word index).blocks m =
      some (Block.mk .filling name index false none [y.newRecord word]) ∧
    (∀ k, k ≠ n → k ≠ m → lookupBlock (y.appendRecord m (emptyBlock name index) word index).blocks k = lookupBlock x.blocks k) := by
  refine ⟨(lookupBlock_insertBlock_ne _ _ ne).trans j.tail, ?_, fun k hn hm => (lookupBlock_insertBlock_ne _ _ hm).trans (j.others k hn hm)⟩
  refine (lookupBlock_insertBlock _ _ _).trans ?_
  rw [append_newRecord]
  rfl

/-- A full block is sealed, and the record goes into the block that is found for it (R38, R39). -/
theorem placeRecord_next {s t : State} {name : CapName} {c : Capture} {n m : Nat} {b : Block} {index : Nat}
    (hf : s.sto.filling name = some (n, b)) (hc : s.sto.capture name = some c) (full : b.records.length = 4096) (word : ChannelWord)
    (found : (s.setSto (s.sto.seal n)).nextBlock name c index = some t)
    (filling : t.sto.filling name = some (m, emptyBlock name index)) :
    s.placeRecord name word index = (t.setSto (t.sto.appendRecord m (emptyBlock name index) word index), true) := by
  have noRoom : ¬ b.recordCount < Config.recordsPerBlock := by simp [Block.recordCount, full, Config.recordsPerBlock]
  simp only [State.placeRecord, hf, hc, if_neg noRoom, found, filling]

/-- The sealed block as the tail of the capture's chain. -/
theorem seal_tail {x : Store} (wf : x.wf = true) {name : CapName} {c : Capture} {n : Nat} {b : Block}
    (hb : lookupBlock x.blocks n = some b) (last : (x.chain c).getLast? = some (n, b))
    (others : ∀ m y, lookupBlock x.blocks m = some y → y.owner = name → m ≠ n → y.state = .sealed) :
    (x.seal n).Tail name c n { b with state := .sealed } := by
  obtain ⟨here, elsewhere⟩ := seal_lookup x n b hb
  refine ⟨seal_wf x n wf, ?_, fun k y hy owner state => ?_⟩
  · rw [chain_seal, List.getLast?_map, last]
    simp [sealedAt]
  · by_cases e : k = n
    · rw [e, here] at hy
      cases hy
      cases state
    · rw [elsewhere k e] at hy
      rw [others k y hy owner e] at state
      cases state

/-- No block is found at quota, or with none FREE and nothing to reclaim. -/
theorem noNew_seal {s : State} (wf : s.sto.wf = true) {name : CapName} {c : Capture} {n : Nat} {b : Block}
    (hb : lookupBlock s.sto.blocks n = some b)
    (noNew : c.quota ≤ s.sto.ownedCount name ∨ (s.sto.noneFree ∧ s.reclaim = none)) :
    c.quota ≤ (s.setSto (s.sto.seal n)).sto.ownedCount name ∨
      ((s.setSto (s.sto.seal n)).sto.lowestFree = none ∧ (s.setSto (s.sto.seal n)).reclaim = none) := by
  refine noNew.imp (fun quota => ?_) fun ⟨free, reclaim⟩ => ⟨lowestFree_none _ fun m hm => ?_, ?_⟩
  · exact (ownedCount_seal wf hb name).symm ▸ quota
  · show lookupBlock (s.sto.seal n).blocks m ≠ none
    rw [seal_lookup_map]
    exact fun e => free m hm (Option.map_eq_none_iff.1 e)
  · exact reclaim_none_of_slots (seal_slots _ _) reclaim

theorem lowestFree_of_first {x : Store} {n : Nat} (h : x.firstFree n) : x.lowestFree = some n := by
  obtain ⟨inRange, free, below⟩ := h
  exact lowestFree_spec x n inRange free below

end Sys2Proof.Machine
end

section
/-! SUPPORT. A WINDOW capture takes its own head block (R41, R141, R143), and the proof of the statement on placing records (O37). -/

namespace Sys2Proof.Machine

open Sys2Proof

/-! ## The recycle (R41) -/

/-- A chain whose last block is not its head goes on from the head to another block. -/
theorem chain_cons {x : Store} {c : Capture} {n : Nat} {d : Block} (last : (x.chain c).getLast? = some (n, d)) (ne : c.head ≠ n) :
    ∃ b h y rest, lookupBlock x.blocks c.head = some b ∧ b.next = some h ∧ lookupBlock x.blocks h = some y ∧
      x.chain c = (c.head, b) :: (h, y) :: rest ∧ chainFrom x.blocks 2047 (some h) = (h, y) :: rest := by
  have unfolded : ∀ k, chainFrom x.blocks (2047 + 1) (some k) = match lookupBlock x.blocks k with
      | none => []
      | some b => (k, b) :: chainFrom x.blocks 2047 b.next := fun _ => rfl
  have chain : x.chain c = chainFrom x.blocks (2047 + 1) (some c.head) := rfl
  rw [chain, unfolded] at last ⊢
  cases hb : lookupBlock x.blocks c.head with
  | none => rw [hb] at last; cases last
  | some b =>
    rw [hb] at last
    dsimp only at last ⊢
    cases hrest : chainFrom x.blocks 2047 b.next with
    | nil =>
      rw [hrest] at last
      cases last
      exact absurd rfl ne
    | cons e rest =>
      cases hnext : b.next with
      | none => rw [hnext] at hrest; cases hrest
      | some h =>
        rw [hnext] at hrest
        have first : e = (h, e.2) ∧ lookupBlock x.blocks h = some e.2 := by
          unfold chainFrom at hrest
          cases hy : lookupBlock x.blocks h with
          | none => rw [hy] at hrest; cases hrest
          | some y => rw [hy] at hrest; cases hrest; exact ⟨rfl, rfl⟩
        obtain ⟨hfirst, hy⟩ := first
        rw [hfirst] at hrest
        exact ⟨b, h, e.2, rest, rfl, hnext, hy, by rw [hfirst], hrest⟩

/-- The store without the capture's head block, and with the head moved on (R41, step 1). -/
def Store.withoutHead (x : Store) (name : CapName) (c : Capture) (h : Nat) : Store :=
  { x with blocks := x.blocks.filter fun e => e.1 ≠ c.head, slots := x.slots.set name.slot (some { c with head := h }) }

theorem withoutHead_tail {x : Store} {name : CapName} {c : Capture} {n h : Nat} {b d y : Block} {rest : List (Nat × Block)}
    (t : x.Tail name c n d) (ends : d.next = none) (nodup : ((x.chain c).map fun e => e.1).Nodup)
    (chain : x.chain c = (c.head, b) :: (h, y) :: rest) (from_ : chainFrom x.blocks 2047 (some h) = (h, y) :: rest) :
    (x.withoutHead name c h).Tail name { c with head := h } n d := by
  have without : ∀ k, lookupBlock (x.withoutHead name c h).blocks k = if k = c.head then none else lookupBlock x.blocks k :=
    lookupBlock_without x.blocks c.head
  have last : (chainFrom x.blocks 2047 (some h)).getLast? = some (n, d) := by
    have := t.last
    rw [chain, List.getLast?_cons_cons, ← from_] at this
    exact this
  have same : (x.withoutHead name c h).chain { c with head := h } = chainFrom x.blocks 2047 (some h) := by
    refine chainFrom_same (fun e he => ?_) last ends (by decide)
    rw [without, if_neg]
    · exact chainFrom_lookup e he
    · intro eq
      rw [chain, List.map_cons, List.nodup_cons] at nodup
      rw [from_] at he
      have repeated : e.1 ∈ ((h, y) :: rest).map fun e => e.1 := List.mem_map_of_mem he
      rw [eq] at repeated
      exact nodup.1 repeated
  refine ⟨filter_sorted _ t.wf, by rw [same]; exact last, fun k z hz owner => ?_⟩
  rw [without] at hz
  split at hz
  · cases hz
  · exact t.sealed_ k z hz owner

/-- A search for the next block that ends at the capture's own head (R39, R41). -/
theorem nextBlock_recycles {s : State} {name : CapName} {c : Capture} (index : Nat)
    (full : c.quota ≤ s.sto.ownedCount name ∨ (s.sto.lowestFree = none ∧ s.reclaim = none))
    (window : c.mode = .window) (can : s.sto.canRecycle c = true) : s.nextBlock name c index = some (s.recycle name c index) := by
  have recycled : (if c.mode = .window && s.sto.canRecycle c then some (s.recycle name c index) else none) =
      some (s.recycle name c index) := if_pos (by simp [window, can])
  unfold State.nextBlock
  dsimp only
  rw [recycled]
  obtain quota | ⟨free, reclaim⟩ := full
  · rw [if_neg (Nat.not_lt.2 quota)]
  · rw [free, reclaim]
    split <;> rfl

/-- The events that a recycle takes off the list, with what the ports and the capture count of them (R41, step 3; R141, R143). -/
def Event.expiredIn (e : Event) (name : CapName) (t : Nat) : Bool := decide (e.cap = name ∧ e.start < (t : Int))

theorem remove_facts (x : Evl) (gone : Event → Bool) :
    (x.remove gone).events = x.events.filter (fun e => !gone e) ∧ (x.remove gone).nextSeq = x.nextSeq ∧
    ∀ q, (x.remove gone).port.get q = { x.port.get q with
      missed := min 65535 ((x.port.get q).missed + (x.events.filter fun e => gone e && decide ((x.port.get q).cursor ≤ e.seq)).length) } := by
  have missed : ∀ p : EventPort, p.miss (x.events.filter gone) = { p with
      missed := min 65535 (p.missed + (x.events.filter fun e => gone e && decide (p.cursor ≤ e.seq)).length) } := fun p => by
    have swap : (fun e : Event => gone e && decide (p.cursor ≤ e.seq)) = fun e => decide (p.cursor ≤ e.seq) && gone e :=
      funext fun _ => Bool.and_comm _ _
    rw [swap, ← List.filter_filter]
    rfl
  refine ⟨rfl, rfl, fun q => ?_⟩
  cases q
  · exact missed x.port.a
  · exact missed x.port.b

/-- The recycle of a capture with an origin. -/
theorem recycle_expires {s : State} {name : CapName} {c d : Capture} {index t : Nat}
    (hd : (s.sto.recycle name c index).capture name = some d) (ht : (s.sto.recycle name c index).oldestTime d = some t) :
    s.recycle name c index = (s.setEvl (s.evl.remove fun e => e.expiredIn name t)).setSto { s.sto.recycle name c index with
      slots := (s.sto.recycle name c index).slots.set name.slot (some { d with
        expired := min 4294967295 (d.expired + (s.evl.events.filter fun e => e.expiredIn name t).length) }) } := by
  unfold State.recycle
  simp only [State.setSto_sto, hd, ht]
  unfold State.expireEvents
  have held : ((s.setSto (s.sto.recycle name c index)).setEvl ((s.setSto (s.sto.recycle name c index)).evl.remove fun e =>
      e.expiredIn name t)).sto.capture name = some d := hd
  exact modifyCapture_eq held _

/-- A search for the next block that finds a FREE one below quota (R39). -/
theorem nextBlock_free {s : State} {name : CapName} {c : Capture} (index : Nat) (quota : s.sto.ownedCount name < c.quota) {m : Nat}
    (free : s.sto.lowestFree = some m) : s.nextBlock name c index = some (s.setSto (s.sto.appendBlock name c m index)) := by
  unfold State.nextBlock
  simp only [if_pos quota, free]

theorem newRecord_of_test {x y : Store} (h : y.test = x.test) (word : ChannelWord) : y.newRecord word = x.newRecord word := by
  unfold Store.newRecord
  rw [h]

/-- A record placed in a store whose block map alone has changed: what else it changes is the store-test request. -/
theorem appendRecord_only {x y : Store} (h : y = { x with blocks := y.blocks }) (n : Nat) (b : Block) (word : ChannelWord) (index : Nat) :
    y.appendRecord n b word index = { x with blocks := (y.appendRecord n b word index).blocks, test := none } ∧
      y.newRecord word = x.newRecord word := by
  obtain ⟨blocks, e⟩ : ∃ blocks, y = { x with blocks := blocks } := ⟨_, h⟩
  subst e
  exact ⟨rfl, rfl⟩

/-- The head block of a full WINDOW capture, recycled (R41): what the store's own part of it leaves. -/
structure Store.Recycled (x y : Store) (name : CapName) (c : Capture) (n : Nat) (d : Block) (h : Nat) (e : Block) (index : Nat) : Prop where
  filling : y.filling name = some (c.head, emptyBlock name index)
  new : lookupBlock y.blocks c.head = some (emptyBlock name index)
  tail : lookupBlock y.blocks n = some { d with next := some c.head }
  others : ∀ k, k ≠ n → k ≠ c.head → lookupBlock y.blocks k = lookupBlock x.blocks k
  capture : y.capture name = some { c with head := h }
  oldest : y.oldestIndex { c with head := h } = e.first
  slots : y.slots = x.slots.set name.slot (some { c with head := h })
  only : y = { x with blocks := y.blocks, slots := y.slots }

theorem recycle_recycled {x : Store} {name : CapName} {c : Capture} {n h : Nat} {b d e : Block} {rest : List (Nat × Block)}
    (t : x.Tail name c n d) (ends : d.next = none) (hc : x.capture name = some c) (nodup : ((x.chain c).map fun e => e.1).Nodup)
    (hb : lookupBlock x.blocks c.head = some b) (next : b.next = some h) (he : lookupBlock x.blocks h = some e)
    (chain : x.chain c = (c.head, b) :: (h, e) :: rest) (from_ : chainFrom x.blocks 2047 (some h) = (h, e) :: rest) (index : Nat) :
    x.Recycled (x.recycle name c index) name c n d h e index := by
  have without : ∀ k, lookupBlock (x.withoutHead name c h).blocks k = if k = c.head then none else lookupBlock x.blocks k :=
    lookupBlock_without x.blocks c.head
  have apart : h ≠ c.head := fun e' => by
    rw [chain, List.map_cons, List.nodup_cons, List.map_cons, e'] at nodup
    exact nodup.1 (List.mem_cons_self ..)
  have joined := appendBlock_joined (withoutHead_tail t ends nodup chain from_) (lookupBlock_lt t.wf hb)
    ((without c.head).trans (if_pos rfl)) index
  have eq : x.recycle name c index = (x.withoutHead name c h).appendBlock name { c with head := h } c.head index :=
    recycle_eq hc hb next index
  rw [← eq] at joined
  have slots : (x.recycle name c index).slots = x.slots.set name.slot (some { c with head := h }) := by
    rw [joined.only]
    rfl
  have oldest : ∃ e', lookupBlock (x.recycle name c index).blocks h = some e' ∧ e'.first = e.first := by
    by_cases hn : h = n
    · have same : d = e := by
        have hd : lookupBlock x.blocks n = some d := chainFrom_lookup (n, d) (List.mem_of_getLast? t.last)
        rw [← hn, he] at hd
        exact (Option.some.inj hd).symm
      exact ⟨_, hn ▸ joined.tail, by rw [same]⟩
    · refine ⟨e, ?_, rfl⟩
      rw [joined.others h hn apart, without, if_neg apart, he]
  refine ⟨joined.filling, joined.new, joined.tail, fun k hn hk => ?_, capture_of_slots_set slots (slots_of_capture hc).2, ?_, slots, ?_⟩
  · rw [joined.others k hn hk, without, if_neg hk]
  · obtain ⟨e', he', first⟩ := oldest
    unfold Store.oldestIndex
    rw [he']
    exact first
  · rw [joined.only]
    rfl

/-- The same where the capture table has changed too. -/
theorem appendRecord_reslotted {x y : Store} (h : y = { x with blocks := y.blocks, slots := y.slots }) (slots : Quad (Option Capture))
    (n : Nat) (b : Block) (word : ChannelWord) (index : Nat) :
    Store.appendRecord { y with slots := slots } n b word index =
      { x with blocks := (Store.appendRecord { y with slots := slots } n b word index).blocks, slots := slots, test := none } := by
  obtain ⟨blocks, old, e⟩ : ∃ blocks old, y = { x with blocks := blocks, slots := old } := ⟨_, _, h⟩
  subst e
  rfl

/-- Settles O37: by the room in the FILLING block and, where it is full, by the block that is found for the record. -/
theorem placingRecords : Obligations.PlacingRecords := by
  intro s name c n b word index wf hf hc last ends nodup owned others
  have hb := filling_lookup wf hf
  have tail := seal_tail wf hb last others
  have sealedOnly := seal_only s.sto n
  have sealedAlone := seal_lookup s.sto n b hb
  refine ⟨fun room => ?_, fun full quota m free => ?_, fun full noNew kept => ?_, fun full noNew window ne trig o origin => ?_⟩
  · refine ⟨_, placeRecord_room hf hc room word index, ?_, fun m hm => lookupBlock_insertBlock_ne _ _ hm, rfl⟩
    refine (lookupBlock_insertBlock _ _ _).trans ?_
    rw [append_newRecord]
  · obtain ⟨inRange, unlisted, below⟩ := free
    have ne : n ≠ m := fun e => by rw [e, unlisted] at hb; cases hb
    have unlisted' : lookupBlock (s.sto.seal n).blocks m = none := (sealedAlone.2 m ne.symm).trans unlisted
    have lowest : (s.setSto (s.sto.seal n)).sto.lowestFree = some m := by
      refine lowestFree_of_first ⟨inRange, unlisted', fun k hk e => below k hk ?_⟩
      have e' : lookupBlock (s.sto.seal n).blocks k = none := e
      rw [seal_lookup_map] at e'
      exact Option.map_eq_none_iff.1 e'
    have found := nextBlock_free (s := s.setSto (s.sto.seal n)) index (ownedCount_seal wf hb name ▸ quota) lowest
    have joined := appendBlock_joined tail inRange unlisted' index
    obtain ⟨here, placed, rest⟩ := appendRecord_joined joined ne word
    have only : (s.sto.seal n).appendBlock name c m index = { s.sto with blocks := ((s.sto.seal n).appendBlock name c m index).blocks } :=
      joined.only.trans (by rw [sealedOnly])
    obtain ⟨same, record⟩ := appendRecord_only only m (emptyBlock name index) word index
    refine ⟨_, placeRecord_next hf hc full word found joined.filling, here, ?_, fun k hn hm => (rest k hn hm).trans (sealedAlone.2 k hn),
      congrArg s.setSto same⟩
    rw [← record]
    exact placed
  · refine ⟨_, placeRecord_refused hf hc full word ?_, sealedAlone.1, sealedAlone.2, congrArg s.setSto sealedOnly⟩
    exact nextBlock_none index (noNew_seal wf hb noNew) (kept.imp id fun h => canRecycle_seal hb ends h)
  · have nodup' : (((s.sto.seal n).chain c).map fun e => e.1).Nodup := by
      rw [chain_seal, List.map_map]
      exact nodup
    obtain ⟨b0, h, e, rest, hb0, next, he, chain, from_⟩ := chain_cons tail.last ne
    have hb0' : lookupBlock s.sto.blocks c.head = some b0 := (sealedAlone.2 c.head ne).symm.trans hb0
    have headOwner : b0.owner = name := by
      obtain ⟨b1, h1, y1, rest1, hb1, -, -, chain1, -⟩ := chain_cons last ne
      cases hb1.symm.trans hb0'
      exact owned _ (chain1 ▸ List.mem_cons_self ..)
    have can : (s.sto.seal n).canRecycle c = true :=
      canRecycle_iff.2 ⟨b0, h, hb0, others c.head b0 hb0' headOwner ne, next, trig⟩
    have r := recycle_recycled tail ends ((capture_of_slots (seal_slots _ _) _).trans hc) nodup' hb0 next he chain from_ index
    obtain ⟨y, hy, first⟩ : ∃ y, lookupBlock s.sto.blocks h = some y ∧ e.first = y.first := by
      rw [seal_lookup_map] at he
      obtain ⟨y, hy, rfl⟩ := Option.map_eq_some_iff.1 he
      refine ⟨y, hy, ?_⟩
      unfold sealedAt
      split <;> rfl
    have oldest : ((s.sto.seal n).recycle name c index).oldestTime { c with head := h } = some (o + y.first * c.div) := by
      unfold Store.oldestTime Capture.timeOf
      rw [r.oldest, origin, first]
      rfl
    have found := nextBlock_recycles (s := s.setSto (s.sto.seal n)) index (noNew_seal wf hb noNew) window can
    have expires := recycle_expires (s := s.setSto (s.sto.seal n)) r.capture oldest
    rw [expires] at found
    have placed := placeRecord_next hf hc full word found ((filling_of_blocks rfl name).trans r.filling)
    have only : (s.sto.seal n).recycle name c index = { s.sto with
        blocks := ((s.sto.seal n).recycle name c index).blocks, slots := ((s.sto.seal n).recycle name c index).slots } :=
      r.only.trans (by rw [sealedOnly])
    have test : ((s.sto.seal n).recycle name c index).test = s.sto.test := by rw [only]
    have slots := r.slots
    rw [seal_slots] at slots
    obtain ⟨events, nextSeq, missed⟩ := remove_facts s.evl fun e => e.expiredIn name (o + y.first * c.div)
    refine ⟨_, h, y, placed, by rw [hb0']; exact next, hy, ?_, ?_, fun k hn hk => ?_, ⟨events, nextSeq, missed, ?_⟩, fun i hi => ?_, ?_,
      rfl, rfl, rfl, rfl, rfl, rfl, rfl, rfl, rfl, rfl⟩
    · refine (lookupBlock_insertBlock _ _ _).trans ?_
      rw [append_newRecord]
      exact congrArg (fun r => some (Block.mk .filling name index false none [r])) (newRecord_of_test test word)
    · exact (lookupBlock_insertBlock_ne _ _ ne.symm).trans r.tail
    · exact (lookupBlock_insertBlock_ne _ _ hk).trans ((r.others k hn hk).trans (sealedAlone.2 k hn))
    · exact capture_of_slots_set (x := (s.sto.seal n).recycle name c index) rfl (slots_of_capture hc).2
    · exact (quad_get_set_ne _ _ hi _).trans ((congrArg (fun q => q.get i) slots).trans (quad_get_set_ne _ _ hi _))
    · exact appendRecord_reslotted only _ _ _ _ _

end Sys2Proof.Machine
end

section
/-! SUPPORT. The paths that need a reclaim: ARM, a re-arm, and a record below quota (R37, R39 to R41, R63, R74), with the proof of the
statement (O27). -/

namespace Sys2Proof.Machine

open Sys2Proof

/-! ## What a reclaim secures (R37, R40) -/

/-- A slot and a block that one reclaim gives: the victim's slot where none was EMPTY, or its lowest block where none was FREE. -/
theorem secure_reclaims {s u : State} {i : Four} {n : Nat} (hr : s.reclaim = some u) (free : u.sto.firstFree n)
    (how : ((∀ j, s.sto.slots.get j ≠ none) ∧ u.sto.slots.get i = none) ∨ (s.sto.firstEmpty i ∧ s.sto.noneFree)) :
    s.secure = some (u, i, n) := by
  have block : ∀ fuel, State.secureBlock fuel u = some (u, n) := fun fuel => by
    cases fuel <;> (unfold State.secureBlock; rw [lowestFree_of_first free])
  unfold State.secure
  obtain ⟨taken, empty⟩ | ⟨⟨empty, below⟩, full⟩ := how
  · have noSlot : (allFour.find? fun j => (s.sto.slots.get j).isNone) = none := by
      rw [List.find?_eq_none]
      exact fun j _ => by rw [Option.isNone_iff_eq_none]; exact taken j
    obtain ⟨j, victim, slots⟩ := reclaim_slots hr
    have same : j = i := by
      by_contra ne
      rw [slots, quad_get_set_ne _ _ (Ne.symm ne)] at empty
      exact taken i empty
    rw [noSlot, victim, hr, ← same]
    simp only [block, Option.map_some]
  · have slot : (allFour.find? fun j => (s.sto.slots.get j).isNone) = some i := by
      refine find_four _ i (by rw [empty]; rfl) fun j hj => ?_
      rw [Option.isNone_eq_false_iff, Option.isSome_iff_ne_none]
      exact below j hj
    have first : State.secureBlock 4 s = some (u, n) := by
      unfold State.secureBlock
      rw [lowestFree_none _ full, hr]
      exact block 3
    rw [slot]
    simp only [first, Option.map_some]

/-- An ARM whose checks pass, with the slot and the block secured for it (R60 to R63). -/
theorem armSteps_secured {s u : State} {i : Four} {n : Nat} (plan : s.acq.plan.problem = none) (ready : s.podsReady)
    (secured : s.secure = some (u, i, n)) : s.armSteps = .ok (u.completeArm i n, ⟨i, u.sto.nextNum⟩) := by
  unfold State.armSteps
  rw [plan, unready_none s ready, secured]

/-- The completion of an ARM (R63, R37, R21, R81, R104). -/
theorem completeArm_armsCapture (s : State) (i : Four) (n : Nat) : s.armsCapture (s.completeArm i n) i n := by
  refine ⟨quad_set_get _ _ _, fun j hj => quad_get_set_ne _ _ hj _, lookupBlock_insertBlock _ _ _,
    fun m hm => lookupBlock_insertBlock_ne _ _ hm, rfl, rfl, rfl, rfl, fun l => ?_, rfl, rfl, rfl, rfl, rfl, rfl⟩
  exact get_map (fun cfg => Lane.atArm cfg ⟨i, s.sto.nextNum⟩) s.acq.plan.lanes l

/-- An arm is judged by what ACQ and the ports do not hold. -/
theorem armsCapture_of_same {s t u : State} {i : Four} {n : Nat} (h : s.armsCapture t i n) (sto : u.sto = t.sto) (smp : u.smp = t.smp)
    (trg : u.trg = t.trg) (lanes : u.lanes = t.lanes) (evl : u.evl = t.evl) (vrn : u.vrn = t.vrn) (outside : t.outsideKept u) :
    s.armsCapture u i n := by
  obtain ⟨timebase, pods, pending, freeIx⟩ := outside
  unfold State.armsCapture State.outsideKept at *
  rw [sto, smp, trg, lanes, evl, vrn, timebase, pods, pending, freeIx]
  exact h

/-! ## A record below quota (R39, R54) -/

/-- The tail of the ACTIVE capture's chain is not touched by a reclaim. -/
theorem reclaim_tail {s u : State} {name : CapName} {c : Capture} {n : Nat} {d : Block} (t : s.sto.Tail name c n d)
    (ends : d.next = none) (owned : ∀ e ∈ s.sto.chain c, e.2.owner = name) (hc : s.sto.capture name = some c)
    (incomplete : c.complete = false) (hr : s.reclaim = some u) : u.sto.Tail name c n d := by
  have wf := reclaim_wf hr t.wf
  have kept := (reclaim_active name hr).owned c hc incomplete
  refine ⟨wf, ?_, fun k y hy => t.sealed_ k y (reclaim_lookup t.wf hr hy)⟩
  have same : u.sto.chain c = s.sto.chain c :=
    chainFrom_same (fun e he => lookupBlock_of_owned wf kept (chainFrom_lookup e he) (owned e he)) t.last ends (Nat.le_refl _)
  rw [same]
  exact t.last

/-- A search for the next block that finds one by a reclaim (R39). -/
theorem nextBlock_reclaims {s u : State} {name : CapName} {c : Capture} (index : Nat) (quota : s.sto.ownedCount name < c.quota)
    (full : s.sto.lowestFree = none) (hr : s.reclaim = some u) {m : Nat} (free : u.sto.lowestFree = some m) :
    s.nextBlock name c index = some (u.setSto (u.sto.appendBlock name c m index)) := by
  unfold State.nextBlock
  simp only [if_pos quota, full, hr, free]

/-! ## Re-arming does not read the repeat flag -/

section

variable (s : State) (x : Acq)

theorem rendersGone_setAcq (name : CapName) : (s.setAcq x).rendersGone name = (s.rendersGone name).setAcq x := by
  have one : ∀ (u : State) (p : Port),
      (if ((u.setAcq x).vrn.ctx.get p).names name then (u.setAcq x).renderGone p else u.setAcq x) =
        (if (u.vrn.ctx.get p).names name then u.renderGone p else u).setAcq x := by
    intro u p
    rw [State.setAcq_vrn]
    split <;> rfl
  simp only [State.rendersGone, allPorts, List.foldl_cons, List.foldl_nil, one]

theorem removeCapture_setAcq (i : Four) : (s.setAcq x).removeCapture i = (s.removeCapture i).setAcq x := by
  unfold State.removeCapture
  rw [State.setAcq_sto]
  cases s.sto.nameAt i with
  | none => rfl
  | some name =>
    dsimp only
    rw [← rendersGone_setAcq]
    rfl

theorem reclaim_setAcq : (s.setAcq x).reclaim = s.reclaim.map fun u => u.setAcq x := by
  unfold State.reclaim
  rw [State.setAcq_sto, Option.map_map]
  congr 1
  funext i
  rw [removeCapture_setAcq]
  rfl

theorem sealFilling_setAcq (name : CapName) : (s.setAcq x).sealFilling name = (s.sealFilling name).setAcq x := by
  unfold State.sealFilling
  rw [State.setAcq_sto]
  cases s.sto.filling name with
  | none => rfl
  | some f => rfl

end

/-- The part right after the completion of a capture that is not discarded, before any re-arm (R44, R71). -/
def State.completed (s : State) (name : CapName) : State :=
  ((((s.sealFilling name).modifyCapture name fun c => { c with complete := true }).setAcq
    ((s.sealFilling name).modifyCapture name fun c => { c with complete := true }).acq.release).raiseBoth .captureEnded).raiseBoth
      .engineState

/-- The engine's fields at the completion of an ARM (R63). -/
def armedAcq (x : Acq) (name : CapName) : Acq :=
  { x with
    engine := .arming, active := some name, copy := some x.plan.acq, armedAt := none, postEnd := none, force := none
    stopPending := false }

/-- The run's fields at an ARM (R63). -/
def Acq.startRun (x : Acq) : Acq :=
  { x with runMode := x.plan.acq.run, repeatFlag := (x.plan.acq.run == .repeated), runCount := 1, halt := none }

/-- An answer reaches the slot alone. -/
theorem portsGain_answer {s t : State} (p : Port) (tag : Byte) (a : Answer) {ns : List Notice} (h : s.portsGain t ns) :
    s.portsGain (t.answer p tag a) ns := by
  have only : ∀ q, (t.answer p tag a).ports.get q = { t.ports.get q with slot := ((t.answer p tag a).ports.get q).slot } := fun q => by
    cases p <;> cases q <;> rfl
  intro q
  obtain ⟨notices, overrun, enables, driven⟩ := h q
  refine ⟨fun n => ?_, ?_, ?_, ?_⟩
  · refine Eq.trans ?_ (notices n)
    unfold State.hasNotice
    rw [only]
  · rw [only]; exact overrun
  · rw [only]; exact enables
  · rw [only]; exact driven

/-- The completion of the final write of a capture that is not discarded: the end of the run, or a re-arm (R44, R71, R74). -/
theorem finish_completed {s : State} {name : CapName} {c : Capture} (ha : s.acq.active = some name)
    (hc : s.sto.capture name = some c) (keep : c.discard = false) :
    s.finishWrite = if s.acq.repeatFlag = true ∧ c.endReason = some .postDone then (s.completed name).rearm else s.completed name := by
  rw [finish_eq s name c ha hc]
  dsimp only
  rw [if_neg (Bool.eq_false_iff.1 keep), (modifyCapture_keeps _ _ _).acq, (sealFilling_keeps s name).acq]
  unfold State.completed
  rw [(modifyCapture_keeps _ _ _).acq, (sealFilling_keeps s name).acq]

/-- What the completion leaves of ACQ, PRB and the number counter. -/
theorem completed_facts (s : State) (name : CapName) :
    (s.completed name).acq = s.acq.release ∧ (s.completed name).pods = s.pods ∧ (s.completed name).sto.nextNum = s.sto.nextNum := by
  have core := (sealFilling_keeps s name).trans (modifyCapture_keeps _ name fun c => { c with complete := true })
  exact ⟨congrArg Acq.release core.acq, core.pods, core.nextNum⟩

/-- The completion does not read the repeat flag. -/
theorem completed_setAcq (s : State) (flag : Bool) (name : CapName) :
    (s.setAcq { s.acq with repeatFlag := flag }).completed name =
      (s.completed name).setAcq { (s.completed name).acq with repeatFlag := flag } := by
  unfold State.completed
  rw [sealFilling_setAcq, sealFilling_eq]
  rfl

/-- Settles O27: a reclaim secures the slot and the block of an ARM and of a re-arm, and the block of a record. -/
theorem reclaimsMakeRoom : Obligations.ReclaimsMakeRoom := by
  refine ⟨fun p tag i n s u wf h idle plan ready hr free how => ?_,
    fun s d u name c i n wf stopping ha hc keep again reason plan ready hd hr free how => ?_,
    fun s u name c n m b word index wf hf hc incomplete last ends nodup owned others full quota none_ hr free => ?_⟩
  · have taken : exec (.arm p tag) s = .next ((armAnswer s).1.answer p tag (armAnswer s).2) := request_taken _ _ _ _ _ h
    have core := reclaim_keeps hr
    have armed := armSteps_secured plan ready (secure_reclaims hr free how)
    have answer : armAnswer s = ((u.completeArm i n).setAcq (u.completeArm i n).acq.startRun,
        .armed ⟨i, u.sto.nextNum⟩ (u.completeArm i n).acq.gen) := by
      unfold armAnswer
      rw [if_neg (not_not.2 idle), armed]
      rfl
    rw [taken, answer]
    have acq : (u.completeArm i n).acq = armedAcq s.acq ⟨i, s.sto.nextNum⟩ := by
      rw [← core.acq, ← core.nextNum]
      rfl
    have slots := slotsKept_raiseBoth (s := u) (t := u.completeArm i n) .engineState rfl
    have gain := portsGain_raiseBoth (s := u) (t := u.completeArm i n) .engineState rfl
    have arms := completeArm_armsCapture u i n
    have name : u.sto.nextNum = s.sto.nextNum := core.nextNum
    generalize u.completeArm i n = v at *
    refine ⟨_, rfl, ⟨?_, ?_⟩, portsGain_answer p tag _ gain, ?_, armsCapture_of_same arms rfl rfl rfl rfl rfl rfl ⟨rfl, rfl, rfl, rfl⟩⟩
    · rw [answer_get, acq, name]
      rfl
    · rw [answer_get_other]
      exact slots p.other
    · show v.acq.startRun = _
      rw [acq]
      rfl
  · obtain ⟨acq, pods, nextNum⟩ := completed_facts s name
    have finish := finish_completed ha hc keep
    rw [if_pos ⟨again, reason⟩] at finish
    have single := finish_completed (s := s.setAcq { s.acq with repeatFlag := false }) ha hc keep
    rw [if_neg (fun h => nomatch h.1), completed_setAcq] at single
    have completion := (exec_finalWriteComplete (s := s.setAcq { s.acq with repeatFlag := false }) stopping).symm.trans hd
    rw [single] at completion
    cases completion
    rw [exec_finalWriteComplete stopping, finish]
    rw [reclaim_setAcq] at hr
    obtain ⟨v, hv, rfl⟩ := Option.map_eq_some_iff.1 hr
    have core := reclaim_keeps hv
    have pods' : (s.completed name).podsReady := by
      unfold State.podsReady
      rw [acq, pods]
      exact ready
    have armed := armSteps_secured (by rw [acq]; exact plan) pods' (secure_reclaims hv free how)
    have acqArmed : (v.completeArm i n).acq = armedAcq s.acq.release ⟨i, s.sto.nextNum⟩ := by
      rw [← acq, ← core.acq, ← nextNum, ← core.nextNum]
      rfl
    have rearmed : (s.completed name).rearm = (v.completeArm i n).setAcq { (v.completeArm i n).acq with
        runCount := satAdd Config.max32 (v.completeArm i n).acq.runCount 1 } := by
      unfold State.rearm
      rw [armed]
    refine ⟨_, congrArg _ rearmed, ?_, slotsKept_raiseBoth .engineState rfl, portsGain_raiseBoth .engineState rfl, ?_⟩
    · rw [State.setAcq_acq, acqArmed]
      rfl
    · rw [← core.acq]
      exact armsCapture_of_same (completeArm_armsCapture v i n) rfl rfl rfl rfl rfl rfl ⟨rfl, rfl, rfl, rfl⟩
  · have hb := filling_lookup wf hf
    have tail := seal_tail wf hb last fun k y hy owner hk => others k y hy owner hk
    have capture : (s.setSto (s.sto.seal n)).sto.capture name = some c := (capture_of_slots (seal_slots _ _) _).trans hc
    have ownedSealed : ∀ e ∈ (s.sto.seal n).chain c, e.2.owner = name := fun e he => by
      rw [chain_seal] at he
      obtain ⟨e', he', rfl⟩ := List.mem_map.1 he
      unfold sealedAt
      split
      · exact owned e' he'
      · exact owned e' he'
    have tailThere := reclaim_tail (s := s.setSto (s.sto.seal n)) tail ends ownedSealed capture incomplete hr
    have fullThere : (s.setSto (s.sto.seal n)).sto.lowestFree = none := lowestFree_none _ fun k hk e => by
      have e' : lookupBlock (s.sto.seal n).blocks k = none := e
      rw [seal_lookup_map] at e'
      exact none_ k hk (Option.map_eq_none_iff.1 e')
    have found := nextBlock_reclaims (s := s.setSto (s.sto.seal n)) index (ownedCount_seal wf hb name ▸ quota) fullThere hr
      (lowestFree_of_first free)
    obtain ⟨inRange, unlisted, -⟩ := free
    have ne : n ≠ m := fun e => by
      have listed := chainFrom_lookup (n, _) (List.mem_of_getLast? tailThere.last)
      rw [e, unlisted] at listed
      cases listed
    have joined := appendBlock_joined tailThere inRange unlisted index
    obtain ⟨here, placed, rest⟩ := appendRecord_joined joined ne word
    obtain ⟨same, record⟩ := appendRecord_only joined.only m (emptyBlock name index) word index
    have test : u.sto.test = s.sto.test := (reclaim_active name hr).test.trans (by rw [State.setSto_sto, seal_only])
    rw [record, newRecord_of_test test] at placed
    exact ⟨_, placeRecord_next hf hc full word found joined.filling, here, placed, rest, congrArg u.setSto same⟩

end Sys2Proof.Machine
end

section
/-! SUPPORT. Reading records (R49 to R52): what a read returns, what its check does, and the proof of the statement (O36). -/

namespace Sys2Proof.Machine

open Sys2Proof

/-! ## One read (R50 to R52, R54) -/

theorem flipCount_none : flipCount 0 = 0 := by decide
theorem flipCount_single : flipCount 1 = 1 := by decide
theorem flipCount_double : flipCount 3 = 2 := by decide

theorem checkOf_clean {r : Rec} (h : r.flips = 0) : checkOf r = none := by
  unfold checkOf
  rw [h, flipCount_none]
  rfl

theorem checkOf_single {r : Rec} (h : r.flips = 1) : checkOf r = some .correctable := by
  unfold checkOf
  rw [h, flipCount_single]
  rfl

theorem checkOf_double {r : Rec} (h : r.flips = 3) : checkOf r = some .uncorrectable := by
  unfold checkOf
  rw [h, flipCount_double]
  rfl

/-- A record that reads clean or corrected is returned as it was written (R51). -/
theorem read_true {r : Rec} (h : checkOf r ≠ some .uncorrectable) : r.wordRead = r.word ∧ r.runRead = r.run :=
  ⟨if_neg h, if_neg h⟩

/-- A record with two flipped bits is returned with them in its word, and its true run length (R52, R54). -/
theorem read_double {word : ChannelWord} {run : Nat} (least : 1 ≤ run) (most : run ≤ 65536) :
    (Rec.mk word run 3).wordRead = word ^^^ 3 ∧ (Rec.mk word run 3).runRead = run := by
  have damaged : checkOf (Rec.mk word run 3) = some .uncorrectable := checkOf_double rfl
  have upper : ((3 : BitVec 48) >>> 32).setWidth 16 = 0#16 := by decide
  refine ⟨if_pos damaged, ?_⟩
  unfold Rec.runRead
  rw [if_pos damaged, upper, BitVec.xor_zero, BitVec.toNat_ofNat]
  show (run - 1) % 65536 + 1 = run
  omega

/-- The `k`-th read of a run of records (R50). -/
theorem reckon_get {block number first : Nat} {records : List Rec} {k : Nat} {e : ReadEntry}
    (h : (reckon block number first records)[k]? = some e) : ∃ r, records[k]? = some r ∧ e.block = block ∧ e.number = number + k ∧
      e.check = checkOf r ∧ e.read.word = r.wordRead ∧ e.read.run = r.runRead ∧
      (e.read.damaged = true ↔ checkOf r = some .uncorrectable) ∧
      e.read.first = first + ((records.take k).map fun y => y.runRead).sum := by
  induction records generalizing number first k with
  | nil => cases h
  | cons r rest ih =>
    cases k with
    | zero =>
      cases h
      exact ⟨r, rfl, rfl, rfl, rfl, rfl, rfl, decide_eq_true_iff, rfl⟩
    | succ k =>
      obtain ⟨r', hr', block_, number_, check, word, run, damaged, first_⟩ := ih (by simpa [reckon] using h)
      refine ⟨r', hr', block_, by omega, check, word, run, damaged, ?_⟩
      rw [first_, List.take_succ_cons, List.map_cons, List.sum_cons]
      omega

/-- An uncorrectable error is counted and located, marks its block and capture, and raises STORE_ERROR (R52). -/
theorem noteRead_uncorrectable {s : State} {name : CapName} {e : ReadEntry} (h : e.check = some .uncorrectable) :
    State.noteRead name s e = (s.setSto { s.sto with
      uncorrectable := min 65535 (s.sto.uncorrectable + 1), lastErr := some (ErrLoc.mk e.block e.number .uncorrectable)
      blocks := (s.sto.modifyBlock e.block fun b => { b with damaged := true }).blocks
      slots := (s.sto.modify name fun c => { c with damaged := true }).slots }).raiseBoth .storeError := by
  unfold State.noteRead State.modifyCapture Store.modifyBlock
  rw [h]
  simp only
  cases lookupBlock s.sto.blocks e.block <;>
  · simp only [State.setSto_sto]
    unfold Store.modify
    have same : ∀ blocks, Store.capture { s.sto with
        blocks := blocks, uncorrectable := satAdd Config.max16 s.sto.uncorrectable 1
        lastErr := some (ErrLoc.mk e.block e.number .uncorrectable) } name = s.sto.capture name := fun _ => rfl
    rw [same]
    cases s.sto.capture name <;> rfl

theorem noteRead_correctable {s : State} {name : CapName} {e : ReadEntry} (h : e.check = some .correctable) :
    State.noteRead name s e = s.setSto { s.sto with
      correctable := min 65535 (s.sto.correctable + 1), lastErr := some (ErrLoc.mk e.block e.number .correctable) } := by
  unfold State.noteRead
  rw [h]
  rfl

theorem noteRead_clean {s : State} {name : CapName} {e : ReadEntry} (h : e.check = none) : State.noteRead name s e = s := by
  unfold State.noteRead
  rw [h]

/-! ## A list of reads (R51, R52) -/

theorem noteReads_clean {s : State} {name : CapName} {es : List ReadEntry} (h : ∀ e ∈ es, e.check = none) :
    s.noteReads name es = s := by
  unfold State.noteReads
  induction es with
  | nil => rfl
  | cons e rest ih =>
    rw [List.foldl_cons, noteRead_clean (h e (List.mem_cons_self ..))]
    exact ih fun e' he' => h e' (List.mem_cons_of_mem _ he')

/-- What noting reads leaves: all but STO's counts, last location, marks and the notices of a store error. -/
structure NotesOnly (s t : State) : Prop where
  core : KeepsCore s t
  test : t.sto.test = s.sto.test
  evl : t.evl = s.evl
  vrn : t.vrn = s.vrn
  freeIx : t.freeIx = s.freeIx
  notices : ∀ q n, n ≠ .storeError → t.hasNotice q n = s.hasNotice q n

theorem NotesOnly.trans {s t u : State} (h : NotesOnly s t) (k : NotesOnly t u) : NotesOnly s u :=
  ⟨h.core.trans k.core, k.test.trans h.test, k.evl.trans h.evl, k.vrn.trans h.vrn, k.freeIx.trans h.freeIx,
    fun q n ne => (k.notices q n ne).trans (h.notices q n ne)⟩

theorem NotesOnly.of_sto (s : State) {x : Store} (num : x.nextNum = s.sto.nextNum) (test : x.test = s.sto.test) :
    NotesOnly s (s.setSto x) :=
  ⟨setSto_keeps s x num, test, rfl, rfl, rfl, fun _ _ _ => rfl⟩

theorem NotesOnly.raised (s : State) : NotesOnly s (s.raiseBoth .storeError) :=
  ⟨raiseBoth_keeps _ _, rfl, rfl, rfl, rfl, fun q n ne => by rw [hasNotice_raiseBoth, decide_eq_false ne, Bool.or_false]⟩

theorem hasNotice_answer (s : State) (p q : Port) (tag : Byte) (a : Answer) (n : Notice) :
    (s.answer p tag a).hasNotice q n = s.hasNotice q n := by
  cases p <;> cases q <;> rfl

section

variable (name : CapName) (s : State) (e : ReadEntry) (es : List ReadEntry)

theorem noteRead_only : NotesOnly s (State.noteRead name s e) := by
  cases h : e.check with
  | none =>
    rw [noteRead_clean h]
    exact .of_sto s rfl rfl
  | some k =>
    cases k with
    | correctable =>
      rw [noteRead_correctable h]
      exact .of_sto s rfl rfl
    | uncorrectable =>
      rw [noteRead_uncorrectable h]
      refine NotesOnly.trans ?_ (.raised _)
      exact .of_sto s rfl rfl

theorem noteReads_only : NotesOnly s (s.noteReads name es) := by
  unfold State.noteReads
  induction es generalizing s with
  | nil => exact .of_sto s rfl rfl
  | cons e rest ih => exact (noteRead_only name s e).trans (ih _)

/-! One read's effect on each part of STO, and on the notices (R51, R52). -/

theorem noteRead_corrected : (State.noteRead name s e).sto.correctable =
    if e.check = some .correctable then min 65535 (s.sto.correctable + 1) else s.sto.correctable := by
  cases h : e.check with
  | none => rw [noteRead_clean h]; rfl
  | some k =>
    cases k with
    | correctable => rw [noteRead_correctable h]; rfl
    | uncorrectable => rw [noteRead_uncorrectable h]; rfl

theorem noteRead_uncorrected : (State.noteRead name s e).sto.uncorrectable =
    if e.check = some .uncorrectable then min 65535 (s.sto.uncorrectable + 1) else s.sto.uncorrectable := by
  cases h : e.check with
  | none => rw [noteRead_clean h]; rfl
  | some k =>
    cases k with
    | correctable => rw [noteRead_correctable h]; rfl
    | uncorrectable => rw [noteRead_uncorrectable h]; rfl

theorem noteRead_located {k : ErrLocKind} (h : e.check = some k) :
    (State.noteRead name s e).sto.lastErr = some (ErrLoc.mk e.block e.number k) := by
  cases k with
  | correctable => rw [noteRead_correctable h]; rfl
  | uncorrectable => rw [noteRead_uncorrectable h]; rfl

/-- The DAMAGED mark of a block, set where told. -/
def Block.markedIf (bad : Bool) (b : Block) : Block := if bad then { b with damaged := true } else b

theorem markedIf_false : Block.markedIf false = id := rfl

theorem markedIf_comp (x y : Bool) : Block.markedIf y ∘ Block.markedIf x = Block.markedIf (x || y) := by
  cases x <;> cases y <;> rfl

theorem noteRead_blocks (n : Nat) : lookupBlock (State.noteRead name s e).sto.blocks n =
    (lookupBlock s.sto.blocks n).map (Block.markedIf (e.block == n && decide (e.check = some .uncorrectable))) := by
  cases h : e.check with
  | none =>
    rw [noteRead_clean h]
    simp [markedIf_false]
  | some k =>
    cases k with
    | correctable =>
      rw [noteRead_correctable h]
      simp [markedIf_false]
    | uncorrectable =>
      rw [noteRead_uncorrectable h]
      refine (modifyBlock_lookup _ e.block n _).trans ?_
      by_cases at_ : n = e.block
      · subst at_
        rw [if_pos rfl, beq_self_eq_true, decide_eq_true rfl]
        rfl
      · rw [if_neg at_]
        simp [beq_false_of_ne (Ne.symm at_), markedIf_false]

theorem noteRead_capture {c : Capture} (hc : s.sto.capture name = some c) :
    (State.noteRead name s e).sto.slots = s.sto.slots.set name.slot
      (some (if e.check = some .uncorrectable then { c with damaged := true } else c)) := by
  have same : s.sto.slots.set name.slot (some c) = s.sto.slots := quad_set_same (slots_of_capture hc |>.1)
  cases h : e.check with
  | none => rw [noteRead_clean h]; exact same.symm
  | some k =>
    cases k with
    | correctable => rw [noteRead_correctable h]; exact same.symm
    | uncorrectable =>
      rw [noteRead_uncorrectable h, if_pos rfl]
      show (s.sto.modify name _).slots = _
      unfold Store.modify
      rw [hc]

theorem noteRead_raises (q : Port) : (State.noteRead name s e).hasNotice q .storeError =
    (s.hasNotice q .storeError || decide (e.check = some .uncorrectable)) := by
  cases h : e.check with
  | none => rw [noteRead_clean h]; exact (Bool.or_false _).symm
  | some k =>
    cases k with
    | correctable => rw [noteRead_correctable h]; exact (Bool.or_false _).symm
    | uncorrectable => rw [noteRead_uncorrectable h, hasNotice_raiseBoth]; rfl

/-! The effect of a list of reads: the same parts, by induction on the list. -/

theorem hits_cons_hit {k : ErrLocKind} {e : ReadEntry} (hit : e.check = some k) (rest : List ReadEntry) :
    (e :: rest).countP (fun e => decide (e.check = some k)) = rest.countP (fun e => decide (e.check = some k)) + 1 :=
  List.countP_cons_of_pos (p := fun e : ReadEntry => decide (e.check = some k)) (decide_eq_true hit)

theorem hits_cons_other {k : ErrLocKind} {e : ReadEntry} (hit : e.check ≠ some k) (rest : List ReadEntry) :
    (e :: rest).countP (fun e => decide (e.check = some k)) = rest.countP (fun e => decide (e.check = some k)) :=
  List.countP_cons_of_neg (p := fun e : ReadEntry => decide (e.check = some k)) (by rw [decide_eq_true_iff]; exact hit)

/-- A count that saturates at 65535 and grows with each read of one kind. -/
theorem noteReads_count {f : State → Nat} {k : ErrLocKind}
    (step : ∀ s e, f (State.noteRead name s e) = if e.check = some k then min 65535 (f s + 1) else f s) :
    f (s.noteReads name es) = if es.countP (fun e => decide (e.check = some k)) = 0 then f s
      else min 65535 (f s + es.countP fun e => decide (e.check = some k)) := by
  induction es generalizing s with
  | nil => rfl
  | cons e rest ih =>
    refine (ih (State.noteRead name s e)).trans ?_
    rw [step]
    by_cases hit : e.check = some k
    · rw [if_pos hit, hits_cons_hit hit, if_neg (Nat.succ_ne_zero _)]
      split <;> omega
    · rw [if_neg hit, hits_cons_other hit]

theorem noteReads_append (more : List ReadEntry) : s.noteReads name (es ++ more) = (s.noteReads name es).noteReads name more :=
  List.foldl_append

theorem noteReads_blocks (n : Nat) : lookupBlock (s.noteReads name es).sto.blocks n = (lookupBlock s.sto.blocks n).map
    (Block.markedIf (es.any fun e => e.block == n && decide (e.check = some .uncorrectable))) := by
  induction es generalizing s with
  | nil => exact (congrFun Option.map_id _).symm
  | cons e rest ih =>
    refine (ih (State.noteRead name s e)).trans ?_
    rw [noteRead_blocks, Option.map_map, markedIf_comp, List.any_cons]

theorem noteReads_slots {c : Capture} (hc : s.sto.capture name = some c) :
    (s.noteReads name es).sto.slots = s.sto.slots.set name.slot
      (some (if es.countP (fun e => decide (e.check = some .uncorrectable)) = 0 then c else { c with damaged := true })) := by
  induction es generalizing s c with
  | nil => exact (quad_set_same (slots_of_capture hc).1).symm
  | cons e rest ih =>
    have num : c.num = name.num := (slots_of_capture hc).2
    have slots := noteRead_capture name s e hc
    have held := capture_of_slots_set slots (by split <;> exact num)
    refine (ih (State.noteRead name s e) held).trans ?_
    rw [slots, quad_set_set]
    by_cases hit : e.check = some .uncorrectable
    · rw [if_pos hit, hits_cons_hit hit, if_neg (Nat.succ_ne_zero _), ite_self]
    · rw [if_neg hit, hits_cons_other hit]

theorem noteReads_raises (q : Port) : (s.noteReads name es).hasNotice q .storeError =
    (s.hasNotice q .storeError || !(es.countP (fun e => decide (e.check = some .uncorrectable)) == 0)) := by
  induction es generalizing s with
  | nil => exact (Bool.or_false _).symm
  | cons e rest ih =>
    refine (ih (State.noteRead name s e)).trans ?_
    rw [noteRead_raises]
    by_cases hit : e.check = some .uncorrectable
    · rw [hits_cons_hit hit, decide_eq_true hit, Bool.or_true, Bool.true_or,
        beq_false_of_ne (Nat.succ_ne_zero _), Bool.not_false, Bool.or_true]
    · rw [hits_cons_other hit, decide_eq_false hit, Bool.or_false]

end

/-- What a list of reads did, told of the state that notes them (R51, R52). -/
theorem noteReads_noted {s : State} {name : CapName} {c : Capture} (hc : s.sto.capture name = some c) (es : List ReadEntry) :
    s.readsNoted (s.noteReads name es) name es := by
  have slots := noteReads_slots name s es hc
  refine ⟨noteReads_count name s es (f := fun t => t.sto.correctable) (noteRead_corrected name),
    noteReads_count name s es (f := fun t => t.sto.uncorrectable) (noteRead_uncorrected name),
    fun c0 u0 => ?_, fun before after e k split_ hit clean => ?_, noteReads_blocks name s es, fun d hd => ?_, fun i hi => ?_,
    (noteReads_only name s es).core.nextNum, (noteReads_only name s es).test, noteReads_raises name s es⟩
  · refine congrArg (fun t : State => t.sto.lastErr) (noteReads_clean fun e he => ?_)
    rw [List.countP_eq_zero] at c0 u0
    have notC := c0 e he
    have notU := u0 e he
    rw [decide_eq_true_iff] at notC notU
    cases h : e.check with
    | none => rfl
    | some k => cases k <;> contradiction
  · rw [split_, noteReads_append]
    show ((State.noteRead name (s.noteReads name before) e).noteReads name after).sto.lastErr = _
    rw [noteReads_clean clean]
    exact noteRead_located name _ e hit
  · obtain rfl : c = d := Option.some.inj (hc.symm.trans hd)
    exact capture_of_slots_set slots (by split <;> exact (slots_of_capture hc).2)
  · rw [slots, quad_get_set_ne _ _ hi]

/-- Reads are judged by the store and the notices. -/
theorem readsNoted_of_same {s t u : State} {name : CapName} {es : List ReadEntry} (h : s.readsNoted t name es) (sto : u.sto = t.sto)
    (notices : ∀ q, u.hasNotice q .storeError = t.hasNotice q .storeError) : s.readsNoted u name es := by
  unfold State.readsNoted at *
  simp only [sto, notices]
  exact h

/-! ## What READ_RECORDS reads (R49, R50; log 16) -/

/-- The reads of a chain from the block that holds a start index on. -/
def readableFrom (chain : List (Nat × Block)) (start : Nat) : List ReadEntry :=
  (chain.dropWhile fun e => e.2.endIndex ≤ start).flatMap readsOf

/-- The reads of the start's block that lie before the start. -/
def passedOver (start : Nat) (all : List ReadEntry) : List ReadEntry :=
  all.takeWhile fun e => e.read.first + e.read.run ≤ start

/-- The reads from the start's record on. -/
def readsLeft (start : Nat) (all : List ReadEntry) : List ReadEntry :=
  all.dropWhile fun e => e.read.first + e.read.run ≤ start

theorem drop_passedOver (start : Nat) (all : List ReadEntry) : all.drop (passedOver start all).length = readsLeft start all := by
  have parts : passedOver start all ++ readsLeft start all = all := List.takeWhile_append_dropWhile
  calc all.drop (passedOver start all).length
    _ = (passedOver start all ++ readsLeft start all).drop (passedOver start all).length := by rw [parts]
    _ = readsLeft start all := List.drop_left

theorem passedOver_length (start : Nat) (all : List ReadEntry) :
    (passedOver start all).length + (readsLeft start all).length = all.length := by
  rw [← List.length_append]
  exact congrArg List.length List.takeWhile_append_dropWhile

theorem readFrom_eq (chain : List (Nat × Block)) (start count : Nat) : readFrom chain start count =
    (passedOver start (readableFrom chain start), (readsLeft start (readableFrom chain start)).take count) :=
  Prod.ext rfl (congrArg (List.take count) (drop_passedOver _ _))

/-- The answer is complete exactly when no more reads are left than asked for. -/
theorem atEnd_iff (start count : Nat) (all : List ReadEntry) :
    (passedOver start all).length + ((readsLeft start all).take count).length = all.length ↔ (readsLeft start all).length ≤ count := by
  have parts := passedOver_length start all
  rw [List.length_take]
  omega

/-! A chain that reads clean. -/

theorem reckon_clean {records : List Rec} (clean : ∀ r ∈ records, r.flips = 0) (block number first : Nat) :
    (reckon block number first records).map (fun e => e.read) = plainRecords first records ∧
      ∀ e ∈ reckon block number first records, e.check = none := by
  induction records generalizing number first with
  | nil => exact ⟨rfl, fun e he => nomatch he⟩
  | cons r rest ih =>
    have sound := checkOf_clean (clean r (List.mem_cons_self ..))
    obtain ⟨word, run⟩ := read_true (r := r) (by rw [sound]; exact nofun)
    obtain ⟨reads, checks⟩ := ih (fun y hy => clean y (List.mem_cons_of_mem _ hy)) (number + 1) (first + r.run)
    unfold reckon plainRecords
    rw [List.map_cons, word, run, sound, reads]
    refine ⟨rfl, fun e he => ?_⟩
    obtain rfl | later := List.mem_cons.1 he
    · rfl
    · exact checks e later

/-- The records of a block end no later than the block. -/
theorem plainRecords_end {records : List Rec} {first : Nat} {x : ReadRec} (h : x ∈ plainRecords first records) :
    x.first + x.run ≤ first + (records.map fun r => r.run).sum := by
  induction records generalizing first with
  | nil => cases h
  | cons r rest ih =>
    rw [List.map_cons, List.sum_cons]
    obtain rfl | later := List.mem_cons.1 h
    · show first + r.run ≤ _
      omega
    · have := ih later
      omega

/-- Leaving out leading parts that hold only what is passed over changes nothing of what is left. -/
theorem dropWhile_flatMap {α β : Type} {g : α → List β} {q : α → Bool} {p : β → Bool} {l : List α}
    (h : ∀ a ∈ l, q a = true → ∀ b ∈ g a, p b = true) : ((l.dropWhile q).flatMap g).dropWhile p = (l.flatMap g).dropWhile p := by
  induction l with
  | nil => rfl
  | cons a rest ih =>
    cases skip : q a with
    | false => rw [List.dropWhile_cons_of_neg (by rw [skip]; exact Bool.false_ne_true)]
    | true =>
      rw [List.dropWhile_cons_of_pos skip, List.flatMap_cons,
        List.dropWhile_append_of_pos (h a (List.mem_cons_self ..) skip)]
      exact ih fun a' ha' => h a' (List.mem_cons_of_mem _ ha')

theorem readsLeft_clean {chain : List (Nat × Block)} (clean : ∀ e ∈ chain, ∀ r ∈ e.2.records, r.flips = 0) (start : Nat) :
    (readsLeft start (readableFrom chain start)).map (fun e => e.read) =
      (chain.flatMap fun e => plainRecords e.2.first e.2.records).dropWhile fun r => decide (r.first + r.run ≤ start) := by
  have blocks : ∀ l : List (Nat × Block), (∀ e ∈ l, ∀ r ∈ e.2.records, r.flips = 0) →
      (l.flatMap readsOf).map (fun e => e.read) = l.flatMap fun e => plainRecords e.2.first e.2.records := fun l hl => by
    rw [List.map_flatMap]
    exact List.flatMap_congr fun e he => (reckon_clean (hl e he) _ _ _).1
  have kept : ∀ e ∈ chain.dropWhile fun e => decide (e.2.endIndex ≤ start), e ∈ chain := fun e he =>
    (List.dropWhile_sublist _).subset he
  have passes : ∀ e ∈ chain, decide (e.2.endIndex ≤ start) = true → ∀ r ∈ plainRecords e.2.first e.2.records,
      decide (r.first + r.run ≤ start) = true := fun e _ he r hr => by
    rw [decide_eq_true_iff] at he ⊢
    exact (plainRecords_end hr).trans he
  rw [← dropWhile_flatMap passes, ← blocks _ fun e he => clean e (kept e he), List.dropWhile_map]
  rfl

theorem readableFrom_clean {chain : List (Nat × Block)} (clean : ∀ e ∈ chain, ∀ r ∈ e.2.records, r.flips = 0) (start : Nat) :
    ∀ e ∈ readableFrom chain start, e.check = none := fun e he => by
  obtain ⟨b, hb, hr⟩ := List.mem_flatMap.1 he
  exact (reckon_clean (clean b ((List.dropWhile_sublist _).subset hb)) _ _ _).2 e hr

/-! ## The answer (R35, R49) -/

section

variable {slot count : Byte} {num : BitVec 16} {start : BitVec 64} {s : State}

theorem readRecordsAnswer_count (h : count.toNat = 0 ∨ 128 < count.toNat) :
    readRecordsAnswer slot num start count s = (s, .plain .invalid) := if_pos (by omega)

theorem readRecordsAnswer_unnamed {a : Answer} (least : 1 ≤ count.toNat) (most : count.toNat ≤ 128) (h : s.named slot num = .error a) :
    readRecordsAnswer slot num start count s = (s, a) := by
  unfold readRecordsAnswer
  rw [if_neg (by omega), h]

theorem readRecordsAnswer_beyond {name : CapName} {c : Capture} (least : 1 ≤ count.toNat) (most : count.toNat ≤ 128)
    (h : s.named slot num = .ok (name, c)) (beyond : s.sto.writtenEnd c ≤ start.toNat) :
    readRecordsAnswer slot num start count s = (s, .records (s.sto.oldestIndex c) (s.sto.writtenEnd c) false true []) := by
  unfold readRecordsAnswer
  rw [if_neg (by omega), h]
  exact if_pos beyond

theorem readRecordsAnswer_within {name : CapName} {c : Capture} (least : 1 ≤ count.toNat) (most : count.toNat ≤ 128)
    (h : s.named slot num = .ok (name, c)) (within : start.toNat < s.sto.writtenEnd c) {m : Nat} {all : List ReadEntry}
    (hm : m = max start.toNat (s.sto.oldestIndex c)) (ha : all = readableFrom (s.sto.chain c) m) :
    readRecordsAnswer slot num start count s =
      (s.noteReads name (passedOver m all ++ (readsLeft m all).take count.toNat),
        .records (s.sto.oldestIndex c) (s.sto.writtenEnd c) (decide (start.toNat < s.sto.oldestIndex c))
          (decide ((readsLeft m all).length ≤ count.toNat)) (((readsLeft m all).take count.toNat).map fun e => e.read)) := by
  unfold readRecordsAnswer
  subst hm ha
  rw [if_neg (by omega), h]
  simp only
  rw [if_neg (Nat.not_le.2 within), readFrom_eq, ← decide_eq_decide.2 (atEnd_iff _ count.toNat _)]
  rfl

end

theorem execReadRecords_taken {p : Port} {tag slot count : Byte} {num : BitVec 16} {start : BitVec 64} {s : State}
    (h : s.holds p (.readRecords p tag slot num start count)) : exec (.readRecords p tag slot num start count) s =
      .next ((readRecordsAnswer slot num start count s).1.answer p tag (readRecordsAnswer slot num start count s).2) :=
  request_taken _ _ _ _ _ h

/-- What an uncorrectable read leaves of the store, with its block and capture held (R52). -/
theorem noteRead_damages {s : State} {name : CapName} {c : Capture} {e : ReadEntry} {b : Block} (hc : s.sto.capture name = some c)
    (hb : lookupBlock s.sto.blocks e.block = some b) (h : e.check = some .uncorrectable) :
    (State.noteRead name s e).sto = { s.sto with
        uncorrectable := min 65535 (s.sto.uncorrectable + 1), lastErr := some (ErrLoc.mk e.block e.number .uncorrectable)
        blocks := (State.noteRead name s e).sto.blocks, slots := s.sto.slots.set name.slot (some { c with damaged := true }) } ∧
      lookupBlock (State.noteRead name s e).sto.blocks e.block = some { b with damaged := true } ∧
      ∀ n, n ≠ e.block → lookupBlock (State.noteRead name s e).sto.blocks n = lookupBlock s.sto.blocks n := by
  have slots := noteRead_capture name s e hc
  rw [if_pos h] at slots
  refine ⟨?_, ?_, fun n hn => ?_⟩
  · rw [← slots, noteRead_uncorrectable h]
    rfl
  · rw [noteRead_blocks, hb, h, beq_self_eq_true]
    rfl
  · rw [noteRead_blocks, beq_false_of_ne (Ne.symm hn), Bool.false_and, markedIf_false]
    exact congrFun Option.map_id _

/-- Settles O36: the request by its checks in order, and every read by what its check finds. -/
theorem readRecords : Obligations.ReadRecords := by
  refine ⟨fun p tag slot num start count s h => ?_, fun word run least most => ?_, fun n b k e he => ?_, fun s name c e b hc hb => ?_⟩
  · extract_lets ctl answers
    refine ⟨fun refused => ?_, fun i hi least most => ⟨fun gone => ?_, fun c hc num_ => ?_⟩⟩
    · have invalid : readRecordsAnswer slot num start count s = (s, .plain .invalid) := by
        by_cases range : count.toNat = 0 ∨ 128 < count.toNat
        · exact readRecordsAnswer_count range
        · exact readRecordsAnswer_unnamed (by omega) (by omega) (named_invalid s (by omega) num)
      show exec _ s = _
      rw [execReadRecords_taken h, invalid]
      rfl
    · show exec _ s = _
      rw [execReadRecords_taken h, readRecordsAnswer_unnamed least most (named_gone hi gone)]
      rfl
    · have held : s.sto.capture ⟨i, c.num⟩ = some c := capture_of_slot_num hc
      have named := named_held hi hc num_
      rw [← num_] at named
      extract_lets oldest written left all passed given
      refine ⟨fun beyond => ?_, fun within clean => ?_, fun within _ => ?_⟩
      · show exec _ s = _
        rw [execReadRecords_taken h, readRecordsAnswer_beyond least most named beyond]
        rfl
      · have reads := readsLeft_clean clean (max start.toNat oldest)
        have checks := readableFrom_clean clean (max start.toNat oldest)
        have answer := readRecordsAnswer_within least most named within rfl rfl
        rw [noteReads_clean fun e he => checks e ?_, List.map_take, reads, ← List.length_map (f := fun e : ReadEntry => e.read), reads]
          at answer
        · show exec _ s = _
          rw [execReadRecords_taken h, answer]
          rfl
        · obtain first | later := List.mem_append.1 he
          · exact (List.takeWhile_sublist _).subset first
          · exact (List.dropWhile_sublist _).subset (List.mem_of_mem_take later)
      · have answer := readRecordsAnswer_within least most named within rfl (ha := (rfl : all = _))
        have rest : given = (readsLeft (max start.toNat oldest) all).take count.toNat :=
          congrArg (List.take count.toNat) (drop_passedOver _ _)
        have parts := passedOver_length (max start.toNat oldest) all
        have atEnd : decide (all.length ≤ passed.length + count.toNat) =
            decide ((readsLeft (max start.toNat oldest) all).length ≤ count.toNat) :=
          decide_eq_decide.2 (by show _ ≤ (passedOver _ all).length + _ ↔ _; omega)
        have only := noteReads_only ⟨i, c.num⟩ s (passed ++ given)
        rw [execReadRecords_taken h, answer, atEnd, ← rest]
        refine ⟨_, rfl, ⟨?_, ?_⟩, ?_, fun q n ne => ?_, only.core.acq, only.core.smp, only.core.trg, only.core.lanes, only.evl, only.vrn,
          only.core.timebase, only.core.pods, only.core.pending, only.freeIx⟩
        · rw [answer_get]
        · rw [answer_get_other]
          exact only.core.slot _
        · exact readsNoted_of_same (noteReads_noted held _) rfl fun q => hasNotice_answer _ _ _ _ _ _
        · rw [hasNotice_answer]
          exact only.notices q n ne
  · have sound : ∀ f, f = 0 ∨ f = 1 → checkOf (Rec.mk word run f) ≠ some .uncorrectable := fun f hf => by
      obtain rfl | rfl := hf
      · rw [checkOf_clean rfl]; exact nofun
      · rw [checkOf_single rfl]; exact nofun
    obtain ⟨wordRead, runRead⟩ := read_double (word := word) least most
    exact ⟨fun f hf => read_true (sound f hf), wordRead, runRead, checkOf_clean rfl, checkOf_single rfl, checkOf_double rfl⟩
  · obtain ⟨r, hr, block, number, rest⟩ := reckon_get he
    exact ⟨r, hr, block, number.trans (Nat.zero_add k), rest⟩
  · refine ⟨noteRead_clean, noteRead_correctable, fun damaged => ⟨_, rfl, ?_⟩⟩
    obtain ⟨sto, here, elsewhere⟩ := noteRead_damages hc hb damaged
    have only := noteRead_only name s e
    have ports : (State.noteRead name s e).ports = (s.raiseBoth .storeError).ports := by
      rw [noteRead_uncorrectable damaged]
      rfl
    exact ⟨sto, here, elsewhere, portsGain_raiseBoth _ ports, slotsKept_raiseBoth _ ports, only.core.acq, only.core.smp, only.core.trg,
      only.core.lanes, only.evl, only.vrn, only.core.timebase, only.core.pods, only.core.pending, only.freeIx⟩

end Sys2Proof.Machine
end

section
/-! SUPPORT. The law of the engine (R58) in two parts, and the proof that every step keeps it (O6). -/

namespace Sys2Proof.Machine

open Sys2Proof

/-! ## The captures that are not COMPLETE -/

/-- The number of the capture in slot `i`, where it holds one that is not COMPLETE. -/
def Store.openNum (x : Store) (i : Four) : Option Nat :=
  (x.slots.get i).bind fun c => if c.complete then none else some c.num

theorem openNum_eq_some {x : Store} {i : Four} {n : Nat} :
    x.openNum i = some n ↔ ∃ c, x.slots.get i = some c ∧ c.complete = false ∧ c.num = n := by
  unfold Store.openNum
  rw [Option.bind_eq_some_iff]
  refine exists_congr fun c => and_congr_right fun _ => ?_
  cases c.complete <;> simp

/-- A name is that of an open capture exactly when it is held and not COMPLETE (R35). -/
theorem openNum_name {x : Store} {name : CapName} :
    x.openNum name.slot = some name.num ↔ ∃ c, x.capture name = some c ∧ c.complete = false := by
  rw [openNum_eq_some]
  constructor
  · rintro ⟨c, hc, incomplete, num⟩
    have held := capture_of_slot_num hc
    rw [num] at held
    exact ⟨c, held, incomplete⟩
  · rintro ⟨c, hc, incomplete⟩
    obtain ⟨slot, num⟩ := slots_of_capture hc
    exact ⟨c, slot, incomplete, num⟩

theorem openNum_of_slots {x y : Store} (h : y.slots = x.slots) : y.openNum = x.openNum := by
  unfold Store.openNum
  rw [h]

theorem openNum_set (x : Store) {y : Store} {i : Four} {v : Option Capture} (h : y.slots = x.slots.set i v) :
    y.openNum = Function.update x.openNum i (v.bind fun c => if c.complete then none else some c.num) := by
  funext j
  unfold Store.openNum
  rw [h]
  by_cases e : j = i
  · subst e
    rw [quad_get_set, Function.update_self]
  · rw [quad_get_set_ne _ _ e, Function.update_of_ne e]

/-- A change of a capture's record that takes neither its number nor COMPLETE. -/
theorem openNum_modify (x : Store) (name : CapName) {f : Capture → Capture}
    (hf : ∀ c, (f c).num = c.num ∧ (f c).complete = c.complete) : (x.modify name f).openNum = x.openNum := by
  unfold Store.modify
  split
  · next c hc =>
    obtain ⟨num, complete⟩ := hf c
    rw [openNum_set x rfl, Option.bind_some, num, complete, Function.update_eq_self_iff]
    unfold Store.openNum
    rw [(slots_of_capture hc).1]
    rfl
  · rfl

/-! ## Parts of a step that leave the open captures and the ACTIVE one -/

/-- The same captures are open, and the same one is ACTIVE. -/
structure SameOpen (s t : State) : Prop where
  captures : t.sto.openNum = s.sto.openNum
  active : t.acq.active = s.acq.active

namespace SameOpen

variable {s t u : State}

theorem refl (s : State) : SameOpen s s := ⟨rfl, rfl⟩

theorem trans (h : SameOpen s t) (k : SameOpen t u) : SameOpen s u := ⟨k.captures.trans h.captures, k.active.trans h.active⟩

theorem of_slots (slots : t.sto.slots = s.sto.slots) (active : t.acq.active = s.acq.active) : SameOpen s t :=
  ⟨openNum_of_slots slots, active⟩

theorem of_modify (name : CapName) {f : Capture → Capture} (hf : ∀ c, (f c).num = c.num ∧ (f c).complete = c.complete) :
    SameOpen s (s.modifyCapture name f) := ⟨openNum_modify s.sto name hf, rfl⟩

theorem of_modifyActive {f : Capture → Capture} (hf : ∀ c, (f c).num = c.num ∧ (f c).complete = c.complete) :
    SameOpen s (s.modifyActive f) := by
  unfold State.modifyActive
  split
  · exact of_modify _ hf
  · exact refl s

end SameOpen

open SameOpen

/-! ### Removals and events (R40, R45, R138 to R143) -/

theorem removeCapture_openNum (s : State) (i : Four) :
    (s.removeCapture i).sto.openNum = Function.update s.sto.openNum i none := openNum_set s.sto (removeCapture_slots s i)

/-- A reclaim's victim is COMPLETE (R40). -/
theorem reclaim_sameOpen {s t : State} (h : s.reclaim = some t) : SameOpen s t := by
  obtain ⟨i, hv, slots⟩ := reclaim_slots h
  obtain ⟨v, hslot, complete, -⟩ := victim_some _ _ hv
  refine ⟨?_, by rw [(reclaim_keeps h).acq]⟩
  rw [openNum_set s.sto slots]
  refine Function.update_eq_self_iff.2 ?_
  unfold Store.openNum
  rw [hslot, Option.bind_some, if_pos complete]
  rfl

theorem enterWithRoom_sameOpen (fuel : Nat) (e : Event) (s : State) : SameOpen s (State.enterWithRoom fuel e s) := by
  have appended : ∀ u : State, SameOpen u (u.appendEvent e) := fun u =>
    of_slots (by rw [appendEvent_sto]) (by rw [(appendEvent_keeps u e).acq])
  have counted : ∀ u : State, SameOpen u
      (u.modifyCapture e.cap fun c => { c with truncated := satAdd Config.max32 c.truncated 1 }) := fun u =>
    of_modify _ fun _ => ⟨rfl, rfl⟩
  induction fuel generalizing s with
  | zero =>
    unfold State.enterWithRoom
    split
    · exact appended s
    · exact counted s
  | succ n ih =>
    unfold State.enterWithRoom
    split
    · exact appended s
    · split
      · next hf hr => cases hf; exact (reclaim_sameOpen hr).trans (ih _)
      · exact counted s

theorem enterHead_sameOpen (s : State) (l : List Event) : SameOpen s (l.head?.elim s s.enterEvent) := by
  cases l with
  | nil => exact refl s
  | cons e _ =>
    show SameOpen s (s.enterEvent e)
    unfold State.enterEvent
    split
    · exact refl s
    · split
      · exact of_modify _ fun _ => ⟨rfl, rfl⟩
      · exact enterWithRoom_sameOpen _ _ _

theorem enterAll_sameOpen (fuel : Nat) (events : Quad (List Event)) (s : State) : SameOpen s (State.enterAll fuel events s) := by
  induction fuel generalizing s events with
  | zero => exact refl s
  | succ n ih =>
    unfold State.enterAll
    split
    · exact refl s
    · exact (enterHead_sameOpen s _).trans (ih _ _)
    · have chosen : SameOpen s (s.setFreeIx (s.freeIx + 1)) := of_slots rfl rfl
      exact (chosen.trans (enterHead_sameOpen _ _)).trans (ih _ _)

theorem handOn_sameOpen (s : State) (lanes : Quad Lane) (out : Quad (List Emission)) (n : Nat) :
    SameOpen s (s.handOn lanes out n).1 := by
  unfold State.handOn
  extract_lets fx
  have counted : SameOpen (s.setLanes (lanesAfter lanes fx n))
      ((s.setLanes (lanesAfter lanes fx n)).modifyActive fun c => c.countLanes fx) := of_modifyActive fun _ => ⟨rfl, rfl⟩
  have told : ∀ u : State, SameOpen u (u.noteMatches fx) := fun u => by
    unfold State.noteMatches
    split
    · exact of_slots rfl rfl
    · exact refl u
  have handed : SameOpen s (s.setLanes (lanesAfter lanes fx n)) := of_slots rfl rfl
  exact ((handed.trans counted).trans (told _)).trans (enterAll_sameOpen _ _ _)

/-! ### Placing and reading records (R38 to R42, R49 to R52) -/

theorem recycle_sameOpen (s : State) (name : CapName) (c : Capture) (index : Nat) : SameOpen s (s.recycle name c index) := by
  have stored : SameOpen s (s.setSto (s.sto.recycle name c index)) := by
    refine ⟨?_, rfl⟩
    show (s.sto.recycle name c index).openNum = s.sto.openNum
    unfold Store.recycle
    split
    · split
      · rw [openNum_of_slots (appendBlock_slots _ _ _ _ _)]
        exact openNum_modify _ _ fun _ => ⟨rfl, rfl⟩
      · rfl
    · rfl
  have expired : ∀ (u : State) (t : Nat), SameOpen u (u.expireEvents name t) := fun u t => by
    unfold State.expireEvents
    extract_lets gone k
    have left_ : SameOpen u (u.setEvl (u.evl.remove fun e => gone e)) := of_slots rfl rfl
    exact left_.trans (of_modify name fun _ => ⟨rfl, rfl⟩)
  unfold State.recycle
  dsimp only
  split
  · split
    · exact stored.trans (expired _ _)
    · exact stored
  · exact stored

theorem nextBlock_sameOpen {s t : State} {name : CapName} {c : Capture} {index : Nat} (h : s.nextBlock name c index = some t) :
    SameOpen s t := by
  have recycled : ∀ {u}, (if c.mode = .window && s.sto.canRecycle c then some (s.recycle name c index) else none) = some u →
      SameOpen s u := by
    intro u hu
    split at hu
    · cases hu; exact recycle_sameOpen _ _ _ _
    · cases hu
  have appended : ∀ (u : State) n, SameOpen u (u.setSto (u.sto.appendBlock name c n index)) := fun u n =>
    of_slots (appendBlock_slots _ _ _ _ _) rfl
  unfold State.nextBlock at h
  dsimp only at h
  split at h
  · split at h
    · cases h; exact appended _ _
    · split at h
      · next hr =>
        split at h
        · cases h; exact (reclaim_sameOpen hr).trans (appended _ _)
        · exact recycled h
      · exact recycled h
  · exact recycled h

theorem holdSample_sameOpen (s : State) (x : Sampling) (name : CapName) (word : ChannelWord) :
    SameOpen s (s.holdSample x name word).1 := by
  have placed : ∀ (u : State) n b index, SameOpen u (u.setSto (u.sto.appendRecord n b word index)) := fun _ _ _ _ =>
    of_slots rfl rfl
  unfold State.holdSample
  split
  · refine of_slots ?_ rfl
    simp only [State.setSto_sto]
    unfold Store.extendRecord
    split <;> rfl
  · unfold State.placeRecord
    split
    · next n b c _ _ =>
      split
      · exact placed s n b _
      · have sealed_ : SameOpen s (s.setSto (s.sto.seal n)) := of_slots (seal_slots _ _) rfl
        dsimp only
        split
        · next hn =>
          have found := sealed_.trans (nextBlock_sameOpen hn)
          split
          · exact found.trans (placed _ _ _ _)
          · exact found
        · exact sealed_
    · exact refl s

theorem noteReads_sameOpen (s : State) (name : CapName) (es : List ReadEntry) : SameOpen s (s.noteReads name es) := by
  have one : ∀ (u : State) e, SameOpen u (State.noteRead name u e) := fun u e => by
    unfold State.noteRead
    split
    · exact refl u
    · exact of_slots rfl rfl
    · refine SameOpen.trans (SameOpen.trans ?_ (of_modify name ?_)) (of_slots rfl rfl)
      · exact of_slots (modifyBlock_slots _ _ _) rfl
      · exact fun _ => ⟨rfl, rfl⟩
  unfold State.noteReads
  induction es generalizing s with
  | nil => exact refl s
  | cons e es ih => exact (one s e).trans (ih _)

/-! ### The trigger sequencer and the entry to STOPPING (R66, R70, R97) -/

theorem beginPulse_sameOpen (s : State) : SameOpen s s.beginPulse := by
  unfold State.beginPulse
  dsimp only
  split <;> exact of_slots rfl rfl

theorem stageActions_sameOpen (s : State) (a : StageActions) (n : Nat) : SameOpen s (s.stageActions a n) := by
  unfold State.stageActions
  extract_lets s1 s2
  have h2 : SameOpen s s2 := by
    simp only [s2, s1]
    split <;> exact of_slots rfl rfl
  split
  · exact h2.trans (beginPulse_sameOpen s2)
  · exact h2

theorem declare_sameOpen (s : State) (source : TrigSource) (t : Nat) : SameOpen s (s.declare source t) := by
  obtain ⟨f, hf, stop, e⟩ := declare_eq s source t
  rw [e]
  have recorded : SameOpen s (s.modifyActive f) := of_modifyActive fun c => ⟨(hf c).num, (hf c).complete⟩
  refine (recorded.trans ?_).trans (beginPulse_sameOpen _)
  exact of_slots rfl rfl

theorem trgSample_sameOpen (s : State) (it : SampleItem) (offers : List (Four × Nat)) : SameOpen s (s.trgSample it offers).1 :=
  trgSample_keeps SameOpen.refl SameOpen.trans (fun _ _ => of_slots rfl rfl) stageActions_sameOpen declare_sameOpen
    (fun _ => of_slots rfl rfl) s it offers

theorem stopped_sameOpen (s : State) (why : EndReason) : SameOpen s (s.stopped why) := by
  have ended : SameOpen s ((s.modifyActive fun c => { c with endReason := some why }).setTrg s.trg.toStandby) := by
    refine SameOpen.trans (of_modifyActive ?_) (of_slots rfl rfl)
    exact fun _ => ⟨rfl, rfl⟩
  unfold State.stopped
  refine ended.trans ?_
  generalize (s.modifyActive fun c => { c with endReason := some why }).setTrg s.trg.toStandby = u
  have cut : SameOpen u (u.lanesStop (s.lastRaw.getD 0) s.lastTaken) := (handOn_sameOpen u _ _ _).trans (of_slots rfl rfl)
  exact cut.trans (of_slots rfl rfl)

theorem setOrigin_sameOpen (s : State) (x : Sampling) : SameOpen s (s.setOrigin x) := by
  unfold State.setOrigin
  split
  · extract_lets origin
    have marked : SameOpen s (s.modifyActive fun c => { c with origin := some origin }) := of_modifyActive fun _ => ⟨rfl, rfl⟩
    exact ⟨marked.captures, rfl⟩
  · exact refl s

theorem secureBlock_sameOpen {fuel : Nat} {s : State} {r : State × Nat} (h : State.secureBlock fuel s = some r) : SameOpen s r.1 := by
  induction fuel generalizing s with
  | zero =>
    unfold State.secureBlock at h
    split at h
    · cases h; exact refl s
    · cases h
  | succ n ih =>
    unfold State.secureBlock at h
    split at h
    · cases h; exact refl s
    · split at h
      · next hf hr => cases hf; exact (reclaim_sameOpen hr).trans (ih h)
      · cases h

theorem secure_sameOpen {s u : State} {i : Four} {n : Nat} (h : s.secure = some (u, i, n)) : SameOpen s u := by
  unfold State.secure at h
  split at h
  · obtain ⟨r, hr, e⟩ := Option.map_eq_some_iff.1 h
    cases e
    exact secureBlock_sameOpen hr
  · split at h
    · next hre =>
      obtain ⟨r, hr, e⟩ := Option.map_eq_some_iff.1 h
      cases e
      exact (reclaim_sameOpen hre).trans (secureBlock_sameOpen hr)
    · cases h

end Sys2Proof.Machine
end

section
/-! SUPPORT. The law of the engine on every command, and the proof that every step keeps it (O6). -/

namespace Sys2Proof.Machine

open Sys2Proof

/-! ## The law in two parts -/

/-- `State.engineLaw` in two parts: the presence of ACQ's, SMP's and TRG's fields, and the one open capture, which is the ACTIVE one. -/
structure State.EngineParts (s : State) : Prop where
  form : EngineForm s.acq s.smp s.trg.state
  captures : ∀ i n, s.sto.openNum i = some n ↔ s.acq.active = some ⟨i, n⟩

/-- The one open capture is the ACTIVE one: said with numbers, and with slots and records (R58). -/
theorem openNum_active_iff (x : Store) (active : Option CapName) : (∀ i n, x.openNum i = some n ↔ active = some ⟨i, n⟩) ↔
    (active = none → ∀ i c, x.slots.get i = some c → c.complete = true) ∧
    ∀ name, active = some name → (∃ c, x.capture name = some c ∧ c.complete = false) ∧
      ∀ i c, x.slots.get i = some c → c.complete = false → i = name.slot := by
  have opened : ∀ {i c}, x.slots.get i = some c → c.complete = false → x.openNum i = some c.num := fun hc incomplete =>
    openNum_eq_some.2 ⟨_, hc, incomplete, rfl⟩
  constructor
  · intro h
    refine ⟨fun none_ i c hc => ?_, fun name ha => ⟨openNum_name.1 ((h _ _).2 ha), fun i c hc incomplete => ?_⟩⟩
    · by_contra incomplete
      exact nomatch none_.symm.trans ((h i c.num).1 (opened hc (Bool.eq_false_iff.2 incomplete)))
    · have there := (h i c.num).1 (opened hc incomplete)
      cases ha.symm.trans there
      rfl
  · rintro ⟨none_, held⟩ i n
    cases active with
    | none =>
      refine iff_of_false (fun open_ => ?_) nofun
      obtain ⟨c, hc, incomplete, -⟩ := openNum_eq_some.1 open_
      exact Bool.false_ne_true (incomplete.symm.trans (none_ rfl i c hc))
    | some name =>
      obtain ⟨here, only⟩ := held name rfl
      have numbered := openNum_name.2 here
      refine ⟨fun open_ => ?_, fun same => by cases same; exact numbered⟩
      obtain ⟨c, hc, incomplete, -⟩ := openNum_eq_some.1 open_
      obtain rfl := only i c hc incomplete
      cases numbered.symm.trans open_
      rfl

theorem engineLaw_iff (s : State) : s.engineLaw ↔ s.EngineParts := by
  constructor
  · rintro ⟨active, copy, smp, first, armedAt, force, post, postEnd, trg⟩
    refine ⟨⟨?_, copy, smp, first, armedAt, force, post, postEnd, ?_⟩, (openNum_active_iff _ _).2 ⟨fun h => ?_, fun name h => ?_⟩⟩
    · split at active
      · next h => exact iff_of_true h active.1
      · next name h => exact iff_of_false (h ▸ Option.some_ne_none name) active.1
    · rw [Engine.trgState.eq_def]
      split at trg <;> simp_all
    · rw [h] at active
      exact active.2
    · rw [h] at active
      exact active.2
  · rintro ⟨⟨idle, copy, smp, first, armedAt, force, post, postEnd, trg⟩, captures⟩
    obtain ⟨none_, held⟩ := (openNum_active_iff _ _).1 captures
    refine ⟨?_, copy, smp, first, armedAt, force, post, postEnd, ?_⟩
    · split
      · next h => exact ⟨idle.1 h, none_ h⟩
      · next name h => exact ⟨fun e => (nomatch h.symm.trans (idle.2 e)), held name h⟩
    · rw [trg]
      cases s.acq.engine <;> rfl

namespace State.EngineParts

variable {s t : State}

theorem of_form (h : s.EngineParts) (form : EngineForm t.acq t.smp t.trg.state) (same : SameOpen s t) : t.EngineParts :=
  ⟨form, fun i n => by rw [same.captures, same.active]; exact h.captures i n⟩

theorem of_holdings (h : s.EngineParts) (same : t.holdings = s.holdings) : t.EngineParts := by
  obtain ⟨acq, smp, sto, trg, -⟩ := holdings_eq_iff.1 same
  exact h.of_form (by rw [acq, smp, trg]; exact h.form) ⟨by rw [sto], by rw [acq]⟩

/-- A change of STO, EVL, VRN and the ports. -/
theorem of_core (h : s.EngineParts) (core : KeepsCore s t) (same : SameOpen s t) : t.EngineParts :=
  h.of_form (by rw [core.acq, core.smp, core.trg]; exact h.form) same

theorem setAcq (h : s.EngineParts) {x : Acq} (form : EngineForm x s.smp s.trg.state) (active : x.active = s.acq.active) :
    (s.setAcq x).EngineParts := h.of_form form ⟨rfl, active⟩

theorem modifyActive (h : s.EngineParts) {f : Capture → Capture} (hf : ∀ c, (f c).num = c.num ∧ (f c).complete = c.complete) :
    (s.modifyActive f).EngineParts := h.of_core (modifyActive_keeps s f) (.of_modifyActive hf)

/-- The ACTIVE capture is held and not COMPLETE. -/
theorem held (h : s.EngineParts) {name : CapName} (ha : s.acq.active = some name) :
    ∃ c, s.sto.capture name = some c ∧ c.complete = false := openNum_name.1 ((h.captures _ _).2 ha)

end State.EngineParts

/-! ## Requests that leave the open captures -/

/-- An edit of the plan replaces it, and may set the pods' thresholds and mark the ACTIVE capture (R12, R173, R174). -/
theorem planEditAnswer_keeps {R : State → State → Prop} (refl : ∀ a, R a a) (trans : ∀ {a b c}, R a b → R b c → R a c)
    (accepted : ∀ a p plan, R a (State.acceptPlan a p plan)) (pods : ∀ a x, R a (State.setPods a x))
    (marked : ∀ a (f : Capture → Capture), (∀ c, (f c).num = c.num ∧ (f c).complete = c.complete) → R a (State.modifyActive a f))
    (p : Port) (sec : Byte) (expected : BitVec 32) (contents : List Byte) (s : State) :
    R s (planEditAnswer p sec expected contents s).1 := by
  have idle : ∀ plan, R s (s.editIdle p plan).1 := fun plan => by
    unfold State.editIdle
    split
    · exact refl s
    · exact accepted s p plan
  have probe : ∀ x, R s (s.editProbe p x).1 := fun x =>
    trans (trans (accepted s p _) (pods _ _)) (marked _ _ fun c => by split <;> exact ⟨rfl, rfl⟩)
  have matching : ∀ l entries, R s (s.editMatch p l entries).1 := fun l entries => by
    unfold State.editMatch
    split
    · exact refl s
    · exact trans (accepted s p _) (marked _ _ fun c => by split <;> exact ⟨rfl, rfl⟩)
  have ranged : ∀ {α : Type} (sec : Section) (r : Except FieldFault α) (f : α → State × Answer),
      (∀ x, R s (f x).1) → R s (s.inRangeOr sec r f).1 := fun sec r f h => by
    unfold State.inRangeOr
    split
    · exact refl s
    · exact h _
  unfold planEditAnswer
  split
  · exact refl s
  · split
    · exact refl s
    · exact ranged _ _ _ fun _ => idle _
    · exact ranged _ _ _ probe
    · exact ranged _ _ _ fun _ => idle _
    · exact ranged _ _ _ fun _ => idle _
    · exact ranged _ _ _ fun _ => matching _ _

theorem planEditAnswer_engineParts {s : State} (h : s.EngineParts) (p : Port) (sec : Byte) (expected : BitVec 32)
    (contents : List Byte) : (planEditAnswer p sec expected contents s).1.EngineParts := by
  refine planEditAnswer_keeps (R := fun a b => a.EngineParts → b.EngineParts) (fun _ => id) (fun h k => k ∘ h)
    (fun a p plan k => ?_) (fun _ _ k => k.of_holdings rfl) (fun _ _ hf k => k.modifyActive hf) p sec expected contents s h
  have replaced : (a.setAcq { a.acq with plan := plan, gen := a.acq.gen + 1 }).EngineParts := k.setAcq { k.form with } rfl
  exact replaced.of_holdings rfl

theorem forceAnswer_engineParts {s : State} (h : s.EngineParts) : (forceAnswer s).1.EngineParts := by
  unfold forceAnswer
  split
  · next e =>
    dsimp only
    split
    · exact h
    · exact h.setAcq { h.form with force := fun _ => .inl e } rfl
  · next e =>
    dsimp only
    split
    · exact h
    · exact h.setAcq { h.form with force := fun _ => .inr e } rfl
  · exact h

theorem retainAnswer_sameOpen (p : Port) (slot : Byte) (num : BitVec 16) (s : State) : SameOpen s (retainAnswer p slot num s).1 := by
  unfold retainAnswer
  split
  · exact .refl s
  · split
    · exact .of_modify _ fun _ => ⟨rfl, rfl⟩
    · exact .refl s

theorem releaseAnswer_sameOpen (p : Port) (slot : Byte) (num : BitVec 16) (s : State) : SameOpen s (releaseAnswer p slot num s).1 := by
  unfold releaseAnswer
  split
  · exact .refl s
  · split
    · exact .of_modify _ fun _ => ⟨rfl, rfl⟩
    · exact .refl s

theorem readRecordsAnswer_sameOpen (slot : Byte) (num : BitVec 16) (start : BitVec 64) (count : Byte) (s : State) :
    SameOpen s (readRecordsAnswer slot num start count s).1 := by
  unfold readRecordsAnswer
  split
  · exact .refl s
  · split
    · exact .refl s
    · dsimp only
      split
      · exact .refl s
      · exact noteReads_sameOpen _ _ _

theorem storeHealthAnswer_sameOpen (clear : Byte) (s : State) : SameOpen s (storeHealthAnswer clear s).1 := by
  unfold storeHealthAnswer
  dsimp only
  split <;> exact .of_slots rfl rfl

theorem storeTestAnswer_sameOpen (kind : Byte) (s : State) : SameOpen s (storeTestAnswer kind s).1 := by
  unfold storeTestAnswer
  split <;> exact .of_slots rfl rfl

theorem portResetAnswer_engineParts {s : State} (h : s.EngineParts) (p : Port) : (portResetAnswer p s).1.EngineParts := by
  have dropped : (s.setSto (s.sto.dropRetains p)).EngineParts := by
    refine h.of_form h.form ⟨funext fun i => ?_, rfl⟩
    show Option.bind ((s.sto.slots.map _).get i) _ = Option.bind (s.sto.slots.get i) _
    rw [get_map]
    cases s.sto.slots.get i <;> rfl
  exact (dropped.of_holdings (holdings_cancelRender _ p)).of_holdings rfl

theorem losePod_engineParts {s : State} (h : s.EngineParts) (i : Four) (moment : Nat) : (s.losePod i moment).EngineParts := by
  unfold State.losePod
  split
  · next x c hx hc =>
    split
    · extract_lets t
      have lost : t.EngineParts := by
        simp only [t]
        split
        · exact h
        · refine h.of_form ?_ (.of_slots rfl rfl)
          have form := h.form
          rw [hx] at form
          exact { form with sampling := form.sampling, first := fun y hy => by cases hy; exact form.first x rfl }
      exact lost.modifyActive fun c => by split <;> exact ⟨rfl, rfl⟩
    · exact h
  · exact h

/-! ## The end of a capture, and arming -/

/-- With none ACTIVE and no capture open. -/
theorem engineParts_of_idle {s : State} (form : EngineForm s.acq s.smp s.trg.state) (idle : s.acq.active = none)
    (captures : ∀ i, s.sto.openNum i = none) : s.EngineParts :=
  ⟨form, fun i n => by rw [captures, idle]; exact iff_of_false nofun nofun⟩

theorem openNum_empty {x : Store} (h : x.slots = .all none) (i : Four) : x.openNum i = none := by
  unfold Store.openNum
  rw [h, quad_get_all]
  rfl

theorem execNrst_engineParts {s t : State} (h : execNrst s = .next t) : t.EngineParts := by
  cases h
  exact engineParts_of_idle (engineForm_idle rfl rfl rfl rfl rfl rfl) rfl (openNum_empty rfl)

theorem engineResetAnswer_engineParts {s : State} (h : s.EngineParts) (p : Port) : (engineResetAnswer p s).1.EngineParts := by
  unfold engineResetAnswer
  split
  · show (s.engineReset p).EngineParts
    unfold State.engineReset
    extract_lets s1 s2 s3 s4
    have cleared : s3.EngineParts := engineParts_of_idle (engineForm_idle rfl rfl rfl rfl rfl rfl) rfl (openNum_empty rfl)
    exact ((cleared.of_holdings (holdings_resetRender _ .a)).of_holdings (holdings_resetRender _ .b)).of_holdings rfl
  · exact h

/-- No capture is open once the ACTIVE one is removed, or COMPLETE. -/
theorem openNum_closed {s : State} (h : s.EngineParts) {name : CapName} (ha : s.acq.active = some name) (i : Four) :
    Function.update s.sto.openNum name.slot none i = none := by
  by_cases e : i = name.slot
  · rw [e, Function.update_self]
  · rw [Function.update_of_ne e]
    by_contra open_
    obtain ⟨n, hn⟩ := Option.ne_none_iff_exists'.1 open_
    have active := ha.symm.trans ((h.captures i n).1 hn)
    cases active
    exact e rfl

theorem discardActive_engineParts {s : State} (h : s.EngineParts) : s.discardActive.EngineParts := by
  unfold State.discardActive
  extract_lets s1 s2
  have kept : KeepsCore s1 s2 ∧ ∀ i, s2.sto.openNum i = none := by
    simp only [s2]
    have acq : s1.acq.active = s.acq.active := rfl
    rw [acq]
    cases ha : s.acq.active with
    | none =>
      refine ⟨.rfl' s1, fun i => Option.eq_none_iff_forall_ne_some.2 fun n open_ => ?_⟩
      exact nomatch ha.symm.trans ((h.captures i n).1 open_)
    | some name =>
      refine ⟨removeCapture_keeps s1 _, fun i => ?_⟩
      show (s1.removeCapture name.slot).sto.openNum i = none
      rw [removeCapture_openNum]
      exact openNum_closed h ha i
  obtain ⟨core, captures⟩ := kept
  refine engineParts_of_idle ?_ rfl captures
  show EngineForm _ s2.smp s2.trg.state
  rw [core.smp, core.trg]
  exact engineForm_idle rfl rfl rfl rfl rfl rfl

theorem abortAnswer_engineParts {s : State} (h : s.EngineParts) : (abortAnswer s).1.EngineParts := by
  unfold abortAnswer
  split
  · exact h
  · have marked : (s.modifyActive fun c => { c with discard := true }).EngineParts := h.modifyActive fun _ => ⟨rfl, rfl⟩
    have core := modifyActive_keeps s fun c => { c with discard := true }
    refine marked.setAcq ?_ (congrArg Acq.active core.acq).symm
    rw [core.smp, core.trg]
    exact { h.form with }
  · exact (discardActive_engineParts h).of_holdings rfl

/-- The completion of an ARM opens the new capture and makes it ACTIVE (R58, R63). -/
theorem completeArm_engineParts {s : State} (h : s.EngineParts) (idle : s.acq.engine = .idle) (i : Four) (n : Nat) :
    (s.completeArm i n).EngineParts := by
  refine ⟨⟨⟨nofun, nofun⟩, ⟨nofun, fun _ => rfl⟩, ⟨fun _ => rfl, fun _ => rfl⟩, fun _ _ _ => rfl, nofun, nofun, nofun, nofun, rfl⟩,
    fun j m => ?_⟩
  have opened : (s.completeArm i n).sto.openNum = Function.update s.sto.openNum i (some s.sto.nextNum) :=
    openNum_set s.sto (i := i) (v := some (s.newCapture n)) rfl
  have active : (s.completeArm i n).acq.active = some ⟨i, s.sto.nextNum⟩ := rfl
  rw [opened, active]
  by_cases e : j = i
  · subst e
    simp
  · rw [Function.update_of_ne e, h.captures, h.form.idle.2 idle]
    refine iff_of_false nofun fun same => ?_
    cases same
    exact e rfl

theorem armSteps_engineParts {s t : State} {name : CapName} (h : s.EngineParts) (idle : s.acq.engine = .idle)
    (armed : s.armSteps = .ok (t, name)) : t.EngineParts := by
  unfold State.armSteps at armed
  split at armed
  · cases armed
  · split at armed
    · cases armed
    · split at armed
      · cases armed
      · next hs =>
        cases armed
        have core := secure_keeps hs
        exact completeArm_engineParts (h.of_core core (secure_sameOpen hs)) ((congrArg Acq.engine core.acq).trans idle) _ _

theorem armAnswer_engineParts {s : State} (h : s.EngineParts) : (armAnswer s).1.EngineParts := by
  unfold armAnswer
  split
  · exact h
  · next idle =>
    split
    · exact h
    · next t name armed =>
      have kept := armSteps_engineParts h (not_not.1 idle) armed
      exact kept.setAcq { kept.form with } rfl

theorem rearm_engineParts {s : State} (h : s.EngineParts) (idle : s.acq.engine = .idle) : s.rearm.EngineParts := by
  unfold State.rearm
  split
  · next armed =>
    have kept := armSteps_engineParts h idle armed
    exact kept.setAcq { kept.form with } rfl
  · exact (h.setAcq (x := { s.acq with repeatFlag := false, halt := _ }) { h.form with } rfl).of_holdings rfl

/-- The final write completes: the ACTIVE capture is removed or COMPLETE, and a REPEAT run arms again (R71, R74). -/
theorem finishWrite_engineParts {s : State} (h : s.EngineParts) (stopping : s.acq.engine = .stopping) : s.finishWrite.EngineParts := by
  cases ha : s.acq.active with
  | none => exact absurd ((h.form.idle.1 ha).symm.trans stopping) nofun
  | some name =>
    obtain ⟨c, hc, -⟩ := h.held ha
    obtain ⟨only, sto⟩ := sealed_facts s name
    have core := sealFilling_keeps s name
    have smp : s.smp = none := by
      rw [← Option.not_isSome_iff_eq_none, h.form.sampling, stopping]
      nofun
    have trg : s.trg.state = .standby := by rw [h.form.state, stopping]; rfl
    rw [finish_eq s name c ha hc]
    generalize s.sealFilling name = u at only sto core
    have sealed_ : u.EngineParts := h.of_core core (.of_slots (by rw [sto]) (by rw [core.acq]))
    have active : u.acq.active = some name := by rw [core.acq]; exact ha
    have captured : u.sto.capture name = some c := by rw [sto]; exact hc
    -- what follows in ACQ, SMP and TRG is the same, whether the capture is removed or COMPLETE
    have released : ∀ {v : State}, KeepsCore u v → v.sto.openNum = Function.update u.sto.openNum name.slot none →
        (v.setAcq v.acq.release).EngineParts := by
      intro v k closed
      refine engineParts_of_idle ?_ rfl fun i => ?_
      · show EngineForm _ v.smp v.trg.state
        rw [k.smp, k.trg, core.smp, core.trg, smp, trg]
        exact release_engineForm _
      · show v.sto.openNum i = none
        rw [closed]
        exact openNum_closed sealed_ active i
    dsimp only
    split
    · exact (released (removeCapture_keeps u name.slot) (removeCapture_openNum u name.slot)).of_holdings rfl
    · have ended : ((u.modifyCapture name fun c => { c with complete := true }).setAcq
          (u.modifyCapture name fun c => { c with complete := true }).acq.release).EngineParts := by
        refine released (modifyCapture_keeps u name _) ?_
        rw [modifyCapture_eq captured]
        exact openNum_set u.sto (i := name.slot) (v := some { c with complete := true }) rfl
      split
      · exact rearm_engineParts (ended.of_holdings rfl) rfl
      · exact ended.of_holdings rfl

/-! ## A sample (R21 to R26, R64 to R70) -/

/-- The entry to STOPPING, from any state of SAMPLING. -/
theorem enterStopping_engineParts {s : State} (h : s.EngineParts) {name : CapName} (ha : s.acq.active = some name)
    (why : EndReason) : (s.enterStopping why).EngineParts := by
  obtain ⟨c, hc, incomplete⟩ := h.held ha
  have facts := stopped_facts ha hc incomplete why
  have same := stopped_sameOpen s why
  rw [enterStopping_eq]
  generalize s.stopped why = t at facts same
  have parts : t.EngineParts := by
    refine h.of_form ?_ same
    rw [facts.acq, facts.smp, facts.trg]
    have active : s.acq.active ≠ none := ha ▸ Option.some_ne_none name
    have running : s.acq.engine ≠ .idle := fun e => active (h.form.idle.2 e)
    exact ⟨iff_of_false active nofun, iff_of_true (h.form.copy.2 running) nofun, iff_of_false nofun nofun, nofun, nofun, nofun, nofun,
      fun _ => .inr rfl, rfl⟩
  unfold State.beginFinalWrite
  split
  · split
    · exact finishWrite_engineParts parts (by rw [facts.acq])
    · exact parts
  · exact parts

/-- A held sample is delivered to the lanes, TRG and ACQ, and may end the capture (R26, R67, R68). -/
theorem deliver_engineParts {s : State} (h : s.EngineParts) (sampled : s.Sampled) (D : Nat) (it : SampleItem) :
    (s.deliver D it).1.EngineParts := by
  have ends : ∀ {v : State}, SameOpen s v → v.Sampled → ∀ why, (v.enterStopping why).EngineParts := fun same v why => by
    obtain ⟨name, ha⟩ := Option.ne_none_iff_exists'.1 v.active
    exact enterStopping_engineParts (h.of_form v.form same) ha why
  obtain ⟨name, ha⟩ := Option.ne_none_iff_exists'.1 sampled.active
  obtain ⟨c, hc, incomplete⟩ := h.held ha
  have handed : SameOpen s (s.lanesSample D it).1 := handOn_sameOpen s _ _ _
  have sampled1 : (s.lanesSample D it).1.Sampled := by
    have facts := handOn_facts s ((s.lanesHandle D it).map fun x => x.1) ((s.lanesHandle D it).map fun x => x.2.1) it.index name c
      ha hc incomplete
    exact sampled.of_same facts.acq facts.smp (congrArg Trg.state facts.trg)
  unfold State.deliver
  extract_lets r v
  split
  · have observed : (r.1.observe it).1.Sampled := sampled1.of_same rfl rfl rfl
    have same : SameOpen r.1 (r.1.observe it).1 := .of_slots rfl rfl
    exact ends (v := (r.1.observe it).1) (handed.trans same) observed .stopTaken
  · have evaluated : v.1.Sampled := trgSample_sampled sampled1 it _
    have same : SameOpen s v.1 := handed.trans (trgSample_sameOpen r.1 it r.2.1)
    have ended := ends same evaluated .postDone
    have runs := h.of_form evaluated.form same
    generalize v.1 = u at ended runs
    unfold State.postTest
    split
    · split
      · exact ended
      · exact runs
    · exact runs

theorem takeSample_engineParts {s : State} (h : s.EngineParts) (w : ChannelWord) : (s.takeSample w).1.EngineParts := by
  cases hx : s.smp with
  | none => unfold State.takeSample; rw [hx]; exact h
  | some x =>
    cases ha : s.acq.active with
    | none => unfold State.takeSample; rw [hx, ha]; exact h
    | some name =>
      rw [takeSample_eq s x name w hx ha]
      have smp : ((s.advanceTo x.nextRaw).setOrigin x).smp = some x := by
        unfold State.setOrigin
        split
        · exact (modifyActive_keeps _ _).smp.trans hx
        · exact hx
      have form : EngineForm ((s.advanceTo x.nextRaw).setOrigin x).acq (some x) ((s.advanceTo x.nextRaw).setOrigin x).trg.state := by
        have form := h.form
        rw [hx] at form
        unfold State.setOrigin
        split
        · next zero =>
          have core := modifyActive_keeps (s.advanceTo x.nextRaw) fun c => { c with origin := some x.nextRaw }
          dsimp only [State.setAcq_acq, State.setAcq_trg]
          rw [core.trg]
          exact { form with armedAt := fun _ => form.first x rfl zero }
        · exact form
      have same : SameOpen s ((s.advanceTo x.nextRaw).setOrigin x) :=
        SameOpen.trans (t := s.advanceTo x.nextRaw) (.of_slots rfl rfl) (setOrigin_sameOpen _ x)
      generalize (s.advanceTo x.nextRaw).setOrigin x = u at *
      have held := same.trans (holdSample_sameOpen u x name (x.nextWord w))
      have core := holdSample_keeps u x name (x.nextWord w)
      generalize u.holdSample x name (x.nextWord w) = r at *
      rw [← core.acq, ← core.trg] at form
      split
      · have later : EngineForm r.1.acq (some (x.held (x.nextWord w))) r.1.trg.state :=
          { form with
            sampling := form.sampling
            first := fun y hy zero => by cases hy; exact absurd zero (Nat.succ_ne_zero x.next) }
        have sampled : (r.1.setSmp (some (x.held (x.nextWord w)))).Sampled := ⟨later, _, rfl, Nat.succ_ne_zero x.next⟩
        have parts : (r.1.setSmp (some (x.held (x.nextWord w)))).EngineParts := h.of_form later ⟨held.captures, held.active⟩
        exact deliver_engineParts parts sampled _ _
      · refine enterStopping_engineParts (h.of_form ?_ held) (held.active.trans ha) .storeFull
        rw [core.smp, smp]
        exact form

/-- STOP ends the capture on the last sample, or waits for sample 0 (R68). -/
theorem stopAnswer_engineParts {s : State} (h : s.EngineParts) : (stopAnswer s).1.EngineParts := by
  unfold stopAnswer
  split
  · exact h
  · exact h.setAcq { h.form with } rfl
  · next idle _ =>
    split
    · exact h.setAcq { h.form with } rfl
    · obtain ⟨name, ha⟩ := Option.ne_none_iff_exists'.1 (mt h.form.idle.1 idle)
      exact enterStopping_engineParts h ha .stopTaken

/-! ## Every step -/

theorem exec_engineParts {c : Instr} {s t : State} (h : s.EngineParts) (ran : exec c s = .next t) : t.EngineParts := by
  refine exec_keeps (R := fun a b => a.EngineParts → b.EngineParts) (fun h k => k ∘ h) (fun same h => h.of_holdings same) ?_ ran h
  cases c with
  | nrst => exact fun u v k _ => execNrst_engineParts k
  | planEdit p tag sec expected contents => exact fun u k => planEditAnswer_engineParts k p sec expected contents
  | arm => exact fun u k => armAnswer_engineParts k
  | stop => exact fun u k => stopAnswer_engineParts k
  | force => exact fun u k => forceAnswer_engineParts k
  | abort => exact fun u k => abortAnswer_engineParts k
  | retain p tag slot num => exact fun u k => k.of_core (retainAnswer_keeps p slot num u) (retainAnswer_sameOpen p slot num u)
  | release p tag slot num => exact fun u k => k.of_core (releaseAnswer_keeps p slot num u) (releaseAnswer_sameOpen p slot num u)
  | readRecords p tag slot num start count =>
    exact fun u k => k.of_core (readRecordsAnswer_keeps slot num start count u) (readRecordsAnswer_sameOpen slot num start count u)
  | storeHealth p tag clear => exact fun u k => k.of_core (storeHealthAnswer_keeps clear u) (storeHealthAnswer_sameOpen clear u)
  | storeTest p tag kind => exact fun u k => k.of_core (storeTestAnswer_keeps kind u) (storeTestAnswer_sameOpen kind u)
  | portReset p => exact fun u k => portResetAnswer_engineParts k p
  | engineReset p => exact fun u k => engineResetAnswer_engineParts k p
  | podDetach i => exact fun u moment k => losePod_engineParts k i moment
  | finalWriteComplete => exact fun u stopping k => finishWrite_engineParts k stopping
  | columnItem => exact fun u name es k => k.of_core (noteReads_keeps u name es) (noteReads_sameOpen u name es)
  | firstSample w | sample w | armedEntry w | withinExpiry w | stageSatisfied w | postDone w | twoWireStall l w | clockedIdleEnd l w
  | asyncIdleEnd l w | biphaseIdleEnd l w | drainLimit l w => exact fun u k => takeSample_engineParts k w
  | _ => trivial

/-- Settles O6: the law in its two parts is kept by each part of every command. -/
theorem engineLawKept : Obligations.EngineLawKept := by
  intro s t law ran
  rw [engineLaw_iff] at law ⊢
  unfold step at ran
  split at ran
  · cases ran
    exact law.of_holdings rfl
  · next c rest _ =>
    have queued : (s.setPending rest).EngineParts := law.of_holdings rfl
    exact exec_engineParts queued ran

end Sys2Proof.Machine
end

section
/-! SUPPORT. ARM and the re-arm of a REPEAT run where no reclaim is needed (R60 to R63, R74, R75): proofs of the statements (O26, O28,
O33). -/

namespace Sys2Proof.Machine

open Sys2Proof

/-! ## What the steps of ARM answer (R60 to R62) -/

theorem execArm_taken {s : State} {p : Port} {tag : Byte} (h : s.holds p (.arm p tag)) :
    exec (.arm p tag) s = .next ((armAnswer s).1.answer p tag (armAnswer s).2) := request_taken _ _ _ _ _ h

theorem armSteps_planInvalid {s : State} {x : PlanProblem} (h : s.acq.plan.problem = some x) :
    s.armSteps = .error (.planInvalid x s.acq.gen) := by
  unfold State.armSteps
  rw [h]

theorem armSteps_notReady {s : State} {k : Four} (plan : s.acq.plan.problem = none)
    (unready : maskHasPod s.acq.plan.acq.mask k = true ∧ ((s.pods.get k).state = .absent ∨ (s.pods.get k).state = .identifying))
    (lowest : ∀ j, j < k → maskHasPod s.acq.plan.acq.mask j = true →
      (s.pods.get j).state = .ready ∨ (s.pods.get j).state = .degraded) :
    s.armSteps = .error (.notReady k (s.pods.get k).state) := by
  unfold State.armSteps
  rw [plan, unready_some s k unready lowest]

/-- Nothing is secured without a slot or a block, where no capture can be reclaimed (R37, R40). -/
theorem secure_none {s : State} (kept : ∀ j c, s.sto.slots.get j = some c → c.complete = true → c.retain.a = true ∨ c.retain.b = true)
    (full : (∀ j, s.sto.slots.get j ≠ none) ∨ s.sto.noneFree) : s.secure = none := by
  have victim := (victim_none s.sto).2 kept
  have noReclaim : s.reclaim = none := Option.map_eq_none_iff.2 victim
  unfold State.secure
  split
  · next i hi =>
    obtain taken | none_ := full
    · have empty : (s.sto.slots.get i).isNone = true := List.find?_some (p := fun i => (s.sto.slots.get i).isNone) hi
      exact absurd (Option.isNone_iff_eq_none.1 empty) (taken i)
    · unfold State.secureBlock
      rw [lowestFree_none _ none_, noReclaim]
      rfl
  · rw [victim]

theorem armSteps_noSlot {s : State} (plan : s.acq.plan.problem = none) (ready : s.podsReady) (none_ : s.secure = none) :
    s.armSteps = .error (.noSlot (s.sto.countSlots Capture.complete)
      (s.sto.countSlots fun c => c.complete && (c.retain.a || c.retain.b))) := by
  unfold State.armSteps
  rw [plan, unready_none s ready, none_]

theorem countSlots_eq (x : Store) (f : Capture → Bool) :
    x.countSlots f = ([0, 1, 2, 3] : List Four).countP fun j => match x.slots.get j with | some c => f c | none => false :=
  (List.countP_eq_length_filter ..).symm

/-- An ARM that is refused changes nothing but the answer (R60). -/
theorem execArm_refused {s : State} {p : Port} {tag : Byte} (h : s.holds p (.arm p tag)) (idle : s.acq.engine = .idle)
    {r : ArmRefusal} (refused : s.armSteps = .error r) :
    exec (.arm p tag) s = .next (s.setPort p { s.ports.get p with slot := .answered tag (.armRefused r) }) := by
  rw [execArm_taken h]
  unfold armAnswer
  rw [if_neg (not_not.2 idle), refused]
  rfl

/-- Settles O28: each refusal is that of the first of ARM's steps that fails. -/
theorem armRefusals : Obligations.ArmRefusals := by
  intro p tag s h answers
  refine ⟨fun busy => ?_, fun idle x plan => ?_, fun idle plan k unready lowest => ?_, fun idle plan ready kept full => ?_⟩
  · show exec (.arm p tag) s = _
    rw [execArm_taken h]
    unfold armAnswer
    rw [if_pos busy]
    rfl
  · exact execArm_refused h idle (armSteps_planInvalid plan)
  · exact execArm_refused h idle (armSteps_notReady plan unready lowest)
  · have refused := armSteps_noSlot plan ready (secure_none kept full)
    rw [countSlots_eq, countSlots_eq] at refused
    exact execArm_refused h idle refused

/-! ## An ARM that completes (R63) -/

/-- With an EMPTY slot and a FREE block ARM secures the lowest of each (R37). -/
theorem secure_atHand {s : State} {i : Four} {n : Nat} (slot : s.sto.firstEmpty i) (block : s.sto.firstFree n) :
    s.secure = some (s, i, n) := by
  obtain ⟨empty, above⟩ := slot
  obtain ⟨inRange, free, lowest⟩ := block
  exact secure_some s i n empty above inRange free lowest

/-- Settles O26: with a slot and a block at hand ARM completes in them. -/
theorem armCompletes : Obligations.ArmCompletes := by
  intro p tag i n s h idle plan ready slot block
  have answer : armAnswer s = ((s.completeArm i n).setAcq (s.completeArm i n).acq.startRun, .armed ⟨i, s.sto.nextNum⟩ s.acq.gen) := by
    unfold armAnswer
    rw [if_neg (not_not.2 idle), armSteps_secured plan ready (secure_atHand slot block)]
    rfl
  rw [execArm_taken h, answer]
  have gain := portsGain_raiseBoth (s := s) (t := s.completeArm i n) .engineState rfl
  have slots := slotsKept_raiseBoth (s := s) (t := s.completeArm i n) .engineState rfl
  have arms := completeArm_armsCapture s i n
  have acq : (s.completeArm i n).acq = armedAcq s.acq ⟨i, s.sto.nextNum⟩ := rfl
  generalize s.completeArm i n = v at *
  refine ⟨_, rfl, ⟨?_, ?_⟩, portsGain_answer p tag _ gain, ?_, armsCapture_of_same arms rfl rfl rfl rfl rfl rfl ⟨rfl, rfl, rfl, rfl⟩⟩
  · rw [answer_get]
  · rw [answer_get_other]
    exact slots p.other
  · show v.acq.startRun = _
    rw [acq]
    rfl

/-! ## A REPEAT run (R74, R75) -/

/-- The completion of a capture that is not discarded, said of the store, ACQ and the notices (R44, R71). -/
theorem completedCapture_eq {s : State} {name : CapName} {c : Capture} (hc : s.sto.capture name = some c) :
    s.completed name = (((s.setSto { s.sto with
      blocks := (s.sealFilling name).sto.blocks
      slots := s.sto.slots.set name.slot (some { c with complete := true }) }).setAcq s.acq.release).raiseBoth .captureEnded).raiseBoth
        .engineState := by
  have captured : Store.capture { s.sto with blocks := (s.sealFilling name).sto.blocks } name = some c := hc
  unfold State.completed
  rw [sealFilling_eq, modifyCapture_eq (s := s.setSto { s.sto with blocks := (s.sealFilling name).sto.blocks }) captured]
  rfl

/-- Sealing a block leaves which blocks are FREE. -/
theorem sealFilling_free {s : State} (wf : s.sto.wf = true) (name : CapName) (n : Nat) :
    lookupBlock (s.sealFilling name).sto.blocks n = none ↔ lookupBlock s.sto.blocks n = none := by
  obtain ⟨sealed_, unsealed⟩ := sealFilling_lookup wf name
  cases hf : s.sto.filling name with
  | none => rw [unsealed hf]
  | some f =>
    obtain ⟨m, b⟩ := f
    obtain ⟨here, others⟩ := sealed_ m b hf
    by_cases e : n = m
    · rw [e, here, filling_lookup wf hf]
      exact iff_of_false nofun nofun
    · rw [others n e]

/-- What a re-arm or the end of a REPEAT run starts from: the completion, with the same slots and blocks at hand (R71). -/
theorem completed_atHand {s : State} (wf : s.sto.wf = true) {name : CapName} {c : Capture} (hc : s.sto.capture name = some c) :
    (∀ n, lookupBlock (s.completed name).sto.blocks n = none ↔ lookupBlock s.sto.blocks n = none) ∧
    (s.completed name).sto.slots = s.sto.slots.set name.slot (some { c with complete := true }) ∧
    ∀ i, (s.completed name).sto.slots.get i = none ↔ s.sto.slots.get i = none := by
  have slots : (s.completed name).sto.slots = s.sto.slots.set name.slot (some { c with complete := true }) := by
    rw [completedCapture_eq hc]
    rfl
  refine ⟨fun n => ?_, slots, fun i => ?_⟩
  · rw [completedCapture_eq hc]
    exact sealFilling_free wf name n
  · rw [slots]
    by_cases e : i = name.slot
    · rw [e, quad_get_set, (slots_of_capture hc).1]
      exact iff_of_false nofun nofun
    · rw [quad_get_set_ne _ _ e]

theorem portsGain_trans {s t u : State} {ns ms : List Notice} (h : s.portsGain t ns) (k : t.portsGain u ms) :
    s.portsGain u (ns ++ ms) := fun q => by
  obtain ⟨n1, o1, e1, d1⟩ := h q
  obtain ⟨n2, o2, e2, d2⟩ := k q
  refine ⟨fun n => ?_, o2.trans o1, e2.trans e1, d2.trans d1⟩
  rw [n2, n1, Bool.or_assoc]
  congr 1
  simp

/-- A class raised twice is gained once. -/
theorem portsGain_again {s t : State} {n m : Notice} (h : s.portsGain t ([n, m] ++ [m])) : s.portsGain t [n, m] := fun q => by
  obtain ⟨notices, rest⟩ := h q
  refine ⟨fun k => (notices k).trans ?_, rest⟩
  congr 1
  simp

theorem completed_portsGain {s : State} {name : CapName} {c : Capture} (hc : s.sto.capture name = some c) :
    s.portsGain (s.completed name) [.captureEnded, .engineState] ∧ s.slotsKept (s.completed name) :=
  portsGain_two _ _ (by rw [completedCapture_eq hc]; rfl)

/-- Settles O33: the steps of ARM are made once more right after the completion, from the slots and blocks it leaves. -/
theorem repeatRun : Obligations.RepeatRun := by
  intro s name c wf stopping ha hc keep again reason
  have finish := finish_completed ha hc keep
  rw [if_pos ⟨again, reason⟩] at finish
  obtain ⟨gain, kept⟩ := completed_portsGain hc
  obtain ⟨blocks, slots, empty⟩ := completed_atHand wf hc
  obtain ⟨acq, pods, nextNum⟩ := completed_facts s name
  obtain ⟨timebase, pending, freeIx, smp, trg, lanes, evl, vrn⟩ : (s.completed name).timebase = s.timebase ∧
      (s.completed name).pending = s.pending ∧ (s.completed name).freeIx = s.freeIx ∧ (s.completed name).smp = s.smp ∧
      (s.completed name).trg = s.trg ∧ (s.completed name).lanes = s.lanes ∧ (s.completed name).evl = s.evl ∧
      (s.completed name).vrn = s.vrn := by
    rw [completedCapture_eq hc]
    exact ⟨rfl, rfl, rfl, rfl, rfl, rfl, rfl, rfl⟩
  rw [exec_finalWriteComplete stopping, finish]
  generalize s.completed name = u at *
  have plan : u.acq.plan = s.acq.plan := by rw [acq]; rfl
  have gen : u.acq.gen = s.acq.gen := by rw [acq]; rfl
  have ready : s.podsReady → u.podsReady := fun h => by
    unfold State.podsReady
    rw [plan, pods]
    exact h
  have completeThere : u.sto.slots.get name.slot = some { c with complete := true } := by rw [slots, quad_get_set]
  have ended : ∀ r, u.armSteps = .error r → ∃ t, Host.Outcome.next u.rearm = (.next t : Host.Outcome State Fault Refusal) ∧
      t.acq = { s.acq with
        engine := .idle, active := none, copy := none, armedAt := none, postEnd := none, force := none,
        stopPending := false, repeatFlag := false, halt := some r } ∧
      t.sto.slots.get name.slot = some { c with complete := true } ∧
      s.portsGain t [.captureEnded, .engineState, .repeatHalted] ∧ s.slotsKept t ∧ t.smp = s.smp ∧ t.trg = s.trg ∧
      t.lanes = s.lanes ∧ t.evl = s.evl ∧ t.vrn = s.vrn ∧ s.outsideKept t := by
    intro r refused
    unfold State.rearm
    rw [refused]
    refine ⟨_, rfl, ?_, completeThere, portsGain_trans gain (portsGain_raiseBoth .repeatHalted rfl),
      fun q => (slotsKept_raiseBoth .repeatHalted rfl q).trans (kept q), smp, trg, lanes, evl, vrn, timebase, pods, pending, freeIx⟩
    show { u.acq with repeatFlag := false, halt := some r } = _
    rw [acq]
    rfl
  refine ⟨fun i n noProblem podsReady slot block => ?_, fun r why => ended r ?_⟩
  · obtain ⟨slotEmpty, below⟩ := slot
    obtain ⟨inRange, free, lower⟩ := block
    have armed := armSteps_secured (s := u) (by rw [plan]; exact noProblem) (ready podsReady)
      (secure_atHand ⟨(empty i).2 slotEmpty, fun j hj => mt (empty j).1 (below j hj)⟩
        ⟨inRange, (blocks n).2 free, fun m hm => mt (blocks m).1 (lower m hm)⟩)
    have arms := completeArm_armsCapture u i n
    have acqArmed : (u.completeArm i n).acq = armedAcq s.acq.release ⟨i, s.sto.nextNum⟩ := by
      rw [← acq, ← nextNum]
      rfl
    have gainArmed : s.portsGain (u.completeArm i n) [.captureEnded, .engineState] :=
      portsGain_again (portsGain_trans gain (portsGain_raiseBoth .engineState rfl))
    have keptArmed : s.slotsKept (u.completeArm i n) := fun q => (slotsKept_raiseBoth .engineState rfl q).trans (kept q)
    unfold State.rearm
    rw [armed]
    dsimp only
    obtain ⟨record, others, first, -, -, -, sampling, gated, -, evlArmed, vrnArmed, timebaseArmed, podsArmed, pendingArmed, freeArmed⟩ :=
      arms
    rw [plan, nextNum, gen] at record
    rw [nextNum] at first
    generalize u.completeArm i n = v at *
    have elsewhere : name.slot ≠ i := fun e => by
      rw [← e, (slots_of_capture hc).1] at slotEmpty
      cases slotEmpty
    refine ⟨_, rfl, ?_, (others _ elsewhere).trans completeThere, ⟨_, record, rfl, rfl, rfl, rfl, rfl⟩, first, ?_, ?_, gainArmed, keptArmed,
      evlArmed.trans evl, vrnArmed.trans vrn, timebaseArmed.trans timebase, podsArmed.trans pods, pendingArmed.trans pending,
      freeArmed.trans freeIx⟩
    · rw [State.setAcq_acq, acqArmed]
      rfl
    · show v.smp.map _ = _
      rw [sampling, plan, timebase]
      rfl
    · show v.trg.state = _
      rw [gated]
  · obtain ⟨x, problem, rfl⟩ | ⟨noProblem, k, masked, unready, lowest, rfl⟩ | ⟨noProblem, podsReady, full, retained, rfl⟩ := why
    · rw [← gen]
      exact armSteps_planInvalid (by rw [plan]; exact problem)
    · rw [← pods]
      refine armSteps_notReady (by rw [plan]; exact noProblem) ?_ ?_
      · rw [plan, pods]
        exact ⟨masked, unready⟩
      · rw [plan, pods]
        exact lowest
    · have stored : ∀ j y, u.sto.slots.get j = some y → ∃ z, s.sto.slots.get j = some z ∧ y = { z with complete := y.complete } ∧
          y.complete = (z.complete || j == name.slot) := fun j y hy => by
        rw [slots] at hy
        by_cases e : j = name.slot
        · rw [e, quad_get_set] at hy
          cases hy
          exact ⟨c, e ▸ (slots_of_capture hc).1, rfl, by simp [e]⟩
        · rw [quad_get_set_ne _ _ e] at hy
          exact ⟨y, hy, rfl, by simp [e]⟩
      have none_ : u.secure = none := by
        refine secure_none (fun j y hy complete => ?_) (full.imp (fun h j => mt (empty j).1 (h j)) fun h m hm => mt (blocks m).1 (h m hm))
        obtain ⟨z, hz, record, eq⟩ := stored j y hy
        rw [record]
        exact retained j z hz (by simpa [complete] using eq.symm)
      have refused := armSteps_noSlot (by rw [plan]; exact noProblem) (ready podsReady) none_
      rw [countSlots_eq, countSlots_eq] at refused
      rw [refused]
      congr 2
      · refine List.countP_congr fun j _ => ?_
        cases hy : u.sto.slots.get j with
        | none => rw [(empty j).1 hy]
        | some y =>
          obtain ⟨z, hz, -, eq⟩ := stored j y hy
          rw [hz]
          dsimp only
          rw [eq]
      · refine List.countP_congr fun j _ => ?_
        cases hy : u.sto.slots.get j with
        | none => rw [(empty j).1 hy]
        | some y =>
          obtain ⟨z, hz, record, eq⟩ := stored j y hy
          have retain : y.retain = z.retain := by rw [record]
          rw [hz]
          dsimp only
          rw [eq, retain]

end Sys2Proof.Machine
end

section
/-! SUPPORT. FORCE, ABORT and the status requests (R65, R72, R73, R77 to R79): proofs of the statements (O30, O34). -/

namespace Sys2Proof.Machine

open Sys2Proof

/-! ## FORCE and ABORT (R65, R72, R73) -/

theorem execForce_taken {s : State} {p : Port} {tag : Byte} (h : s.holds p (.force p tag)) :
    exec (.force p tag) s = .next ((forceAnswer s).1.answer p tag (forceAnswer s).2) := request_taken _ _ _ _ _ h

theorem execAbort_taken {s : State} {p : Port} {tag : Byte} (h : s.holds p (.abort p tag)) :
    exec (.abort p tag) s = .next ((abortAnswer s).1.answer p tag (abortAnswer s).2) := request_taken _ _ _ _ _ h

/-- FORCE before the trigger: the request stays pending, or becomes pending for the engine's state (R65). -/
theorem forceAnswer_waiting {s : State} (h : s.acq.engine = .arming ∨ s.acq.engine = .armed) :
    forceAnswer s = (if s.acq.force.isSome then s else s.setAcq { s.acq with force := some s.acq.engine }, .plain .ok) := by
  unfold forceAnswer
  obtain h | h := h <;> rw [h]

theorem forceAnswer_wrongState {s : State} (h : s.acq.engine = .idle ∨ s.acq.engine = .triggered ∨ s.acq.engine = .stopping) :
    forceAnswer s = (s, .plain .wrongState) := by
  unfold forceAnswer
  obtain h | h | h := h <;> rw [h]

/-- ABORT of a running capture discards it at once (R72). -/
theorem abortAnswer_running {s : State} (h : s.acq.engine = .arming ∨ s.acq.engine = .armed ∨ s.acq.engine = .triggered) :
    abortAnswer s = (s.discardActive.raiseBoth .engineState, .plain .ok) := by
  unfold abortAnswer
  obtain h | h | h := h <;> rw [h]

/-- SMP, TRG and the lanes stop without a PARTIAL (R72). -/
def State.cutOff (s : State) : State := ((s.setSmp none).setTrg s.trg.toStandby).lanesOut

theorem discardActive_eq {s : State} {name : CapName} (ha : s.acq.active = some name) :
    s.discardActive = (s.cutOff.removeCapture name.slot).setAcq
      { (s.cutOff.removeCapture name.slot).acq.release with repeatFlag := false } := by
  have active : (((s.setSmp none).setTrg s.trg.toStandby).lanesOut).acq.active = some name := ha
  unfold State.discardActive
  simp only [active]
  rfl

/-- What ABORT of a running capture does (R29, R45, R72). -/
theorem discardActive_facts {s : State} {name : CapName} {c : Capture} (wf : s.sto.wf = true) (ha : s.acq.active = some name)
    (hc : s.sto.capture name = some c) :
    s.discardActive.acq = { s.acq.release with repeatFlag := false } ∧ s.discardActive.smp = none ∧
    s.trg.standbyOf s.discardActive.trg ∧ s.lanesOffOf s.discardActive ∧ s.removed s.discardActive name ∧
    (∀ q n, n ≠ .renderEnded → s.discardActive.hasNotice q n = s.hasNotice q n) ∧ s.outsideKept s.discardActive ∧
    s.slotsKept s.discardActive := by
  rw [discardActive_eq ha]
  obtain ⟨removed, freeIx, notices⟩ := removeCapture_removed s.cutOff name.slot name wf (nameAt_of_capture hc)
  have core := removeCapture_keeps s.cutOff name.slot
  generalize s.cutOff.removeCapture name.slot = t at *
  refine ⟨?_, core.smp, ?_, lanesOff_map _ _ core.lanes, removed, notices, ⟨core.timebase, core.pods, core.pending, freeIx⟩, core.slot⟩
  · show { t.acq.release with repeatFlag := false } = _
    rw [core.acq]
    rfl
  · show s.trg.standbyOf t.trg
    rw [core.trg]
    rfl

/-- Settles O30: each request by the engine's state, with the removal of the capture for an ABORT that discards at once. -/
theorem forceAndAbort : Obligations.ForceAndAbort := by
  refine ⟨fun p tag s h => ⟨fun waiting none_ => ?_, fun waiting some_ => ?_, fun other => ?_⟩,
    fun p tag s h => ⟨fun idle => ?_, fun name c stopping ha hc => ?_, fun name c running ha hc wf => ?_⟩⟩
  · rw [execForce_taken h, forceAnswer_waiting waiting, none_]
    rfl
  · rw [execForce_taken h, forceAnswer_waiting waiting, if_pos (Option.isSome_iff_ne_none.2 some_)]
    rfl
  · rw [execForce_taken h, forceAnswer_wrongState other]
    rfl
  · rw [execAbort_taken h, abortAnswer, idle]
    rfl
  · rw [execAbort_taken h, abortAnswer, stopping]
    simp only [modifyActive_eq ha hc]
    rfl
  · obtain ⟨acq, smp, trg, lanes, removed, notices, outside, slots⟩ := discardActive_facts wf ha hc
    rw [execAbort_taken h, abortAnswer_running running]
    dsimp only
    generalize s.discardActive = t at *
    have kept := (raiseBoth_keeps t .engineState).slot
    refine ⟨_, rfl, ⟨?_, ?_⟩, acq, smp, trg, lanes, removed_of_same removed rfl rfl rfl fun q => ?_, fun q => ?_, fun q n ne ended => ?_,
      outside⟩
    · rw [answer_get]
    · rw [answer_get_other, kept, slots]
    · rw [hasNotice_answer, hasNotice_raiseBoth_ne _ q (by nofun)]
    · rw [hasNotice_answer, hasNotice_raiseBoth_same]
    · rw [hasNotice_answer, hasNotice_raiseBoth_ne _ q ne, notices q n ended]

/-! ## The status requests (R77 to R79) -/

theorem execStatus_taken {s : State} {p : Port} {tag : Byte} (h : s.holds p (.status p tag)) :
    exec (.status p tag) s = .next (s.answer p tag (.status s.statusReport)) :=
  request_taken _ _ _ _ (fun s => (s, .status s.statusReport)) h

theorem execCaptureList_taken {s : State} {p : Port} {tag : Byte} (h : s.holds p (.captureList p tag)) :
    exec (.captureList p tag) s = .next (s.answer p tag (.captureList (numbered.map s.sto.listEntry))) :=
  request_taken _ _ _ _ (fun s => (s, .captureList (numbered.map s.sto.listEntry))) h

theorem execCaptureInfo_taken {s : State} {p : Port} {tag slot : Byte} {num : BitVec 16}
    (h : s.holds p (.captureInfo p tag slot num)) :
    exec (.captureInfo p tag slot num) s =
      .next ((captureInfoAnswer slot num s).1.answer p tag (captureInfoAnswer slot num s).2) := request_taken _ _ _ _ _ h

/-- A number is in the map exactly when its block is not FREE. -/
theorem lookupBlock_isSome_iff {x : Store} (w : x.wf = true) (n : Nat) :
    (lookupBlock x.blocks n).isSome = true ↔ n ∈ x.blocks.map Prod.fst := by
  rw [Option.isSome_iff_exists, List.mem_map]
  constructor
  · rintro ⟨b, hb⟩
    exact ⟨(n, b), lookupBlock_mem hb, rfl⟩
  · rintro ⟨⟨m, b⟩, hm, rfl⟩
    exact ⟨b, lookupBlock_of_mem w hm⟩

/-- The numbers in the map are those of the 2048 whose block is not FREE. -/
theorem taken_numbers {x : Store} (w : x.wf = true) :
    ((List.range 2048).filter fun n => (lookupBlock x.blocks n).isSome).length = x.blocks.length := by
  obtain ⟨rising, bounded⟩ := (blocksSorted_iff _).1 w
  have nodup : (x.blocks.map Prod.fst).Nodup := List.Pairwise.map _ (fun _ _ h => Nat.ne_of_lt h) rising
  have perm : ((List.range 2048).filter fun n => (lookupBlock x.blocks n).isSome).Perm (x.blocks.map Prod.fst) := by
    refine (List.perm_ext_iff_of_nodup (List.nodup_range.filter _) nodup).2 fun n => ?_
    rw [List.mem_filter, List.mem_range, lookupBlock_isSome_iff w]
    refine and_iff_right_of_imp fun hn => ?_
    obtain ⟨e, he, rfl⟩ := List.mem_map.1 hn
    exact bounded e he
  rw [perm.length_eq, List.length_map]

/-- The number of FREE blocks is a count over all 2048 (R77). -/
theorem freeCount_eq {x : Store} (w : x.wf = true) :
    x.freeCount = ((List.range 2048).filter fun n => (lookupBlock x.blocks n).isNone).length := by
  have split := List.length_eq_length_filter_add (l := List.range 2048) fun n => (lookupBlock x.blocks n).isSome
  rw [List.length_range, taken_numbers w] at split
  simp only [Option.not_isSome] at split
  unfold Store.freeCount
  show 2048 - _ = _
  omega

/-- Settles O34: each report is what stands; CAPTURE_INFO by the capture it names. -/
theorem statusReports : Obligations.StatusReports := by
  refine ⟨fun p tag s wf h => ?_, fun p tag s h => ?_, fun p tag slot num s h => ?_⟩
  · refine ⟨_, execStatus_taken h, rfl, rfl, rfl, rfl, rfl, rfl, rfl, rfl, rfl, rfl, rfl, rfl, rfl, rfl, freeCount_eq wf, ?_⟩
    show ([0, 1, 2, 3].filter _).length = _
    congr 2
    funext i
    cases s.sto.slots.get i <;> rfl
  · refine ⟨_, execCaptureList_taken h, fun i => ?_⟩
    rw [get_numbered]
    rfl
  · refine ⟨fun outside => ?_, fun i hi gone => ?_, fun i c hi hc same => ⟨s.infoReport ⟨i, num.toNat⟩ c, ?_, ?_⟩⟩
    · rw [execCaptureInfo_taken h, captureInfoAnswer, named_invalid s outside]
      rfl
    · rw [execCaptureInfo_taken h, captureInfoAnswer, named_gone hi gone]
      rfl
    · rw [execCaptureInfo_taken h, captureInfoAnswer, named_held hi hc same]
      rfl
    · have lastTime : ∀ o l, c.origin = some o → s.sto.lastIndex c = some l → s.sto.lastTime c = some (o + l * c.div) :=
        fun o l origin last => by
          unfold Store.lastTime Capture.timeOf
          rw [last, origin]
          rfl
      exact ⟨congrArg _ same.symm, rfl, rfl, rfl, rfl, rfl, fun h => if_pos h, fun h => if_neg (Nat.ne_of_gt h), rfl, lastTime, rfl⟩

end Sys2Proof.Machine
end

section
/-! SUPPORT. The plan consistency checks (R61, R102, R125): what each check says, their order, and the proof of the statement
(O25). -/

namespace Sys2Proof.Machine

open Sys2Proof

/-! ## The ACQ section (R61) -/

theorem mode_ne_fill_iff (m : Mode) : m ≠ .fill ↔ m = .window := by cases m <;> decide

theorem maskHasPod_false_iff (m : ChannelWord) (k : Four) :
    maskHasPod m k = false ↔ ∀ ch, 8 * k.val ≤ ch → ch ≤ 8 * k.val + 7 → m.getLsbD ch = false := by
  rw [← Bool.not_eq_true, maskHas]
  push Not
  simp only [ne_eq, Bool.not_eq_true]

theorem acqReason_quota {a : AcqPlan} (h : a.mode = .window ∧ a.quota ≤ 1) : acqReason a = some .windowQuota :=
  if_pos ⟨(mode_ne_fill_iff _).2 h.1, Nat.lt_succ_of_le h.2⟩

/-- The divider's check, where that of the quota passes (R61). -/
theorem acqReason_divider {a : AcqPlan} (h : ¬ (a.mode = .window ∧ a.quota ≤ 1)) :
    acqReason a = if a.div < 2 ∧ (maskHasPod a.mask 2 ∨ maskHasPod a.mask 3) then
      some (.dividerChannels (if maskHasPod a.mask 2 then 2 else 3)) else none :=
  if_neg fun ⟨mode, quota⟩ => h ⟨(mode_ne_fill_iff _).1 mode, Nat.le_of_lt_succ quota⟩

theorem acqReason_dividerChannels_iff (a : AcqPlan) (k : Nat) :
    acqReason a = some (.dividerChannels k) ↔ ¬ (a.mode = .window ∧ a.quota ≤ 1) ∧ a.div ≤ 1 ∧
      ((k = 2 ∧ maskHasPod a.mask 2 = true) ∨ (k = 3 ∧ maskHasPod a.mask 3 = true ∧ maskHasPod a.mask 2 = false)) := by
  by_cases quota : a.mode = .window ∧ a.quota ≤ 1
  · rw [acqReason_quota quota]
    exact iff_of_false nofun fun h => h.1 quota
  · rw [acqReason_divider quota, and_iff_right quota]
    by_cases div : a.div < 2
    · cases two : maskHasPod a.mask 2 <;> cases three : maskHasPod a.mask 3 <;>
        simp [div, Nat.le_of_lt_succ div, eq_comm]
    · rw [if_neg fun h => div h.1]
      exact iff_of_false nofun fun h => div (Nat.lt_succ_of_le h.1)

theorem acqReason_none_iff (a : AcqPlan) :
    acqReason a = none ↔ ¬ (a.mode = .window ∧ a.quota ≤ 1) ∧ (a.div ≤ 1 → maskHasPod a.mask 2 = false ∧ maskHasPod a.mask 3 = false) := by
  by_cases quota : a.mode = .window ∧ a.quota ≤ 1
  · rw [acqReason_quota quota]
    exact iff_of_false nofun fun h => h.1 quota
  · rw [acqReason_divider quota]
    have passes : a.div ≤ 1 ↔ a.div < 2 := Nat.lt_succ_iff.symm
    rw [and_iff_right quota, passes]
    simp only [ite_eq_right_iff, reduceCtorEq, imp_false, not_and, not_or, Bool.not_eq_true]

/-! ## The stages (R102) -/

theorem maskWithin_false_iff (m mask : ChannelWord) :
    maskWithin m mask = false ↔ ∃ ch, m.getLsbD ch = true ∧ mask.getLsbD ch = false := by
  have bit : ∀ ch, (m &&& ~~~mask).getLsbD ch = (m.getLsbD ch && !mask.getLsbD ch) := fun ch => by
    rw [BitVec.getLsbD_and, BitVec.getLsbD_not]
    by_cases h : ch < 32
    · simp [h]
    · simp [BitVec.getLsbD_of_ge m ch (Nat.le_of_not_lt h)]
  unfold maskWithin
  rw [beq_eq_false_iff_ne]
  constructor
  · intro outside
    by_contra none_
    push Not at none_
    refine outside (BitVec.eq_of_getLsbD_eq fun ch _ => ?_)
    rw [bit, show (0 : ChannelWord).getLsbD ch = false from BitVec.getLsbD_zero]
    cases hm : m.getLsbD ch with
    | false => rfl
    | true => simpa using none_ ch hm
  · rintro ⟨ch, named, unmasked⟩ zero
    have := bit ch
    rw [zero, named, unmasked, show (0 : ChannelWord).getLsbD ch = false from BitVec.getLsbD_zero] at this
    cases this

/-- A check over a stage's conditions fails on the primary, or on the secondary where there is one. -/
theorem conditions_fail_iff {f : Cond → Bool} {P : Cond → Prop} (h : ∀ y, f y = false ↔ P y) (x : Stage) :
    (!x.conditions.all f) = true ↔ P x.primary ∨ ∃ y, x.secondary = some y ∧ P y := by
  rw [← h]
  simp only [← h]
  unfold Stage.conditions
  cases x.secondary <;> simp [Decidable.or_iff_not_imp_left]

theorem targetOk_false_iff (x : Target) (S : Nat) : targetOk x S = false ↔ ∃ k, x = .stage k ∧ S ≤ k := by
  cases x <;> simp [targetOk]

theorem pulseWidthOk_false_iff (y : Cond) : pulseWidthOk y = false ↔ ∃ ch high lo hi, y = .pulse ch high lo hi ∧ hi < lo := by
  cases y <;> simp [pulseWidthOk, and_assoc]

theorem laneKindOk_false_iff (p : Plan) (y : Cond) :
    laneKindOk p y = false ↔ ∃ l e, y = .laneMatch l e ∧ (p.lanes.get l).kind = .none := by
  cases y <;> simp [laneKindOk, and_assoc]

theorem matchEntryOk_false_iff (p : Plan) (y : Cond) : matchEntryOk p y = false ↔
    ∃ l e, y = .laneMatch l e ∧ ∀ z, (p.matchLists.get l)[e]? = some z → z.actions.feed = false := by
  cases y with
  | laneMatch l e =>
    simp only [matchEntryOk, Cond.laneMatch.injEq]
    refine Iff.trans ?_ (Iff.symm ⟨fun ⟨_, _, ⟨rfl, rfl⟩, h⟩ => h, fun h => ⟨l, e, ⟨rfl, rfl⟩, h⟩⟩)
    cases (p.matchLists.get l)[e]? <;> simp
  | _ => simp [matchEntryOk]

/-- The channels a condition names. -/
def Cond.names (y : Cond) (ch : Nat) : Prop :=
  (∃ m v e, y = .pattern m v e ∧ m.getLsbD ch = true) ∨ (∃ m d, y = .edge m d ∧ m.getLsbD ch = true) ∨
    ∃ high lo hi, y = .pulse ch high lo hi

theorem channelsOk_false_iff (mask : ChannelWord) (y : Cond) :
    channelsOk mask y = false ↔ ∃ ch, y.names ch ∧ mask.getLsbD ch = false := by
  cases y <;> simp [channelsOk, Cond.names, maskWithin_false_iff]

theorem andSecondary_iff (x : Option Cond) : (!(match x with | some (.pattern _ _ _) => true | _ => false)) = true ↔
    ∀ m v e, x ≠ some (.pattern m v e) := by
  cases x with
  | none => simp
  | some y => cases y <;> simp

theorem isWithin_iff (x : StageTimer) : x.isWithin = true ↔ ∃ l, x = .within l := by
  cases x <;> simp [StageTimer.isWithin]

/-! ## The lanes (R125) -/

theorem allDistinct_iff (l : List Nat) : allDistinct l = true ↔ l.Nodup := by
  induction l with
  | nil => simp [allDistinct]
  | cons x rest ih => simp [allDistinct, ih]

theorem mem_channels_iff (x : LaneCfg) (ch : Nat) : ch ∈ x.channels ↔ (x.kind ≠ .none ∧ x.data = ch) ∨
    ((x.kind = .twoWire ∨ x.kind = .clocked) ∧ x.clock = ch) ∨ (x.kind = .clocked ∧ x.select = some ch) := by
  unfold LaneCfg.channels
  cases x.kind with
  | clocked =>
    cases x.select <;> simp [eq_comm, or_left_comm, or_comm]
  | _ => simp [eq_comm, or_comm]

theorem channels_clash_iff (x : LaneCfg) : ¬ x.channels.Nodup ↔ ((x.kind = .twoWire ∨ x.kind = .clocked) ∧ x.clock = x.data) ∨
    (x.kind = .clocked ∧ (x.select = some x.clock ∨ x.select = some x.data)) := by
  unfold LaneCfg.channels
  cases x.kind with
  | clocked =>
    cases x.select with
    | none => simp
    | some c =>
      simp only [List.cons_append, List.nil_append, List.nodup_cons, List.mem_cons, List.not_mem_nil, Option.some.injEq]
      grind
  | _ => simp

/-! ## The order of the checks (R61) -/

/-- The first of the four that gives something. -/
theorem findSome_four {α : Type} {f : Four → Option α} {i : Four} {r : α} (h : f i = some r) (h' : ∀ j, j < i → f j = none) :
    allFour.findSome? f = some r := by
  unfold allFour
  fin_cases i
  · simp [show f 0 = some r from h]
  · simp [h' 0 (by decide), show f 1 = some r from h]
  · simp [h' 0 (by decide), h' 1 (by decide), show f 2 = some r from h]
  · simp [h' 0 (by decide), h' 1 (by decide), h' 2 (by decide), show f 3 = some r from h]

/-- The stages below the stage count, read as a list, are those of the record. -/
theorem usedStages_getElem {x : TriggerPlan} {j : Nat} (h : j < (x.stages.toList.take x.count).length) :
    ∃ k : Fin 8, k.val = j ∧ k.val < x.count ∧ (x.stages.toList.take x.count)[j] = x.stages[k] := by
  have bound := h
  rw [List.length_take, Vector.length_toList] at bound
  obtain ⟨below, eight⟩ := lt_min_iff.1 bound
  exact ⟨⟨j, eight⟩, rfl, below, getStage _ _ _ eight below h⟩

theorem usedStages_pass {p : Plan} (h : ∀ k : Fin 8, k.val < p.trigger.count → stageReason p p.trigger.stages[k] = none) :
    firstStageProblem p 0 (p.trigger.stages.toList.take p.trigger.count) = none := by
  refine firstStage_none p _ 0 fun x hx => ?_
  obtain ⟨j, hj, rfl⟩ := List.mem_iff_getElem.1 hx
  obtain ⟨k, -, below, same⟩ := usedStages_getElem hj
  rw [same]
  exact h k below

theorem usedStages_fail {p : Plan} {k : Fin 8} {r : PlanReason} (below : k.val < p.trigger.count)
    (earlier : ∀ j : Fin 8, j < k → stageReason p p.trigger.stages[j] = none) (fails : stageReason p p.trigger.stages[k] = some r) :
    firstStageProblem p 0 (p.trigger.stages.toList.take p.trigger.count) = some (PlanProblem.mk .trigger (some k.val) r) := by
  have inList : k.val < (p.trigger.stages.toList.take p.trigger.count).length := by
    rw [List.length_take, Vector.length_toList]
    exact lt_min below k.isLt
  have first := firstStage_some p _ 0 k.val inList r (fun i hi => ?_) ?_
  · rwa [Nat.zero_add] at first
  · obtain ⟨j, rfl, -, same⟩ := usedStages_getElem (Nat.lt_trans hi inList)
    rw [same]
    exact earlier j hi
  · obtain ⟨j, hj, -, same⟩ := usedStages_getElem inList
    rw [same, Fin.ext hj]
    exact fails

theorem problem_of_stage {p : Plan} {x : PlanProblem} (acq : acqReason p.acq = none)
    (fails : firstStageProblem p 0 (p.trigger.stages.toList.take p.trigger.count) = some x) : p.problem = some x := by
  unfold Plan.problem
  simp only [acq, fails]

theorem problem_of_lanes {p : Plan} (acq : acqReason p.acq = none)
    (stages : ∀ k : Fin 8, k.val < p.trigger.count → stageReason p p.trigger.stages[k] = none) :
    p.problem = firstLaneProblem p := by
  unfold Plan.problem
  simp only [acq, usedStages_pass stages]

/-- Settles O25: each check says what its condition says, and the search names the first that fails. -/
theorem planCheckOrder : Obligations.PlanCheckOrder := by
  refine ⟨fun a => ⟨⟨fun h => ?_, acqReason_quota⟩, fun k => ?_, ?_⟩, fun plan x => ?_, fun a x => ?_, fun plan r fails => ?_,
    fun plan k r acq below earlier fails => ?_, fun plan l r acq stages earlier fails => ?_, fun plan acq stages lanes => ?_⟩
  · by_contra quota
    rw [acqReason_divider quota] at h
    split at h <;> cases h
  · rw [acqReason_dividerChannels_iff, maskHas, maskHas, maskHasPod_false_iff]
    exact Iff.rfl
  · rw [acqReason_none_iff, maskHasPod_false_iff, maskHasPod_false_iff]
    refine and_congr_right fun _ => imp_congr_right fun _ => ⟨fun ⟨two, three⟩ ch low high => ?_, fun h => ⟨fun ch low high => ?_,
      fun ch low high => ?_⟩⟩
    · by_cases below : ch ≤ 23
      · exact two ch low below
      · exact three ch (by omega) high
    · exact h ch low (by omega)
    · exact h ch (by omega) high
  · extract_lets carries names target noSecond notPattern widths noKind noFeed outside noFail
    have target_iff : (!(targetOk x.success plan.trigger.count && (match x.fail with
        | some k => decide (k < plan.trigger.count)
        | none => true))) = true ↔ target := by
      rw [Bool.not_eq_true', Bool.and_eq_false_iff, targetOk_false_iff]
      refine or_congr_right ?_
      cases x.fail <;> simp
    have noSecond_iff : (x.combine ≠ .none ∧ x.secondary.isNone = true) ↔ noSecond := and_congr_right' Option.isNone_iff_eq_none
    have notPattern_iff := and_congr_right' (a := x.combine = .and) (andSecondary_iff x.secondary)
    have widths_iff := conditions_fail_iff pulseWidthOk_false_iff x
    have noKind_iff := conditions_fail_iff (laneKindOk_false_iff plan) x
    have noFeed_iff := conditions_fail_iff (matchEntryOk_false_iff plan) x
    have outside_iff := conditions_fail_iff (channelsOk_false_iff plan.acq.mask) x
    have noFail_iff : (x.timer.isWithin && x.fail.isNone) = true ↔ noFail := by
      rw [Bool.and_eq_true, isWithin_iff, Option.isNone_iff_eq_none]
    refine ⟨fun h => if_pos (target_iff.2 h), fun h => ?_⟩
    have passed : stageReason plan x = _ := if_neg (mt target_iff.1 h)
    refine ⟨fun h => passed.trans (if_pos (noSecond_iff.2 h)), fun h => ?_⟩
    replace passed := passed.trans (if_neg (mt noSecond_iff.1 h))
    refine ⟨fun h => passed.trans (if_pos (notPattern_iff.2 h)), fun h => ?_⟩
    replace passed := passed.trans (if_neg (mt notPattern_iff.1 h))
    refine ⟨fun h => passed.trans (if_pos (widths_iff.2 h)), fun h => ?_⟩
    replace passed := passed.trans (if_neg (mt widths_iff.1 h))
    refine ⟨fun h => passed.trans (if_pos (noKind_iff.2 h)), fun h => ?_⟩
    replace passed := passed.trans (if_neg (mt noKind_iff.1 h))
    refine ⟨fun h => passed.trans (if_pos (noFeed_iff.2 h)), fun h => ?_⟩
    replace passed := passed.trans (if_neg (mt noFeed_iff.1 h))
    refine ⟨fun h => passed.trans (if_pos (outside_iff.2 h)), fun h => ?_⟩
    replace passed := passed.trans (if_neg (mt outside_iff.1 h))
    exact ⟨fun h => passed.trans (if_pos (noFail_iff.2 h)), fun h => passed.trans (if_neg (mt noFail_iff.1 h))⟩
  · extract_lets clocked used outside clash bitShort cellShort
    have outside_iff : (!x.channels.all fun c => a.mask.getLsbD c) = true ↔ outside := by
      rw [Bool.not_eq_true', List.all_eq_false]
      simp only [Bool.not_eq_true]
      exact exists_congr fun ch => and_congr_left' (mem_channels_iff x ch)
    have clash_iff : (!allDistinct x.channels) = true ↔ clash := by
      rw [Bool.not_eq_true', ← Bool.not_eq_true, allDistinct_iff]
      exact channels_clash_iff x
    unfold laneReason
    refine ⟨fun h => if_pos (outside_iff.2 h), fun h => ?_⟩
    rw [if_neg (mt outside_iff.1 h)]
    refine ⟨fun h => if_pos (clash_iff.2 h), fun h => ?_⟩
    rw [if_neg (mt clash_iff.1 h)]
    refine ⟨fun h => if_pos h, fun h => ?_, fun bit cell => ?_⟩
    · rw [if_neg fun bit => ?_, if_pos h]
      have kind := bit.1.symm.trans h.1
      cases kind
    · rw [if_neg bit, if_neg cell]
  · unfold Plan.problem
    rw [fails]
  · exact problem_of_stage acq (usedStages_fail below earlier fails)
  · rw [problem_of_lanes acq stages]
    exact findSome_four (by rw [fails]; rfl) fun j hj => by rw [earlier j hj]; rfl
  · rw [problem_of_lanes acq stages]
    exact List.findSome?_eq_none_iff.2 fun l _ => by rw [lanes l]; rfl

end Sys2Proof.Machine
end

section
/-! SUPPORT. What comes about on a lane: only the ends of frames and drains (R109, R116, R118, R120, R122). -/

namespace Sys2Proof.Machine

open Sys2Proof

/-- A row that a lane brings about, and not ACQ or TRG. -/
def Happening.ofLane : Happening → Bool
  | .armedEntry | .withinExpiry | .stageSatisfied | .postDone => false
  | _ => true

namespace LaneWork

/-- What has come about on a lane that is not a lane's own. -/
def foreign (w : LaneWork) : List Happening := w.came.filter fun h => !h.ofLane

variable (w : LaneWork)

theorem note_foreign {h : Happening} (own : h.ofLane = true) : (w.note h).foreign = w.foreign := by
  simp [foreign, note, own]

@[simp] theorem emit_foreign (kind value attrs err bits t0 t1) : (w.emit kind value attrs err bits t0 t1).foreign = w.foreign := rfl
@[simp] theorem withCtx_foreign (f : LaneCtx → LaneCtx) : (w.withCtx f).foreign = w.foreign := rfl
@[simp] theorem withKind_foreign (f : KindCtx → KindCtx) : (w.withKind f).foreign = w.foreign := rfl
@[simp] theorem openFrame_foreign (t : Nat) : (w.openFrame t).foreign = w.foreign := rfl
@[simp] theorem leaveFrame_foreign (basis : HuntBasis) : (w.leaveFrame basis).foreign = w.foreign := rfl
@[simp] theorem emitStop_foreign (t : Nat) : (w.emitStop t).foreign = w.foreign := rfl
@[simp] theorem emitPartial_foreign (t : Nat) : (w.emitPartial t).foreign = w.foreign := rfl
@[simp] theorem takeBit_foreign (b : Bool) (t : Nat) : (w.takeBit b t).foreign = w.foreign := rfl
@[simp] theorem note_stall_foreign (i : Four) : (w.note (.twoWireStall i)).foreign = w.foreign := note_foreign w rfl
@[simp] theorem note_clocked_foreign (i : Four) : (w.note (.clockedIdleEnd i)).foreign = w.foreign := note_foreign w rfl
@[simp] theorem note_async_foreign (i : Four) : (w.note (.asyncIdleEnd i)).foreign = w.foreign := note_foreign w rfl
@[simp] theorem note_biphase_foreign (i : Four) : (w.note (.biphaseIdleEnd i)).foreign = w.foreign := note_foreign w rfl
@[simp] theorem note_drain_foreign (i : Four) : (w.note (.drainLimit i)).foreign = w.foreign := note_foreign w rfl

@[simp] theorem completeWord_foreign (kind value attrs t0 t1) : (w.completeWord kind value attrs t0 t1).foreign = w.foreign := by
  unfold completeWord
  dsimp only
  split
  · rfl
  · split <;> rfl

@[simp] theorem disposeWord_foreign (msb : Bool) (least t : Nat) : (w.disposeWord msb least t).foreign = w.foreign := by
  unfold disposeWord
  dsimp only
  split
  · split <;> rfl
  · rfl

/-! ### By kind -/

theorem twoWireFrame_foreign (it : SampleItem) : (w.twoWireFrame it).foreign = w.foreign := by
  have byte : ∀ (v : LaneWork) x t, (v.twoWireByte x t).foreign = v.foreign := fun v x t => by
    unfold twoWireByte
    dsimp only
    split <;> simp
  unfold twoWireFrame
  extract_lets clk dat w1 bit w2 steady w3
  have h1 : w1.foreign = w.foreign := by
    simp only [w1]
    split <;> rfl
  have h2 : w2.foreign = w1.foreign := by
    simp only [w2]
    split
    · split
      · split
        · exact byte _ _ _
        · rfl
      · rfl
    · rfl
  have h3 : w3.foreign = w2.foreign := by
    simp only [w3]
    split
    · simp
    · split <;> simp
  rw [← h1, ← h2, ← h3]
  split
  · split <;> simp
  · rfl

theorem twoWireHunt_foreign (it : SampleItem) : (w.twoWireHunt it).foreign = w.foreign := by
  unfold twoWireHunt
  split <;> rfl

theorem clockedBit_foreign (it : SampleItem) : (w.clockedBit it).foreign = w.foreign := by
  unfold clockedBit
  dsimp only
  split
  · split
    · split <;> simp
    · simp
  · rfl

theorem clockedFrame_foreign (it : SampleItem) : (w.clockedFrame it).foreign = w.foreign := by
  rw [← clockedBit_foreign w it]
  unfold clockedFrame
  dsimp only
  split
  · split <;> simp
  · split
    · split <;> simp
    · rfl

theorem clockedHunt_foreign (basis : HuntBasis) (it : SampleItem) : (w.clockedHunt basis it).foreign = w.foreign := by
  unfold clockedHunt
  dsimp only
  split
  · split <;> simp [clockedBit_foreign]
  · split
    · split
      · split <;> simp [clockedBit_foreign]
      · rfl
    · rfl

theorem asyncRead_foreign (ch : AsyncChar) (D : Nat) (it : SampleItem) : (w.asyncRead ch D it).foreign = w.foreign := by
  have complete : ∀ (v : LaneWork) ch, (v.asyncComplete ch it).foreign = v.foreign := fun v ch => by
    unfold asyncComplete
    dsimp only
    split <;> simp
  unfold asyncRead
  extract_lets cfg ch1 ch2
  split
  · split
    · split <;> rfl
    · split
      · exact complete w ch2
      · rfl
  · rfl

theorem asyncGap_foreign (it : SampleItem) : (w.asyncGap it).foreign = w.foreign := by
  unfold asyncGap
  dsimp only
  split
  · rfl
  · split <;> rfl

theorem asyncFrame_foreign (D : Nat) (it : SampleItem) : (w.asyncFrame D it).foreign = w.foreign := by
  unfold asyncFrame
  extract_lets cfg w1
  have h1 : w1.foreign = w.foreign := by
    simp only [w1]
    split
    · exact asyncRead_foreign w _ D it
    · exact asyncGap_foreign w it
  rw [← h1]
  split
  · split <;> simp
  · rfl

theorem asyncHunt_foreign (basis : HuntBasis) (D : Nat) (it : SampleItem) : (w.asyncHunt basis D it).foreign = w.foreign := by
  unfold asyncHunt
  extract_lets cfg toIdle w1 ready
  have h1 : w1.foreign = w.foreign := by
    simp only [w1]
    split <;> rfl
  rw [← h1]
  split
  · split
    · split <;> rfl
    · rfl
  · split
    · split <;> rfl
    · rfl

theorem biphaseFrame_foreign (it : SampleItem) : (w.biphaseFrame it).foreign = w.foreign := by
  have bit : ∀ (v : LaneWork) b cell t, (v.biphaseBit b cell t).foreign = v.foreign := fun v b cell t => by
    unfold biphaseBit
    dsimp only
    split
    · split <;> simp
    · rfl
  unfold biphaseFrame
  dsimp only
  split
  · rfl
  · split
    · split
      · exact bit _ _ _ _
      · rfl
      · exact bit _ _ _ _
      · rfl
    · split <;> simp

theorem biphaseHunt_foreign (basis : HuntBasis) (it : SampleItem) : (w.biphaseHunt basis it).foreign = w.foreign := by
  unfold biphaseHunt
  dsimp only
  split
  · split
    · split <;> rfl
    · rfl
  · rfl

/-! ### A sample -/

theorem hunt_foreign (D : Nat) (it : SampleItem) : (w.hunt D it).foreign = w.foreign := by
  unfold LaneWork.hunt
  extract_lets basis w1
  show _ = w1.foreign
  split
  · rfl
  · exact twoWireHunt_foreign w1 it
  · exact clockedHunt_foreign w1 basis it
  · exact asyncHunt_foreign w1 basis D it
  · exact biphaseHunt_foreign w1 basis it

theorem inside_foreign (D : Nat) (it : SampleItem) : (w.inside D it).foreign = w.foreign := by
  unfold LaneWork.inside
  split
  · rfl
  · exact twoWireFrame_foreign w it
  · exact clockedFrame_foreign w it
  · exact asyncFrame_foreign w D it
  · exact biphaseFrame_foreign w it

theorem cutDrain_foreign (it : SampleItem) : (w.cutDrain it).foreign = w.foreign := by
  unfold cutDrain
  split
  · split <;> simp
  · rfl

end LaneWork

/-- A lane brings about nothing on a sample but the ends of its frames and drains. -/
theorem laneHandle_came (ix : Four) (x : Lane) (D : Nat) (it : SampleItem) : ∀ h ∈ (laneHandle ix x D it).2.2, h.ofLane = true := by
  unfold laneHandle
  split
  · exact nofun
  · split
    · exact nofun
    · extract_lets due w held released last
      have h1 : held.foreign = [] := by
        simp only [held]
        split
        · unfold LaneWork.applyHold
          split <;> rfl
        · rfl
      have h2 : released.foreign = held.foreign := by
        simp only [released]
        split
        · unfold LaneWork.applyRelease
          split <;> rfl
        · rfl
      have h3 : last.foreign = released.foreign := by
        simp only [last]
        split
        · exact released.hunt_foreign D it
        · exact released.inside_foreign D it
        · exact (LaneWork.cutDrain_foreign _ it).trans (released.inside_foreign D it)
        · rfl
      intro h hh
      by_contra other
      have there : h ∈ last.foreign := List.mem_filter.2 ⟨hh, by simpa using other⟩
      rw [h3, h2, h1] at there
      cases there

/-- The lanes bring about nothing on a sample but what is a lane's own. -/
theorem lanesSample_came (s : State) (D : Nat) (it : SampleItem) : ∀ h ∈ (s.lanesSample D it).2.2, h.ofLane = true := by
  intro h hh
  obtain ⟨r, hr, there⟩ := List.mem_flatMap.1 hh
  have lane : ∃ i, r = laneHandle i (s.lanes.get i) D it := by
    simp only [Quad.toList, State.lanesHandle, List.mem_cons, List.not_mem_nil, or_false] at hr
    obtain rfl | rfl | rfl | rfl := hr
    · exact ⟨0, rfl⟩
    · exact ⟨1, rfl⟩
    · exact ⟨2, rfl⟩
    · exact ⟨3, rfl⟩
  obtain ⟨i, rfl⟩ := lane
  exact laneHandle_came _ _ _ _ h there

end Sys2Proof.Machine
end

section
/-! SUPPORT. What TRG and ACQ do on a sample, told of any state the sample comes to (R64 to R66, R93 to R100): the statement's proof
(O51). -/

namespace Sys2Proof.Machine

open Sys2Proof

/-! ## Stage actions (R97, R98) -/

/-- The actions of the stage that an evaluation found satisfied, if it found one. -/
def State.actedBy (s : State) (y : Option (Stage × TrigSource)) (n : Nat) : State :=
  match y with
  | some (x, _) => s.stageActions x.actions n
  | none => s

/-- A lane after those actions. -/
def Lane.actedBy (x : Lane) (l : Four) (y : Option (Stage × TrigSource)) (n : Nat) : Lane :=
  match y with
  | some y => x.actedOn l y.1.actions n
  | none => x

/-- Do those actions ask for a pulse? -/
def pulseAsked (y : Option (Stage × TrigSource)) : Bool := y.any fun y => y.1.actions.pulseOut

/-- Do those actions ask for a notice? -/
def noticeAsked (y : Option (Stage × TrigSource)) : Bool := y.any fun y => y.1.actions.notify

theorem beginPulse_eq (s : State) :
    s.beginPulse = s.setTrg { s.trg with pulses := s.trg.pulsesWith (s.timebase + 100) } := by
  have width : Config.pulseWidth = 100 := rfl
  unfold State.beginPulse Trg.pulsesWith
  rw [width]
  dsimp only
  by_cases h : s.timebase + 100 ∈ s.trg.pulses
  · rw [if_pos h, if_pos (List.contains_iff_mem.2 h)]
    rfl
  · rw [if_neg h, if_neg (mt List.contains_iff_mem.1 h)]

/-- A pulse that ends when one runs already changes nothing (R98). -/
theorem pulsesWith_pulsesWith (x y : Trg) (stop : Nat) (h : y.pulses = x.pulsesWith stop) : y.pulsesWith stop = x.pulsesWith stop := by
  have runs : stop ∈ y.pulses := by
    rw [h]
    unfold Trg.pulsesWith
    split
    · assumption
    · simp
  rw [Trg.pulsesWith, if_pos runs, h]

/-- A lane after a set of holds and a set of releases with one index (R98). -/
theorem requestLanes_given (lanes : Quad Lane) (hold release : LaneSet) (n : Nat) (l : Four) :
    (requestLanes lanes hold release n).get l = (lanes.get l).given (hold.getLsbD l.val) (release.getLsbD l.val) n := by
  unfold requestLanes
  rw [get_numbered]
  unfold Lane.given Lane.request
  by_cases off : (lanes.get l).state = .off
  · simp [off]
  · cases hold.getLsbD l.val <;> cases release.getLsbD l.val <;> simp [off]

theorem laneSet_getD_getLsbD (m : Option LaneSet) (k : Nat) :
    (m.getD 0).getLsbD k = (match m with | some m => m.getLsbD k | none => false) := by
  cases m with
  | none => exact BitVec.getLsbD_zero
  | some m => rfl

/-- All that stage actions do (R97, R98). -/
structure Acted (s : State) (y : Option (Stage × TrigSource)) (n : Nat) (t : State) : Prop where
  timebase : t.timebase = s.timebase
  smp : t.smp = s.smp
  sto : t.sto = s.sto
  acq : t.acq = s.acq
  trg : t.trg = { s.trg with pulses := if pulseAsked y then s.trg.pulsesWith (s.timebase + 100) else s.trg.pulses }
  lanes : ∀ l, t.lanes.get l = (s.lanes.get l).actedBy l y n
  notices : ∀ q m, t.hasNotice q m = (s.hasNotice q m || (noticeAsked y && decide (m = .engineState)))

theorem actedBy_acted (s : State) (y : Option (Stage × TrigSource)) (n : Nat) : Acted s y n (s.actedBy y n) := by
  cases y with
  | none => exact ⟨rfl, rfl, rfl, rfl, rfl, fun _ => rfl, fun _ _ => (Bool.or_false _).symm⟩
  | some y =>
    obtain ⟨x, source⟩ := y
    show Acted s (some (x, source)) n (s.stageActions x.actions n)
    unfold State.stageActions
    extract_lets told asked
    have sent : told = if x.actions.notify then s.raiseBoth .engineState else s := rfl
    have toldTrg : told.trg = s.trg := by rw [sent]; split <;> rfl
    have toldTime : told.timebase = s.timebase := by rw [sent]; split <;> rfl
    have toldLanes : told.lanes = s.lanes := by rw [sent]; split <;> rfl
    have base : asked.smp = s.smp ∧ asked.sto = s.sto ∧ asked.acq = s.acq := by
      simp only [asked, sent]
      split <;> exact ⟨rfl, rfl, rfl⟩
    obtain ⟨smp, sto, acq⟩ := base
    have lanes : ∀ l, asked.lanes.get l = (s.lanes.get l).actedBy l (some (x, source)) n := fun l => by
      show (requestLanes told.lanes _ _ n).get l = _
      rw [requestLanes_given, laneSet_getD_getLsbD, laneSet_getD_getLsbD, toldLanes]
      rfl
    have notices : ∀ q m, asked.hasNotice q m = (s.hasNotice q m || (x.actions.notify && decide (m = .engineState))) := fun q m => by
      show told.hasNotice q m = _
      rw [sent]
      cases x.actions.notify
      · simp
      · simp [hasNotice_raiseBoth]
    split
    · next pulse =>
      rw [beginPulse_eq]
      refine ⟨toldTime, smp, sto, acq, ?_, lanes, notices⟩
      have askedFor : pulseAsked (some (x, source)) = true := pulse
      rw [if_pos askedFor, ← toldTrg, ← toldTime]
      rfl
    · next noPulse =>
      refine ⟨toldTime, smp, sto, acq, ?_, lanes, notices⟩
      have notAsked : ¬ pulseAsked (some (x, source)) = true := noPulse
      rw [if_neg notAsked]
      exact toldTrg

/-! ## The declaration (R66, R99) -/

/-- All that a declaration does for the named capture (R66, R99). -/
structure Declared (s : State) (name : CapName) (c : Capture) (source : TrigSource) (t : Nat) (u : State) : Prop where
  timebase : u.timebase = s.timebase
  smp : u.smp = s.smp
  lanes : u.lanes = s.lanes
  acq : u.acq = { s.acq with
    postEnd := some (t + (s.acq.copy.map AcqPlan.post).getD 0), force := none, engine := .triggered, armedAt := none }
  trg : u.trg = { s.trg with state := .declared, pendingEntry := none, pulses := s.trg.pulsesWith (s.timebase + 100) }
  sto : u.sto = { s.sto with slots := s.sto.slots.set name.slot (some { c with
    trigTime := some t, trigSource := some source, trigBlock := (s.sto.filling name).map Prod.fst
    shortPre := c.shortPre || decide (s.acq.force = some .arming ∧ source = .force) }) }
  notices : ∀ q m, u.hasNotice q m = (s.hasNotice q m || decide (m = .engineState) || decide (m = .triggered))

theorem declare_declared {s : State} {name : CapName} {c : Capture} (ha : s.acq.active = some name)
    (hc : s.sto.capture name = some c) (source : TrigSource) (t : Nat) : Declared s name c source t (s.declare source t) := by
  unfold State.declare
  extract_lets short s1 acq s2 s3 trg s4
  have recorded : s1 = s.setSto { s.sto with slots := s.sto.slots.set name.slot (some { c with
      trigTime := some t, trigSource := some source, trigBlock := (s.sto.filling name).map Prod.fst
      shortPre := c.shortPre || short }) } := by
    simp only [s1, ha]
    exact modifyCapture_eq hc _
  have notices : ∀ q m, s3.hasNotice q m = (s1.hasNotice q m || decide (m = .engineState) || decide (m = .triggered)) := fun q m =>
    (hasNotice_raiseBoth _ _ _ _).trans (congrArg (· || _) (hasNotice_raiseBoth s2 q _ m))
  have ports : s3 = s2.setPorts s3.ports := rfl
  clear_value s1 s3
  subst recorded
  rw [beginPulse_eq]
  simp only [s4, trg]
  rw [ports]
  refine ⟨rfl, rfl, rfl, rfl, rfl, ?_, notices⟩
  rw [Bool.decide_and]
  rfl

/-! ## The state in which TRG evaluates a sample (R26, R65, R95) -/

/-- The state after the lanes have had the sample, with the actions `y` of a stage done or not: what a trigger or another sample of the
capture follows from. -/
structure State.AtTrg (s : State) (x : Sampling) (name : CapName) (c : Capture) (w : ChannelWord) (y : Option (Stage × TrigSource))
    (v : State) : Prop where
  timebase : v.timebase = max s.timebase x.nextRaw
  acq : v.acq = { s.acq with engine := v.acq.engine, armedAt := v.acq.armedAt }
  smp : v.smp = some (x.held (x.nextWord w))
  pulses : v.trg.pulses = if pulseAsked y then s.trg.pulsesWith (max s.timebase x.nextRaw + 100) else s.trg.pulses
  lanes : ∀ l, v.lanes.get l = ((s.lanesAfterSample x.div (x.item name (x.nextWord w))).get l).actedBy l y x.next
  record : ∃ d, v.Holding name d ∧ d.endReason = c.endReason ∧ d.trigTime = c.trigTime ∧ d.trigSource = c.trigSource ∧
    d.trigBlock = c.trigBlock ∧ d.shortPre = c.shortPre

/-- What TRG and ACQ do once the sample is observed (R64, R65, R95). -/
def State.trgOn (s : State) (o : Observed) : State × List Happening :=
  match s.acq.engine with
  | .arming =>
    if s.acq.force.isSome then (s.declare .force o.it.raw, [])
    else
      match s.acq.armedAt with
      | some t =>
        if t ≤ o.it.raw then
          let v := s.enterArmed.seek o
          (v.1, .armedEntry :: v.2)
        else (s, [])
      | none => (s, [])
  | .armed => s.seek o
  | _ => (s, [])

/-- What the sample brings to TRG, with the lanes' offers (R83, R84, R88). -/
def State.observing (s : State) (it : SampleItem) (offers : List (Four × Nat)) : Observed :=
  { it, history := s.trg.history, arrival := (s.observe it).2, offers }

theorem trgSample_eq (s : State) (it : SampleItem) (offers : List (Four × Nat)) :
    s.trgSample it offers = (s.observe it).1.trgOn (s.observing it offers) := rfl

theorem allEffects_of_same {s u : State} (pods : u.pods = s.pods) (plan : u.acq.plan = s.acq.plan) :
    u.allEffects = s.allEffects := by
  funext lanes out
  unfold State.allEffects State.effectsOfLane State.skewOf
  rw [pods, plan]

theorem lanesHandle_of_lanes {s u : State} (lanes : u.lanes = s.lanes) : u.lanesHandle = s.lanesHandle := by
  funext D it
  unfold State.lanesHandle
  rw [lanes]

/-- What the sample brings to TRG is what it brings from the state before it (R26). -/
theorem observing_eq {s u : State} {x : Sampling} {name : CapName} {w : ChannelWord} {offers : List (Four × Nat)}
    (trg : u.trg = s.trg) (same : offers = s.offersOn x.div (x.item name (x.nextWord w))) :
    u.observing (x.item name (x.nextWord w)) offers = s.observedOn x name w := by
  have live : ∀ st : TrgState, decide (st = .gated ∨ st = .seeking) = (st == .gated || st == .seeking) := fun st => by
    cases st <;> rfl
  unfold State.observing State.observe State.observedOn
  dsimp only
  rw [trg, same, live]
  rfl

/-- A sample comes to TRG with the lanes' events handed on and nothing of TRG but its history and mark changed. -/
theorem takeSample_atTrg {s : State} {x : Sampling} {name : CapName} {c : Capture} (w : ChannelWord) (wf : s.sto.wf = true)
    (h : s.canHold x name c) (stop : s.acq.stopPending = false) :
    ∃ v came, s.AtTrg x name c w none v ∧
      v.acq = (if x.next = 0 then { s.acq with armedAt := some (x.nextRaw + (s.acq.copy.map AcqPlan.pre).getD 0) } else s.acq) ∧
      v.trg = { s.trg with history := v.trg.history, mark := v.trg.mark } ∧
      (∀ q, v.hasNotice q .engineState = s.hasNotice q .engineState) ∧ (∀ k ∈ came, k.ofLane = true) ∧
      s.takeSample w = (v.trgOn (s.observedOn x name w)).1.postTest x.nextRaw (came ++ (v.trgOn (s.observedOn x name w)).2) := by
  have ⟨_, ha, hc, hn, n, b, hf, _⟩ := h
  obtain ⟨u, held, taken⟩ := takeSample_held s x name c n b w wf h hf
  have holding := held.holding ha hn
  have effects : u.allEffects = s.allEffects := allEffects_of_same held.pods (by rw [held.acq]; split <;> rfl)
  have handle : u.lanesHandle = s.lanesHandle := lanesHandle_of_lanes held.lanes
  have offers : (u.lanesSample x.div (x.item name (x.nextWord w))).2.1 = s.offersOn x.div (x.item name (x.nextWord w)) := by
    show u.offersOn _ _ = _
    unfold State.offersOn
    rw [effects, handle]
  have handed := handOn_facts u ((u.lanesHandle x.div (x.item name (x.nextWord w))).map fun y => y.1)
    ((u.lanesHandle x.div (x.item name (x.nextWord w))).map fun y => y.2.1) x.next name _ holding.active holding.capture
    holding.incomplete
  have came := lanesSample_came u x.div (x.item name (x.nextWord w))
  obtain ⟨d, kept⟩ := lanesSample_afterHold name u x.div (x.item name (x.nextWord w)) _ holding
  have lanes : (u.lanesSample x.div (x.item name (x.nextWord w))).1.lanes =
      s.lanesAfterSample x.div (x.item name (x.nextWord w)) := by
    refine handed.lanes_.trans ?_
    rw [effects, handle]
    rfl
  have stopped : u.acq.stopPending = false := by rw [held.acq]; split <;> exact stop
  rw [taken]
  unfold State.deliver
  simp only [stopped, Bool.false_eq_true, if_false, trgSample_eq]
  rw [offers]
  change HandedOn u _ _ _ _ _ (u.lanesSample x.div (x.item name (x.nextWord w))).1 at handed
  generalize u.lanesSample x.div (x.item name (x.nextWord w)) = r at *
  obtain ⟨v, os, cs⟩ := r
  dsimp only at *
  rw [observing_eq (handed.trg.trans held.trg) rfl]
  have acq : v.acq = u.acq := handed.acq
  refine ⟨(v.observe (x.item name (x.nextWord w))).1, cs, ⟨handed.timebase.trans held.timebase, ?_, handed.smp.trans held.smp, ?_,
    fun l => by rw [← lanes]; rfl, d, ⟨kept.holding.wf, kept.holding.active, kept.holding.capture, kept.holding.incomplete,
      kept.holding.filling⟩, ?_⟩, acq.trans held.acq, ?_, fun q => ?_, came, rfl⟩
  · show v.acq = { s.acq with engine := v.acq.engine, armedAt := v.acq.armedAt }
    rw [acq, held.acq]
    split <;> rfl
  · show v.trg.pulses = s.trg.pulses
    rw [handed.trg, held.trg]
  · obtain ⟨d', hd', record⟩ := handed.capture
    obtain rfl : d' = d := Option.some.inj (hd'.symm.trans kept.holding.capture)
    rw [record]
    split <;> exact ⟨rfl, rfl, rfl, rfl, rfl⟩
  · rw [← handed.trg.trans held.trg]
    rfl
  · have here := handed.notices q .engineState (by simp [Notice.ofEvents]) nofun
    have ports : u.hasNotice q .engineState = s.hasNotice q .engineState := by
      unfold State.hasNotice
      rw [held.ports]
    exact here.trans ports

/-! ## The evaluation in SEEKING (R95) -/

/-- What an evaluation brings about. -/
def Evaluated.came (v : Evaluated) : List Happening :=
  (if v.expired then [.withinExpiry] else []) ++ (if v.satisfied.isSome then [.stageSatisfied] else [])

/-- TRG with what an evaluation found, and the actions of the stage it found satisfied. -/
def State.evaluatedBy (s : State) (v : Evaluated) (n : Nat) : State :=
  (s.setTrg { s.trg with run := some v.run, pendingEntry := v.pendingEntry }).actedBy v.satisfied n

theorem Evaluated.withinExpiry_mem {v : Evaluated} : .withinExpiry ∈ v.came ↔ v.expired = true := by
  unfold Evaluated.came
  cases v.expired <;> cases v.satisfied.isSome <;> simp

theorem Evaluated.stageSatisfied_mem {v : Evaluated} : .stageSatisfied ∈ v.came ↔ v.satisfied.isSome = true := by
  unfold Evaluated.came
  cases v.expired <;> cases v.satisfied.isSome <;> simp

theorem Evaluated.came_eq {v : Evaluated} {k : Happening} (h : k ∈ v.came) : k = .withinExpiry ∨ k = .stageSatisfied := by
  simp only [Evaluated.came, List.mem_append, List.mem_ite_nil_right, List.mem_singleton] at h
  exact h.imp And.right And.right

theorem evaluatedBy_acted (s : State) (v : Evaluated) (n : Nat) :
    Acted (s.setTrg { s.trg with run := some v.run, pendingEntry := v.pendingEntry }) v.satisfied n (s.evaluatedBy v n) :=
  actedBy_acted _ _ _

/-- The evaluation and the actions; what follows is the declaration, by FORCE or by the stage's target. -/
theorem seek_unfold {s : State} {r : TrgRun} (run : s.trg.run = some r) (o : Observed) :
    s.seek o = (let v := r.evaluate s.trg.pendingEntry o
      let t := s.evaluatedBy v o.it.index
      if t.acq.force.isSome then (t.declare .force o.it.raw, v.came)
      else
        match v.satisfied with
        | some (x, source) => (if x.success = .trigger then t.declare source o.it.raw else t, v.came)
        | none => (t, v.came)) := by
  unfold State.seek
  rw [run]
  rfl

section Seek

variable {s : State} {r : TrgRun} (run : s.trg.run = some r) {o : Observed} {v : Evaluated}
  (found : r.evaluate s.trg.pendingEntry o = v)

include run found

/-- A forced sample declares the trigger whatever the evaluation found (R65, R100). -/
theorem seek_forced (forced : s.acq.force ≠ none) :
    s.seek o = ((s.evaluatedBy v o.it.index).declare .force o.it.raw, v.came) := by
  have still : (s.evaluatedBy v o.it.index).acq = s.acq := (evaluatedBy_acted s v _).acq
  rw [seek_unfold run, found]
  dsimp only
  rw [still, if_pos (Option.isSome_iff_ne_none.2 forced)]

variable (unforced : s.acq.force = none)

include unforced

theorem seek_goesOn (target : ∀ st source, v.satisfied = some (st, source) → st.success ≠ .trigger) :
    s.seek o = (s.evaluatedBy v o.it.index, v.came) := by
  have still : (s.evaluatedBy v o.it.index).acq = s.acq := (evaluatedBy_acted s v _).acq
  rw [seek_unfold run, found]
  dsimp only
  rw [still, unforced, if_neg (by simp)]
  split
  · next st source satisfied => rw [if_neg (target st source satisfied)]
  · rfl

theorem seek_declares {st : Stage} {source : TrigSource} (satisfied : v.satisfied = some (st, source))
    (target : st.success = .trigger) :
    s.seek o = ((s.evaluatedBy v o.it.index).declare source o.it.raw, v.came) := by
  have still : (s.evaluatedBy v o.it.index).acq = s.acq := (evaluatedBy_acted s v _).acq
  rw [seek_unfold run, found]
  dsimp only
  rw [still, unforced, if_neg (by simp), satisfied]
  dsimp only
  rw [if_pos target]

end Seek

/-- The target of a satisfied stage is the pending entry, unless it is TRIGGER (R95). -/
theorem evaluate_pendingEntry {r : TrgRun} {pending : Option Nat} {o : Observed} {st : Stage} {source : TrigSource} {k : Nat}
    (satisfied : (r.evaluate pending o).satisfied = some (st, source)) (target : st.success = .stage k) :
    (r.evaluate pending o).pendingEntry = some k := by
  unfold TrgRun.evaluate at satisfied ⊢
  extract_lets at satisfied ⊢
  split at satisfied
  · split at satisfied
    · cases satisfied
    · next notExpired =>
      simp only [if_neg notExpired]
      unfold TrgRun.countSample at satisfied ⊢
      extract_lets at satisfied ⊢
      split at satisfied
      · next done =>
        cases satisfied
        rw [if_pos done]
        simp only [target]
      · cases satisfied
  · cases satisfied

namespace State.AtTrg

variable {s v : State} {x : Sampling} {name : CapName} {c : Capture} {w : ChannelWord}

/-- The entry to ARMED (R64). -/
theorem enterArmed (h : s.AtTrg x name c w none v) : s.AtTrg x name c w none v.enterArmed := by
  obtain ⟨timebase, acq, smp, pulses, lanes, d, holding, like⟩ := h
  refine ⟨timebase, ?_, smp, pulses, lanes, d, ⟨holding.wf, holding.active, holding.capture, holding.incomplete, holding.filling⟩, like⟩
  show { v.acq with engine := .armed, armedAt := none } = _
  rw [acq]
  rfl

/-- The evaluation's findings and the stage's actions (R95, R97). -/
theorem evaluatedBy (h : s.AtTrg x name c w none v) (found : Evaluated) :
    s.AtTrg x name c w found.satisfied (v.evaluatedBy found x.next) := by
  obtain ⟨timebase, acq, smp, pulses, lanes, d, holding, like⟩ := h
  have acted := evaluatedBy_acted v found x.next
  generalize v.evaluatedBy found x.next = t at *
  have sameAcq : t.acq = v.acq := acted.acq
  have sameSto : t.sto = v.sto := acted.sto
  refine ⟨acted.timebase.trans timebase, ?_, acted.smp.trans smp, ?_, fun l => (acted.lanes l).trans ?_, d, ⟨?_, ?_, ?_,
    holding.incomplete, ?_⟩, like⟩
  · rw [sameAcq]
    exact acq
  · rw [acted.trg]
    show (if _ then Trg.pulsesWith _ (v.timebase + 100) else v.trg.pulses) = _
    have unasked : v.trg.pulses = s.trg.pulses := pulses
    unfold Trg.pulsesWith
    simp only [timebase]
    rw [unasked]
    rfl
  · exact congrArg (fun y => Lane.actedBy y l found.satisfied x.next) (lanes l)
  · rw [sameSto]
    exact holding.wf
  · rw [sameAcq]
    exact holding.active
  · rw [sameSto]
    exact holding.capture
  · rw [sameSto]
    exact holding.filling

end State.AtTrg

/-! ## What follows: another sample of the capture, or the trigger (R66, R67, R99) -/

/-- The capture goes on from the sample. -/
def State.GoesOn (t : State) (x : Sampling) (name : CapName) (c : Capture) (w : ChannelWord) : Prop :=
  t.smp = some { x with
    origin := some (x.origin.getD (x.armDone + 1)), next := x.next + 1, run := t.smp.bind Sampling.run, prev := some (x.nextWord w) } ∧
  ∃ c', t.sto.capture name = some c' ∧ c'.complete = false ∧ c'.endReason = c.endReason ∧ c'.trigTime = c.trigTime ∧
    c'.trigSource = c.trigSource ∧ c'.trigBlock = c.trigBlock ∧ c'.shortPre = c.shortPre

theorem State.AtTrg.goesOn {s t : State} {x : Sampling} {name : CapName} {c : Capture} {w : ChannelWord}
    {y : Option (Stage × TrigSource)} (h : s.AtTrg x name c w y t) : t.GoesOn x name c w := by
  obtain ⟨d, holding, like⟩ := h.record
  refine ⟨?_, d, holding.capture, holding.incomplete, like⟩
  rw [h.smp]
  rfl

/-- The sample declares the trigger, and with a post-trigger length of 0 ends the capture (R66, R67, R99). -/
def State.Declares (s t : State) (x : Sampling) (name : CapName) (c : Capture) (a : AcqPlan) (w : ChannelWord) (source : TrigSource)
    (short : Bool) (run : TrgRun) (y : Option (Stage × TrigSource)) : Prop :=
  let after := s.lanesAfterSample x.div (x.item name (x.nextWord w))
  t.timebase = max s.timebase x.nextRaw ∧ t.trg.pulses = s.trg.pulsesWith (max s.timebase x.nextRaw + 100) ∧
  (∀ q, t.hasNotice q .engineState = true ∧ t.hasNotice q .triggered = true) ∧
  (∃ c', t.sto.capture name = some c' ∧ c'.complete = false ∧ c'.trigTime = some x.nextRaw ∧ c'.trigSource = some source ∧
    c'.trigBlock = (t.sto.filling name).map (fun y => y.1) ∧ c'.shortPre = (c.shortPre || short) ∧
    c'.endReason = if a.post = 0 then some .postDone else c.endReason) ∧
  (1 ≤ a.post → t.acq = { s.acq with
      engine := .triggered, postEnd := some (x.nextRaw + a.post), force := none, armedAt := none } ∧ t.smp.isSome = true ∧
    t.trg.state = .declared ∧ t.trg.pendingEntry = none ∧ t.trg.run = some run ∧
    ∀ l, t.lanes.get l = (after.get l).actedBy l y x.next) ∧
  (a.post = 0 → t.acq = { s.acq with engine := .stopping, postEnd := some x.nextRaw, force := none, armedAt := none } ∧
    t.smp = none ∧ t.trg.state = .standby ∧ t.trg.run = none ∧ t.trg.history = none ∧ t.trg.mark = none ∧
    ∀ l, t.lanes.get l = { state := .off, frame := (after.get l).frame, pend := [], ctx := none })

theorem postTest_other {s : State} (h : s.acq.engine ≠ .triggered) (raw : Nat) (came : List Happening) :
    s.postTest raw came = (s, came) := by
  unfold State.postTest
  split
  · next engine _ => exact absurd engine h
  · rfl

theorem postTest_triggered {s : State} {e : Nat} (engine : s.acq.engine = .triggered) (post : s.acq.postEnd = some e) (raw : Nat)
    (came : List Happening) :
    s.postTest raw came = if e ≤ raw then (s.enterStopping .postDone, came ++ [.postDone]) else (s, came) := by
  unfold State.postTest
  simp only [engine, post]

theorem actedBy_frame (x : Lane) (l : Four) (y : Option (Stage × TrigSource)) (n : Nat) : (x.actedBy l y n).frame = x.frame := by
  cases y with
  | none => rfl
  | some y =>
    show (x.given _ _ n).frame = x.frame
    unfold Lane.given
    split <;> rfl

/-- The capture is still held with its FILLING block once the trigger is declared. -/
theorem Declared.holding {s u : State} {name : CapName} {c : Capture} {source : TrigSource} {t : Nat} (h : s.Holding name c)
    (declared : Declared s name c source t u) : u.Holding name { c with
      trigTime := some t, trigSource := some source, trigBlock := (s.sto.filling name).map Prod.fst
      shortPre := c.shortPre || decide (s.acq.force = some .arming ∧ source = .force) } := by
  have blocks : u.sto.blocks = s.sto.blocks := by rw [declared.sto]
  refine ⟨wf_of_blocks blocks h.wf, ?_, ?_, h.incomplete, ?_⟩
  · rw [declared.acq]
    exact h.active
  · rw [declared.sto]
    exact capture_set (slots_of_capture h.capture).2
  · rw [filling_of_blocks blocks name]
    exact h.filling

theorem State.AtTrg.declares {s v : State} {x : Sampling} {name : CapName} {c : Capture} {a : AcqPlan} {w : ChannelWord}
    {y : Option (Stage × TrigSource)} (h : s.AtTrg x name c w y v) (copy : s.acq.copy = some a) (stop : s.acq.stopPending = false)
    (source : TrigSource) {run : TrgRun} (hrun : v.trg.run = some run) (came : List Happening) :
    ∃ t extra, (v.declare source x.nextRaw).postTest x.nextRaw came = (t, came ++ extra) ∧ (a.post = 0 → .postDone ∈ extra) ∧
      s.Declares t x name c a w source (decide (s.acq.force = some .arming ∧ source = .force)) run y := by
  obtain ⟨timebase, acq, smp, pulses, lanes, d, holding, reason, -, -, -, shortPre⟩ := h
  have declared := declare_declared holding.active holding.capture source x.nextRaw
  have held := declared.holding holding
  have sameForce : v.acq.force = s.acq.force := by rw [acq]
  have uacq : (v.declare source x.nextRaw).acq = { s.acq with
      engine := .triggered, postEnd := some (x.nextRaw + a.post), force := none, armedAt := none } := by
    rw [declared.acq, acq, copy]
    rfl
  rw [sameForce] at held
  generalize v.declare source x.nextRaw = u at *
  have upulses : u.trg.pulses = s.trg.pulsesWith (max s.timebase x.nextRaw + 100) := by
    rw [declared.trg, timebase]
    by_cases asked : pulseAsked y = true
    · rw [if_pos asked] at pulses
      exact pulsesWith_pulsesWith _ _ _ pulses
    · rw [if_neg asked] at pulses
      show v.trg.pulsesWith _ = _
      unfold Trg.pulsesWith
      rw [pulses]
  have notices : ∀ q, u.hasNotice q .engineState = true ∧ u.hasNotice q .triggered = true := fun q => by
    rw [declared.notices, declared.notices]
    simp
  have block : u.sto.filling name = v.sto.filling name := filling_of_blocks (by rw [declared.sto]) name
  have utime : u.timebase = max s.timebase x.nextRaw := declared.timebase.trans timebase
  have frames : ∀ l, (u.lanes.get l).frame = ((s.lanesAfterSample x.div (x.item name (x.nextWord w))).get l).frame := fun l => by
    rw [declared.lanes, lanes, actedBy_frame]
  rw [postTest_triggered (e := x.nextRaw + a.post) (by rw [uacq]) (by rw [uacq])]
  by_cases post : a.post = 0
  · have facts := stopped_facts held.active held.capture held.incomplete .postDone
    have clock := clock_enterStopping u .postDone
    rw [if_pos (by omega)]
    rw [enterStopping_of_holding held] at clock ⊢
    obtain ⟨c', hc', ended⟩ := facts.capture
    have tblock := filling_of_owned facts.owned
    refine ⟨_, [.postDone], rfl, fun _ => List.mem_singleton_self _, (clock_eq_iff.1 clock).1.trans utime,
      (congrArg Trg.pulses facts.trg).trans upulses, fun q => ⟨facts.engineState q, ?_⟩, ⟨c', hc', ?_⟩, fun some_ => by omega,
      fun _ => ⟨?_, facts.smp, ?_, ?_, ?_, ?_, fun l => ?_⟩⟩
    · rw [facts.notices q .triggered (by simp [Notice.ofEvents]) nofun nofun]
      exact (notices q).2
    · rw [ended, tblock, block, if_pos post]
      exact ⟨held.incomplete, rfl, rfl, rfl, by rw [shortPre], rfl⟩
    · rw [facts.acq, uacq, post, ← stop]
      simp
    · rw [facts.trg]; rfl
    · rw [facts.trg]; rfl
    · rw [facts.trg]; rfl
    · rw [facts.trg]; rfl
    · rw [facts.lanes l, frames]
  · rw [if_neg (by omega)]
    refine ⟨u, [], by rw [List.append_nil], fun zero => absurd zero post, utime, upulses, notices, ⟨_, held.capture, held.incomplete, rfl,
      rfl, by rw [block], by rw [shortPre], by rw [if_neg post]; exact reason⟩, fun _ => ⟨uacq, ?_, ?_, ?_, ?_, fun l => ?_⟩,
      fun zero => absurd zero post⟩
    · rw [declared.smp, smp]
      rfl
    · rw [declared.trg]
    · rw [declared.trg]
    · rw [declared.trg]
      exact hrun
    · rw [declared.lanes, lanes]

/-! ## The entry to ARMED, and what comes to the evaluation (R64, R95) -/

/-- The sample is the one on which the engine becomes ARMED (R64). -/
def State.EntersArmed (s : State) (x : Sampling) (a : AcqPlan) : Prop :=
  s.acq.engine = .arming ∧ s.acq.force = none ∧
    ((x.next ≠ 0 ∧ ∃ t0, s.acq.armedAt = some t0 ∧ t0 ≤ x.nextRaw) ∨ (x.next = 0 ∧ a.pre = 0))

/-- The sample comes to the evaluation unforced (R64, R95). -/
def State.Seeks (s : State) (x : Sampling) (a : AcqPlan) : Prop :=
  s.EntersArmed x a ∨ (s.acq.engine = .armed ∧ s.acq.force = none ∧ x.next ≠ 0 ∧ s.trg.state = .seeking)

theorem entersArmed_iff {s v : State} {x : Sampling} {a : AcqPlan} (copy : s.acq.copy = some a)
    (acq : v.acq = (if x.next = 0 then { s.acq with armedAt := some (x.nextRaw + (s.acq.copy.map AcqPlan.pre).getD 0) } else s.acq)) :
    s.EntersArmed x a ↔ v.acq.engine = .arming ∧ v.acq.force = none ∧ ∃ t0, v.acq.armedAt = some t0 ∧ t0 ≤ x.nextRaw := by
  rw [acq, copy]
  unfold State.EntersArmed
  by_cases zero : x.next = 0
  · rw [if_pos zero]
    simp [zero]
  · rw [if_neg zero]
    simp [zero]

theorem trgOn_forced {v : State} {o : Observed} (arming : v.acq.engine = .arming) (forced : v.acq.force ≠ none) :
    v.trgOn o = (v.declare .force o.it.raw, []) := by
  unfold State.trgOn
  rw [arming]
  exact if_pos (Option.isSome_iff_ne_none.2 forced)

theorem trgOn_enters {v : State} {o : Observed} (arming : v.acq.engine = .arming) (unforced : v.acq.force = none) {t : Nat}
    (armedAt : v.acq.armedAt = some t) (reached : t ≤ o.it.raw) :
    v.trgOn o = ((v.enterArmed.seek o).1, .armedEntry :: (v.enterArmed.seek o).2) := by
  unfold State.trgOn
  simp only [arming, unforced, armedAt, if_pos reached, Option.isSome_none, Bool.false_eq_true, if_false]

theorem trgOn_armed {v : State} (o : Observed) (armed : v.acq.engine = .armed) : v.trgOn o = v.seek o := by
  unfold State.trgOn
  rw [armed]

/-- An evaluation brings about an expiry or a satisfied stage, and nothing else. -/
theorem seek_came {v : State} {o : Observed} {k : Happening} (h : k ∈ (v.seek o).2) : k = .withinExpiry ∨ k = .stageSatisfied := by
  cases run : v.trg.run with
  | none =>
    unfold State.seek at h
    rw [run] at h
    cases h
  | some r =>
    rw [seek_unfold run] at h
    extract_lets e t at h
    refine Evaluated.came_eq (v := e) ?_
    split at h
    · exact h
    · split at h <;> exact h

/-- The entry to ARMED comes about only where R64 says. -/
theorem armedEntry_of_trgOn {v : State} {o : Observed} (h : .armedEntry ∈ (v.trgOn o).2) :
    v.acq.engine = .arming ∧ v.acq.force = none ∧ ∃ t0, v.acq.armedAt = some t0 ∧ t0 ≤ o.it.raw := by
  have notSought : ∀ u : State, .armedEntry ∉ (u.seek o).2 := fun u mem => by
    obtain e | e := seek_came mem <;> cases e
  unfold State.trgOn at h
  split at h
  · next arming =>
    split at h
    · cases h
    · next unforced =>
      split at h
      · next t armedAt =>
        split at h
        · next reached => exact ⟨arming, by simpa using unforced, t, armedAt, reached⟩
        · cases h
      · cases h
  · exact absurd h (notSought v)
  · cases h

theorem postTest_came {s : State} {raw : Nat} {came : List Happening} {k : Happening} (h : k ∈ (s.postTest raw came).2) :
    k ∈ came ∨ k = .postDone := by
  unfold State.postTest at h
  split at h
  · split at h
    · simpa using h
    · exact .inl h
  · exact .inl h

/-- What is evaluated on an unforced sample in SEEKING, or with the entry to ARMED on it (R64, R81, R95). -/
theorem takeSample_seeks {s : State} {x : Sampling} {name : CapName} {c : Capture} {a : AcqPlan} (w : ChannelWord)
    (wf : s.sto.wf = true) (h : s.canHold x name c) (stop : s.acq.stopPending = false) (copy : s.acq.copy = some a)
    (seeking : s.Seeks x a) :
    ∃ v came, s.AtTrg x name c w none v ∧ (s.EntersArmed x a → v.acq = { s.acq with engine := .armed, armedAt := none }) ∧
      (¬ s.EntersArmed x a → v.acq = s.acq) ∧ v.acq.engine = .armed ∧ v.acq.force = none ∧ v.trg.state = .seeking ∧
      v.trg.run = s.trg.run ∧ v.trg.pendingEntry = s.trg.pendingEntry ∧
      (s.EntersArmed x a → ∀ q, v.hasNotice q .engineState = true) ∧
      (¬ s.EntersArmed x a → ∀ q, v.hasNotice q .engineState = s.hasNotice q .engineState) ∧
      (∀ k ∈ came, k.ofLane = true ∨ k = .armedEntry) ∧ (s.EntersArmed x a → .armedEntry ∈ came) ∧
      s.takeSample w = (v.seek (s.observedOn x name w)).1.postTest x.nextRaw (came ++ (v.seek (s.observedOn x name w)).2) := by
  obtain ⟨u, came, atTrg, acq, trg, notices, ofLane, taken⟩ := takeSample_atTrg w wf h stop
  by_cases enters : s.EntersArmed x a
  · obtain ⟨arming, unforced, t0, armedAt, reached⟩ := (entersArmed_iff copy acq).1 enters
    rw [trgOn_enters arming unforced armedAt reached] at taken
    refine ⟨u.enterArmed, came ++ [.armedEntry], atTrg.enterArmed, fun _ => ?_, fun n => absurd enters n, rfl, unforced, rfl, ?_, ?_,
      fun _ q => hasNotice_raiseBoth_same (u.setAcq { u.acq with engine := .armed, armedAt := none }) q .engineState,
      fun n => absurd enters n, fun k hk => ?_, fun _ => by simp, by rw [taken]; simp⟩
    · show { u.acq with engine := .armed, armedAt := none } = _
      rw [atTrg.acq]
    · show u.trg.run = _
      rw [trg]
    · show u.trg.pendingEntry = _
      rw [trg]
    · exact (List.mem_append.1 hk).imp (ofLane k) List.mem_singleton.1
  · obtain enters' | ⟨armed, unforced, later, state⟩ := seeking
    · exact absurd enters' enters
    · rw [if_neg later] at acq
      rw [trgOn_armed _ (by rw [acq]; exact armed)] at taken
      exact ⟨u, came, atTrg, fun e => absurd e enters, fun _ => acq, by rw [acq]; exact armed, by rw [acq]; exact unforced,
        by rw [trg]; exact state, by rw [trg], by rw [trg], fun e => absurd e enters, fun _ => notices, fun k hk => .inl (ofLane k hk),
        fun e => absurd e enters, taken⟩

/-- An evaluation that declares nothing (R93, R95, R97). -/
theorem takeSample_goesOn {s : State} {x : Sampling} {name : CapName} {c : Capture} {a : AcqPlan} {r : TrgRun} {w : ChannelWord}
    (wf : s.sto.wf = true) (h : s.canHold x name c) (stop : s.acq.stopPending = false) (copy : s.acq.copy = some a)
    (run : s.trg.run = some r) (seeking : s.Seeks x a) {v : Evaluated}
    (found : r.evaluate s.trg.pendingEntry (s.observedOn x name w) = v)
    (target : ∀ st source, v.satisfied = some (st, source) → st.success ≠ .trigger) :
    ∃ t came, s.takeSample w = (t, came ++ v.came) ∧ (∀ k ∈ came, k.ofLane = true ∨ k = .armedEntry) ∧
      (s.EntersArmed x a → .armedEntry ∈ came) ∧ t.timebase = max s.timebase x.nextRaw ∧
      ((s.EntersArmed x a → t.acq = { s.acq with engine := .armed, armedAt := none }) ∧ (¬ s.EntersArmed x a → t.acq = s.acq)) ∧
      t.trg.state = .seeking ∧ t.trg.run = some v.run ∧ t.trg.pendingEntry = v.pendingEntry ∧
      t.trg.pulses = (if pulseAsked v.satisfied then s.trg.pulsesWith (max s.timebase x.nextRaw + 100) else s.trg.pulses) ∧
      (∀ l, t.lanes.get l = ((s.lanesAfterSample x.div (x.item name (x.nextWord w))).get l).actedBy l v.satisfied x.next) ∧
      (s.EntersArmed x a ∨ noticeAsked v.satisfied = true → ∀ q, t.hasNotice q .engineState = true) ∧
      (¬ s.EntersArmed x a → noticeAsked v.satisfied = false → ∀ q, t.hasNotice q .engineState = s.hasNotice q .engineState) ∧
      t.GoesOn x name c w := by
  obtain ⟨u, came, atTrg, arms, still, armed, unforced, state, urun, pending, entered, unentered, own, entry, taken⟩ :=
    takeSample_seeks w wf h stop copy seeking
  rw [seek_goesOn (urun.trans run) (by rw [pending]; exact found) unforced target] at taken
  have acted : Acted _ v.satisfied x.next (u.evaluatedBy v x.next) := evaluatedBy_acted u v x.next
  have after := atTrg.evaluatedBy v
  change s.takeSample w = (u.evaluatedBy v x.next).postTest _ _ at taken
  generalize u.evaluatedBy v x.next = t at *
  have acq : t.acq = u.acq := acted.acq
  rw [postTest_other (by rw [acq, armed]; nofun)] at taken
  have notices : ∀ q, t.hasNotice q .engineState = (u.hasNotice q .engineState || noticeAsked v.satisfied) := fun q => by
    rw [acted.notices q .engineState, decide_eq_true rfl, Bool.and_true]
    rfl
  refine ⟨t, came, taken, own, entry, after.timebase, ⟨fun e => acq.trans (arms e), fun e => acq.trans (still e)⟩, ?_, ?_, ?_,
    after.pulses, after.lanes, fun asked q => ?_, fun e unasked q => ?_, after.goesOn⟩
  · rw [acted.trg]
    exact state
  · rw [acted.trg]
    rfl
  · rw [acted.trg]
    rfl
  · rw [notices]
    obtain e | asked := asked
    · rw [entered e q, Bool.true_or]
    · rw [asked, Bool.or_true]
  · rw [notices, unasked, Bool.or_false, unentered e q]

/-- An evaluation that declares the trigger (R66, R95, R99). -/
theorem takeSample_declares {s : State} {x : Sampling} {name : CapName} {c : Capture} {a : AcqPlan} {r : TrgRun} {w : ChannelWord}
    (wf : s.sto.wf = true) (h : s.canHold x name c) (stop : s.acq.stopPending = false) (copy : s.acq.copy = some a)
    (run : s.trg.run = some r) (seeking : s.Seeks x a) {v : Evaluated}
    (found : r.evaluate s.trg.pendingEntry (s.observedOn x name w) = v) {st : Stage} {source : TrigSource}
    (satisfied : v.satisfied = some (st, source)) (target : st.success = .trigger) :
    ∃ t came, s.takeSample w = (t, came) ∧ (s.EntersArmed x a → .armedEntry ∈ came) ∧ (∀ k ∈ v.came, k ∈ came) ∧
      (∀ k ∈ came, k.ofLane = true ∨ k = .armedEntry ∨ k ∈ v.came ∨ k = .postDone) ∧
      (a.post = 0 → .postDone ∈ came) ∧ s.Declares t x name c a w source false v.run v.satisfied := by
  obtain ⟨u, came, atTrg, -, -, -, unforced, -, urun, pending, -, -, own, entry, taken⟩ :=
    takeSample_seeks w wf h stop copy seeking
  have after := atTrg.evaluatedBy v
  have still : u.acq.force = s.acq.force := by rw [atTrg.acq]
  have acted : Acted _ v.satisfied x.next (u.evaluatedBy v x.next) := evaluatedBy_acted u v x.next
  obtain ⟨t, extra, ends, post, declares⟩ := after.declares copy stop source (run := v.run) (by rw [acted.trg]; rfl)
    (came ++ v.came)
  have notShort : decide (s.acq.force = some .arming ∧ source = .force) = false := by
    rw [← still, unforced]
    simp
  rw [notShort] at declares
  rw [seek_declares (urun.trans run) (by rw [pending]; exact found) unforced satisfied target] at taken
  refine ⟨t, _, taken.trans ends, fun e => by simp [entry e], fun k hk => by simp [hk], fun k hk => ?_, fun zero => by simp [post zero],
    declares⟩
  have there := postTest_came (s := (u.evaluatedBy v x.next).declare source x.nextRaw) (raw := x.nextRaw)
    (came := came ++ v.came) (by rw [ends]; exact hk)
  obtain there | there := there
  · obtain there | there := List.mem_append.1 there
    · exact (own k there).imp id .inl
    · exact .inr (.inr (.inl there))
  · exact .inr (.inr (.inr there))

/-- A forced sample in ARMING or ARMED declares the trigger (R65, R100). -/
theorem takeSample_forced {s : State} {x : Sampling} {name : CapName} {c : Capture} {a : AcqPlan} {r : TrgRun} {w : ChannelWord}
    (wf : s.sto.wf = true) (h : s.canHold x name c) (stop : s.acq.stopPending = false) (copy : s.acq.copy = some a)
    (run : s.trg.run = some r) (forced : s.acq.force ≠ none) {v : Evaluated}
    (found : r.evaluate s.trg.pendingEntry (s.observedOn x name w) = v) :
    (s.acq.engine = .arming → s.Declares (s.takeSample w).1 x name c a w .force (decide (s.acq.force = some .arming)) r none) ∧
    (s.acq.engine = .armed →
      s.Declares (s.takeSample w).1 x name c a w .force (decide (s.acq.force = some .arming)) v.run v.satisfied) := by
  obtain ⟨u, came, atTrg, acq, trg, -, -, taken⟩ := takeSample_atTrg w wf h stop
  have engine : u.acq.engine = s.acq.engine := by rw [acq]; split <;> rfl
  have force : u.acq.force ≠ none := by rw [acq]; split <;> exact forced
  have urun : u.trg.run = some r := by rw [trg]; exact run
  have upending : u.trg.pendingEntry = s.trg.pendingEntry := by rw [trg]
  have short : decide (s.acq.force = some .arming ∧ TrigSource.force = .force) = decide (s.acq.force = some .arming) := by simp
  rw [← short]
  refine ⟨fun arming => ?_, fun armed => ?_⟩
  · rw [trgOn_forced (engine.trans arming) force] at taken
    obtain ⟨t, extra, ends, -, declares⟩ := atTrg.declares copy stop .force urun (came ++ [])
    rw [taken.trans ends]
    exact declares
  · rw [trgOn_armed _ (engine.trans armed), seek_forced urun (v := v) (by rw [upending]; exact found) force] at taken
    have acted : Acted _ v.satisfied x.next (u.evaluatedBy v x.next) := evaluatedBy_acted u v x.next
    obtain ⟨t, extra, ends, -, declares⟩ := (atTrg.evaluatedBy v).declares copy stop .force (run := v.run) (by rw [acted.trg]; rfl)
      (came ++ v.came)
    rw [taken.trans ends]
    exact declares

/-! ## The rows of a sample (logs 4, 5) -/

theorem sampleWith_of_mem {s t : State} {w : ChannelWord} {came : List Happening} {k : Happening} (taken : s.takeSample w = (t, came))
    (h : k ∈ came) : s.sampleWith k w = t := by
  unfold State.sampleWith
  rw [taken]
  exact if_pos (List.contains_iff_mem.2 h)

theorem sampleWith_of_not_mem {s : State} {w : ChannelWord} {k : Happening} (h : k ∉ (s.takeSample w).2) : s.sampleWith k w = s :=
  if_neg (mt List.contains_iff_mem.1 h)

theorem sampleWith_stopped {s : State} (h : s.smp = none) (k : Happening) (w : ChannelWord) : s.sampleWith k w = s := by
  refine sampleWith_of_not_mem ?_
  unfold State.takeSample
  rw [h]
  exact List.not_mem_nil

/-- The commands that stand for a sample step on which a row of ACQ or TRG comes about. -/
theorem exec_sampleRow {s t : State} {x : Sampling} {w : ChannelWord} {i : Instr} {came : List Happening} (hx : s.smp = some x)
    (taken : s.takeSample w = (t, came)) {E X S P Q : Prop} (entry : E → .armedEntry ∈ came) (expiry : X → .withinExpiry ∈ came)
    (stage : S → .stageSatisfied ∈ came) (post : P → Q → .postDone ∈ came)
    (row : i = (if x.next = 0 then .firstSample w else .sample w) ∨ (E ∧ i = .armedEntry w) ∨ (X ∧ i = .withinExpiry w) ∨
      (S ∧ i = .stageSatisfied w) ∨ (P ∧ i = .postDone w ∧ Q)) : exec i s = .next t := by
  obtain rfl | ⟨e, rfl⟩ | ⟨e, rfl⟩ | ⟨e, rfl⟩ | ⟨p, rfl, q⟩ := row
  · rw [exec_nextSample hx, taken]
  · exact congrArg Host.Outcome.next (sampleWith_of_mem taken (entry e))
  · exact congrArg Host.Outcome.next (sampleWith_of_mem taken (expiry e))
  · exact congrArg Host.Outcome.next (sampleWith_of_mem taken (stage e))
  · exact congrArg Host.Outcome.next (sampleWith_of_mem taken (post p q))

/-- Of the rows of TRG, only those of the evaluation come about on a sample in SEEKING. -/
theorem evaluated_of_mem {s : State} {x : Sampling} {name : CapName} {c : Capture} {a : AcqPlan} {r : TrgRun} {w : ChannelWord}
    (wf : s.sto.wf = true) (h : s.canHold x name c) (stop : s.acq.stopPending = false) (copy : s.acq.copy = some a)
    (run : s.trg.run = some r) (seeking : s.Seeks x a) {k : Happening} (foreign : k.ofLane = false) (entry : k ≠ .armedEntry)
    (post : k ≠ .postDone) (mem : k ∈ (s.takeSample w).2) :
    k ∈ (r.evaluate s.trg.pendingEntry (s.observedOn x name w)).came := by
  by_cases target : ∀ st source, (r.evaluate s.trg.pendingEntry (s.observedOn x name w)).satisfied = some (st, source) →
      st.success ≠ .trigger
  · obtain ⟨t, came, taken, own, -⟩ := takeSample_goesOn wf h stop copy run seeking rfl target
    rw [taken] at mem
    obtain mem | mem := List.mem_append.1 mem
    · obtain lane | armed := own k mem
      · rw [foreign] at lane
        cases lane
      · exact absurd armed entry
    · exact mem
  · push Not at target
    obtain ⟨st, source, satisfied, trigger⟩ := target
    obtain ⟨t, came, taken, -, -, own, -⟩ := takeSample_declares wf h stop copy run seeking rfl satisfied trigger
    rw [taken] at mem
    obtain lane | armed | here | ended := own k mem
    · rw [foreign] at lane
      cases lane
    · exact absurd armed entry
    · exact here
    · exact absurd ended post

/-- Where R64 does not say so, the entry to ARMED does not come about. -/
theorem not_armedEntry {s : State} {x : Sampling} {name : CapName} {c : Capture} {a : AcqPlan} (w : ChannelWord)
    (wf : s.sto.wf = true) (h : s.canHold x name c) (stop : s.acq.stopPending = false) (copy : s.acq.copy = some a)
    (enters : ¬ s.EntersArmed x a) : .armedEntry ∉ (s.takeSample w).2 := by
  obtain ⟨u, came, -, acq, -, -, own, taken⟩ := takeSample_atTrg w wf h stop
  rw [taken]
  intro mem
  obtain mem | ended := postTest_came mem
  · obtain lane | trg := List.mem_append.1 mem
    · exact absurd (own _ lane) nofun
    · exact enters ((entersArmed_iff copy acq).2 (armedEntry_of_trgOn trg))
  · cases ended

/-- Settles O51: a sample comes to TRG with the lanes' events handed on; then it is forced, it is evaluated, or it is neither; and what the
evaluation found decides whether the capture goes on or the trigger is declared. -/
theorem triggerSamples : Obligations.TriggerSamples := by
  refine ⟨fun s l w i stopped row => ?_, fun s x name c a r w i wf h stop copy run => ?_⟩
  · simp only [List.mem_cons, List.not_mem_nil, or_false] at row
    obtain rfl | rfl | rfl | rfl | rfl | rfl | rfl | rfl | rfl := row <;>
      exact congrArg Host.Outcome.next (sampleWith_stopped stopped _ w)
  · have hx := h.1
    extract_lets raw v after stop_ entering seeking forced plain acq arms acted goesOn declares
    refine ⟨fun enters row => ?_, fun seeks => ⟨fun unexpired row => ?_, fun unsatisfied row => ?_, fun row => ⟨fun unsatisfied => ?_,
      fun st source k satisfied target => ?_, fun st source satisfied target => ?_⟩⟩, fun isForced row => ?_⟩
    · rw [row]
      exact congrArg Host.Outcome.next (sampleWith_of_not_mem (not_armedEntry w wf h stop copy enters))
    · rw [row]
      refine congrArg Host.Outcome.next (sampleWith_of_not_mem fun mem => ?_)
      have there := Evaluated.withinExpiry_mem.1 (evaluated_of_mem wf h stop copy run seeks rfl nofun nofun mem)
      rw [unexpired] at there
      cases there
    · rw [row]
      refine congrArg Host.Outcome.next (sampleWith_of_not_mem fun mem => ?_)
      have there := Evaluated.stageSatisfied_mem.1 (evaluated_of_mem wf h stop copy run seeks rfl nofun nofun mem)
      rw [unsatisfied] at there
      cases there
    · have never : ∀ st source, v.satisfied = some (st, source) → st.success ≠ .trigger := fun st source e => by
        rw [unsatisfied] at e
        cases e
      obtain ⟨t, came, taken, -, entry, timebase, armed, state, trgRun, pending, pulses, lanes, entered, unentered, goes⟩ :=
        takeSample_goesOn wf h stop copy run seeks (v := v) rfl never
      rw [unsatisfied] at pulses lanes entered unentered
      exact ⟨t, exec_sampleRow hx taken (fun e => List.mem_append_left _ (entry e))
        (fun e => List.mem_append_right _ (Evaluated.withinExpiry_mem.2 e))
        (fun e => List.mem_append_right _ (Evaluated.stageSatisfied_mem.2 e))
        (fun _ ⟨st, source, e, trigger⟩ => absurd trigger (never st source e)) row, timebase, armed, state, trgRun, pending, pulses,
        lanes, fun e => entered (.inl e), fun e => unentered e rfl, goes⟩
    · have never : ∀ st' source', v.satisfied = some (st', source') → st'.success ≠ .trigger := fun st' source' e => by
        obtain ⟨rfl, rfl⟩ := Prod.mk.inj (Option.some.inj (satisfied.symm.trans e))
        rw [target]
        nofun
      obtain ⟨t, came, taken, -, entry, timebase, armed, state, trgRun, pending, pulses, lanes, entered, unentered, goes⟩ :=
        takeSample_goesOn wf h stop copy run seeks (v := v) rfl never
      refine ⟨t, exec_sampleRow hx taken (fun e => List.mem_append_left _ (entry e))
        (fun e => List.mem_append_right _ (Evaluated.withinExpiry_mem.2 e))
        (fun e => List.mem_append_right _ (Evaluated.stageSatisfied_mem.2 e))
        (fun _ ⟨st', source', e, trigger⟩ => absurd trigger (never st' source' e)) row, timebase, armed, state, trgRun,
        pending.trans (evaluate_pendingEntry satisfied target), ?_, lanes, ?_, ?_, goes⟩ <;> rw [satisfied] at pulses entered unentered
      · exact pulses
      · exact entered
      · exact unentered
    · obtain ⟨t, came, taken, entry, evaluated, -, post, declared⟩ :=
        takeSample_declares wf h stop copy run seeks (v := v) rfl satisfied target
      exact ⟨t, exec_sampleRow hx taken entry (fun e => evaluated _ (Evaluated.withinExpiry_mem.2 e))
        (fun e => evaluated _ (Evaluated.stageSatisfied_mem.2 e)) (fun zero _ => post zero) row, declared⟩
    · obtain ⟨-, isForced⟩ := isForced
      obtain ⟨arming, armed⟩ := takeSample_forced wf h stop copy run isForced (v := v) rfl
      rw [row, exec_nextSample hx]
      exact ⟨_, rfl, arming, armed⟩

end Sys2Proof.Machine
end

section
/-! SUPPORT. STOP with a full event list over a store that lists a block number twice: the refutation of O31. Its clause on STOP does not ask
for a store in canonical form. The reclaim that looks for room for the PARTIAL takes away the first entry of the head's number and so
uncovers the second: the capture's oldest index rises from 0 to 100, and the list stays full. -/

namespace Sys2Proof.Machine

open Sys2Proof

/-- A full list, one reclaim that makes no room in it, and no other capture to reclaim: the event is counted as truncated (R140). -/
theorem enterWithRoom_truncates {fuel : Nat} {e : Event} {s u : State} (full : 8192 ≤ s.evl.events.length) (hr : s.reclaim = some u)
    (still : 8192 ≤ u.evl.events.length) (none_ : u.reclaim = none) :
    State.enterWithRoom (fuel + 1) e s = u.modifyCapture e.cap fun c => { c with truncated := satAdd Config.max32 c.truncated 1 } := by
  have fullBefore : ¬ s.evl.events.length < Config.eventCapacity := Nat.not_lt.2 full
  have fullAfter : ¬ u.evl.events.length < Config.eventCapacity := Nat.not_lt.2 still
  unfold State.enterWithRoom
  rw [if_neg fullBefore, hr]
  dsimp only
  unfold State.enterWithRoom
  cases fuel <;> simp only [if_neg fullAfter, none_]

namespace TwiceListed

/-! ## The state -/

/-- The ACTIVE capture, whose origin is 0 and whose head is block 0. -/
def running : Capture :=
  { num := 1, complete := false, origin := some 0, div := 1, mask := 0xFF, mode := .window, quota := 2048, firstGen := 1,
    lastGen := 1, trigTime := none, trigSource := none, trigBlock := none, shortPre := false, endReason := none, head := 0,
    podLost := [], degradedPods := [], frames := .all 0, errors := .all 0, expired := 0, truncated := 0,
    thresholdEdited := false, damaged := false, discard := false, retain := ⟨false, false⟩ }

/-- A COMPLETE capture that a reclaim can take. -/
def complete : Capture := { running with complete := true }

/-- An empty block of a capture. -/
def emptyBlock (state : BlockState) (owner : CapName) (first : Nat) : Block :=
  { state, owner, first, damaged := false, next := none, records := [] }

/-- The FILLING block of the ACTIVE capture. -/
def fillingBlock : Block := emptyBlock .filling ⟨0, 1⟩ 100

/-- Block 0 is listed twice: first for the COMPLETE capture, then for the ACTIVE one. -/
def store : Store :=
  { Store.reset with
    blocks := [(0, emptyBlock .sealed ⟨1, 1⟩ 0), (0, fillingBlock)]
    slots := ⟨some running, some complete, none, none⟩ }

/-- The context of lane 0, in a frame at its first word position. -/
def context : LaneCtx :=
  { cfg := .reset, capture := ⟨0, 1⟩, wordPos := 0, truncated := false, word := none, hunt := none, drainLimit := none,
    lastStart := none, kctx := .cleared }

/-- SMP after sample 0, of raw time 0. -/
def sampling : Sampling :=
  { div := 1, mask := 0xFF, armDone := 0, origin := some 0, next := 1, lost := [], run := none, prev := none }

/-- Lane 0 in a frame, the others OFF. -/
def lanes : Quad Lane := ⟨{ state := .inFrame, frame := 1, pend := [], ctx := some context }, .reset, .reset, .reset⟩

/-- The state: port A holds a STOP. -/
def before (events : List Event) : State :=
  { State.reset with
    smp := some sampling
    sto := store
    acq := { Acq.reset with engine := .triggered, active := some ⟨0, 1⟩ }
    lanes
    evl := { Evl.reset with events }
    ports := ⟨{ PortCtl.reset with slot := .taken (.stop .a 0) }, .reset⟩ }

/-- An event that names neither capture. -/
def listed : Event :=
  { seq := 1, cap := ⟨2, 1⟩, lane := 0, kind := .start, frame := 0, start := 0, stop := 0, value := none, attrs := 0, err := none,
    bits := none, matched := [] }

/-! ## What STOP does to it -/

/-- The PARTIAL of lane 0. -/
def event : Event :=
  { seq := 0, cap := ⟨0, 1⟩, lane := 0, kind := .partialFrame, frame := 1, start := 0, stop := 0, value := some 0, attrs := 0,
    err := none, bits := none, matched := [] }

/-- The ACTIVE capture with its end reason and its frame counted. -/
def counted : Capture := { running with endReason := some .stopTaken, frames := ⟨1, 0, 0, 0⟩ }

/-- The state in which EVL takes the PARTIAL. -/
def entering (events : List Event) : State :=
  { before events with
    sto := { store with slots := ⟨some counted, some complete, none, none⟩ }
    lanes := ⟨{ state := .inFrame, frame := 1, pend := [], ctx := some { context with lastStart := some 0 } }, .reset, .reset, .reset⟩ }

/-- The rest of the entry to STOPPING. -/
def finish (s : State) : State := ((s.lanesOut.setSmp none).stopEngine .stopTaken).beginFinalWrite

/-- The store that STOP leaves. -/
def storeAfter : Store :=
  { Store.reset with blocks := [(0, fillingBlock)], slots := ⟨some { counted with truncated := 1 }, none, none, none⟩ }

theorem stops (events : List Event) : exec (.stop .a 0) (before events) =
    .next (((before events).enterStopping .stopTaken).answer .a 0 (.plain .ok)) :=
  request_taken (before events) (.stop .a 0) .a 0 stopAnswer rfl

/-- The capture's end is noted, and TRG rests. -/
def ended (events : List Event) : State :=
  { before events with sto := { store with slots := ⟨some { running with endReason := some .stopTaken }, some complete, none, none⟩ } }

/-- What the lanes' events do: lane 0's PARTIAL. -/
def effects : Quad LaneEffects :=
  ⟨{ lastStart := some 0, events := [event], offers := [], hold := 0, release := 0, notify := false, frames := 1, errors := 0 },
    Lane.reset.noEffects, Lane.reset.noEffects, Lane.reset.noEffects⟩

theorem stop_ended (events : List Event) : (before events).enterStopping .stopTaken =
    finish ((ended events).handOn lanes ((ended events).partials 0) 0).1 := rfl

theorem partials_effects (events : List Event) : (ended events).allEffects lanes ((ended events).partials 0) = effects := by
  have noLanes : (0 : LaneSet) ||| 0 = 0 := by decide
  change { effects with q0 := { effects.q0 with hold := 0 ||| 0, release := 0 ||| 0 } } = effects
  rw [noLanes]
  rfl

theorem handOn_enters (events : List Event) : ((ended events).handOn lanes ((ended events).partials 0) 0).1 =
    (entering events).enterEvent event := by
  unfold State.handOn
  rw [partials_effects]
  rfl

theorem enters (events : List Event) : (entering events).enterEvent event = State.enterWithRoom 5 event (entering events) := rfl

/-- The state after the reclaim of the COMPLETE capture. -/
def reclaimed (events : List Event) : State := ((entering events).removeCapture 1).raiseBoth .captureReclaimed

theorem entering_reclaim (events : List Event) : (entering events).reclaim = some (reclaimed events) := rfl

theorem reclaimed_reclaim (events : List Event) : (reclaimed events).reclaim = none := rfl

theorem reclaimed_events (events : List Event) :
    (reclaimed events).evl.events = events.filter fun e => !decide (e.cap = ⟨1, 1⟩) := rfl

theorem finish_sto (events : List Event) : (finish ((reclaimed events).modifyCapture ⟨0, 1⟩ fun c =>
    { c with truncated := satAdd Config.max32 c.truncated 1 })).sto = storeAfter := rfl

/-- The list is full, and stays so when the COMPLETE capture's events leave it. -/
def Full (events : List Event) : Prop :=
  events.length = 8192 ∧ (events.filter fun e => !decide (e.cap = ⟨1, 1⟩)).length = 8192

theorem full_replicate : Full (List.replicate 8192 listed) := by
  refine ⟨List.length_replicate, ?_⟩
  rw [List.filter_replicate_of_pos (by decide), List.length_replicate]

/-- EVL finds no room for the PARTIAL, before the reclaim and after it. -/
theorem stop_sto {events : List Event} (full : Full events) : ((before events).enterStopping .stopTaken).sto = storeAfter := by
  obtain ⟨here, after⟩ := full
  rw [stop_ended, handOn_enters, enters, enterWithRoom_truncates here.ge (entering_reclaim events) after.ge (reclaimed_reclaim events)]
  exact finish_sto events

theorem cutFrames_lanes : cutFrames lanes = [(0, context)] := rfl

theorem partialEvent_start (events : List Event) : ((before events).partialEvent lanes 0 0 (0, context)).start = 0 := rfl

/-- By the store that STOP leaves, the PARTIAL starts before the capture's oldest held time. -/
theorem not_stillHeld (events : List Event) : storeAfter.stillHeld { counted with truncated := 1 }
    ((before events).partialEvent lanes 0 0 (0, context)) = false := by
  unfold Store.stillHeld
  rw [partialEvent_start]
  decide

/-- Judged by that store, the PARTIAL would have to be counted as expired; the capture has counted it as truncated (R139, R140). -/
theorem not_partialsEntered {events : List Event} (full : Full events) {t : State} (sto : t.sto = storeAfter) :
    ¬ (before events).partialsEntered t lanes ⟨0, 1⟩ running { counted with truncated := 1 } 0 := by
  intro entered
  obtain ⟨-, -, kept⟩ := entered
  rw [sto, cutFrames_lanes] at kept
  simp only [List.filter_cons, not_stillHeld, Bool.false_eq_true, if_false, List.filter_nil] at kept
  obtain ⟨-, -, expired, -⟩ := kept (fun f hf => by rw [List.mem_singleton.1 hf]; rfl) (Nat.le_of_eq full.1)
  rw [if_neg (List.cons_ne_nil _ _).symm] at expired
  exact absurd expired (by decide)

/-- Every hypothesis of STOP's fourth clause holds in the state. -/
theorem stops_partialsEntered {events : List Event} (claim : Obligations.StopByState) : ∃ t c',
    exec (.stop .a 0) (before events) = .next t ∧ t.sto.capture ⟨0, 1⟩ = some c' ∧
      (before events).partialsEntered t lanes ⟨0, 1⟩ running c' 0 := by
  obtain ⟨stop, -⟩ := claim
  obtain ⟨-, -, -, taken⟩ := stop .a 0 (before events) rfl
  obtain ⟨t, ran, -, -, -, -, -, -, -, -, -, -, -, partials⟩ :=
    taken sampling ⟨0, 1⟩ running 0 fillingBlock (.inr (.inr rfl)) rfl nofun rfl rfl rfl rfl
  obtain ⟨c', hc', entered, -⟩ := partials 0 rfl
  exact ⟨t, c', ran, hc', entered⟩

theorem refutes {events : List Event} (full : Full events) : ¬ Obligations.StopByState := fun claim => by
  obtain ⟨t, c', ran, hc', entered⟩ := stops_partialsEntered (events := events) claim
  have same : t = ((before events).enterStopping .stopTaken).answer .a 0 (.plain .ok) := by
    injection ran.symm.trans (stops events)
  have sto : t.sto = storeAfter := by
    have answered : ∀ u : State, (u.answer .a 0 (.plain .ok)).sto = u.sto := fun _ => rfl
    rw [same, answered, stop_sto full]
  rw [sto] at hc'
  obtain rfl : { counted with truncated := 1 } = c' := Option.some.inj hc'
  exact not_partialsEntered full sto entered

end TwiceListed

/-- Refutes O31: in `TwiceListed.before` with a list of 8192 events, STOP neither enters lane 0's PARTIAL nor counts it as expired, though by
the store that STOP leaves it starts before the capture's oldest held time. -/
theorem not_stopByState : ¬ Obligations.StopByState := TwiceListed.refutes TwiceListed.full_replicate

end Sys2Proof.Machine
end

section
/-! SUPPORT. The trigger sequencer (R80 to R99): the trigger lines, when a condition occurs, and the evaluation of a sample against a
stage. -/

namespace Sys2Proof.Machine

open Sys2Proof

/-! ## The trigger lines (R84, R98) -/

/-- Only a rising edge, in GATED or SEEKING and with no mark set, sets the mark (R84). -/
theorem execTriggerInEdge_changes {s : State} {level : Bool} (changes : s.trg.inLevel ≠ level) (at_ : Nat) :
    execTriggerInEdge level at_ s = .next ((s.setTimebase (max s.timebase at_)).setTrg { s.trg with
      inLevel := level
      mark := if level = true ∧ (s.trg.state = .gated ∨ s.trg.state = .seeking) ∧ s.trg.mark = none then
        some (max s.timebase at_) else s.trg.mark }) := by
  unfold execTriggerInEdge
  simp only [if_neg changes, Bool.and_eq_true, decide_eq_true_eq, Option.isNone_iff_eq_none, and_assoc]
  rfl

/-- The fold that looks for the first end among the pulses finds their least member. -/
theorem foldl_min_eq {x e : Nat} {rest : List Nat} (mem : e ∈ x :: rest) (least : ∀ f ∈ x :: rest, e ≤ f) :
    rest.foldl min x = e :=
  Option.some.inj (List.min?_cons'.symm.trans (List.min?_eq_some_iff.2 ⟨mem, least⟩))

/-- The pulse of the least end time runs out (R98). -/
theorem execTriggerOutPulseEnd_first {s : State} {e : Nat} (mem : e ∈ s.trg.pulses) (least : ∀ f ∈ s.trg.pulses, e ≤ f) :
    execTriggerOutPulseEnd s = .next ((s.setTimebase (max s.timebase e)).setTrg
      { s.trg with pulses := s.trg.pulses.filter fun f => !(decide (f = e)) }) := by
  unfold execTriggerOutPulseEnd
  split
  · next none_ => rw [none_] at mem; cases mem
  · next x rest pulses =>
    rw [pulses] at mem least
    simp only [foldl_min_eq mem least, decide_not]
    rfl

/-- Settles O48, by the two rows' equations and the cases of the mark. -/
theorem triggerLines : Obligations.TriggerLines := by
  unfold Obligations.TriggerLines
  refine ⟨fun at_ s => ⟨fun level same => if_pos same, fun low live unset => ?_, fun low unlive => ?_, fun high => ?_⟩,
    fun s none_ => ?_, fun s e => execTriggerOutPulseEnd_first, fun s => ?_⟩
  · refine (execTriggerInEdge_changes (by simp [low]) at_).trans ?_
    rw [if_pos ⟨rfl, live, unset⟩]
  · have keeps : ¬ (true = true ∧ (s.trg.state = .gated ∨ s.trg.state = .seeking) ∧ s.trg.mark = none) :=
      fun ⟨_, live, unset⟩ => unlive.elim (fun ⟨gated, seeking⟩ => live.elim gated seeking) fun set => set unset
    refine (execTriggerInEdge_changes (by simp [low]) at_).trans ?_
    rw [if_neg keeps]
  · refine (execTriggerInEdge_changes (by simp [high]) at_).trans ?_
    rw [if_neg fun falls => Bool.false_ne_true falls.1]
  · change execTriggerOutPulseEnd s = .next s
    unfold execTriggerOutPulseEnd
    rw [none_]
  · rw [State.triggerOutLine, Bool.not_eq_true', List.isEmpty_eq_false_iff]

/-! ## Conditions, channel by channel (R85 to R89) -/

theorem and_eq_zero_iff {a m : ChannelWord} :
    a &&& m = 0 ↔ ∀ ch, ch < 32 → m.getLsbD ch = true → a.getLsbD ch = false := by
  rw [BitVec.eq_of_getLsbD_eq_iff]
  refine forall₂_congr fun ch _ => ?_
  rw [BitVec.getLsbD_and]
  cases m.getLsbD ch <;> simp

theorem and_ne_zero_iff {a m : ChannelWord} :
    (a &&& m != 0) = true ↔ ∃ ch, m.getLsbD ch = true ∧ a.getLsbD ch = true := by
  rw [bne_iff_ne, ne_eq, and_eq_zero_iff]
  push Not
  refine exists_congr fun ch => ⟨fun ⟨_, has, high⟩ => ⟨has, Bool.eq_true_of_not_eq_false high⟩, fun ⟨has, high⟩ => ?_⟩
  exact ⟨BitVec.lt_of_getLsbD high, has, by simp [high]⟩

/-- The word agrees with the value over the mask (R85). -/
theorem agrees_iff {word v m : ChannelWord} :
    (word ^^^ v) &&& m = 0 ↔ ∀ ch, ch < 32 → m.getLsbD ch = true → word.getLsbD ch = v.getLsbD ch := by
  rw [and_eq_zero_iff]
  simp only [BitVec.getLsbD_xor, bne_eq_false_iff_eq]

theorem pattern_truth_equal (m v : ChannelWord) (it : SampleItem) :
    (Cond.pattern m v true).truth it = true ↔ ∀ ch, ch < 32 → m.getLsbD ch = true → it.level ch = v.getLsbD ch := by
  rw [Cond.truth, beq_true, beq_iff_eq]
  exact agrees_iff

theorem pattern_truth_differs (m v : ChannelWord) (it : SampleItem) :
    (Cond.pattern m v false).truth it = true ↔ ∃ ch, ch < 32 ∧ m.getLsbD ch = true ∧ it.level ch ≠ v.getLsbD ch := by
  rw [Cond.truth, beq_false, Bool.not_eq_true', beq_eq_false_iff_ne, ne_eq, agrees_iff]
  push Not
  rfl

/-- The level that ends is known to have begun, and its width lies in the window, bounds included (R87). -/
theorem pulseOccurs_iff (ch : Fin 32) (high : Bool) (lo hi : Nat) (o : Observed) :
    pulseOccurs ch.val high lo hi o = true ↔ (if high then o.it.falls ch.val else o.it.rises ch.val) = true ∧
      ∃ h t, o.history = some h ∧ h.starts[ch] = some t ∧ lo ≤ o.it.raw - t ∧ o.it.raw - t ≤ hi := by
  have here : Fin.ofNat 32 ch.val = ch := Fin.ofNat_val_eq_self ch
  unfold pulseOccurs
  rw [Bool.and_eq_true]
  refine and_congr_right fun _ => ?_
  cases o.history with
  | none => simp
  | some h =>
    simp only [Option.bind_some, ChannelHistory.startOf, here, Option.some.injEq, exists_and_left, exists_eq_left']
    cases h.starts[ch] <;> simp

/-- Settles O54, condition by condition; what a combine makes of the occurrences is its defining equation. -/
theorem conditionRules : Obligations.ConditionRules := by
  unfold Obligations.ConditionRules
  refine ⟨fun m v prev o => ⟨pattern_truth_equal m v o.it, pattern_truth_differs m v o.it, fun e => ?pattern⟩,
    fun m prev o => ⟨and_ne_zero_iff, and_ne_zero_iff, ?either⟩, fun ch high lo hi _ o => pulseOccurs_iff ch high lo hi o,
    fun l e prev o => ?laneMatch, fun _ _ => .rfl, fun n po so st => ⟨rfl, rfl, rfl, rfl⟩⟩
  case pattern => rw [Cond.occurs, Bool.and_eq_true, Bool.not_eq_true']
  case either =>
    refine and_ne_zero_iff.trans (exists_congr fun ch => and_congr_right fun _ => ?_)
    rw [BitVec.getLsbD_or, Bool.or_eq_true]
    rfl
  case laneMatch =>
    rw [Cond.occurs, List.any_eq_true]
    constructor
    · rintro ⟨⟨l', e'⟩, offered, same⟩
      simp only [Bool.and_eq_true, decide_eq_true_eq, beq_iff_eq] at same
      obtain ⟨rfl, rfl⟩ := same
      exact offered
    · exact fun offered => ⟨(l, e), offered, by simp⟩

/-! ## Timers and sources (R93, R94, R99) -/

theorem Stage.expired_iff {x : Stage} {e t : Nat} : x.expired e t = true ↔ ∃ l, x.timer = .within l ∧ e + l < t := by
  unfold Stage.expired
  cases x.timer <;> simp

theorem Stage.ignores_iff {x : Stage} {e t : Nat} : x.ignores e t = true ↔ ∃ l, x.timer = .after l ∧ t ≤ e + l := by
  unfold Stage.ignores
  cases x.timer <;> simp

theorem Cond.isTriggerIn_iff {x : Cond} : x.isTriggerIn = true ↔ x = .triggerIn := by
  cases x <;> simp [Cond.isTriggerIn]

/-- A TRIGGER_IN occurrence is part of the one counted (R99). -/
def Stage.firesOnTriggerIn (x : Stage) (po so : Bool) : Prop :=
  (x.primary = .triggerIn ∧ po = true) ∨ (x.combine = .or ∧ x.secondary = some .triggerIn ∧ so = true)

theorem sourceOf_eq {x : Stage} {po so : Bool} [Decidable (x.firesOnTriggerIn po so)] (k : Nat) :
    sourceOf x k po so = if x.firesOnTriggerIn po so then .triggerIn else .stage k := by
  unfold sourceOf
  refine if_congr ?_ rfl rfl
  unfold Stage.firesOnTriggerIn
  cases x.secondary <;> simp [Cond.isTriggerIn_iff, and_assoc, and_comm (a := so = true)]

theorem sourceOf_fires {x : Stage} {po so : Bool} (fires : x.firesOnTriggerIn po so) (k : Nat) :
    sourceOf x k po so = .triggerIn := by
  classical exact (sourceOf_eq k).trans (if_pos fires)

theorem sourceOf_not_fires {x : Stage} {po so : Bool} (fires : ¬ x.firesOnTriggerIn po so) (k : Nat) :
    sourceOf x k po so = .stage k := by
  classical exact (sourceOf_eq k).trans (if_neg fires)

/-! ## The evaluation of a sample (R95, R96) -/

/-- The occurrence of a stage's secondary condition; with no combine there is none (R90). -/
def Stage.secondaryOccurs (x : Stage) (prev : Bool) (o : Observed) : Bool :=
  match x.combine, x.secondary with
  | .none, _ => false
  | _, some c => c.occurs prev o
  | _, none => false

/-- The truth of a stage's secondary condition (R85). -/
def Stage.secondaryTruth (x : Stage) (it : SampleItem) : Bool :=
  match x.secondary with
  | some c => c.truth it
  | none => false

/-- The count by the combine (R90 to R92), where no AFTER stretch ignores the sample. -/
def TrgRun.usualCount (r : TrgRun) (x : Stage) (o : Observed) : Nat :=
  nextCount r.count
    (combineResult x.combine (x.primary.occurs r.prevPrimary o) (x.secondaryOccurs r.prevSecondary o) (x.secondaryTruth o.it))

/-- The run after a sample that is tested against its stage: the count and the previous-truth flags (R94, R95). -/
def TrgRun.tested (r : TrgRun) (x : Stage) (entered : Nat) (o : Observed) : TrgRun :=
  { r with
    count := if x.ignores entered o.it.raw then r.count else r.usualCount x o
    prevPrimary := x.primary.truth o.it
    prevSecondary := if x.combine = .none then r.prevSecondary else x.secondaryTruth o.it }

/-- The tested run, and the stage with its source when the count is the required one (R95, R99). -/
theorem countSample_eq (r : TrgRun) (x : Stage) (entered : Nat) (o : Observed) :
    r.countSample x entered o =
      if (r.tested x entered o).count = x.required then
        { run := r.tested x entered o, expired := false
          satisfied := some (x, sourceOf x r.stage (x.primary.occurs r.prevPrimary o) (x.secondaryOccurs r.prevSecondary o))
          pendingEntry := match x.success with | .stage k => some k | .trigger => none }
      else { run := r.tested x entered o, pendingEntry := none, expired := false, satisfied := none } := by
  unfold TrgRun.countSample TrgRun.tested
  cases x.ignores entered o.it.raw <;> rfl

section

variable {r : TrgRun} {x : Stage} {i e : Nat} {o : Observed}

theorem countSample_run : (r.countSample x e o).run = r.tested x e o := by
  rw [countSample_eq]
  split <;> rfl

theorem countSample_expired : (r.countSample x e o).expired = false := by
  rw [countSample_eq]
  split <;> rfl

theorem countSample_short (short : (r.tested x e o).count ≠ x.required) :
    r.countSample x e o = { run := r.tested x e o, pendingEntry := none, expired := false, satisfied := none } := by
  rw [countSample_eq, if_neg short]

theorem countSample_done (done : (r.tested x e o).count = x.required) :
    r.countSample x e o =
      { run := r.tested x e o, expired := false
        satisfied := some (x, sourceOf x r.stage (x.primary.occurs r.prevPrimary o) (x.secondaryOccurs r.prevSecondary o))
        pendingEntry := match x.success with | .stage k => some k | .trigger => none } := by
  rw [countSample_eq, if_pos done]

/-- Within the stretch of AFTER the sample counts nothing (R94). -/
theorem tested_count_ignored {l : Nat} (timer : x.timer = .after l) (early : o.it.raw ≤ e + l) :
    (r.tested x e o).count = r.count :=
  if_pos (Stage.ignores_iff.2 ⟨l, timer, early⟩)

theorem tested_count_usual (late : ∀ l, x.timer = .after l → e + l < o.it.raw) :
    (r.tested x e o).count = r.usualCount x o :=
  if_neg fun ignored => by
    obtain ⟨l, timer, early⟩ := Stage.ignores_iff.1 ignored
    exact Nat.not_le.2 (late l timer) early

variable (current : r.table[r.stage]? = some x) (entered : r.entry = some (i, e))

include current entered

theorem evaluate_entered : r.evaluate none o =
    if x.expired e o.it.raw then { run := r, pendingEntry := x.fail, expired := true, satisfied := none }
    else r.countSample x e o := by
  have stays : r.atEntry none o.it = r := by simp [TrgRun.atEntry, entered]
  unfold TrgRun.evaluate
  simp only [stays, current, entered]

/-- Past the limit of WITHIN the stage fails, and nothing is counted (R93). -/
theorem evaluate_expires {l : Nat} (timer : x.timer = .within l) (late : e + l < o.it.raw) :
    r.evaluate none o = { run := r, pendingEntry := x.fail, expired := true, satisfied := none } :=
  (evaluate_entered current entered).trans (if_pos (Stage.expired_iff.2 ⟨l, timer, late⟩))

theorem evaluate_counts (inTime : ∀ l, x.timer = .within l → o.it.raw ≤ e + l) :
    r.evaluate none o = r.countSample x e o :=
  (evaluate_entered current entered).trans <| if_neg fun expired => by
    obtain ⟨l, timer, late⟩ := Stage.expired_iff.1 expired
    exact Nat.not_lt.2 (inTime l timer) late

end

/-- Stage 0's entry sample is the first one evaluated (R95, step 1). -/
theorem evaluate_enters {r : TrgRun} (unentered : r.entry = none) (o : Observed) :
    r.evaluate none o = { r with entry := some (o.it.index, o.it.raw) }.evaluate none o := by
  have first : r.atEntry none o.it = { r with entry := some (o.it.index, o.it.raw) } := by
    simp [TrgRun.atEntry, unentered]
  unfold TrgRun.evaluate
  rw [first]
  rfl

/-- Settles O55: the entry, the expiry, and the tested run with the two outcomes of its count. -/
theorem stageEvaluation : Obligations.StageEvaluation := by
  unfold Obligations.StageEvaluation
  refine ⟨fun _ _ _ => rfl, fun r o unentered => evaluate_enters unentered o, fun r x i e o current entered =>
    ⟨fun l => evaluate_expires current entered, fun inTime => ?_⟩⟩
  rw [evaluate_counts current entered inTime, countSample_run]
  refine ⟨countSample_expired, rfl, rfl, rfl, rfl, fun combined => if_neg combined, fun l => tested_count_ignored,
    tested_count_usual, fun short => ?_, fun done => ?_⟩
  · rw [countSample_short short]
    exact ⟨rfl, rfl⟩
  · rw [countSample_done done]
    exact ⟨rfl, fun fires => congrArg (fun source => some (x, source)) (sourceOf_fires fires _),
      fun fires => congrArg (fun source => some (x, source)) (sourceOf_not_fires fires _)⟩

end Sys2Proof.Machine
end

section
/-! SUPPORT. A lane at work on a sample, in three normal forms: its frame goes on, its frame ends, a frame opens (R105 to R111). Every
operation of a lane is told as one of them; with the proof of the statement on the shared parts of decoding (O60). -/

namespace Sys2Proof.Machine

open Sys2Proof

/-! ## The parts of a lane's context (R105) -/

namespace LaneCtx

/-- The context with another kind context. -/
def withKctx (c : LaneCtx) (k : KindCtx) : LaneCtx := { c with kctx := k }

/-- The context with the word in progress dropped. -/
def noWord (c : LaneCtx) : LaneCtx := { c with word := none }

variable (c : LaneCtx) (k : KindCtx) (b : Bool) (t : Nat)

@[simp] theorem withKctx_kctx : (c.withKctx k).kctx = k := rfl
@[simp] theorem withKctx_cfg : (c.withKctx k).cfg = c.cfg := rfl
@[simp] theorem withKctx_bits : (c.withKctx k).bits = c.bits := rfl
@[simp] theorem withKctx_firstBit : (c.withKctx k).firstBit t = c.firstBit t := rfl
@[simp] theorem withKctx_withKctx (k' : KindCtx) : (c.withKctx k).withKctx k' = c.withKctx k' := rfl
@[simp] theorem withKctx_self : c.withKctx c.kctx = c := rfl
@[simp] theorem withKctx_withBit : (c.withKctx k).withBit b t = (c.withBit b t).withKctx k := rfl
@[simp] theorem withKctx_afterWord : (c.withKctx k).afterWord = c.afterWord.withKctx k := rfl
@[simp] theorem withKctx_noWord : (c.withKctx k).noWord = c.noWord.withKctx k := rfl
@[simp] theorem withKctx_wordEvents (frame : Nat) (kind : EventKind) (value : Nat) (attrs : BitVec 8) (t0 t1 : Nat) :
    (c.withKctx k).wordEvents frame kind value attrs t0 t1 = c.wordEvents frame kind value attrs t0 t1 := rfl
@[simp] theorem withKctx_shortWord (frame : Nat) (msb : Bool) (least : Nat) :
    (c.withKctx k).shortWord frame msb least t = c.shortWord frame msb least t := rfl
@[simp] theorem withKctx_stopEvent (frame : Nat) : (c.withKctx k).stopEvent frame t = c.stopEvent frame t := rfl

@[simp] theorem noWord_kctx : c.noWord.kctx = c.kctx := rfl
@[simp] theorem noWord_cfg : c.noWord.cfg = c.cfg := rfl
@[simp] theorem noWord_wordPos : c.noWord.wordPos = c.wordPos := rfl
@[simp] theorem noWord_stopEvent (frame : Nat) : c.noWord.stopEvent frame t = c.stopEvent frame t := rfl

@[simp] theorem withBit_kctx : (c.withBit b t).kctx = c.kctx := rfl
@[simp] theorem withBit_cfg : (c.withBit b t).cfg = c.cfg := rfl
@[simp] theorem withBit_word : (c.withBit b t).word = some { bits := c.bits ++ [b], first := c.firstBit t } := rfl
@[simp] theorem withBit_wordEvents (frame : Nat) (kind : EventKind) (value : Nat) (attrs : BitVec 8) (t0 t1 : Nat) :
    (c.withBit b t).wordEvents frame kind value attrs t0 t1 = c.wordEvents frame kind value attrs t0 t1 := rfl
@[simp] theorem withBit_afterWord : (c.withBit b t).afterWord = c.afterWord := rfl

@[simp] theorem afterWord_kctx : c.afterWord.kctx = c.kctx := rfl
@[simp] theorem afterWord_cfg : c.afterWord.cfg = c.cfg := rfl

@[simp] theorem withKctx_word : (c.withKctx k).word = c.word := rfl
@[simp] theorem withKctx_wordPos : (c.withKctx k).wordPos = c.wordPos := rfl

end LaneCtx

namespace LaneWork

/-! ## The three forms -/

/-- The frame goes on: a new context, and what the lane emits. -/
def goesOn (w : LaneWork) (c : LaneCtx) (out : List Emission) : LaneWork := { w with ctx := c, out := w.out ++ out }

/-- The frame ends by itself, the context being `c` before (R109). -/
def ends (w : LaneWork) (c : LaneCtx) (basis : HuntBasis) (out : List Emission) (came : List Happening) : LaneWork :=
  { w with state := w.state.afterFrame, ctx := c.leftFrame w.state basis, out := w.out ++ out, came := w.came ++ came }

/-- The number of the frame that opens next (R110). -/
def nextFrame (w : LaneWork) : Nat := (w.frame + 1) % 65536

/-- A frame opens with START at `t` and the context `c` (R110). -/
def opens (w : LaneWork) (c : LaneCtx) (t : Nat) : LaneWork :=
  { w with state := .inFrame, frame := w.nextFrame, ctx := c
           out := w.out ++ [Emission.mk .start w.nextFrame 0 none 0 none none t t] }

variable (w : LaneWork)

@[simp] theorem goesOn_ctx (c : LaneCtx) (out : List Emission) : (w.goesOn c out).ctx = c := rfl
@[simp] theorem goesOn_ix (c : LaneCtx) (out : List Emission) : (w.goesOn c out).ix = w.ix := rfl
@[simp] theorem goesOn_state (c : LaneCtx) (out : List Emission) : (w.goesOn c out).state = w.state := rfl
@[simp] theorem goesOn_frame (c : LaneCtx) (out : List Emission) : (w.goesOn c out).frame = w.frame := rfl
@[simp] theorem goesOn_came (c : LaneCtx) (out : List Emission) : (w.goesOn c out).came = w.came := rfl
@[simp] theorem ends_ctx (c : LaneCtx) (basis : HuntBasis) (out : List Emission) (came : List Happening) :
    (w.ends c basis out came).ctx = c.leftFrame w.state basis := rfl
@[simp] theorem ends_state (c : LaneCtx) (basis : HuntBasis) (out : List Emission) (came : List Happening) :
    (w.ends c basis out came).state = w.state.afterFrame := rfl
@[simp] theorem ends_noWord (c : LaneCtx) (basis : HuntBasis) (out : List Emission) (came : List Happening) :
    w.ends c.noWord basis out came = w.ends c basis out came := rfl
@[simp] theorem ends_withKctx (c : LaneCtx) (k : KindCtx) (basis : HuntBasis) (out : List Emission) (came : List Happening) :
    w.ends (c.withKctx k) basis out came = w.ends c basis out came := rfl
@[simp] theorem opens_ctx (c : LaneCtx) (t : Nat) : (w.opens c t).ctx = c := rfl
@[simp] theorem opens_came (c : LaneCtx) (t : Nat) : (w.opens c t).came = w.came := rfl

@[simp] theorem goesOn_goesOn (c d : LaneCtx) (a b : List Emission) : (w.goesOn c a).goesOn d b = w.goesOn d (a ++ b) := by
  simp [goesOn]

@[simp] theorem goesOn_ends (c d : LaneCtx) (basis : HuntBasis) (a b : List Emission) (came : List Happening) :
    (w.goesOn c a).ends d basis b came = w.ends d basis (a ++ b) came := by
  simp [goesOn, ends]

@[simp] theorem goesOn_note (c : LaneCtx) (out : List Emission) (h : Happening) :
    (w.goesOn c out).note h = (w.note h).goesOn c out := rfl

@[simp] theorem opens_goesOn (c d : LaneCtx) (t : Nat) : (w.opens c t).goesOn d [] = w.opens d t := by
  simp [opens, goesOn]

@[simp] theorem goesOn_opens (c d : LaneCtx) (t : Nat) : (w.goesOn c []).opens d t = w.opens d t := by
  simp [opens, goesOn, nextFrame]

@[simp] theorem goesOn_self : w.goesOn w.ctx [] = w := by simp [goesOn]

/-! ## The operations of a lane (R110, R111, R116, R117, R123) -/

theorem emit_eq (kind : EventKind) (value : Option Nat) (attrs : BitVec 8) (err : Option ErrKind) (bits : Option Nat)
    (t0 t1 : Nat) : w.emit kind value attrs err bits t0 t1 =
      w.goesOn w.ctx [Emission.mk kind w.frame w.ctx.wordPos value attrs err bits t0 t1] := rfl

theorem emitStop_eq (t : Nat) : w.emitStop t = w.goesOn w.ctx [w.ctx.stopEvent w.frame t] := rfl

theorem emitPartial_eq (t : Nat) : w.emitPartial t = w.goesOn w.ctx
    [Emission.mk .partialFrame w.frame w.ctx.wordPos (some w.ctx.wordPos) (if w.ctx.truncated then 0x80 else 0) none none t t] := rfl

theorem withCtx_eq (f : LaneCtx → LaneCtx) : w.withCtx f = w.goesOn (f w.ctx) [] := by simp [goesOn, withCtx]

theorem withKind_eq (f : KindCtx → KindCtx) : w.withKind f = w.goesOn (w.ctx.withKctx (f w.ctx.kctx)) [] := by
  simp [goesOn, withKind, LaneCtx.withKctx]

theorem takeBit_eq (b : Bool) (t : Nat) : w.takeBit b t = w.goesOn (w.ctx.withBit b t) [] := by
  rw [takeBit, withCtx_eq]
  unfold LaneCtx.withBit LaneCtx.bits LaneCtx.firstBit
  cases w.ctx.word <;> rfl

/-- A completed word: the word up to the limit, ERROR(LONG) for the next, nothing beyond (R111). -/
theorem completeWord_eq (kind : EventKind) (value : Nat) (attrs : BitVec 8) (t0 t1 : Nat) :
    w.completeWord kind value attrs t0 t1 = w.goesOn w.ctx.afterWord (w.ctx.wordEvents w.frame kind value attrs t0 t1) := by
  have raised : satAdd Config.max16 w.ctx.wordPos 1 = w.ctx.nextPos := rfl
  unfold completeWord
  rw [withCtx_eq, raised]
  dsimp only [goesOn_ctx]
  unfold LaneCtx.wordEvents LaneCtx.afterWord
  by_cases within : w.ctx.nextPos ≤ w.ctx.cfg.limit
  · have notNext : (w.ctx.nextPos == w.ctx.cfg.limit + 1) = false := by simp; omega
    simp [within, notNext, emit_eq]
  · by_cases next : w.ctx.nextPos = w.ctx.cfg.limit + 1
    · simp [next, emit_eq, withCtx_eq]
    · simp [within, next, beq_eq_false_iff_ne.2 next]

/-- SHORT_WORD for a word in progress of at least `least` bits; the bits are dropped (R116, R117). -/
theorem disposeWord_eq (msb : Bool) {least : Nat} (least_pos : 1 ≤ least) (t : Nat) :
    w.disposeWord msb least t = w.goesOn w.ctx.noWord (w.ctx.shortWord w.frame msb least t) := by
  unfold disposeWord LaneCtx.noWord LaneCtx.shortWord LaneCtx.bits LaneCtx.firstBit
  dsimp only
  rw [withCtx_eq]
  cases w.ctx.word with
  | none => simp
  | some x =>
    by_cases enough : least ≤ x.bits.length
    · simp [enough, least_pos.trans enough, emit_eq]
    · simp [enough]

theorem leaveFrame_eq (basis : HuntBasis) : w.leaveFrame basis = w.ends w.ctx basis [] [] := by
  have state : (if w.state = .draining then .held else .hunt) = w.state.afterFrame := by cases w.state <;> rfl
  unfold leaveFrame ends
  rw [state]
  simp [LaneCtx.leftFrame]

theorem ends_note (c : LaneCtx) (basis : HuntBasis) (out : List Emission) (came : List Happening) (h : Happening) :
    (w.ends c basis out came).note h = w.ends c basis out (came ++ [h]) := by
  simp [ends, note]

theorem openFrame_eq (t : Nat) : w.openFrame t = w.opens (w.ctx.opened .cleared) t := rfl

end LaneWork

/-! ## A lane and a sample, with no request waiting (R105, R109) -/

/-- The lane at work on a sample with the context it holds. -/
def Lane.work (x : Lane) (i : Four) (c : LaneCtx) : LaneWork :=
  { ix := i, state := x.state, frame := x.frame, ctx := c, out := [], came := [] }

@[simp] theorem Lane.work_ctx (x : Lane) (i : Four) (c : LaneCtx) : (x.work i c).ctx = c := rfl
@[simp] theorem Lane.work_state (x : Lane) (i : Four) (c : LaneCtx) : (x.work i c).state = x.state := rfl

/-- The sample by the lane's state (R105, R109). -/
def LaneWork.onSample (w : LaneWork) (D : Nat) (it : SampleItem) : LaneWork :=
  match w.state with
  | .hunt => w.hunt D it
  | .inFrame => w.inside D it
  | .draining => (w.inside D it).cutDrain it
  | _ => w

/-- What a lane's work on a sample leaves, with the requests still waiting. -/
def LaneWork.result (w : LaneWork) (pend : List LaneReq) : Lane × List Emission × List Happening :=
  ({ state := w.state, frame := w.frame, pend := pend, ctx := some w.ctx }, w.out, w.came)

section NoRequest

variable {x : Lane} {c : LaneCtx} (i : Four) (hx : x.ctx = some c) (hp : x.pend = []) (D : Nat) (it : SampleItem)

include hx hp

theorem laneHandle_quiet (on : x.state ≠ .off) : laneHandle i x D it = ((x.work i c).onSample D it).result [] := by
  unfold laneHandle
  simp only [hx, if_neg on, hp]
  rfl

theorem laneHandle_hunt (hunt : x.state = .hunt) : laneHandle i x D it = ((x.work i c).hunt D it).result [] := by
  rw [laneHandle_quiet i hx hp D it (by rw [hunt]; nofun)]
  unfold LaneWork.onSample
  rw [show (x.work i c).state = .hunt from hunt]

end NoRequest

/-! ## Words, bits and intervals (R103, R110, R111, R114, R119, R121) -/

theorem bitsValue_msb_append (b : Bool) (bits : List Bool) : bitsValue true (bits ++ [b]) = 2 * bitsValue true bits + b.toNat := by
  simp [bitsValue]

theorem bitsValue_lsb_cons (b : Bool) (bits : List Bool) : bitsValue false (b :: bits) = b.toNat + 2 * bitsValue false bits := by
  simp [bitsValue, Nat.add_comm]

namespace LaneWork

/-- A START condition: the data line falls while the clock is high and does not change (R114). -/
def startCondition (cfg : LaneCfg) (it : SampleItem) : Prop :=
  it.falls cfg.data = true ∧ it.changes cfg.clock = false ∧ it.level cfg.clock = true

variable {w : LaneWork} {it : SampleItem} (D : Nat)

theorem hunt_twoWire_opens (kind : w.ctx.cfg.kind = .twoWire) (start : startCondition w.ctx.cfg it) :
    w.hunt D it = w.opens (w.ctx.opened { KindCtx.cleared with addrNext := true, clockEdge := some it.raw }) it.raw := by
  obtain ⟨falls, steady, high⟩ := start
  unfold LaneWork.hunt twoWireHunt
  simp [withCtx_eq, kind, falls, steady, high, openFrame_eq, withKind_eq, LaneCtx.opened, LaneCtx.withKctx]

theorem hunt_twoWire_stays (kind : w.ctx.cfg.kind = .twoWire) (start : ¬ startCondition w.ctx.cfg it) :
    w.hunt D it = w.goesOn { w.ctx with hunt := some (w.ctx.hunt.getD (entryBasis w.ctx.cfg it)) } [] := by
  unfold LaneWork.hunt twoWireHunt
  simp only [withCtx_eq, goesOn_ctx, kind]
  rw [if_neg]
  simpa [startCondition] using start

end LaneWork

theorem readsBit_iff {start m : Nat} (begun : start ≤ m) (period D k : Nat) : readsBit start period D k m = true ↔
    2 * (m - start) ≤ (2 * k + 1) * period ∧ (2 * k + 1) * period < 2 * (m + D - start) := by
  have span : 2 * (m + D - start) = 2 * (m - start) + 2 * D := by omega
  rw [span]
  exact decide_eq_true_iff

/-- Settles O60: each clause by the lemma about its operation. -/
theorem framesAndWords : Obligations.FramesAndWords := by
  unfold Obligations.FramesAndWords
  refine ⟨fun msb => by cases msb <;> rfl, fun b bits => ⟨bitsValue_msb_append b bits, bitsValue_lsb_cons b bits⟩,
    fun w t => ⟨rfl, ?_, rfl, rfl, rfl, rfl⟩, fun w kind value attrs t0 t1 pos next => ?_, fun i x c D it hx kind hunt hp => ?_,
    fun start period D k m _ begun => readsBit_iff begun period D k, fun h v => rfl⟩
  · show (w.frame + 1) % 65536 = _
    split
    · next last => rw [last]
    · rfl
  · subst next
    dsimp only
    rw [w.completeWord_eq]
    refine ⟨rfl, rfl, rfl, fun within => ?_, fun next => ?_, fun beyond => ?_⟩ <;>
      simp only [LaneWork.goesOn, LaneCtx.wordEvents, LaneCtx.afterWord, LaneCtx.nextPos]
    · have notNext : ¬ min 65535 (w.ctx.wordPos + 1) = w.ctx.cfg.limit + 1 := by omega
      simp [within, notNext]
    · simp [next]
    · have notNext : ¬ min 65535 (w.ctx.wordPos + 1) = w.ctx.cfg.limit + 1 := by omega
      have notWithin : ¬ min 65535 (w.ctx.wordPos + 1) ≤ w.ctx.cfg.limit := by omega
      simp [notWithin, notNext]
  · dsimp only
    rw [laneHandle_hunt i hx hp D it hunt]
    refine ⟨fun start => ?_, fun start => ?_⟩
    · rw [LaneWork.hunt_twoWire_opens (w := x.work i c) D kind start]
      refine ⟨rfl, rfl, rfl, fun k hk => ?_⟩
      obtain rfl := Option.some.inj hk
      exact ⟨rfl, rfl, rfl⟩
    · rw [LaneWork.hunt_twoWire_stays (w := x.work i c) D kind start]
      exact ⟨hunt, rfl, rfl⟩

end Sys2Proof.Machine
end

section
/-! SUPPORT. What a sample does to the frame of a TWO_WIRE or a CLOCKED lane and in CLOCKED HUNT, case by case (R108, R114 to R118), with
the proof of the statement (O57). -/

namespace Sys2Proof.Machine

open Sys2Proof

/-! ## The three forms at the lane (R105, R109) -/

section NoRequest

variable {x : Lane} {c c' : LaneCtx} {out : List Emission} {D : Nat} {it : SampleItem} (i : Four) (hx : x.ctx = some c)
  (hp : x.pend = [])

include hx hp

/-- The frame goes on, and the drain with it where its limit is not reached (R109). -/
theorem laneHandle_goesOn (on : x.goesOn c it.raw = true) (limit : c'.drainLimit = c.drainLimit)
    (step : (x.work i c).inside D it = (x.work i c).goesOn c' out) :
    laneHandle i x D it = ({ x with ctx := some c' }, out, []) := by
  have state : x.state = .inFrame ∨ (x.state = .draining ∧ timedOut c.drainLimit 0 it.raw = false) := by
    simpa [Lane.goesOn] using on
  rw [laneHandle_quiet i hx hp D it (by rintro off; simp [off] at state)]
  unfold LaneWork.onSample
  obtain inFrame | ⟨draining, early⟩ := state
  · rw [show (x.work i c).state = .inFrame from inFrame]
    dsimp only
    rw [step, ← hp]
    rfl
  · rw [show (x.work i c).state = .draining from draining]
    dsimp only
    have uncut : ((x.work i c).goesOn c' out).cutDrain it = (x.work i c).goesOn c' out := by
      unfold LaneWork.cutDrain
      split
      · next reached =>
        rw [LaneWork.goesOn_ctx, limit] at reached
        rw [reached] at early
        exact if_neg (by simpa [timedOut] using early)
      · rfl
    rw [step, uncut, ← hp]
    rfl

/-- The sample brings nothing. -/
theorem laneHandle_rests (on : x.goesOn c it.raw = true) (step : (x.work i c).inside D it = x.work i c) :
    laneHandle i x D it = (x, [], []) := by
  have same : { x with ctx := some c } = x := by rw [← hx]
  rw [laneHandle_goesOn i hx hp on (c' := c) (out := []) rfl (step.trans (x.work i c).goesOn_self.symm), same]

/-- The frame ends by itself, and a drain with it (R109). -/
theorem laneHandle_ends {basis : HuntBasis} {came : List Happening} (inside : x.state = .inFrame ∨ x.state = .draining)
    (step : (x.work i c).inside D it = (x.work i c).ends c' basis out came) :
    laneHandle i x D it =
      ({ x with state := x.state.afterFrame, ctx := some (c'.leftFrame x.state basis) }, out, came) := by
  rw [laneHandle_quiet i hx hp D it (by rintro off; simp [off] at inside)]
  unfold LaneWork.onSample
  obtain inFrame | draining := inside
  · rw [show (x.work i c).state = .inFrame from inFrame]
    dsimp only
    rw [step, ← hp]
    rfl
  · rw [show (x.work i c).state = .draining from draining]
    dsimp only
    have uncut : ((x.work i c).ends c' basis out came).cutDrain it = (x.work i c).ends c' basis out came := by
      unfold LaneWork.cutDrain
      split
      · next state _ =>
        rw [LaneWork.ends_state, show (x.work i c).state = .draining from draining] at state
        cases state
      · rfl
    rw [step, uncut, ← hp]
    rfl

theorem laneHandle_opens {t : Nat} (hunt : x.state = .hunt) (step : (x.work i c).hunt D it = (x.work i c).opens c' t) :
    laneHandle i x D it = x.openedAt c' t := by
  rw [laneHandle_hunt i hx hp D it hunt, step, ← hp]
  rfl

theorem laneHandle_hunts (hunt : x.state = .hunt) (step : (x.work i c).hunt D it = (x.work i c).goesOn c' []) :
    laneHandle i x D it = ({ x with ctx := some c' }, [], []) := by
  rw [laneHandle_hunt i hx hp D it hunt, step, ← hp]
  rfl

end NoRequest

theorem Lane.inside_of_goesOn {x : Lane} {c : LaneCtx} {raw : Nat} (on : x.goesOn c raw = true) :
    x.state = .inFrame ∨ x.state = .draining := by
  simp only [Lane.goesOn, Bool.or_eq_true, Bool.and_eq_true, beq_iff_eq] at on
  exact on.imp id And.left

theorem SampleItem.changes_of_rises {it : SampleItem} {ch : Nat} (h : it.rises ch = true) : it.changes ch = true := by
  rw [SampleItem.changes, h, Bool.true_or]

theorem SampleItem.changes_of_falls {it : SampleItem} {ch : Nat} (h : it.falls ch = true) : it.changes ch = true := by
  rw [SampleItem.changes, h, Bool.or_true]

namespace LaneWork

variable {w : LaneWork} {it : SampleItem}

/-! ## TWO_WIRE (R114 to R116) -/

/-- The kind context after a change of the clock. -/
def edgeSeen (k : KindCtx) (raw : Nat) : KindCtx := { k with clockEdge := some raw }

theorem attrDir_of_lowBit (n : Nat) : attrDir (some (n % 2 == 1)) = if n % 2 = 1 then 0x04 else 0x08 := by
  by_cases odd : n % 2 = 1
  · simp [odd, attrDir, attrRead]
  · simp [beq_eq_false_iff_ne.2 odd, odd, attrDir, attrWrite]

section TwoWire

variable (rise : it.rises w.ctx.cfg.clock = true)

include rise

theorem twoWireFrame_takesBit (short : w.ctx.bits.length ≠ 8) :
    w.twoWireFrame it = w.goesOn ((w.ctx.withBit (it.level w.ctx.cfg.data) it.raw).withKctx (edgeSeen w.ctx.kctx it.raw)) [] := by
  unfold twoWireFrame
  simp [withKind_eq, takeBit_eq, rise, it.changes_of_rises rise, short, edgeSeen]

/-- The ninth bit ends an address byte, which tells the direction (R115). -/
theorem twoWireFrame_address (full : w.ctx.bits.length = 8) (addr : w.ctx.kctx.addrNext = true) : w.twoWireFrame it =
    w.goesOn (w.ctx.afterWord.withKctx
        { edgeSeen w.ctx.kctx it.raw with addrNext := false, dirRead := some (bitsValue true w.ctx.bits % 2 == 1) })
      (w.ctx.wordEvents w.frame .addr (bitsValue true w.ctx.bits / 2)
        ((if it.level w.ctx.cfg.data then 0x02 else 0x01) ||| if bitsValue true w.ctx.bits % 2 = 1 then 0x04 else 0x08)
        (w.ctx.firstBit it.raw) it.raw) := by
  unfold twoWireFrame twoWireByte
  simp [withKind_eq, takeBit_eq, completeWord_eq, rise, it.changes_of_rises rise, full, addr, edgeSeen, attrDir_of_lowBit, attrNak,
    attrAck]

/-- The ninth bit ends a data byte (R115). -/
theorem twoWireFrame_data (full : w.ctx.bits.length = 8) (data : w.ctx.kctx.addrNext = false) : w.twoWireFrame it =
    w.goesOn (w.ctx.afterWord.withKctx (edgeSeen w.ctx.kctx it.raw))
      (w.ctx.wordEvents w.frame .word (bitsValue true w.ctx.bits)
        ((if it.level w.ctx.cfg.data then 0x02 else 0x01) ||| attrDir w.ctx.kctx.dirRead) (w.ctx.firstBit it.raw) it.raw) := by
  unfold twoWireFrame twoWireByte
  simp [withKind_eq, takeBit_eq, completeWord_eq, rise, it.changes_of_rises rise, full, data, edgeSeen, attrNak, attrAck]

end TwoWire

theorem twoWireFrame_clockFalls (change : it.changes w.ctx.cfg.clock = true) (noRise : it.rises w.ctx.cfg.clock = false) :
    w.twoWireFrame it = w.goesOn (w.ctx.withKctx (edgeSeen w.ctx.kctx it.raw)) [] := by
  unfold twoWireFrame
  simp [withKind_eq, change, noRise, edgeSeen]

/-! On a sample on which the clock does not change the frame may start again, stop, and stall (R114, R116). -/

section TwoWireSteady

variable (steady : it.changes w.ctx.cfg.clock = false)

include steady

theorem rises_of_steady : it.rises w.ctx.cfg.clock = false := Bool.eq_false_iff.2 fun rise => by
  rw [it.changes_of_rises rise] at steady
  cases steady

section Lively

variable (lively : timedOut w.ctx.kctx.clockEdge w.ctx.cfg.timeout it.raw = false)

include lively

/-- A repeated START: the bits are dropped and an address byte follows (R116). -/
theorem twoWireFrame_startsAgain (falls : it.falls w.ctx.cfg.data = true) (high : it.level w.ctx.cfg.clock = true) :
    w.twoWireFrame it = w.goesOn (w.ctx.noWord.withKctx { w.ctx.kctx with addrNext := true })
      (w.ctx.shortWord w.frame true 2 it.raw ++ [w.ctx.plainEvent w.frame .start 0x10 none it.raw]) := by
  have noRise := rises_of_steady steady
  unfold twoWireFrame
  cases edge : w.ctx.kctx.clockEdge with
  | none => simp [withKind_eq, disposeWord_eq, emit_eq, steady, noRise, falls, high, edge, LaneCtx.plainEvent, attrRepeated]
  | some e =>
    have early : ¬ e + w.ctx.cfg.timeout ≤ it.raw := by simpa [edge, timedOut] using lively
    simp [withKind_eq, disposeWord_eq, emit_eq, steady, noRise, falls, high, edge, LaneCtx.plainEvent, attrRepeated, early]

theorem twoWireFrame_waits (noStart : ¬ (it.falls w.ctx.cfg.data = true ∧ it.level w.ctx.cfg.clock = true))
    (noStop : ¬ (it.rises w.ctx.cfg.data = true ∧ it.level w.ctx.cfg.clock = true)) : w.twoWireFrame it = w := by
  have noRise := rises_of_steady steady
  unfold twoWireFrame
  cases edge : w.ctx.kctx.clockEdge with
  | none => simp [steady, noRise, noStart, noStop, edge]
  | some e =>
    have early : ¬ e + w.ctx.cfg.timeout ≤ it.raw := by simpa [edge, timedOut] using lively
    simp [steady, noRise, noStart, noStop, edge, early]

end Lively

/-- A STOP condition (R116). -/
theorem twoWireFrame_stops (noFall : it.falls w.ctx.cfg.data = false) (rises : it.rises w.ctx.cfg.data = true)
    (high : it.level w.ctx.cfg.clock = true) : w.twoWireFrame it =
      w.ends w.ctx { qualified := true, since := none } (w.ctx.shortWord w.frame true 2 it.raw ++ [w.ctx.stopEvent w.frame it.raw]) [] := by
  have noRise := rises_of_steady steady
  unfold twoWireFrame
  simp [disposeWord_eq, emitStop_eq, leaveFrame_eq, steady, noRise, noFall, rises, high, LaneCtx.leftFrame, KindCtx.cleared]

section Stall

variable (inside : w.state.inside = true) (quiet : timedOut w.ctx.kctx.clockEdge w.ctx.cfg.timeout it.raw = true)

include inside quiet

/-- A repeated START on which the frame stalls as well (R116). -/
theorem twoWireFrame_startsAgain_stalls (falls : it.falls w.ctx.cfg.data = true) (high : it.level w.ctx.cfg.clock = true) :
    w.twoWireFrame it = w.ends w.ctx { qualified := true, since := none }
      (w.ctx.shortWord w.frame true 2 it.raw ++
        [w.ctx.plainEvent w.frame .start 0x10 none it.raw, w.ctx.plainEvent w.frame .error 0 (some .stall) it.raw])
      [.twoWireStall w.ix] := by
  have noRise := rises_of_steady steady
  unfold twoWireFrame
  cases edge : w.ctx.kctx.clockEdge with
  | none => simp [edge, timedOut] at quiet
  | some e =>
    have late : e + w.ctx.cfg.timeout ≤ it.raw := by simpa [edge, timedOut] using quiet
    simp [withKind_eq, disposeWord_eq, emit_eq, leaveFrame_eq, ends_note, steady, noRise, falls, high, edge, late, inside,
      LaneCtx.plainEvent, attrRepeated]

/-- The clock has been quiet for the idle timeout (R116). -/
theorem twoWireFrame_stalls (noStart : ¬ (it.falls w.ctx.cfg.data = true ∧ it.level w.ctx.cfg.clock = true))
    (noStop : ¬ (it.rises w.ctx.cfg.data = true ∧ it.level w.ctx.cfg.clock = true)) : w.twoWireFrame it =
      w.ends w.ctx { qualified := true, since := none } [w.ctx.plainEvent w.frame .error 0 (some .stall) it.raw]
        [.twoWireStall w.ix] := by
  have noRise := rises_of_steady steady
  unfold twoWireFrame
  cases edge : w.ctx.kctx.clockEdge with
  | none => simp [edge, timedOut] at quiet
  | some e =>
    have late : e + w.ctx.cfg.timeout ≤ it.raw := by simpa [edge, timedOut] using quiet
    simp [emit_eq, leaveFrame_eq, ends_note, steady, noRise, noStart, noStop, edge, late, inside, LaneCtx.plainEvent]

end Stall

end TwoWireSteady

/-! ## CLOCKED (R117, R118) -/

/-- The kind context after a sample of a CLOCKED frame: the select's level, and the time of a clock edge. -/
def clockedMarks (cfg : LaneCfg) (it : SampleItem) (k : KindCtx) : KindCtx := { k with
  selectActive := cfg.select.map fun _ => selectActiveOn cfg it
  clockEdge := if it.changes cfg.clock then some it.raw else k.clockEdge }

/-- The select changes on the sample. -/
def selectTurns (cfg : LaneCfg) (it : SampleItem) : Bool := match cfg.select with | some ch => it.changes ch | none => false

theorem clock_changes_of_sampling {cfg : LaneCfg} (sampling : samplingEdgeOn cfg it = true) : it.changes cfg.clock = true := by
  unfold samplingEdgeOn at sampling
  split at sampling
  · exact it.changes_of_rises sampling
  · exact it.changes_of_falls sampling

theorem clockedBit_skips (skips : ¬ (samplingEdgeOn w.ctx.cfg it = true ∧ selectActiveOn w.ctx.cfg it = true)) :
    w.clockedBit it = w.goesOn (w.ctx.withKctx (clockedMarks w.ctx.cfg it w.ctx.kctx)) [] := by
  unfold clockedBit
  dsimp only
  rw [if_neg (by simpa using skips), withKind_eq]
  rfl

section Sampling

variable (sampling : samplingEdgeOn w.ctx.cfg it = true) (active : selectActiveOn w.ctx.cfg it = true)

include sampling active

theorem clockedBit_takes (short : w.ctx.bits.length + 1 ≠ w.ctx.cfg.wordSize) : w.clockedBit it =
    w.goesOn ((w.ctx.withBit (it.level w.ctx.cfg.data) it.raw).withKctx (clockedMarks w.ctx.cfg it w.ctx.kctx)) [] := by
  unfold clockedBit
  simp [withKind_eq, takeBit_eq, sampling, active, short, clockedMarks]

theorem clockedBit_completes (full : w.ctx.bits.length + 1 = w.ctx.cfg.wordSize) : w.clockedBit it =
    w.goesOn (w.ctx.afterWord.withKctx (clockedMarks w.ctx.cfg it w.ctx.kctx))
      (w.ctx.wordEvents w.frame .word (bitsValue w.ctx.cfg.msbFirst (w.ctx.bits ++ [it.level w.ctx.cfg.data])) 0
        (w.ctx.firstBit it.raw) it.raw) := by
  unfold clockedBit
  simp [withKind_eq, takeBit_eq, completeWord_eq, sampling, active, full, clockedMarks]

end Sampling

/-- The select has ended the frame, or its clock has been quiet for the idle timeout where there is no select (R117, R118). -/
def clockedEnds (w : LaneWork) (it : SampleItem) : Prop :=
  (selectTurns w.ctx.cfg it = true ∧ selectActiveOn w.ctx.cfg it = false) ∨
    (w.ctx.cfg.select = none ∧ it.changes w.ctx.cfg.clock = false ∧ timedOut w.ctx.kctx.clockEdge w.ctx.cfg.timeout it.raw = true)

theorem not_clockedEnds_of_sampling (sampling : samplingEdgeOn w.ctx.cfg it = true) (active : selectActiveOn w.ctx.cfg it = true) :
    ¬ w.clockedEnds it := by
  rintro (⟨-, idle⟩ | ⟨-, steady, -⟩)
  · rw [active] at idle
    cases idle
  · rw [clock_changes_of_sampling sampling] at steady
    cases steady

theorem clockedFrame_goesOn {c : LaneCtx} {out : List Emission} (lively : ¬ w.clockedEnds it)
    (bit : w.clockedBit it = w.goesOn (c.withKctx (clockedMarks w.ctx.cfg it w.ctx.kctx)) out) :
    w.clockedFrame it = w.goesOn (c.withKctx (clockedMarks w.ctx.cfg it w.ctx.kctx)) out := by
  unfold clockedFrame
  rw [bit]
  unfold clockedEnds selectTurns at lively
  cases select : w.ctx.cfg.select with
  | some ch =>
    simp only [select] at lively ⊢
    exact if_neg (by simpa using lively)
  | none =>
    cases change : it.changes w.ctx.cfg.clock with
    | true => simp [select, clockedMarks, change]
    | false =>
      cases edge : w.ctx.kctx.clockEdge with
      | none => simp [select, clockedMarks, change, edge]
      | some e =>
        simp only [select, change, edge, timedOut] at lively
        have early : ¬ e + w.ctx.cfg.timeout ≤ it.raw := by simpa using lively
        simp [select, clockedMarks, change, edge, early]

/-- The end by the select (R117). -/
theorem clockedFrame_deselected (turns : selectTurns w.ctx.cfg it = true) (idle : selectActiveOn w.ctx.cfg it = false) :
    w.clockedFrame it = w.ends w.ctx { qualified := true, since := none }
      (w.ctx.shortWord w.frame w.ctx.cfg.msbFirst 1 it.raw ++ [w.ctx.stopEvent w.frame it.raw]) [] := by
  unfold clockedFrame
  rw [clockedBit_skips (by simp [idle])]
  unfold selectTurns at turns
  cases select : w.ctx.cfg.select with
  | none => simp [select] at turns
  | some ch =>
    simp only [select] at turns
    simp [select, idle, turns, disposeWord_eq, emitStop_eq, leaveFrame_eq]

/-- The end by idle, with no select (R118). -/
theorem clockedFrame_idle (select : w.ctx.cfg.select = none) (steady : it.changes w.ctx.cfg.clock = false)
    (quiet : timedOut w.ctx.kctx.clockEdge w.ctx.cfg.timeout it.raw = true) : w.clockedFrame it =
      w.ends w.ctx { qualified := false, since := w.ctx.kctx.clockEdge }
        (w.ctx.shortWord w.frame w.ctx.cfg.msbFirst 1 it.raw ++ [w.ctx.stopEvent w.frame it.raw]) [.clockedIdleEnd w.ix] := by
  have noSampling : samplingEdgeOn w.ctx.cfg it = false := Bool.eq_false_iff.2 fun sampling => by
    rw [clock_changes_of_sampling sampling] at steady
    cases steady
  unfold clockedFrame
  rw [clockedBit_skips (by simp [noSampling])]
  cases edge : w.ctx.kctx.clockEdge with
  | none => simp [edge, timedOut] at quiet
  | some e =>
    have late : e + w.ctx.cfg.timeout ≤ it.raw := by simpa [edge, timedOut] using quiet
    simp [select, clockedMarks, steady, edge, late, disposeWord_eq, emitStop_eq, leaveFrame_eq, ends_note]

/-! ## CLOCKED HUNT (R108, R117, R118) -/

/-- A frame opens: by the select, or by a clock edge after a quiet timeout where there is no select. -/
def clockedOpens (cfg : LaneCfg) (basis : HuntBasis) (it : SampleItem) : Prop :=
  if cfg.select.isSome then selectTurns cfg it = true ∧ selectActiveOn cfg it = true
  else it.changes cfg.clock = true ∧ timedOut basis.since cfg.timeout it.raw = true

theorem active_of_clockedOpens {cfg : LaneCfg} {basis : HuntBasis} (opens : clockedOpens cfg basis it) :
    selectActiveOn cfg it = true := by
  unfold clockedOpens at opens
  split at opens
  · exact opens.2
  · next none_ =>
    unfold selectActiveOn
    rw [Option.not_isSome_iff_eq_none.1 none_]

variable (D : Nat)

theorem hunt_clocked (kind : w.ctx.cfg.kind = .clocked) :
    let basis := w.ctx.hunt.getD (entryBasis w.ctx.cfg it)
    w.hunt D it = (w.goesOn { w.ctx with hunt := some basis } []).clockedHunt basis it := by
  unfold LaneWork.hunt
  simp [withCtx_eq, kind]

theorem clockedHunt_opens {basis : HuntBasis} (opens : clockedOpens w.ctx.cfg basis it) :
    w.clockedHunt basis it = (w.openFrame it.raw).clockedBit it := by
  unfold clockedOpens selectTurns at opens
  unfold clockedHunt
  cases select : w.ctx.cfg.select with
  | some ch =>
    simp only [select, Option.isSome_some, if_true] at opens
    simp [select, opens]
  | none =>
    cases since : basis.since with
    | none => simp [select, since, timedOut] at opens
    | some q =>
      simp only [select, since, timedOut, Option.isSome_none, Bool.false_eq_true, if_false, decide_eq_true_eq] at opens
      simp [select, opens]

theorem clockedHunt_restarts {basis : HuntBasis} (opens : ¬ clockedOpens w.ctx.cfg basis it) (select : w.ctx.cfg.select = none)
    (change : it.changes w.ctx.cfg.clock = true) :
    w.clockedHunt basis it = w.goesOn { w.ctx with hunt := some { basis with since := some it.raw } } [] := by
  unfold clockedOpens at opens
  unfold clockedHunt
  cases since : basis.since with
  | none => simp [select, change, withCtx_eq]
  | some q =>
    have early : ¬ q + w.ctx.cfg.timeout ≤ it.raw := by simpa [select, change, since, timedOut] using opens
    simp [select, change, withCtx_eq, early]

theorem clockedHunt_waits {basis : HuntBasis} (opens : ¬ clockedOpens w.ctx.cfg basis it)
    (still : w.ctx.cfg.select ≠ none ∨ it.changes w.ctx.cfg.clock = false) : w.clockedHunt basis it = w := by
  unfold clockedOpens selectTurns at opens
  unfold clockedHunt
  cases select : w.ctx.cfg.select with
  | some ch =>
    simp only [select, Option.isSome_some, if_true] at opens
    simp only [select]
    exact if_neg (by simpa using opens)
  | none =>
    have steady : it.changes w.ctx.cfg.clock = false := still.resolve_left (not_not_intro select)
    simp [select, steady]

/-- The bits of the sample on which a CLOCKED frame opens (R117). -/
theorem openFrame_clockedBit (active : selectActiveOn w.ctx.cfg it = true) (words : 2 ≤ w.ctx.cfg.wordSize) :
    (w.openFrame it.raw).clockedBit it =
      w.opens (if samplingEdgeOn w.ctx.cfg it then
          (w.ctx.opened (clockedMarks w.ctx.cfg it .cleared)).withBit (it.level w.ctx.cfg.data) it.raw
        else w.ctx.opened (clockedMarks w.ctx.cfg it .cleared)) it.raw := by
  by_cases sampling : samplingEdgeOn w.ctx.cfg it = true
  · have short : (w.openFrame it.raw).ctx.bits.length + 1 ≠ (w.openFrame it.raw).ctx.cfg.wordSize := by
      show 0 + 1 ≠ w.ctx.cfg.wordSize
      omega
    rw [clockedBit_takes (w := w.openFrame it.raw) sampling active short, if_pos sampling, openFrame_eq, opens_goesOn]
    rfl
  · rw [clockedBit_skips (w := w.openFrame it.raw) fun both => sampling both.1, if_neg sampling, openFrame_eq, opens_goesOn]
    rfl

/-! ## The frame by the lane's kind -/

theorem inside_twoWire (kind : w.ctx.cfg.kind = .twoWire) : w.inside D it = w.twoWireFrame it := by
  unfold LaneWork.inside
  rw [kind]

theorem inside_clocked (kind : w.ctx.cfg.kind = .clocked) : w.inside D it = w.clockedFrame it := by
  unfold LaneWork.inside
  rw [kind]

end LaneWork

theorem LaneState.inside_of_frame {st : LaneState} (h : st = .inFrame ∨ st = .draining) : st.inside = true := by
  obtain rfl | rfl := h <;> rfl

/-- Settles O57: each clause by the case of the frame or of the hunt that it tells. -/
theorem twoWireAndClockedFrames : Obligations.TwoWireAndClockedFrames := by
  intro i x c D it hx hp
  dsimp only
  refine ⟨fun kind => ?_, fun kind => ?_⟩
  · have goes {c' out} (on : x.goesOn c it.raw = true) (limit : c'.drainLimit = c.drainLimit)
        (frame : (x.work i c).twoWireFrame it = (x.work i c).goesOn c' out) :
        laneHandle i x D it = ({ x with ctx := some c' }, out, []) :=
      laneHandle_goesOn i hx hp on limit ((LaneWork.inside_twoWire D kind).trans frame)
    have ends {basis out came} (inside : x.state = .inFrame ∨ x.state = .draining)
        (frame : (x.work i c).twoWireFrame it = (x.work i c).ends c basis out came) :
        laneHandle i x D it = ({ x with state := x.state.afterFrame, ctx := some (c.leftFrame x.state basis) }, out, came) :=
      laneHandle_ends i hx hp inside ((LaneWork.inside_twoWire D kind).trans frame)
    have state := fun h => LaneState.inside_of_frame (st := (x.work i c).state) h
    refine ⟨fun on rise fewer => goes on rfl (LaneWork.twoWireFrame_takesBit rise (Nat.ne_of_lt fewer)),
      fun on rise full addr => goes on rfl (LaneWork.twoWireFrame_address rise full addr),
      fun on rise full data => goes on rfl (LaneWork.twoWireFrame_data rise full data),
      fun on change noRise => goes on rfl (LaneWork.twoWireFrame_clockFalls change noRise),
      fun on ⟨falls, steady, high⟩ lively =>
        goes on rfl (LaneWork.twoWireFrame_startsAgain (by simpa using steady) (by simpa using lively) falls high),
      fun inside ⟨falls, steady, high⟩ quiet =>
        ends inside (LaneWork.twoWireFrame_startsAgain_stalls (by simpa using steady) (state inside) quiet falls high),
      fun inside ⟨rises, steady, high⟩ noFall =>
        ends inside (LaneWork.twoWireFrame_stops (by simpa using steady) (by simpa [steady, high] using noFall) rises high),
      fun inside steady noFall noRise quiet =>
        ends inside (LaneWork.twoWireFrame_stalls (by simpa using steady) (state inside) quiet (by simpa [steady] using noFall)
          (by simpa [steady] using noRise)),
      fun on steady noFall noRise lively => ?_⟩
    · exact laneHandle_rests i hx hp on ((LaneWork.inside_twoWire D kind).trans (LaneWork.twoWireFrame_waits (by simpa using steady)
        (by simpa using lively) (by simpa [steady] using noFall) (by simpa [steady] using noRise)))
  · have goes {c' : LaneCtx} {out} (on : x.goesOn c it.raw = true) (limit : c'.drainLimit = c.drainLimit)
        (lively : ¬ (x.work i c).clockedEnds it)
        (bit : (x.work i c).clockedBit it = (x.work i c).goesOn (c'.withKctx (LaneWork.clockedMarks c.cfg it c.kctx)) out) :
        laneHandle i x D it = ({ x with ctx := some (c'.withKctx (LaneWork.clockedMarks c.cfg it c.kctx)) }, out, []) :=
      laneHandle_goesOn i hx hp on limit ((LaneWork.inside_clocked D kind).trans (LaneWork.clockedFrame_goesOn lively bit))
    have sampled : samplingEdgeOn c.cfg it = true → selectActiveOn c.cfg it = true → ¬ (x.work i c).clockedEnds it :=
      LaneWork.not_clockedEnds_of_sampling (w := x.work i c)
    have ends {basis out came} (inside : x.state = .inFrame ∨ x.state = .draining)
        (frame : (x.work i c).clockedFrame it = (x.work i c).ends c basis out came) :
        laneHandle i x D it = ({ x with state := x.state.afterFrame, ctx := some (c.leftFrame x.state basis) }, out, came) :=
      laneHandle_ends i hx hp inside ((LaneWork.inside_clocked D kind).trans frame)
    have entry : entryBasis c.cfg it = { qualified := false, since := if c.cfg.select.isSome then none else some it.raw } := by
      unfold entryBasis
      rw [kind]
    have hunts := LaneWork.hunt_clocked (w := x.work i c) (it := it) D kind
    rw [Lane.work_ctx] at hunts
    rw [← entry]
    refine ⟨fun on sampling active short => goes on rfl (sampled sampling active) (LaneWork.clockedBit_takes sampling active short),
      fun on sampling active full => goes on rfl (sampled sampling active) (LaneWork.clockedBit_completes sampling active full),
      fun inside turns idle => ends inside (LaneWork.clockedFrame_deselected turns idle),
      fun inside select steady quiet => ends inside (LaneWork.clockedFrame_idle select (by simpa using steady) quiet),
      fun on skips selected lively => goes on rfl ?_ (LaneWork.clockedBit_skips skips),
      fun hunt => ⟨fun (opens : LaneWork.clockedOpens c.cfg (c.hunt.getD (entryBasis c.cfg it)) it) words => ?_,
        fun (opens : ¬ LaneWork.clockedOpens c.cfg (c.hunt.getD (entryBasis c.cfg it)) it) select change => ?_,
        fun opens still => ?_⟩⟩
    · rintro (ended | ended)
      · exact selected ended
      · exact lively (by simpa using ended)
    · refine laneHandle_opens i hx hp hunt ?_
      rw [hunts, LaneWork.clockedHunt_opens (by exact opens), LaneWork.openFrame_clockedBit (LaneWork.active_of_clockedOpens opens) words,
        LaneWork.goesOn_opens]
      rfl
    · refine laneHandle_hunts i hx hp hunt ?_
      rw [hunts, LaneWork.clockedHunt_restarts (by exact opens) select change]
      simp
    · refine laneHandle_hunts i hx hp hunt ?_
      rw [hunts]
      exact LaneWork.clockedHunt_waits opens (by simpa using still)

end Sys2Proof.Machine
end

section
/-! SUPPORT. What a sample does to the frame and to the hunt of an ASYNC or a BIPHASE lane, case by case (R108, R119 to R122), with the
proof of the statement (O58). -/

namespace Sys2Proof.Machine

open Sys2Proof

namespace LaneWork

variable {w : LaneWork} {D : Nat} {it : SampleItem}

/-! ## ASYNC: a character in progress, or none (R119, R120) -/

/-- A sample in an ASYNC frame before the idle end is judged (log 25). -/
def asyncStep (w : LaneWork) (D : Nat) (it : SampleItem) : LaneWork :=
  match w.ctx.kctx.char with
  | some ch => w.asyncRead ch D it
  | none => w.asyncGap it

/-- The line has been idle for the idle timeout, with no character in progress (R120). -/
def asyncEnds (cfg : LaneCfg) (k : KindCtx) (it : SampleItem) : Bool :=
  k.char.isNone && atIdle cfg it && !k.waitIdle && timedOut k.idleSince cfg.timeout it.raw

theorem asyncFrame_eq (w : LaneWork) (D : Nat) (it : SampleItem) : w.asyncFrame D it =
    if asyncEnds w.ctx.cfg (w.asyncStep D it).ctx.kctx it then
      (((w.asyncStep D it).emitStop it.raw).leaveFrame { qualified := true, since := none }).note
        (.asyncIdleEnd (w.asyncStep D it).ix)
    else w.asyncStep D it := by
  unfold asyncFrame
  extract_lets cfg v
  rw [show w.asyncStep D it = v from rfl]
  clear_value v
  unfold asyncEnds
  cases v.ctx.kctx.char with
  | some ch => rfl
  | none =>
    cases v.ctx.kctx.idleSince with
    | none => simp [timedOut]
    | some q => simp [timedOut, cfg]

section Frame

variable {c : LaneCtx} {out : List Emission} (step : w.asyncStep D it = w.goesOn c out)

include step

theorem asyncFrame_goesOn (lively : ¬ asyncEnds w.ctx.cfg c.kctx it = true) : w.asyncFrame D it = w.goesOn c out := by
  rw [asyncFrame_eq, step]
  exact if_neg lively

theorem asyncFrame_ends (idle : asyncEnds w.ctx.cfg c.kctx it = true) : w.asyncFrame D it =
    w.ends c { qualified := true, since := none } (out ++ [c.stopEvent w.frame it.raw]) [.asyncIdleEnd w.ix] := by
  rw [asyncFrame_eq, step, if_pos (by exact idle)]
  simp [emitStop_eq, leaveFrame_eq, ends_note]

end Frame

/-! ### No character in progress (R119, R120) -/

section Gap

variable (free : w.ctx.kctx.char = none)

include free

theorem asyncStep_begins (change : it.changes w.ctx.cfg.data = true) (active : atIdle w.ctx.cfg it = false)
    (ready : w.ctx.kctx.waitIdle = false) :
    w.asyncStep D it = w.goesOn (w.ctx.withKctx { w.ctx.kctx with char := some (newChar it) }) [] := by
  unfold asyncStep asyncGap
  simp [free, change, active, ready, withKind_eq]

theorem asyncStep_settles (change : it.changes w.ctx.cfg.data = true) (idle : atIdle w.ctx.cfg it = true)
    (waits : w.ctx.kctx.waitIdle = true) :
    w.asyncStep D it = w.goesOn (w.ctx.withKctx { w.ctx.kctx with waitIdle := false, idleSince := some it.raw }) [] := by
  unfold asyncStep asyncGap
  simp [free, change, idle, waits, withKind_eq]

theorem asyncStep_rests (nothing : ¬ (it.changes w.ctx.cfg.data = true ∧ atIdle w.ctx.cfg it = w.ctx.kctx.waitIdle)) :
    w.asyncStep D it = w := by
  unfold asyncStep asyncGap
  simp only [free]
  rw [if_neg, if_neg]
  · rintro both
    exact nothing (by simp_all)
  · rintro both
    exact nothing (by simp_all)

end Gap

/-! ### A character in progress (R119, R120) -/

/-- The character in progress after a sample on which its line may return to idle (R120). -/
def heard (cfg : LaneCfg) (ch : AsyncChar) (it : SampleItem) : AsyncChar :=
  { ch with returned := if it.changes cfg.data && atIdle cfg it then some it.raw else ch.returned }

/-- PARITY_BAD and FRAMING_BAD of a character with all its bits (R120). -/
def charAttrs (cfg : LaneCfg) (bits : List Bool) : BitVec 8 :=
  attrIf (!parityOk cfg.parity (bits.take (cfg.dataBits + if cfg.parity = .none then 0 else 1))) attrParityBad |||
    attrIf (!(bits.drop (cfg.dataBits + if cfg.parity = .none then 0 else 1)).all fun b => b == cfg.idleHigh) attrFramingBad

theorem asyncComplete_eq (w : LaneWork) (ch : AsyncChar) (it : SampleItem) : w.asyncComplete ch it =
    w.goesOn (w.ctx.afterWord.withKctx (if atIdle w.ctx.cfg it then { w.ctx.kctx with char := none, idleSince := some it.raw }
        else { w.ctx.kctx with char := none, waitIdle := true }))
      (w.ctx.wordEvents w.frame .word (bitsValue w.ctx.cfg.msbFirst (ch.bits.take w.ctx.cfg.dataBits))
        (charAttrs w.ctx.cfg ch.bits) ch.start it.raw) := by
  unfold asyncComplete charAttrs
  dsimp only
  rw [completeWord_eq]
  split
  · simp [withKind_eq]
  · simp [withKind_eq]

theorem asyncRead_eq (w : LaneWork) (ch : AsyncChar) (D : Nat) (it : SampleItem) : w.asyncRead ch D it =
    (let cfg := w.ctx.cfg
     let ch := heard cfg ch it
     if readsBit ch.start cfg.bitPeriod D ch.next it.raw then
       if ch.next = 0 then
         if atIdle cfg it then w.withKind fun k => { k with char := none, idleSince := some (ch.returned.getD it.raw) }
         else w.withKind fun k => { k with char := some { ch with next := 1 } }
       else
         let ch := { ch with bits := ch.bits ++ [it.level cfg.data], next := ch.next + 1 }
         if ch.next = asyncBits cfg then w.asyncComplete ch it
         else w.withKind fun k => { k with char := some ch }
     else w.withKind fun k => { k with char := some ch }) := by
  have returned : (if it.changes w.ctx.cfg.data && atIdle w.ctx.cfg it then { ch with returned := some it.raw } else ch) =
      heard w.ctx.cfg ch it := by
    unfold heard
    split <;> rfl
  unfold asyncRead
  dsimp only
  rw [returned]

section Char

variable {ch : AsyncChar} (busy : w.ctx.kctx.char = some ch)

include busy

theorem asyncStep_between (unread : ¬ readsBit ch.start w.ctx.cfg.bitPeriod D ch.next it.raw = true) :
    w.asyncStep D it = w.goesOn (w.ctx.withKctx { w.ctx.kctx with char := some (heard w.ctx.cfg ch it) }) [] := by
  unfold asyncStep
  simp only [busy, asyncRead_eq]
  rw [if_neg (by exact unread), withKind_eq]

variable (reads : readsBit ch.start w.ctx.cfg.bitPeriod D ch.next it.raw = true)

include reads

theorem asyncStep_startBit (first : ch.next = 0) (active : atIdle w.ctx.cfg it = false) : w.asyncStep D it =
    w.goesOn (w.ctx.withKctx { w.ctx.kctx with char := some { heard w.ctx.cfg ch it with next := 1 } }) [] := by
  unfold asyncStep
  simp only [busy, asyncRead_eq]
  rw [if_pos (by exact reads), if_pos (by exact first), if_neg (by simp [active]), withKind_eq]

/-- A false start (R120). -/
theorem asyncStep_falseStart (first : ch.next = 0) (idle : atIdle w.ctx.cfg it = true) : w.asyncStep D it =
    w.goesOn (w.ctx.withKctx { w.ctx.kctx with
      char := none, idleSince := some ((heard w.ctx.cfg ch it).returned.getD it.raw) }) [] := by
  unfold asyncStep
  simp only [busy, asyncRead_eq]
  rw [if_pos (by exact reads), if_pos (by exact first), if_pos idle, withKind_eq]

theorem asyncStep_bit (later : ch.next ≠ 0) (more : ch.next + 1 ≠ asyncBits w.ctx.cfg) : w.asyncStep D it =
    w.goesOn (w.ctx.withKctx { w.ctx.kctx with char := some { heard w.ctx.cfg ch it with
      bits := ch.bits ++ [it.level w.ctx.cfg.data], next := ch.next + 1 } }) [] := by
  unfold asyncStep
  simp only [busy, asyncRead_eq]
  rw [if_pos (by exact reads), if_neg (by exact later), if_neg (by exact more), withKind_eq]
  rfl

/-- The last stop bit ends the character (R120). -/
theorem asyncStep_word (later : ch.next ≠ 0) (last : ch.next + 1 = asyncBits w.ctx.cfg) : w.asyncStep D it =
    w.goesOn (w.ctx.afterWord.withKctx (if atIdle w.ctx.cfg it then { w.ctx.kctx with char := none, idleSince := some it.raw }
        else { w.ctx.kctx with char := none, waitIdle := true }))
      (w.ctx.wordEvents w.frame .word
        (bitsValue w.ctx.cfg.msbFirst ((ch.bits ++ [it.level w.ctx.cfg.data]).take w.ctx.cfg.dataBits))
        (charAttrs w.ctx.cfg (ch.bits ++ [it.level w.ctx.cfg.data])) ch.start it.raw) := by
  unfold asyncStep
  simp only [busy, asyncRead_eq]
  rw [if_pos (by exact reads), if_neg (by exact later), if_pos (by exact last)]
  exact asyncComplete_eq w _ it

end Char

/-! ## ASYNC HUNT (R108, R119) -/

/-- The hunt basis after a sample on which the line may return to idle (R108). -/
def heardBasis (cfg : LaneCfg) (basis : HuntBasis) (it : SampleItem) : HuntBasis :=
  if it.changes cfg.data && atIdle cfg it then { basis with since := some it.raw } else basis

/-- The idle that must come before a start bit (R119). -/
def readyForChar (cfg : LaneCfg) (basis : HuntBasis) (raw : Nat) : Bool :=
  basis.qualified || timedOut basis.since (asyncBits cfg * cfg.bitPeriod) raw

section AsyncHunt

variable {basis : HuntBasis} (kind : w.ctx.cfg.kind = .async) (entry : w.ctx.hunt.getD (entryBasis w.ctx.cfg it) = basis)

include kind entry

theorem hunt_async : w.hunt D it = (w.goesOn { w.ctx with hunt := some basis } []).asyncHunt basis D it := by
  unfold LaneWork.hunt
  simp [withCtx_eq, kind, entry]

/-- With no character in progress a start bit may begin (R119). -/
theorem hunt_async_free (free : w.ctx.kctx.char = none) : w.hunt D it =
    if it.changes w.ctx.cfg.data && !atIdle w.ctx.cfg it && readyForChar w.ctx.cfg (heardBasis w.ctx.cfg basis it) it.raw then
      w.goesOn { w.ctx with
        hunt := some (heardBasis w.ctx.cfg basis it), kctx := { w.ctx.kctx with char := some (newChar it) } } []
    else w.goesOn { w.ctx with hunt := some (heardBasis w.ctx.cfg basis it) } [] := by
  rw [hunt_async kind entry]
  unfold asyncHunt readyForChar heardBasis
  cases change : it.changes w.ctx.cfg.data with
  | false => simp [free, change]
  | true =>
    cases idle : atIdle w.ctx.cfg it with
    | true => simp [free, change, idle, withCtx_eq]
    | false =>
      simp [free, change, idle, withKind_eq, LaneCtx.withKctx]
      rfl

/-- With a character in progress its start bit is read, and is a false start or opens the frame (R119). -/
theorem hunt_async_busy {ch : AsyncChar} (busy : w.ctx.kctx.char = some ch) : w.hunt D it =
    if readsBit ch.start w.ctx.cfg.bitPeriod D 0 it.raw then
      if atIdle w.ctx.cfg it then
        w.goesOn { w.ctx with hunt := some (heardBasis w.ctx.cfg basis it), kctx := { w.ctx.kctx with char := none } } []
      else w.opens (w.ctx.opened { KindCtx.cleared with char := some { ch with next := 1 } }) ch.start
    else w.goesOn { w.ctx with hunt := some (heardBasis w.ctx.cfg basis it) } [] := by
  have basisHeard : (if it.changes w.ctx.cfg.data && atIdle w.ctx.cfg it then
        (w.goesOn { w.ctx with hunt := some basis } []).withCtx fun c => { c with hunt := some { basis with since := some it.raw } }
      else w.goesOn { w.ctx with hunt := some basis } []) = w.goesOn { w.ctx with hunt := some (heardBasis w.ctx.cfg basis it) } [] := by
    unfold heardBasis
    split
    · simp [withCtx_eq]
    · rfl
  rw [hunt_async kind entry]
  unfold asyncHunt
  dsimp only [goesOn_ctx]
  rw [basisHeard]
  simp only [goesOn_ctx, busy, withKind_eq, openFrame_eq, goesOn_goesOn, goesOn_opens, opens_goesOn, opens_ctx, List.append_nil]
  rfl

end AsyncHunt

/-! ## BIPHASE (R121, R122) -/

theorem biphaseBit_eq (w : LaneWork) (b : Bool) (cell t : Nat) : w.biphaseBit b cell t =
    if w.ctx.bits.length + 1 = w.ctx.cfg.wordSize then
      w.goesOn w.ctx.afterWord
        (w.ctx.wordEvents w.frame .word (bitsValue w.ctx.cfg.msbFirst (w.ctx.bits ++ [b])) 0 (w.ctx.firstBit cell) t)
    else w.goesOn (w.ctx.withBit b cell) [] := by
  unfold biphaseBit
  simp [takeBit_eq, completeWord_eq]

section Interval

variable {r : Nat} (reference : w.ctx.kctx.reference = some r)

include reference

section Transition

variable (change : it.changes w.ctx.cfg.data = true)

include change

/-- A long interval is a bit 0 whose cell starts at its beginning (R121). -/
theorem biphaseFrame_long (long : biphaseClass w.ctx.cfg.halfCell (it.raw - r) = some true) (fresh : w.ctx.kctx.shortStart = none) :
    w.biphaseFrame it =
      (w.goesOn (w.ctx.withKctx { w.ctx.kctx with reference := some it.raw }) []).biphaseBit false r it.raw := by
  unfold biphaseFrame
  simp [reference, change, long, fresh, withKind_eq]

/-- The first of two short intervals (R121). -/
theorem biphaseFrame_firstShort (short : biphaseClass w.ctx.cfg.halfCell (it.raw - r) = some false)
    (fresh : w.ctx.kctx.shortStart = none) : w.biphaseFrame it =
      w.goesOn (w.ctx.withKctx { w.ctx.kctx with reference := some it.raw, shortStart := some r }) [] := by
  unfold biphaseFrame
  simp [reference, change, short, fresh, withKind_eq]

/-- The second of two short intervals is a bit 1 (R121). -/
theorem biphaseFrame_secondShort {cell : Nat} (short : biphaseClass w.ctx.cfg.halfCell (it.raw - r) = some false)
    (half : w.ctx.kctx.shortStart = some cell) : w.biphaseFrame it =
      (w.goesOn (w.ctx.withKctx { w.ctx.kctx with reference := some it.raw, shortStart := none }) []).biphaseBit true cell it.raw := by
  unfold biphaseFrame
  simp [reference, change, short, half, withKind_eq]

/-- Any other interval is a CELL error (R122). -/
theorem biphaseFrame_cell (bad : biphaseClass w.ctx.cfg.halfCell (it.raw - r) = none ∨
      (biphaseClass w.ctx.cfg.halfCell (it.raw - r) = some true ∧ w.ctx.kctx.shortStart ≠ none)) : w.biphaseFrame it =
    w.ends w.ctx { qualified := false, since := some it.raw }
      [w.ctx.plainEvent w.frame .error 0 (some .cell) it.raw, w.ctx.stopEvent w.frame it.raw] [] := by
  have error (v : LaneWork) (t : Nat) : v.biphaseError t = v.ends v.ctx { qualified := false, since := some t }
      [v.ctx.plainEvent v.frame .error 0 (some .cell) t, v.ctx.stopEvent v.frame t] [] := by
    unfold biphaseError
    rw [emit_eq, withCtx_eq, emitStop_eq, leaveFrame_eq]
    simp [LaneCtx.plainEvent]
    rfl
  unfold biphaseFrame
  obtain none_ | ⟨long, half⟩ := bad
  · simp [reference, change, none_, withKind_eq, error]
    rfl
  · obtain ⟨cell, half⟩ := Option.ne_none_iff_exists'.1 half
    simp [reference, change, long, half, withKind_eq, error]
    rfl

end Transition

section Quiet

variable (steady : ¬ it.changes w.ctx.cfg.data = true)

include steady

/-- The idle end (R122). -/
theorem biphaseFrame_idle (quiet : r + w.ctx.cfg.timeout ≤ it.raw) : w.biphaseFrame it =
    w.ends w.ctx { qualified := false, since := some r }
      (w.ctx.shortWord w.frame w.ctx.cfg.msbFirst 1 it.raw ++ [w.ctx.stopEvent w.frame it.raw]) [.biphaseIdleEnd w.ix] := by
  unfold biphaseFrame
  simp [reference, steady, quiet, disposeWord_eq, emitStop_eq, leaveFrame_eq, ends_note]

theorem biphaseFrame_waits (lively : it.raw < r + w.ctx.cfg.timeout) : w.biphaseFrame it = w := by
  unfold biphaseFrame
  simp [reference, steady, Nat.not_le.2 lively]

end Quiet

end Interval

theorem biphaseFrame_unreferenced (free : w.ctx.kctx.reference = none) : w.biphaseFrame it = w := by
  unfold biphaseFrame
  simp [free]

/-! ## BIPHASE HUNT (R108, R121) -/

theorem hunt_biphase {basis : HuntBasis} (kind : w.ctx.cfg.kind = .biphase)
    (entry : w.ctx.hunt.getD (entryBasis w.ctx.cfg it) = basis) : w.hunt D it =
      if it.changes w.ctx.cfg.data then
        if timedOut basis.since w.ctx.cfg.timeout it.raw then
          w.opens (w.ctx.opened { KindCtx.cleared with reference := some it.raw }) it.raw
        else w.goesOn { w.ctx with hunt := some { basis with since := some it.raw } } []
      else w.goesOn { w.ctx with hunt := some basis } [] := by
  unfold LaneWork.hunt biphaseHunt
  simp only [withCtx_eq, kind, entry, goesOn_ctx]
  cases since : basis.since with
  | none => simp [timedOut]
  | some q =>
    simp [timedOut, openFrame_eq, withKind_eq, LaneCtx.withKctx, LaneCtx.opened]

/-! ## The frame by the lane's kind -/

theorem inside_async (kind : w.ctx.cfg.kind = .async) : w.inside D it = w.asyncFrame D it := by
  unfold LaneWork.inside
  rw [kind]

theorem inside_biphase (kind : w.ctx.cfg.kind = .biphase) : w.inside D it = w.biphaseFrame it := by
  unfold LaneWork.inside
  rw [kind]

end LaneWork

theorem atIdle_iff {cfg : LaneCfg} {it : SampleItem} : atIdle cfg it = true ↔ it.level cfg.data = cfg.idleHigh := beq_iff_eq

theorem atIdle_eq_false_iff {cfg : LaneCfg} {it : SampleItem} : atIdle cfg it = false ↔ ¬ it.level cfg.data = cfg.idleHigh :=
  beq_eq_false_iff_ne

theorem asyncEnds_iff {cfg : LaneCfg} {k : KindCtx} {it : SampleItem} : LaneWork.asyncEnds cfg k it = true ↔
    k.char = none ∧ it.level cfg.data = cfg.idleHigh ∧ k.waitIdle = false ∧ timedOut k.idleSince cfg.timeout it.raw = true := by
  simp [LaneWork.asyncEnds, atIdle_iff, and_assoc]

/-- A line that has just come to idle has not been idle for a timeout of one nanosecond or more. -/
theorem not_asyncEnds_of_now {cfg : LaneCfg} {k : KindCtx} {it : SampleItem} (now : k.idleSince = some it.raw)
    (timeout : 1 ≤ cfg.timeout) : ¬ LaneWork.asyncEnds cfg k it = true := fun h => by
  obtain ⟨-, -, -, quiet⟩ := asyncEnds_iff.1 h
  rw [now] at quiet
  have := of_decide_eq_true quiet
  omega

/-- The attributes of a character by the count of its high bits and the level of its stop bits (R120). -/
theorem charAttrs_eq (cfg : LaneCfg) (bits : List Bool) : LaneWork.charAttrs cfg bits =
    (let length := asyncBits cfg - 1 - cfg.stopBits
     let ones := ((bits.take length).filter fun b => b).length
     let bad := match cfg.parity with | .none => false | .even => ones % 2 == 1 | .odd => ones % 2 == 0
     (if bad then 0x20 else 0) ||| if ((bits.drop length).any fun b => b != cfg.idleHigh) then 0x40 else 0) := by
  have length : asyncBits cfg - 1 - cfg.stopBits = cfg.dataBits + if cfg.parity = .none then 0 else 1 := by
    unfold asyncBits
    omega
  have parity (word : List Bool) : (!parityOk cfg.parity word) = (match cfg.parity with
      | .none => false
      | .even => (word.filter fun b => b).length % 2 == 1
      | .odd => (word.filter fun b => b).length % 2 == 0) := by
    unfold parityOk
    have same : word.filter id = word.filter fun b => b := rfl
    rw [same]
    cases cfg.parity with
    | none => rfl
    | even => obtain even | odd := Nat.mod_two_eq_zero_or_one (word.filter fun b => b).length <;> simp [*]
    | odd => obtain even | odd := Nat.mod_two_eq_zero_or_one (word.filter fun b => b).length <;> simp [*]
  unfold LaneWork.charAttrs
  dsimp only
  rw [length, parity, List.not_all_eq_any_not]
  rfl

theorem biphaseClass_short {h v : Nat} (short : h ≤ 2 * v ∧ 2 * v < 3 * h) : biphaseClass h v = some false := if_pos short

theorem biphaseClass_long {h v : Nat} (long : 3 * h ≤ 2 * v ∧ 2 * v < 5 * h) : biphaseClass h v = some true :=
  (if_neg (by omega)).trans (if_pos long)

theorem biphaseClass_other {h v : Nat} (notShort : ¬ (h ≤ 2 * v ∧ 2 * v < 3 * h)) (notLong : ¬ (3 * h ≤ 2 * v ∧ 2 * v < 5 * h)) :
    biphaseClass h v = none := (if_neg notShort).trans (if_neg notLong)

/-- Settles O58: each clause by the case of the frame or of the hunt that it tells. -/
theorem asyncAndBiphaseFrames : Obligations.AsyncAndBiphaseFrames := by
  intro i x c D it hx hp
  dsimp only
  refine ⟨fun kind => ?_, fun kind => ?_⟩
  · have goes {c' out} (on : x.goesOn c it.raw = true) (limit : c'.drainLimit = c.drainLimit)
        (step : (x.work i c).asyncStep D it = (x.work i c).goesOn c' out) (lively : ¬ LaneWork.asyncEnds c.cfg c'.kctx it = true) :
        laneHandle i x D it = ({ x with ctx := some c' }, out, []) :=
      laneHandle_goesOn i hx hp on limit ((LaneWork.inside_async kind).trans (LaneWork.asyncFrame_goesOn step lively))
    have ends {c' out} (inside : x.state = .inFrame ∨ x.state = .draining)
        (step : (x.work i c).asyncStep D it = (x.work i c).goesOn c' out) (idle : LaneWork.asyncEnds c.cfg c'.kctx it = true) :
        laneHandle i x D it = ({ x with
          state := x.state.afterFrame, ctx := some (c'.leftFrame x.state { qualified := true, since := none }) },
          out ++ [c'.stopEvent x.frame it.raw], [.asyncIdleEnd i]) :=
      laneHandle_ends i hx hp inside ((LaneWork.inside_async kind).trans (LaneWork.asyncFrame_ends step idle))
    have busyLine {k : KindCtx} {ch : AsyncChar} (busy : k.char = some ch) : ¬ LaneWork.asyncEnds c.cfg k it = true := fun h => by
      rw [(asyncEnds_iff.1 h).1] at busy
      cases busy
    have entry : c.hunt.getD (entryBasis c.cfg it) =
        c.hunt.getD { qualified := false, since := if it.level c.cfg.data == c.cfg.idleHigh then some it.raw else none } := by
      unfold entryBasis
      rw [kind]
      rfl
    refine ⟨fun free => ⟨fun on change active ready => ?_, fun on change idle waits timeout => ?_, fun inside ⟨idle, ready, quiet⟩ => ?_,
      fun on lively nothing => ?_⟩, fun ch busy inside => ⟨fun on unread => ?_, fun on reads first active => ?_,
        fun on reads first idle lively => ?_, fun reads first idle quiet ready => ?_, fun on reads later more => ?_,
        fun on reads later last timeout => ?_⟩, fun hunt => ⟨fun free change active ready => ?_,
        fun free nothing => ?_, fun ch busy => ⟨fun unread => ?_, fun reads idle => ?_, fun reads active => ?_⟩⟩⟩
    · exact goes on rfl (LaneWork.asyncStep_begins free change (atIdle_eq_false_iff.2 active) ready) (busyLine rfl)
    · exact goes on rfl (LaneWork.asyncStep_settles free change (atIdle_iff.2 idle) waits) (not_asyncEnds_of_now rfl timeout)
    · have rests := LaneWork.asyncStep_rests (w := x.work i c) (D := D) (it := it) free
        (by rintro ⟨-, same⟩; simp [atIdle_iff.2 idle, ready] at same)
      exact ends inside (rests.trans (x.work i c).goesOn_self.symm) (asyncEnds_iff.2 ⟨free, idle, ready, quiet⟩)
    · have rests := LaneWork.asyncStep_rests (w := x.work i c) (D := D) (it := it) free (by
        rintro ⟨change, same⟩
        refine nothing ⟨change, ?_⟩
        rw [← atIdle_eq_false_iff, show atIdle c.cfg it = c.kctx.waitIdle from same])
      refine laneHandle_rests i hx hp on ((LaneWork.inside_async kind).trans ?_)
      rw [LaneWork.asyncFrame_goesOn (rests.trans (x.work i c).goesOn_self.symm)
        fun ended => lively (asyncEnds_iff.1 ended).2]
      exact (x.work i c).goesOn_self
    · exact goes on rfl (LaneWork.asyncStep_between busy (mt of_decide_eq_true unread)) (busyLine rfl)
    · exact goes on rfl (LaneWork.asyncStep_startBit busy (decide_eq_true reads) first (atIdle_eq_false_iff.2 active)) (busyLine rfl)
    · refine goes on rfl (LaneWork.asyncStep_falseStart busy (decide_eq_true reads) first (atIdle_iff.2 idle)) fun ended => ?_
      obtain ⟨-, -, ready, quiet⟩ := asyncEnds_iff.1 ended
      obtain early | waits := lively
      · exact Nat.not_le.2 early (of_decide_eq_true quiet)
      · exact absurd (ready.symm.trans waits) nofun
    · exact ends inside (LaneWork.asyncStep_falseStart busy (decide_eq_true reads) first (atIdle_iff.2 idle))
        (asyncEnds_iff.2 ⟨rfl, idle, ready, decide_eq_true quiet⟩)
    · exact goes on rfl (LaneWork.asyncStep_bit busy (decide_eq_true reads) (Nat.ne_of_gt later) more) (busyLine rfl)
    · have step := LaneWork.asyncStep_word (w := x.work i c) busy (decide_eq_true reads) (Nat.ne_of_gt later) last
      rw [charAttrs_eq] at step
      refine goes on rfl step fun ended => ?_
      by_cases idle : atIdle c.cfg it = true
      · refine not_asyncEnds_of_now ?_ timeout ended
        exact congrArg KindCtx.idleSince (if_pos idle)
      · exact idle (atIdle_iff.2 (asyncEnds_iff.1 ended).2.1)
    · refine laneHandle_hunts i hx hp hunt ((LaneWork.hunt_async_free kind entry free).trans (if_pos ?_))
      have inactive : (!atIdle c.cfg it) = true := by
        rw [atIdle_eq_false_iff.2 active]
        rfl
      exact Bool.and_eq_true_iff.2 ⟨Bool.and_eq_true_iff.2 ⟨change, inactive⟩, Bool.or_eq_true_iff.2 ready⟩
    · refine laneHandle_hunts i hx hp hunt ((LaneWork.hunt_async_free kind entry free).trans ((if_neg fun begins => ?_).trans ?_))
      · simp only [Bool.and_eq_true, Bool.not_eq_true', atIdle_eq_false_iff] at begins
        obtain ⟨⟨change, active⟩, ready⟩ := begins
        exact nothing ⟨change, active, Bool.or_eq_true_iff.1 ready⟩
      · have same : { c.kctx with char := none } = c.kctx := by rw [← free]
        rw [same]
        rfl
    · refine laneHandle_hunts i hx hp hunt ((LaneWork.hunt_async_busy kind entry busy).trans ((if_neg (mt of_decide_eq_true unread)).trans ?_))
      have same : { c.kctx with char := some ch } = c.kctx := by rw [← busy]
      rw [same]
      rfl
    · exact laneHandle_hunts i hx hp hunt ((LaneWork.hunt_async_busy kind entry busy).trans
        ((if_pos (decide_eq_true reads)).trans (if_pos (atIdle_iff.2 idle))))
    · exact laneHandle_opens i hx hp hunt ((LaneWork.hunt_async_busy kind entry busy).trans
        ((if_pos (decide_eq_true reads)).trans (if_neg (mt atIdle_iff.1 active))))
  · have goes {c' out} (on : x.goesOn c it.raw = true) (limit : c'.drainLimit = c.drainLimit)
        (frame : (x.work i c).biphaseFrame it = (x.work i c).goesOn c' out) :
        laneHandle i x D it = ({ x with ctx := some c' }, out, []) :=
      laneHandle_goesOn i hx hp on limit ((LaneWork.inside_biphase kind).trans frame)
    have ends {basis out came} (inside : x.state = .inFrame ∨ x.state = .draining)
        (frame : (x.work i c).biphaseFrame it = (x.work i c).ends c basis out came) :
        laneHandle i x D it = ({ x with state := x.state.afterFrame, ctx := some (c.leftFrame x.state basis) }, out, came) :=
      laneHandle_ends i hx hp inside ((LaneWork.inside_biphase kind).trans frame)
    have takes {b cell} {k : KindCtx} (on : x.goesOn c it.raw = true)
        (frame : (x.work i c).biphaseFrame it = ((x.work i c).goesOn (c.withKctx k) []).biphaseBit b cell it.raw) :
        if c.bits.length + 1 = c.cfg.wordSize then
          laneHandle i x D it = ({ x with ctx := some (c.afterWord.withKctx k) },
            c.wordEvents x.frame .word (bitsValue c.cfg.msbFirst (c.bits ++ [b])) 0 (c.firstBit cell) it.raw, [])
        else laneHandle i x D it = ({ x with ctx := some ((c.withBit b cell).withKctx k) }, [], []) := by
      rw [LaneWork.biphaseBit_eq] at frame
      split
      · next full => exact goes on rfl (frame.trans ((if_pos full).trans (by simp; rfl)))
      · next more => exact goes on rfl (frame.trans ((if_neg more).trans (by simp)))
    have entry : c.hunt.getD (entryBasis c.cfg it) = c.hunt.getD { qualified := false, since := some it.raw } := by
      unfold entryBasis
      rw [kind]
    refine ⟨fun r reference inside => ⟨fun on change long fresh => ?_, fun on change short fresh => ?_, fun cell on change short half => ?_,
      fun change notShort bad => ?_, fun steady quiet => ?_, fun on steady lively => ?_⟩,
      fun hunt => ⟨fun ⟨change, quiet⟩ => ?_, fun opens change => ?_, fun steady => ?_⟩⟩
    · exact takes on (LaneWork.biphaseFrame_long reference change (biphaseClass_long long) fresh)
    · exact goes on rfl (LaneWork.biphaseFrame_firstShort reference change (biphaseClass_short short) fresh)
    · exact takes on (LaneWork.biphaseFrame_secondShort reference change (biphaseClass_short short) half)
    · refine ends inside (LaneWork.biphaseFrame_cell reference change ?_)
      by_cases long : 3 * c.cfg.halfCell ≤ 2 * (it.raw - r) ∧ 2 * (it.raw - r) < 5 * c.cfg.halfCell
      · exact .inr ⟨biphaseClass_long long, bad.resolve_left (not_not_intro long)⟩
      · exact .inl (biphaseClass_other notShort long)
    · exact ends inside (LaneWork.biphaseFrame_idle reference steady quiet)
    · exact laneHandle_rests i hx hp on ((LaneWork.inside_biphase kind).trans (LaneWork.biphaseFrame_waits reference steady lively))
    · exact laneHandle_opens i hx hp hunt ((LaneWork.hunt_biphase kind entry).trans ((if_pos change).trans (if_pos quiet)))
    · exact laneHandle_hunts i hx hp hunt ((LaneWork.hunt_biphase kind entry).trans
        ((if_pos change).trans (if_neg fun quiet => opens ⟨change, quiet⟩)))
    · exact laneHandle_hunts i hx hp hunt ((LaneWork.hunt_biphase kind entry).trans (if_neg steady))

end Sys2Proof.Machine
end

section
/-! SUPPORT. A sample in a frame whatever the lane's kind: the frame goes on or ends, by the same rule for every drain limit, and the lane
brings about its own rows alone; with the holds and releases and the proof of their statement (R105 to R109, R123; O56). -/

namespace Sys2Proof.Machine

open Sys2Proof

/-- The lane whose row it is (log 4). -/
def Happening.lane : Happening → Option Four
  | .twoWireStall l | .clockedIdleEnd l | .asyncIdleEnd l | .biphaseIdleEnd l | .drainLimit l => some l
  | _ => none

/-- The context with another drain limit (R109). -/
def LaneCtx.withLimit (c : LaneCtx) (d : Option Nat) : LaneCtx := { c with drainLimit := d }

/-- The lane at work with another drain limit. -/
def LaneWork.withLimit (w : LaneWork) (d : Option Nat) : LaneWork := { w with ctx := w.ctx.withLimit d }

namespace LaneWork

/-- What a sample does to a frame: it goes on or it ends, and in the same way for every drain limit. -/
inductive FrameStep (F : LaneWork → LaneWork) (w : LaneWork) : Prop
  | goesOn (c : LaneCtx) (out : List Emission) (here : F w = w.goesOn c out)
      (there : ∀ d, F (w.withLimit d) = (w.withLimit d).goesOn (c.withLimit d) out)
  | ends (c : LaneCtx) (basis : HuntBasis) (out : List Emission) (came : List Happening) (own : ∀ h ∈ came, h.lane = some w.ix)
      (here : F w = w.ends c basis out came) (there : ∀ d, F (w.withLimit d) = (w.withLimit d).ends c basis out came)

variable {w : LaneWork} {D : Nat} {it : SampleItem}

theorem FrameStep.of_rests {F : LaneWork → LaneWork} (here : F w = w) (there : ∀ d, F (w.withLimit d) = w.withLimit d) :
    FrameStep F w :=
  .goesOn _ _ (here.trans w.goesOn_self.symm) fun d => (there d).trans (w.withLimit d).goesOn_self.symm

theorem own_none (i : Four) : ∀ h ∈ ([] : List Happening), h.lane = some i := nofun

theorem own_single {i : Four} {h : Happening} (lane : h.lane = some i) : ∀ k ∈ [h], k.lane = some i := fun k mem => by
  rw [List.mem_singleton.1 mem, lane]

theorem twoWireFrame_step (inside : w.state.inside = true) : FrameStep (fun v => v.twoWireFrame it) w := by
  by_cases change : it.changes w.ctx.cfg.clock = true
  · by_cases rise : it.rises w.ctx.cfg.clock = true
    · by_cases full : w.ctx.bits.length = 8
      · cases addr : w.ctx.kctx.addrNext with
        | true => exact .goesOn _ _ (twoWireFrame_address rise full addr) fun d => twoWireFrame_address (w := w.withLimit d) rise full addr
        | false => exact .goesOn _ _ (twoWireFrame_data rise full addr) fun d => twoWireFrame_data (w := w.withLimit d) rise full addr
      · exact .goesOn _ _ (twoWireFrame_takesBit rise full) fun d => twoWireFrame_takesBit (w := w.withLimit d) rise full
    · have rise := Bool.eq_false_iff.2 rise
      exact .goesOn _ _ (twoWireFrame_clockFalls change rise) fun d => twoWireFrame_clockFalls (w := w.withLimit d) change rise
  · have steady := Bool.eq_false_iff.2 change
    by_cases start : it.falls w.ctx.cfg.data = true ∧ it.level w.ctx.cfg.clock = true
    · cases quiet : timedOut w.ctx.kctx.clockEdge w.ctx.cfg.timeout it.raw with
      | true =>
        exact .ends _ _ _ _ (own_single rfl) (twoWireFrame_startsAgain_stalls steady inside quiet start.1 start.2) fun d =>
          twoWireFrame_startsAgain_stalls (w := w.withLimit d) steady inside quiet start.1 start.2
      | false =>
        exact .goesOn _ _ (twoWireFrame_startsAgain steady quiet start.1 start.2) fun d =>
          twoWireFrame_startsAgain (w := w.withLimit d) steady quiet start.1 start.2
    · by_cases stop : it.rises w.ctx.cfg.data = true ∧ it.level w.ctx.cfg.clock = true
      · have noFall : it.falls w.ctx.cfg.data = false := Bool.eq_false_iff.2 fun falls => start ⟨falls, stop.2⟩
        exact .ends _ _ _ _ (own_none _) (twoWireFrame_stops steady noFall stop.1 stop.2) fun d =>
          twoWireFrame_stops (w := w.withLimit d) steady noFall stop.1 stop.2
      · cases quiet : timedOut w.ctx.kctx.clockEdge w.ctx.cfg.timeout it.raw with
        | true =>
          exact .ends _ _ _ _ (own_single rfl) (twoWireFrame_stalls steady inside quiet start stop) fun d =>
            twoWireFrame_stalls (w := w.withLimit d) steady inside quiet start stop
        | false =>
          exact .of_rests (twoWireFrame_waits steady quiet start stop) fun d =>
            twoWireFrame_waits (w := w.withLimit d) steady quiet start stop

theorem clockedFrame_step : FrameStep (fun v => v.clockedFrame it) w := by
  by_cases ended : w.clockedEnds it
  · obtain ⟨turns, idle⟩ | ⟨select, steady, quiet⟩ := ended
    · exact .ends _ _ _ _ (own_none _) (clockedFrame_deselected turns idle) fun d =>
        clockedFrame_deselected (w := w.withLimit d) turns idle
    · exact .ends _ _ _ _ (own_single rfl) (clockedFrame_idle select steady quiet) fun d =>
        clockedFrame_idle (w := w.withLimit d) select steady quiet
  · by_cases both : samplingEdgeOn w.ctx.cfg it = true ∧ selectActiveOn w.ctx.cfg it = true
    · obtain ⟨sampling, active⟩ := both
      by_cases full : w.ctx.bits.length + 1 = w.ctx.cfg.wordSize
      · exact .goesOn _ _ (clockedFrame_goesOn ended (clockedBit_completes sampling active full)) fun d =>
          clockedFrame_goesOn (w := w.withLimit d) ended (clockedBit_completes (w := w.withLimit d) sampling active full)
      · exact .goesOn _ _ (clockedFrame_goesOn ended (clockedBit_takes sampling active full)) fun d =>
          clockedFrame_goesOn (w := w.withLimit d) ended (clockedBit_takes (w := w.withLimit d) sampling active full)
    · exact .goesOn _ _ (clockedFrame_goesOn ended (clockedBit_skips both)) fun d =>
        clockedFrame_goesOn (w := w.withLimit d) ended (clockedBit_skips (w := w.withLimit d) both)

/-- Before the idle end is judged an ASYNC frame goes on (log 25). -/
theorem asyncStep_goesOn (w : LaneWork) (D : Nat) (it : SampleItem) : ∃ c out, w.asyncStep D it = w.goesOn c out ∧
    ∀ d, (w.withLimit d).asyncStep D it = (w.withLimit d).goesOn (c.withLimit d) out := by
  cases char : w.ctx.kctx.char with
  | none =>
    by_cases moves : it.changes w.ctx.cfg.data = true ∧ atIdle w.ctx.cfg it = w.ctx.kctx.waitIdle
    · obtain ⟨change, same⟩ := moves
      cases waits : w.ctx.kctx.waitIdle with
      | true => exact ⟨_, _, asyncStep_settles char change (same.trans waits) waits, fun d =>
          asyncStep_settles (w := w.withLimit d) char change (same.trans waits) waits⟩
      | false => exact ⟨_, _, asyncStep_begins char change (same.trans waits) waits, fun d =>
          asyncStep_begins (w := w.withLimit d) char change (same.trans waits) waits⟩
    · exact ⟨_, _, (asyncStep_rests char moves).trans w.goesOn_self.symm, fun d =>
        (asyncStep_rests (w := w.withLimit d) char moves).trans (w.withLimit d).goesOn_self.symm⟩
  | some ch =>
    by_cases reads : readsBit ch.start w.ctx.cfg.bitPeriod D ch.next it.raw = true
    · by_cases first : ch.next = 0
      · cases idle : atIdle w.ctx.cfg it with
        | true => exact ⟨_, _, asyncStep_falseStart char reads first idle, fun d =>
            asyncStep_falseStart (w := w.withLimit d) char reads first idle⟩
        | false => exact ⟨_, _, asyncStep_startBit char reads first idle, fun d =>
            asyncStep_startBit (w := w.withLimit d) char reads first idle⟩
      · by_cases last : ch.next + 1 = asyncBits w.ctx.cfg
        · exact ⟨_, _, asyncStep_word char reads first last, fun d => asyncStep_word (w := w.withLimit d) char reads first last⟩
        · exact ⟨_, _, asyncStep_bit char reads first last, fun d => asyncStep_bit (w := w.withLimit d) char reads first last⟩
    · exact ⟨_, _, asyncStep_between char reads, fun d => asyncStep_between (w := w.withLimit d) char reads⟩

theorem asyncFrame_step : FrameStep (fun v => v.asyncFrame D it) w := by
  obtain ⟨c, out, here, there⟩ := asyncStep_goesOn w D it
  by_cases ended : asyncEnds w.ctx.cfg c.kctx it = true
  · exact .ends _ _ _ _ (own_single rfl) (asyncFrame_ends here ended) fun d =>
      asyncFrame_ends (c := c.withLimit d) (there d) ended
  · exact .goesOn _ _ (asyncFrame_goesOn here ended) fun d => asyncFrame_goesOn (there d) ended

theorem biphaseBit_step {F : LaneWork → LaneWork} {k : KindCtx} {b : Bool} {cell t : Nat}
    (here : F w = (w.goesOn (w.ctx.withKctx k) []).biphaseBit b cell t)
    (there : ∀ d, F (w.withLimit d) = ((w.withLimit d).goesOn ((w.withLimit d).ctx.withKctx k) []).biphaseBit b cell t) :
    FrameStep F w := by
  simp only [biphaseBit_eq, goesOn_goesOn] at here there
  by_cases full : w.ctx.bits.length + 1 = w.ctx.cfg.wordSize
  · exact .goesOn _ _ (here.trans (if_pos full)) fun d => (there d).trans (if_pos full)
  · exact .goesOn _ _ (here.trans (if_neg full)) fun d => (there d).trans (if_neg full)

theorem biphaseFrame_step : FrameStep (fun v => v.biphaseFrame it) w := by
  cases reference : w.ctx.kctx.reference with
  | none => exact .of_rests (biphaseFrame_unreferenced reference) fun d => biphaseFrame_unreferenced (w := w.withLimit d) reference
  | some r =>
    by_cases change : it.changes w.ctx.cfg.data = true
    · have cell (bad) : FrameStep (fun v => v.biphaseFrame it) w :=
        .ends _ _ _ _ (own_none _) (biphaseFrame_cell reference change bad) fun d =>
          biphaseFrame_cell (w := w.withLimit d) reference change bad
      cases interval : biphaseClass w.ctx.cfg.halfCell (it.raw - r) with
      | none => exact cell (.inl interval)
      | some long =>
        cases half : w.ctx.kctx.shortStart with
        | none =>
          cases long with
          | true =>
            exact biphaseBit_step (biphaseFrame_long reference change interval half) fun d =>
              biphaseFrame_long (w := w.withLimit d) reference change interval half
          | false =>
            exact .goesOn _ _ (biphaseFrame_firstShort reference change interval half) fun d =>
              biphaseFrame_firstShort (w := w.withLimit d) reference change interval half
        | some start =>
          cases long with
          | true => exact cell (.inr ⟨interval, by rw [half]; nofun⟩)
          | false =>
            exact biphaseBit_step (biphaseFrame_secondShort reference change interval half) fun d =>
              biphaseFrame_secondShort (w := w.withLimit d) reference change interval half
    · by_cases quiet : r + w.ctx.cfg.timeout ≤ it.raw
      · exact .ends _ _ _ _ (own_single rfl) (biphaseFrame_idle reference change quiet) fun d =>
          biphaseFrame_idle (w := w.withLimit d) reference change quiet
      · exact .of_rests (biphaseFrame_waits reference change (Nat.lt_of_not_le quiet)) fun d =>
          biphaseFrame_waits (w := w.withLimit d) reference change (Nat.lt_of_not_le quiet)

theorem FrameStep.congr {F G : LaneWork → LaneWork} (h : FrameStep F w) (same : ∀ d, G (w.withLimit d) = F (w.withLimit d)) :
    FrameStep G w := by
  have own : G w = F w := same w.ctx.drainLimit
  cases h with
  | goesOn c out here there => exact .goesOn c out (own.trans here) fun d => (same d).trans (there d)
  | ends c basis out came ours here there => exact .ends c basis out came ours (own.trans here) fun d => (same d).trans (there d)

/-- A sample in a frame of any kind. -/
theorem inside_step (D : Nat) (it : SampleItem) (inside : w.state.inside = true) : FrameStep (fun v => v.inside D it) w := by
  cases kind : w.ctx.cfg.kind with
  | none =>
    have rests (v : LaneWork) (h : v.ctx.cfg.kind = .none) : v.inside D it = v := by
      unfold LaneWork.inside
      rw [h]
    exact .of_rests (rests w kind) fun d => rests (w.withLimit d) kind
  | twoWire => exact (twoWireFrame_step inside).congr fun d => inside_twoWire (w := w.withLimit d) D kind
  | clocked => exact clockedFrame_step.congr fun d => inside_clocked (w := w.withLimit d) D kind
  | async => exact asyncFrame_step.congr fun d => inside_async (w := w.withLimit d) kind
  | biphase => exact biphaseFrame_step.congr fun d => inside_biphase (w := w.withLimit d) kind

/-! ## A lane brings about its own rows alone (log 4) -/

/-- The lane's number stands, and what has come about on the lane from `w` to `v` is the lane's own. -/
def OwnSince (w v : LaneWork) : Prop := v.ix = w.ix ∧ ∀ h ∈ v.came, h ∈ w.came ∨ h.lane = some w.ix

theorem OwnSince.of_same {v : LaneWork} (ix : v.ix = w.ix) (came : v.came = w.came) : w.OwnSince v :=
  ⟨ix, fun _ mem => .inl (came ▸ mem)⟩

theorem OwnSince.trans {v u : LaneWork} (h : w.OwnSince v) (k : v.OwnSince u) : w.OwnSince u :=
  ⟨k.1.trans h.1, fun e mem => (k.2 e mem).elim (h.2 e) fun lane => .inr (lane.trans (congrArg some h.1))⟩

theorem FrameStep.ownSince {F : LaneWork → LaneWork} (h : FrameStep F w) : w.OwnSince (F w) := by
  cases h with
  | goesOn c out here _ =>
    rw [here]
    exact .of_same rfl rfl
  | ends c basis out came own here _ =>
    rw [here]
    exact ⟨rfl, fun e mem => (List.mem_append.1 mem).imp id (own e)⟩

theorem cutDrain_ownSince (w : LaneWork) (it : SampleItem) : w.OwnSince (w.cutDrain it) := by
  unfold cutDrain
  split
  · split
    · exact ⟨rfl, fun e mem => (List.mem_append.1 mem).imp id (own_single rfl e)⟩
    · exact .of_same rfl rfl
  · exact .of_same rfl rfl

theorem clockedBit_ownSince (w : LaneWork) (it : SampleItem) : w.OwnSince (w.clockedBit it) := by
  by_cases both : samplingEdgeOn w.ctx.cfg it = true ∧ selectActiveOn w.ctx.cfg it = true
  · obtain ⟨sampling, active⟩ := both
    by_cases full : w.ctx.bits.length + 1 = w.ctx.cfg.wordSize
    · rw [clockedBit_completes sampling active full]
      exact .of_same rfl rfl
    · rw [clockedBit_takes sampling active full]
      exact .of_same rfl rfl
  · rw [clockedBit_skips both]
    exact .of_same rfl rfl

theorem clockedHunt_ownSince (w : LaneWork) (basis : HuntBasis) (it : SampleItem) : w.OwnSince (w.clockedHunt basis it) := by
  by_cases opens : clockedOpens w.ctx.cfg basis it
  · rw [clockedHunt_opens opens]
    exact (OwnSince.of_same rfl rfl).trans (clockedBit_ownSince (w.openFrame it.raw) it)
  · by_cases restarts : w.ctx.cfg.select = none ∧ it.changes w.ctx.cfg.clock = true
    · rw [clockedHunt_restarts opens restarts.1 restarts.2]
      exact .of_same rfl rfl
    · rw [clockedHunt_waits opens (by rwa [not_and_or, Bool.not_eq_true] at restarts)]
      exact .of_same rfl rfl

/-- A hunt brings nothing about. -/
theorem hunt_ownSince (w : LaneWork) (D : Nat) (it : SampleItem) : w.OwnSince (w.hunt D it) := by
  cases kind : w.ctx.cfg.kind with
  | none =>
    unfold LaneWork.hunt
    simp only [withCtx_eq, goesOn_ctx, kind]
    exact .of_same rfl rfl
  | twoWire =>
    by_cases start : startCondition w.ctx.cfg it
    · rw [hunt_twoWire_opens D kind start]
      exact .of_same rfl rfl
    · rw [hunt_twoWire_stays D kind start]
      exact .of_same rfl rfl
  | clocked =>
    rw [hunt_clocked D kind]
    exact (OwnSince.of_same rfl rfl).trans (clockedHunt_ownSince (w.goesOn _ []) _ it)
  | async =>
    cases char : w.ctx.kctx.char with
    | none =>
      rw [hunt_async_free kind rfl char]
      split <;> exact .of_same rfl rfl
    | some ch =>
      rw [hunt_async_busy kind rfl char]
      split
      · split <;> exact .of_same rfl rfl
      · exact .of_same rfl rfl
  | biphase =>
    rw [hunt_biphase kind rfl]
    split
    · split <;> exact .of_same rfl rfl
    · exact .of_same rfl rfl

theorem onSample_ownSince (w : LaneWork) (D : Nat) (it : SampleItem) : w.OwnSince (w.onSample D it) := by
  unfold onSample
  cases state : w.state with
  | hunt => exact hunt_ownSince w D it
  | inFrame => exact (inside_step D it (by rw [state]; rfl)).ownSince
  | draining => exact ((inside_step D it (by rw [state]; rfl)).ownSince).trans (cutDrain_ownSince _ it)
  | off => exact .of_same rfl rfl
  | held => exact .of_same rfl rfl

/-! ## Holds and releases (R105 to R107, R109) -/

/-- The requests of a sample: every hold and then every release (R107). -/
def requested (w : LaneWork) (due : List LaneReq) (t : Nat) : LaneWork :=
  let held := if due.any fun r => r.hold then w.applyHold t else w
  if due.any fun r => !r.hold then held.applyRelease else held

section ByState

variable (w : LaneWork) (t : Nat)

theorem applyHold_hunt (h : w.state = .hunt) :
    w.applyHold t = { w with state := .held, ctx := { w.ctx with hunt := none, kctx := .cleared } } := by
  unfold applyHold
  rw [h]

theorem applyHold_inFrame (h : w.state = .inFrame) :
    w.applyHold t = { w with state := .draining, ctx := { w.ctx with drainLimit := some (t + w.ctx.cfg.timeout) } } := by
  unfold applyHold
  rw [h]

theorem applyHold_other (hunt : w.state ≠ .hunt) (inFrame : w.state ≠ .inFrame) : w.applyHold t = w := by
  unfold applyHold
  split
  · contradiction
  · contradiction
  · rfl

theorem applyRelease_held (h : w.state = .held) :
    w.applyRelease = { w with state := .hunt, ctx := { w.ctx with hunt := none, kctx := .cleared } } := by
  unfold applyRelease
  rw [h]

theorem applyRelease_draining (h : w.state = .draining) :
    w.applyRelease = { w with state := .inFrame, ctx := { w.ctx with drainLimit := none } } := by
  unfold applyRelease
  rw [h]

theorem applyRelease_other (held : w.state ≠ .held) (draining : w.state ≠ .draining) : w.applyRelease = w := by
  unfold applyRelease
  split
  · contradiction
  · contradiction
  · rfl

/-- Where a hold takes a lane (R106). -/
theorem applyHold_state : (w.applyHold t).state = (match w.state with | .hunt => .held | .inFrame => .draining | x => x) := by
  unfold applyHold
  cases h : w.state <;> simp [h]

/-- Where a release takes a lane (R106). -/
theorem applyRelease_state : w.applyRelease.state = (match w.state with | .held => .hunt | .draining => .inFrame | x => x) := by
  unfold applyRelease
  cases h : w.state <;> simp [h]

end ByState

/-- Requests do not stop or start a lane, and nothing is emitted for them. -/
structure Governed (w v : LaneWork) : Prop where
  ix : v.ix = w.ix
  frame : v.frame = w.frame
  out : v.out = w.out
  came : v.came = w.came
  off : v.state = .off ↔ w.state = .off

theorem Governed.refl (w : LaneWork) : w.Governed w := ⟨rfl, rfl, rfl, rfl, .rfl⟩

theorem Governed.trans {v u : LaneWork} (h : w.Governed v) (k : v.Governed u) : w.Governed u :=
  ⟨k.ix.trans h.ix, k.frame.trans h.frame, k.out.trans h.out, k.came.trans h.came, k.off.trans h.off⟩

theorem applyHold_governed (w : LaneWork) (t : Nat) : w.Governed (w.applyHold t) := by
  by_cases hunt : w.state = .hunt
  · rw [w.applyHold_hunt t hunt]
    exact ⟨rfl, rfl, rfl, rfl, by simp [hunt]⟩
  · by_cases inFrame : w.state = .inFrame
    · rw [w.applyHold_inFrame t inFrame]
      exact ⟨rfl, rfl, rfl, rfl, by simp [inFrame]⟩
    · rw [w.applyHold_other t hunt inFrame]
      exact .refl w

theorem applyRelease_governed (w : LaneWork) : w.Governed w.applyRelease := by
  by_cases held : w.state = .held
  · rw [w.applyRelease_held held]
    exact ⟨rfl, rfl, rfl, rfl, by simp [held]⟩
  · by_cases draining : w.state = .draining
    · rw [w.applyRelease_draining draining]
      exact ⟨rfl, rfl, rfl, rfl, by simp [draining]⟩
    · rw [w.applyRelease_other held draining]
      exact .refl w

theorem requested_governed (w : LaneWork) (due : List LaneReq) (t : Nat) : w.Governed (w.requested due t) := by
  unfold requested
  have held : w.Governed (if due.any fun r => r.hold then w.applyHold t else w) := by
    split
    · exact applyHold_governed w t
    · exact .refl w
  dsimp only
  split
  · exact held.trans (applyRelease_governed _)
  · exact held

end LaneWork

/-- A lane at work on a sample: the requests of earlier samples, then the sample by the lane's state (R107). -/
theorem laneHandle_eq (i : Four) {x : Lane} {c : LaneCtx} (hx : x.ctx = some c) (on : x.state ≠ .off) (D : Nat) (it : SampleItem) :
    laneHandle i x D it = (((x.work i c).requested (x.pend.filter fun r => r.index < it.index) it.raw).onSample D it).result
      (x.pend.filter fun r => !(r.index < it.index)) := by
  unfold laneHandle
  simp only [hx, if_neg on]
  rfl

theorem laneHandle_off (i : Four) {x : Lane} (off : x.state = .off) (D : Nat) (it : SampleItem) : laneHandle i x D it = (x, [], []) := by
  unfold laneHandle
  cases x.ctx with
  | none => rfl
  | some c => exact if_pos off

theorem laneHandle_without (i : Four) {x : Lane} (without : x.ctx = none) (D : Nat) (it : SampleItem) :
    laneHandle i x D it = (x, [], []) := by
  unfold laneHandle
  rw [without]

/-- A lane brings about its own rows alone (log 4). -/
theorem laneHandle_own (i : Four) (x : Lane) (D : Nat) (it : SampleItem) : ∀ h ∈ (laneHandle i x D it).2.2, h.lane = some i := by
  by_cases off : x.state = .off
  · rw [laneHandle_off i off]
    exact LaneWork.own_none i
  · cases hx : x.ctx with
    | none =>
      rw [laneHandle_without i hx]
      exact LaneWork.own_none i
    | some c =>
      rw [laneHandle_eq i hx off]
      intro h mem
      have governed := (x.work i c).requested_governed (x.pend.filter fun r => r.index < it.index) it.raw
      obtain before | own := (LaneWork.onSample_ownSince _ D it).2 h mem
      · rw [governed.came] at before
        cases before
      · exact own.trans (congrArg some governed.ix)

section Drain

variable {x : Lane} {c c' : LaneCtx} {out : List Emission} {D limit : Nat} {it : SampleItem} (i : Four) (hx : x.ctx = some c)
  (hp : x.pend = []) (draining : x.state = .draining)

include hx hp draining

/-- A drain still open at its limit is cut off with PARTIAL (R109, R123). -/
theorem laneHandle_cut (atLimit : c'.drainLimit = some limit) (reached : limit ≤ it.raw)
    (step : (x.work i c).inside D it = (x.work i c).goesOn c' out) : laneHandle i x D it =
      ({ x with state := .held, ctx := some (c'.leftFrame .draining { qualified := false, since := none }) },
        out ++ [Emission.mk .partialFrame x.frame c'.wordPos (some c'.wordPos) (if c'.truncated then 0x80 else 0) none none it.raw it.raw],
        [.drainLimit i]) := by
  have state : (x.work i c).state = .draining := draining
  have cut : ((x.work i c).goesOn c' out).cutDrain it = (x.work i c).ends c' { qualified := false, since := none }
      (out ++ [Emission.mk .partialFrame x.frame c'.wordPos (some c'.wordPos) (if c'.truncated then 0x80 else 0) none none it.raw it.raw])
      [.drainLimit i] := by
    unfold LaneWork.cutDrain
    simp only [LaneWork.goesOn_state, LaneWork.goesOn_ctx, state, atLimit, if_pos reached, LaneWork.emitPartial_eq,
      LaneWork.leaveFrame_eq, LaneWork.goesOn_goesOn, LaneWork.goesOn_ends, LaneWork.ends_note, List.append_nil, List.nil_append]
    rfl
  rw [laneHandle_quiet i hx hp D it (by rw [draining]; nofun)]
  unfold LaneWork.onSample
  rw [state]
  dsimp only
  rw [step, cut, ← hp]
  unfold LaneWork.ends
  rw [state]
  rfl

end Drain

/-- Every request waiting was due: the sample is one of a lane in the state that the requests leave, with none waiting (R107). -/
theorem laneHandle_due (i : Four) {x : Lane} {c : LaneCtx} (hx : x.ctx = some c) (on : x.state ≠ .off) (D : Nat) {it : SampleItem}
    (due : ∀ r ∈ x.pend, r.index < it.index) :
    let v := (x.work i c).requested x.pend it.raw
    laneHandle i x D it = laneHandle i (Lane.mk v.state v.frame [] (some v.ctx)) D it := by
  intro v
  have governed := (x.work i c).requested_governed x.pend it.raw
  have all : (x.pend.filter fun r => decide (r.index < it.index)) = x.pend :=
    List.filter_eq_self.2 fun r mem => decide_eq_true (due r mem)
  have none_ : (x.pend.filter fun r => !decide (r.index < it.index)) = [] :=
    List.filter_eq_nil_iff.2 fun r mem => by simp [due r mem]
  have work : (Lane.mk v.state v.frame [] (some v.ctx)).work i v.ctx = v := by
    show LaneWork.mk i v.state v.frame v.ctx [] [] = v
    rw [← show v.out = [] from governed.out, ← show v.came = [] from governed.came, ← show v.ix = i from governed.ix]
  rw [laneHandle_eq i hx on, all, none_, laneHandle_quiet i rfl rfl D it (mt governed.off.1 on), work]

/-- A HELD lane takes no action on a sample (R105). -/
theorem laneHandle_held (i : Four) {x : Lane} {c : LaneCtx} (hx : x.ctx = some c) (held : x.state = .held) (D : Nat) {it : SampleItem}
    (later : ∀ r ∈ x.pend, it.index ≤ r.index) : laneHandle i x D it = (x, [], []) := by
  have none_ : (x.pend.filter fun r => decide (r.index < it.index)) = [] :=
    List.filter_eq_nil_iff.2 fun r mem => by simpa using later r mem
  have all : (x.pend.filter fun r => !decide (r.index < it.index)) = x.pend :=
    List.filter_eq_self.2 fun r mem => by simpa using later r mem
  rw [laneHandle_eq i hx (by rw [held]; nofun), none_, all]
  unfold LaneWork.onSample
  rw [show ((x.work i c).requested [] it.raw).state = .held from held]
  show (Lane.mk x.state x.frame x.pend (some c), _, _) = _
  rw [← hx]
  rfl

/-- A request that carries the sample's own index waits (R107). -/
theorem laneHandle_later (i : Four) {x : Lane} {c : LaneCtx} (hx : x.ctx = some c) (on : x.state ≠ .off) (D : Nat) (it : SampleItem)
    (r : LaneReq) (later : it.index ≤ r.index) : laneHandle i { x with pend := x.pend ++ [r] } D it =
      ({ (laneHandle i x D it).1 with pend := (laneHandle i x D it).1.pend ++ [r] }, (laneHandle i x D it).2) := by
  have waits : ¬ r.index < it.index := Nat.not_lt.2 later
  rw [laneHandle_eq i (x := { x with pend := x.pend ++ [r] }) hx on, laneHandle_eq i hx on]
  simp only [List.filter_append, List.filter_cons, waits, decide_false, Bool.false_eq_true, if_false, List.filter_nil, List.append_nil,
    Bool.not_false, if_true]
  rfl

/-- A drain at its limit is cut off exactly when the sample does not end its frame (R109, R123). -/
theorem laneHandle_drain (i : Four) {x : Lane} {c k : LaneCtx} {limit D : Nat} {it : SampleItem} (hx : x.ctx = some c)
    (hp : x.pend = []) (draining : x.state = .draining) (atLimit : c.drainLimit = some limit) (reached : limit ≤ it.raw) :
    let y := laneHandle i { x with ctx := some { c with drainLimit := none } } D it
    y.1.ctx = some k → (y.1.state ≠ .draining → laneHandle i x D it = y) ∧
      (y.1.state = .draining → laneHandle i x D it =
        ({ y.1 with state := .held, ctx := some (k.leftFrame .draining { qualified := false, since := none }) },
          y.2.1 ++ [Emission.mk .partialFrame y.1.frame k.wordPos (some k.wordPos) (if k.truncated then 0x80 else 0) none none
            it.raw it.raw], y.2.2 ++ [.drainLimit i])) := by
  intro y hk
  have own : (x.work i c).withLimit (some limit) = x.work i c := by
    unfold LaneWork.withLimit LaneCtx.withLimit
    rw [Lane.work_ctx, ← atLimit]
    rfl
  obtain ⟨c', out, -, there⟩ | ⟨c', basis, out, came, -, -, there⟩ :=
      (x.work i c).inside_step D it (by rw [Lane.work_state, draining]; rfl)
  · have uncut : y = ({ x with ctx := some (c'.withLimit none) }, out, []) :=
      laneHandle_goesOn (x := { x with ctx := some { c with drainLimit := none } }) i rfl hp
        (by simp [Lane.goesOn, draining, timedOut]) rfl (there none)
    have cut := laneHandle_cut i hx hp draining (c' := c'.withLimit (some limit)) rfl reached (own ▸ there (some limit))
    rw [uncut] at hk ⊢
    obtain rfl := Option.some.inj hk
    exact ⟨fun left => absurd draining left, fun _ => cut⟩
  · have left : y = ({ x with state := x.state.afterFrame, ctx := some (c'.leftFrame x.state basis) }, out, came) :=
      laneHandle_ends (x := { x with ctx := some { c with drainLimit := none } }) i rfl hp (.inr draining) (there none)
    have same := laneHandle_ends i hx hp (.inr draining) (own ▸ there (some limit))
    rw [left, same]
    refine ⟨fun _ => rfl, fun still => ?_⟩
    rw [draining] at still
    cases still

/-- Settles O56: the two requests by their cases, and the sample by what is due on it. -/
theorem laneRequests : Obligations.LaneRequests := by
  unfold Obligations.LaneRequests
  refine ⟨fun w t => ?_, fun x hold n => rfl, fun i x D it => ⟨fun off => laneHandle_off i off D it, fun hx on => ?_,
    fun held hx later => ?_, fun hold => ?_, fun c hold release hx on some_ due held released => ?_,
    fun c k limit hx hp draining atLimit reached => laneHandle_drain i hx hp draining atLimit reached⟩⟩
  · refine ⟨?_, ?_, (w.applyHold_governed t).frame, w.applyRelease_governed.frame, (w.applyHold_governed t).out,
      w.applyRelease_governed.out, fun state => ?_, fun state => ⟨?_, ?_⟩, fun state => ⟨?_, ?_, ?_⟩, fun state => ⟨?_, ?_⟩⟩
    · exact w.applyHold_state t
    · exact w.applyRelease_state
    · rw [w.applyHold_inFrame t state]
    · rw [w.applyHold_other t (by rw [state]; nofun) (by rw [state]; nofun)]
    · rw [w.applyRelease_draining state]
    · rw [w.applyHold_hunt t state]
    · rw [w.applyHold_hunt t state]
      rfl
    · rw [w.applyRelease_other (by rw [state]; nofun) (by rw [state]; nofun)]
    · rw [w.applyHold_other t (by rw [state]; nofun) (by rw [state]; nofun)]
    · rw [w.applyRelease_held state]
  · obtain ⟨c, hx⟩ := Option.isSome_iff_exists.1 hx
    rw [laneHandle_eq i hx on]
    simp only [LaneWork.result, ← decide_not, Nat.not_lt]
  · obtain ⟨c, hx⟩ := Option.isSome_iff_exists.1 hx
    exact laneHandle_held i hx held D later
  · by_cases off : x.state = .off
    · have same : x.request hold it.index = x := if_pos off
      rw [same, laneHandle_off i off]
      simp [off]
    · have waits : x.request hold it.index = { x with pend := x.pend ++ [LaneReq.mk hold it.index] } := if_neg off
      rw [waits]
      by_cases without : x.ctx = none
      · rw [laneHandle_without i without, laneHandle_without i (x := { x with pend := x.pend ++ [LaneReq.mk hold it.index] }) without]
        simp [without]
      · obtain ⟨c, hx⟩ := Option.ne_none_iff_exists'.1 without
        rw [laneHandle_later i hx off D it (LaneReq.mk hold it.index) (Nat.le_refl _)]
        simp [off, without]
  · have holds : hold = x.pend.any fun r => r.hold := by
      rw [Bool.eq_iff_iff, held, List.any_eq_true]
    have releases : release = x.pend.any fun r => !r.hold := by
      rw [Bool.eq_iff_iff, released, List.any_eq_true]
      simp
    subst holds releases
    exact laneHandle_due i hx on D due

end Sys2Proof.Machine
end

section
/-! SUPPORT. The match test, what the events of a lane hand on, and their hand-over to the lanes (R107, R112, R113, R127 to R133), with the
proof of the statement (O59). -/

namespace Sys2Proof.Machine

open Sys2Proof

/-! ## The match test (R127, R128) -/

theorem fieldFits_iff (f : MatchField) (e : Emission) : fieldFits f e = true ↔ (match f with
    | .addr => e.kind = .addr
    | .anyWord => e.kind = .word
    | .wordAt p => e.kind = .word ∧ e.pos = p) := by
  unfold fieldFits
  cases f <;> cases e.kind <;> simp

theorem valueFits_iff (x : MatchEntry) (e : Emission) : valueFits x e = true ↔
    ∀ b, b < 32 → x.mask.getLsbD b = true → (e.value.getD 0).testBit b = x.value.getLsbD b := by
  unfold valueFits
  rw [beq_iff_eq, BitVec.eq_of_getLsbD_eq_iff]
  refine forall_congr' fun b => forall_congr' fun small => ?_
  rw [BitVec.getLsbD_and, BitVec.getLsbD_xor, BitVec.getLsbD_ofNat, decide_eq_true small, Bool.true_and,
    show (0 : BitVec 32).getLsbD b = false from BitVec.getLsbD_zero]
  cases x.mask.getLsbD b <;> simp

theorem directionFits_iff (kind : LaneKind) (d : MatchDir) (e : Emission) : directionFits kind d e = true ↔
    (kind = .twoWire → (d = .read → e.attrs.getLsbD 2 = true) ∧ (d = .write → e.attrs.getLsbD 3 = true)) := by
  have read : ∀ a : BitVec 8, (a &&& attrRead != 0) = true ↔ a.getLsbD 2 = true := by decide
  have write : ∀ a : BitVec 8, (a &&& attrWrite != 0) = true ↔ a.getLsbD 3 = true := by decide
  by_cases twoWire : kind = .twoWire
  · subst twoWire
    cases d with
    | any => exact ⟨fun _ _ => ⟨nofun, nofun⟩, fun _ => rfl⟩
    | read => exact (read e.attrs).trans ⟨fun h _ => ⟨fun _ => h, nofun⟩, fun h => (h rfl).1 rfl⟩
    | write => exact (write e.attrs).trans ⟨fun h _ => ⟨nofun, fun _ => h⟩, fun h => (h rfl).2 rfl⟩
  · have untested : directionFits kind d e = true := by
      unfold directionFits
      split
      · exact absurd rfl twoWire
      · exact absurd rfl twoWire
      · rfl
    exact ⟨fun _ is => absurd is twoWire, fun _ => untested⟩

theorem entryFits_iff (kind : LaneKind) (x : MatchEntry) (e : Emission) : entryFits kind x e = true ↔
    fieldFits x.field e = true ∧ valueFits x e = true ∧ directionFits kind x.dir e = true := by
  simp [entryFits, and_assoc]

theorem matchesFrom_cons (kind : LaneKind) (e : Emission) (k : Nat) (x : MatchEntry) (rest : List MatchEntry) :
    matchesFrom kind e k (x :: rest) =
      if entryFits kind x e = true then (k, x) :: matchesFrom kind e (k + 1) rest else matchesFrom kind e (k + 1) rest := rfl

/-- The entries from number `k` on that fit, with their numbers (R127). -/
theorem mem_matchesFrom {kind : LaneKind} {e : Emission} {k j : Nat} {entries : List MatchEntry} {x : MatchEntry} :
    (j, x) ∈ matchesFrom kind e k entries ↔ ∃ n, j = k + n ∧ entries[n]? = some x ∧ entryFits kind x e = true := by
  induction entries generalizing k with
  | nil => simp [matchesFrom]
  | cons y rest ih =>
    have shift : (∃ n, j = k + 1 + n ∧ rest[n]? = some x ∧ entryFits kind x e = true) ↔
        ∃ n, j = k + (n + 1) ∧ (y :: rest)[n + 1]? = some x ∧ entryFits kind x e = true := by
      simp only [List.getElem?_cons_succ, Nat.add_assoc, Nat.add_comm 1]
    have split : (∃ n, j = k + n ∧ (y :: rest)[n]? = some x ∧ entryFits kind x e = true) ↔
        (j = k ∧ y = x ∧ entryFits kind x e = true) ∨
          ∃ n, j = k + (n + 1) ∧ (y :: rest)[n + 1]? = some x ∧ entryFits kind x e = true := by
      constructor
      · rintro ⟨n, hn⟩
        cases n with
        | zero => exact .inl (by simpa using hn)
        | succ n => exact .inr ⟨n, hn⟩
      · rintro (hn | ⟨n, hn⟩)
        · exact ⟨0, by simpa using hn⟩
        · exact ⟨n + 1, hn⟩
    rw [split, ← shift, ← ih, matchesFrom_cons]
    by_cases fits : entryFits kind y e = true
    · rw [if_pos fits, List.mem_cons, Prod.mk.injEq]
      have first : j = k ∧ x = y ↔ j = k ∧ y = x ∧ entryFits kind x e = true :=
        and_congr_right fun _ => ⟨fun entry => ⟨entry.symm, entry ▸ fits⟩, fun entry => entry.1.symm⟩
      rw [first]
    · rw [if_neg fits]
      exact ⟨.inr, fun h => h.resolve_left fun ⟨_, entry, fit⟩ => fits (entry ▸ fit)⟩

theorem matchesFrom_ascending (kind : LaneKind) (e : Emission) (k : Nat) (entries : List MatchEntry) :
    (matchesFrom kind e k entries).Pairwise fun a b => a.1 < b.1 := by
  induction entries generalizing k with
  | nil => exact .nil
  | cons y rest ih =>
    rw [matchesFrom_cons]
    split
    · refine List.pairwise_cons.2 ⟨fun a mem => ?_, ih (k + 1)⟩
      obtain ⟨n, number, -⟩ := mem_matchesFrom.1 (show (a.1, a.2) ∈ _ from mem)
      show k < a.1
      omega
    · exact ih (k + 1)

/-- Only an ADDR or a WORD is tested (R127). -/
theorem matchSet_eq (kind : LaneKind) (entries : List MatchEntry) (e : Emission) : matchSet kind entries e =
    if e.kind = .addr ∨ e.kind = .word then matchesFrom kind e 0 entries else [] := by
  unfold matchSet
  cases h : e.kind <;> simp

theorem matchSet_ascending (kind : LaneKind) (entries : List MatchEntry) (e : Emission) :
    (matchSet kind entries e).Pairwise fun a b => a.1 < b.1 := by
  rw [matchSet_eq]
  split
  · exact matchesFrom_ascending kind e 0 entries
  · exact .nil

theorem mem_matchSet {kind : LaneKind} {entries : List MatchEntry} {e : Emission} {k : Nat} {x : MatchEntry} :
    (k, x) ∈ matchSet kind entries e ↔ (e.kind = .addr ∨ e.kind = .word) ∧ entries[k]? = some x ∧ entryFits kind x e = true := by
  rw [matchSet_eq]
  split
  · next tested => simp [mem_matchesFrom, tested]
  · next untested => simp [untested]

/-! ## Unions of lane sets (R133) -/

theorem foldl_or_getLsbD {α : Type} (f : α → LaneSet) (l : List α) (init : LaneSet) (k : Nat) :
    (l.foldl (fun acc a => acc ||| f a) init).getLsbD k = (init.getLsbD k || l.any fun a => (f a).getLsbD k) := by
  induction l generalizing init with
  | nil => simp
  | cons a l ih => rw [List.foldl_cons, ih, BitVec.getLsbD_or, List.any_cons, Bool.or_assoc]

theorem unionLanes_getLsbD (f : MatchActions → Option LaneSet) (ms : List (Nat × MatchEntry)) (k : Nat) :
    (unionLanes f ms).getLsbD k = true ↔ ∃ m ∈ ms, ∃ set, f m.2.actions = some set ∧ set.getLsbD k = true := by
  unfold unionLanes
  rw [foldl_or_getLsbD, show (0 : LaneSet).getLsbD k = false from BitVec.getLsbD_zero, Bool.false_or, List.any_eq_true]
  refine exists_congr fun m => and_congr_right fun _ => ?_
  cases f m.2.actions <;> simp

theorem exists_mem_concat {α : Type} {p : α → Prop} {l : List α} {x : α} :
    (∃ a ∈ l ++ [x], p a) ↔ (∃ a ∈ l, p a) ∨ p x := by
  simp [or_and_right, exists_or]

/-! ## The effects of one lane, event by event (R112, R113, R129) -/

section
variable (i : Four) (c : LaneCtx) (entries : List MatchEntry) (skew : Int)

/-- The event that an emission becomes after a last start time (R113, R129). -/
def eventOf (last : Option Int) (e : Emission) : Event :=
  { seq := 0, cap := c.capture, lane := i, kind := e.kind, frame := e.frame, start := (correctedTimes skew last e).1,
    stop := (correctedTimes skew last e).2, value := e.value, attrs := e.attrs, err := e.err, bits := e.bits,
    matched := ((matchSet c.cfg.kind entries e).filter fun m => m.2.actions.mark).map Prod.fst }

/-- The start that the next event is not to come before. -/
def lastStartOf (events : List Event) : Option Int :=
  match events.getLast? with
  | some a => some a.start
  | none => c.lastStart

theorem correctedTimes_start_le_stop (last : Option Int) (e : Emission) :
    (correctedTimes skew last e).1 ≤ (correctedTimes skew last e).2 :=
  le_max_right _ _

theorem le_correctedTimes_start {last : Option Int} {y : Int} (e : Emission) (h : last = some y) :
    y ≤ (correctedTimes skew last e).1 := by
  subst h
  exact le_max_right _ _

variable (out : List Emission) (e : Emission)

theorem laneEffects_nil : laneEffects i c entries skew [] =
    { lastStart := c.lastStart, events := [], offers := [], hold := 0, release := 0, notify := false, frames := 0, errors := 0 } := rfl

theorem laneEffects_concat : laneEffects i c entries skew (out ++ [e]) =
    effectOf i c entries skew (laneEffects i c entries skew out) e :=
  List.foldl_concat ..

theorem laneEffects_events_concat : (laneEffects i c entries skew (out ++ [e])).events =
    (laneEffects i c entries skew out).events ++ [eventOf i c entries skew (laneEffects i c entries skew out).lastStart e] := by
  rw [laneEffects_concat]
  rfl

theorem laneEffects_lastStart_concat : (laneEffects i c entries skew (out ++ [e])).lastStart =
    some (correctedTimes skew (laneEffects i c entries skew out).lastStart e).1 := by
  rw [laneEffects_concat]
  rfl

theorem laneEffects_length : (laneEffects i c entries skew out).events.length = out.length := by
  induction out using List.reverseRecOn with
  | nil => rfl
  | append_singleton out e ih => rw [laneEffects_events_concat, List.length_append, List.length_append, ih]; rfl

theorem laneEffects_lastStart : (laneEffects i c entries skew out).lastStart = lastStartOf c (laneEffects i c entries skew out).events := by
  induction out using List.reverseRecOn with
  | nil => rfl
  | append_singleton out e _ =>
    rw [laneEffects_lastStart_concat, laneEffects_events_concat, lastStartOf, List.getLast?_concat]
    rfl

/-- What the events of a lane keep: they belong to it and its capture, and no start is below an earlier one (R113). -/
structure LaneEffects.InOrder (fx : LaneEffects) : Prop where
  ascending : fx.events.Pairwise fun a b => a.start ≤ b.start
  own : ∀ a ∈ fx.events, a.start ≤ a.stop ∧ a.cap = c.capture ∧ a.lane = i
  above : ∀ l, c.lastStart = some l → ∀ a ∈ fx.events, l ≤ a.start
  below : ∀ l, fx.lastStart = some l → ∀ a ∈ fx.events, a.start ≤ l
  rises : ∀ l, c.lastStart = some l → ∃ m, fx.lastStart = some m ∧ l ≤ m
  reached : ∀ a ∈ fx.events, ∃ m, fx.lastStart = some m

theorem laneEffects_inOrder : (laneEffects i c entries skew out).InOrder i c := by
  induction out using List.reverseRecOn with
  | nil => exact ⟨.nil, nofun, fun _ _ => nofun, fun _ _ => nofun, fun l h => ⟨l, h, le_rfl⟩, nofun⟩
  | append_singleton out e ih =>
    have before : ∀ a ∈ (laneEffects i c entries skew out).events,
        a.start ≤ (correctedTimes skew (laneEffects i c entries skew out).lastStart e).1 := fun a mem =>
      have ⟨m, last⟩ := ih.reached a mem
      (ih.below m last a mem).trans (le_correctedTimes_start skew e last)
    have since : ∀ l, c.lastStart = some l → l ≤ (correctedTimes skew (laneEffects i c entries skew out).lastStart e).1 := fun l h =>
      have ⟨_, last, le⟩ := ih.rises l h
      le.trans (le_correctedTimes_start skew e last)
    have events := laneEffects_events_concat i c entries skew out e
    have last := laneEffects_lastStart_concat i c entries skew out e
    refine ⟨?_, ?_, fun l h => ?_, fun l h => ?_, fun l h => ⟨_, last, since l h⟩, fun _ _ => ⟨_, last⟩⟩ <;> rw [events]
    · exact List.pairwise_append.2 ⟨ih.ascending, List.pairwise_singleton .., fun a mem b new =>
        List.mem_singleton.1 new ▸ before a mem⟩
    · exact List.forall_mem_append.2 ⟨ih.own, List.forall_mem_singleton.2 ⟨correctedTimes_start_le_stop skew _ e, rfl, rfl⟩⟩
    · exact List.forall_mem_append.2 ⟨ih.above l h, List.forall_mem_singleton.2 (since l h)⟩
    · rw [last, Option.some.injEq] at h
      subst h
      exact List.forall_mem_append.2 ⟨before, List.forall_mem_singleton.2 le_rfl⟩

/-- The event of the emission number `n`, after the event before it (R113). -/
theorem laneEffects_event {n : Nat} (h : out[n]? = some e) : (laneEffects i c entries skew out).events[n]? =
    some (eventOf i c entries skew
      (if n = 0 then c.lastStart else ((laneEffects i c entries skew out).events[n - 1]?).map fun b => b.start) e) := by
  induction out using List.reverseRecOn generalizing n with
  | nil => exact nomatch h
  | append_singleton out y ih =>
    have len := laneEffects_length i c entries skew out
    rw [laneEffects_events_concat]
    by_cases old : n < out.length
    · rw [List.getElem?_append_left (len ▸ old), List.getElem?_append_left (by omega)]
      exact ih (by rwa [List.getElem?_append_left old] at h)
    · obtain ⟨rfl, rfl⟩ : n = out.length ∧ y = e := by
        rw [List.getElem?_append_right (not_lt.1 old), List.getElem?_singleton] at h
        split at h
        · next zero => exact ⟨by omega, Option.some.inj h⟩
        · exact nomatch h
      have last : (laneEffects i c entries skew out).lastStart = if out.length = 0 then c.lastStart else
          (((laneEffects i c entries skew out).events ++
            [eventOf i c entries skew (laneEffects i c entries skew out).lastStart y])[out.length - 1]?).map fun b => b.start := by
        split
        · next none => rw [List.length_eq_zero_iff.1 none]; rfl
        · rw [List.getElem?_append_left (by omega), ← len, ← List.getLast?_eq_getElem?]
          conv_lhs => rw [laneEffects_lastStart, lastStartOf]
          cases last : (laneEffects i c entries skew out).events.getLast? with
          | some => rfl
          | none => rw [List.getLast?_eq_none_iff] at last; simp [last] at len; omega
      rw [← last, ← len, List.getElem?_concat_length]

theorem laneEffects_frames : (laneEffects i c entries skew out).frames =
    (out.filter fun e => decide (e.kind = .stop ∨ e.kind = .partialFrame)).length := by
  induction out using List.reverseRecOn with
  | nil => rfl
  | append_singleton out e ih =>
    rw [laneEffects_concat, List.filter_append, List.length_append, ← ih, List.filter_singleton]
    show _ + _ = _ + _
    by_cases h : e.kind = .stop ∨ e.kind = .partialFrame <;> simp [h]

theorem laneEffects_errors : (laneEffects i c entries skew out).errors = (out.filter fun e => decide (e.kind = .error)).length := by
  induction out using List.reverseRecOn with
  | nil => rfl
  | append_singleton out e ih =>
    rw [laneEffects_concat, List.filter_append, List.length_append, ← ih, List.filter_singleton]
    show _ + _ = _ + _
    by_cases h : e.kind = .error <;> simp [h]

theorem laneEffects_notify : (laneEffects i c entries skew out).notify = true ↔
    ∃ e ∈ out, ∃ m ∈ matchSet c.cfg.kind entries e, m.2.actions.notify = true := by
  induction out using List.reverseRecOn with
  | nil => simp [laneEffects_nil]
  | append_singleton out e ih =>
    rw [laneEffects_concat, exists_mem_concat, ← ih, ← List.any_eq_true]
    exact Bool.or_eq_true_iff

theorem laneEffects_offers {l : Four} {k : Nat} : (l, k) ∈ (laneEffects i c entries skew out).offers ↔
    l = i ∧ ∃ e ∈ out, ∃ m ∈ matchSet c.cfg.kind entries e, m.1 = k ∧ m.2.actions.feed = true := by
  induction out using List.reverseRecOn with
  | nil => simp [laneEffects_nil]
  | append_singleton out e ih =>
    have new : (l, k) ∈ (((matchSet c.cfg.kind entries e).filter fun m => m.2.actions.feed).map fun m => (i, m.1)) ↔
        l = i ∧ ∃ m ∈ matchSet c.cfg.kind entries e, m.1 = k ∧ m.2.actions.feed = true := by
      simp only [List.mem_map, List.mem_filter, Prod.mk.injEq]
      exact ⟨fun ⟨m, ⟨mem, feed⟩, lane, number⟩ => ⟨lane.symm, m, mem, number, feed⟩,
        fun ⟨lane, m, mem, number, feed⟩ => ⟨m, ⟨mem, feed⟩, lane.symm, number⟩⟩
    rw [laneEffects_concat, exists_mem_concat, and_or_left, ← ih, ← new]
    exact List.mem_append

theorem laneEffects_hold {k : Nat} : (laneEffects i c entries skew out).hold.getLsbD k = true ↔
    ∃ e ∈ out, ∃ m ∈ matchSet c.cfg.kind entries e, ∃ set, m.2.actions.hold = some set ∧ set.getLsbD k = true := by
  induction out using List.reverseRecOn with
  | nil => simp [laneEffects_nil]
  | append_singleton out e ih =>
    rw [laneEffects_concat, exists_mem_concat, ← ih, ← unionLanes_getLsbD MatchActions.hold, ← Bool.or_eq_true_iff,
      ← BitVec.getLsbD_or]
    rfl

theorem laneEffects_release {k : Nat} : (laneEffects i c entries skew out).release.getLsbD k = true ↔
    ∃ e ∈ out, ∃ m ∈ matchSet c.cfg.kind entries e, ∃ set, m.2.actions.release = some set ∧ set.getLsbD k = true := by
  induction out using List.reverseRecOn with
  | nil => simp [laneEffects_nil]
  | append_singleton out e ih =>
    rw [laneEffects_concat, exists_mem_concat, ← ih, ← unionLanes_getLsbD MatchActions.release, ← Bool.or_eq_true_iff,
      ← BitVec.getLsbD_or]
    rfl

end

/-! ## The hand-over to the lanes (R107, R133) -/

theorem foldl_or_quad_getLsbD (f : LaneEffects → LaneSet) (fx : Quad LaneEffects) (k : Nat) :
    (fx.toList.foldl (fun acc y => acc ||| f y) 0).getLsbD k = fx.toList.any fun y => (f y).getLsbD k := by
  rw [foldl_or_getLsbD, show (0 : LaneSet).getLsbD k = false from BitVec.getLsbD_zero, Bool.false_or]

theorem lanesAfter_given (lanes : Quad Lane) (fx : Quad LaneEffects) (n : Nat) (l : Four) : (lanesAfter lanes fx n).get l =
    ((lanes.get l).withLastStart (fx.get l).lastStart).given (fx.toList.any fun y => y.hold.getLsbD l.val)
      (fx.toList.any fun y => y.release.getLsbD l.val) n := by
  unfold lanesAfter
  rw [requestLanes_given, get_numbered, foldl_or_quad_getLsbD LaneEffects.hold, foldl_or_quad_getLsbD LaneEffects.release]

/-! ## A sample on which the capture runs on (R26, R67, R131) -/

theorem handOn_laneMatch {s : State} {lanes : Quad Lane} {out : Quad (List Emission)}
    (asked : (s.allEffects lanes out).toList.any (fun y => y.notify) = true) (n : Nat) (q : Port) :
    (s.handOn lanes out n).1.hasNotice q .laneMatch = true := by
  refine (enterAll_active ⟨0, 0⟩ _ _ _).mono q .laneMatch ?_
  unfold State.noteMatches
  rw [if_pos asked]
  exact hasNotice_raiseBoth_same _ q _

/-- A later sample while the capture runs on: it is held in `u`, the lanes handle it from there as they would from `s`, and nothing
of what follows reaches more than TRG's history and mark (R25, R26, R67). -/
structure RunsOnFrom (s : State) (x : Sampling) (name : CapName) (c : Capture) (w : ChannelWord) (n : Nat) (b : Block) (u : State) :
    Prop where
  held : Held s x name c n b (x.nextWord w) u
  filling : s.sto.filling name = some (n, b)
  acq : u.acq = s.acq
  holding : u.Holding name c
  effects : u.allEffects = s.allEffects
  handle : u.lanesHandle = s.lanesHandle
  next : exec (.sample w) s = .next ((u.lanesSample x.div (x.item name (x.nextWord w))).1.observe (x.item name (x.nextWord w))).1

theorem laterSample_runsOn {s : State} {x : Sampling} {name : CapName} {c : Capture} (w : ChannelWord) (wf : s.sto.wf = true)
    (h : s.canHold x name c) (later : x.next ≠ 0) (runs : s.runsOn x) : ∃ n b u, RunsOnFrom s x name c w n b u := by
  have ⟨hx, ha, hc, hn, n, b, hf, _⟩ := h
  obtain ⟨engine, stop, e, post, before⟩ := runs
  obtain ⟨u, held, taken⟩ := takeSample_held s x name c n b w wf h hf
  have acq : u.acq = s.acq := held.acq.trans (if_neg later)
  have holding := held.holding ha hn
  rw [if_neg later] at holding
  refine ⟨n, b, u, held, hf, acq, holding, allEffects_of_same held.pods (by rw [acq]), lanesHandle_of_lanes held.lanes, ?_⟩
  have handed := handOn_facts u ((u.lanesHandle x.div (x.item name (x.nextWord w))).map fun y => y.1)
    ((u.lanesHandle x.div (x.item name (x.nextWord w))).map fun y => y.2.1) x.next name _ holding.active holding.capture
    holding.incomplete
  change HandedOn u _ _ _ _ _ (u.lanesSample x.div (x.item name (x.nextWord w))).1 at handed
  rw [exec_laterSample hx later, taken]
  unfold State.deliver
  simp only [acq, stop, Bool.false_eq_true, if_false, trgSample_eq]
  generalize u.lanesSample x.div (x.item name (x.nextWord w)) = r at *
  have runsAcq : (r.1.observe (x.item name (x.nextWord w))).1.acq = s.acq := handed.acq.trans acq
  have ends : ∀ o, ((r.1.observe (x.item name (x.nextWord w))).1.trgOn o) = ((r.1.observe (x.item name (x.nextWord w))).1, []) :=
    fun o => by unfold State.trgOn; rw [runsAcq, engine]
  rw [ends, postTest_triggered (by rw [runsAcq]; exact engine) (by rw [runsAcq]; exact post),
    if_neg (show ¬ e ≤ (x.item name (x.nextWord w)).raw from Nat.not_le.2 before)]

theorem RunsOnFrom.handed {s : State} {x : Sampling} {name : CapName} {c : Capture} {w : ChannelWord} {n : Nat} {b : Block} {u : State}
    (h : RunsOnFrom s x name c w n b u) :
    let r := s.lanesHandle x.div (x.item name (x.nextWord w))
    HandedOn u (r.map fun y => y.1) (s.allEffects (r.map fun y => y.1) (r.map fun y => y.2.1)) x.next name c
      (u.lanesSample x.div (x.item name (x.nextWord w))).1 := by
  have facts := handOn_facts u ((u.lanesHandle x.div (x.item name (x.nextWord w))).map fun y => y.1)
    ((u.lanesHandle x.div (x.item name (x.nextWord w))).map fun y => y.2.1) x.next name _ h.holding.active h.holding.capture
    h.holding.incomplete
  rw [h.effects, h.handle] at facts
  have sample : (u.lanesSample x.div (x.item name (x.nextWord w))).1 =
      (u.handOn ((s.lanesHandle x.div (x.item name (x.nextWord w))).map fun y => y.1)
        ((s.lanesHandle x.div (x.item name (x.nextWord w))).map fun y => y.2.1) x.next).1 := by
    rw [← h.handle]
    rfl
  rw [sample]
  exact facts

/-- Where the events of that sample come to the list from (R112, R131). -/
theorem RunsOnFrom.enters {s : State} {x : Sampling} {name : CapName} {c : Capture} {w : ChannelWord} {n : Nat} {b : Block} {u : State}
    (h : RunsOnFrom s x name c w n b u) :
    let r := s.lanesHandle x.div (x.item name (x.nextWord w))
    let fx := s.allEffects (r.map fun y => y.1) (r.map fun y => y.2.1)
    ∃ v : State, (u.lanesSample x.div (x.item name (x.nextWord w))).1 = v.enterEvents fx ∧ v.evl = s.evl ∧
      v.sto.capture name = some (c.countLanes fx) := by
  intro r fx
  refine ⟨((u.setLanes (lanesAfter (r.map fun y => y.1) fx x.next)).modifyActive fun c => c.countLanes fx).noteMatches fx, ?_, ?_, ?_⟩
  · unfold State.lanesSample
    rw [h.handle]
    unfold State.handOn
    rw [h.effects]
    rfl
  · rw [← h.held.evl, modifyActive_eq (by exact h.holding.active) (by exact h.holding.capture)]
    unfold State.noteMatches
    split <;> rfl
  · rw [modifyActive_eq (by exact h.holding.active) (by exact h.holding.capture)]
    refine Eq.trans ?_ (capture_set (x := u.sto) (c := c.countLanes fx) (slots_of_capture h.holding.capture).2)
    unfold State.noteMatches
    split <;> rfl

/-- Settles O59: the match test and the effects of a lane event by event, by induction on what it emits; the hand-over as a request
for the unions; and the sample step as the hand-over with nothing after it. -/
theorem matchAndEventRules : Obligations.MatchAndEventRules := by
  refine ⟨fun kind x e => ?_, fun kind entries e => ⟨matchSet_ascending kind entries e, fun k x => mem_matchSet⟩,
    fun i c entries skew out => ?_, fun lanes fx n l => lanesAfter_given lanes fx n l, fun s x name c w wf h later runs => ?_⟩
  · exact (entryFits_iff kind x e).trans
      (and_congr (fieldFits_iff x.field e) (and_congr (valueFits_iff x e) (directionFits_iff kind x.dir e)))
  · have order := laneEffects_inOrder i c entries skew out
    refine ⟨laneEffects_length i c entries skew out, order.ascending, fun a mem => ?_, ?_, fun n e a last he ha hlast => ?_,
      laneEffects_frames i c entries skew out, laneEffects_errors i c entries skew out, laneEffects_notify i c entries skew out,
      fun l k => laneEffects_offers i c entries skew out, fun k => ?_, fun k => ?_⟩
    · obtain ⟨le, cap, lane⟩ := order.own a mem
      exact ⟨le, cap, lane, fun l hl => order.above l hl a mem, fun l hl => order.below l hl a mem⟩
    · exact laneEffects_lastStart i c entries skew out
    · rw [laneEffects_event i c entries skew out e he, ← hlast] at ha
      obtain rfl := Option.some.inj ha
      exact ⟨rfl, rfl, rfl, rfl, rfl, rfl, rfl, rfl, rfl⟩
    · rw [laneEffects_hold]
      simp only [List.mem_map, exists_exists_and_eq_and]
    · rw [laneEffects_release]
      simp only [List.mem_map, exists_exists_and_eq_and]
  · obtain ⟨n, b, u, from_⟩ := laterSample_runsOn w wf h later runs
    have handed := from_.handed
    refine ⟨_, from_.next, handed.timebase.trans from_.held.timebase, handed.acq.trans from_.acq, fun asked q => ?_, fun l => ?_⟩
    · rw [← from_.effects, ← from_.handle] at asked
      exact handOn_laneMatch asked _ q
    · exact congrArg (fun y => Quad.get y l) handed.lanes_

end Sys2Proof.Machine
end

section
/-! SUPPORT. The samples on which a frame ends by itself: the rows of a lane as sample steps, and the lane, the counts and the event that the
step leaves while the capture runs on (R108, R109, R112, R113, R116, R118, R120, R122, R123), with the proof of the statement
(O53). -/

namespace Sys2Proof.Machine

open Sys2Proof

/-! ## The rows of a lane as sample steps (logs 4, 5) -/

theorem Happening.ofLane_of_lane {h : Happening} {l : Four} (lane : h.lane = some l) : h.ofLane = true := by
  cases h <;> simp_all [Happening.lane, Happening.ofLane]

/-- What TRG and ACQ bring about on a sample is not a lane's. -/
theorem trgOn_came {v : State} {o : Observed} {k : Happening} (h : k ∈ (v.trgOn o).2) : k.ofLane = false := by
  have sought : ∀ u : State, k ∈ (u.seek o).2 → k.ofLane = false := fun u mem => by
    obtain rfl | rfl := seek_came mem <;> rfl
  unfold State.trgOn at h
  split at h
  · split at h
    · cases h
    · split at h
      · split at h
        · obtain rfl | mem := List.mem_cons.1 h
          · rfl
          · exact sought _ mem
        · cases h
      · cases h
  · exact sought v h
  · cases h

theorem subset_postTest {s : State} {raw : Nat} {came : List Happening} {k : Happening} (h : k ∈ came) :
    k ∈ (s.postTest raw came).2 := by
  unfold State.postTest
  split
  · split
    · exact List.mem_append_left _ h
    · exact h
  · exact h

/-- A lane's rows on a sample are those of its own handling of it (R26). -/
theorem lanesSample_came_iff {u : State} {D : Nat} {it : SampleItem} {h : Happening} {l : Four} (lane : h.lane = some l) :
    h ∈ (u.lanesSample D it).2.2 ↔ h ∈ (laneHandle l (u.lanes.get l) D it).2.2 := by
  have only : ∀ i, h ∈ (laneHandle i (u.lanes.get i) D it).2.2 → l = i := fun i mem =>
    Option.some.inj (lane.symm.trans (laneHandle_own i _ D it h mem))
  have came : (u.lanesSample D it).2.2 = ([0, 1, 2, 3] : List Four).flatMap fun i => (laneHandle i (u.lanes.get i) D it).2.2 := rfl
  rw [came, List.mem_flatMap]
  exact ⟨fun ⟨i, _, mem⟩ => only i mem ▸ mem, fun mem => ⟨l, by fin_cases l <;> simp, mem⟩⟩

theorem deliver_came_iff {u : State} {D : Nat} {it : SampleItem} {h : Happening} {l : Four} (lane : h.lane = some l) :
    h ∈ (u.deliver D it).2 ↔ h ∈ (laneHandle l (u.lanes.get l) D it).2.2 := by
  have own := Happening.ofLane_of_lane lane
  rw [← lanesSample_came_iff lane]
  unfold State.deliver
  dsimp only
  rw [trgSample_eq]
  split
  · rfl
  · refine ⟨fun mem => ?_, fun mem => subset_postTest (List.mem_append_left _ mem)⟩
    obtain before | rfl := postTest_came mem
    · refine (List.mem_append.1 before).resolve_right fun trg => ?_
      rw [trgOn_came trg] at own
      cases own
    · cases own

theorem takeSample_came_iff {s : State} {x : Sampling} {name : CapName} {c : Capture} (w : ChannelWord) (wf : s.sto.wf = true)
    (h : s.canHold x name c) {k : Happening} {l : Four} (lane : k.lane = some l) :
    k ∈ (s.takeSample w).2 ↔ k ∈ (laneHandle l (s.lanes.get l) x.div (x.item name (x.nextWord w))).2.2 := by
  have ⟨_, _, _, _, n, b, hf, _⟩ := h
  obtain ⟨u, held, taken⟩ := takeSample_held s x name c n b w wf h hf
  rw [taken, deliver_came_iff lane, held.lanes]

/-- The command of a lane's row. -/
def laneRows (l : Four) (w : ChannelWord) : List (Instr × Happening) :=
  [(.twoWireStall l w, .twoWireStall l), (.clockedIdleEnd l w, .clockedIdleEnd l), (.asyncIdleEnd l w, .asyncIdleEnd l),
    (.biphaseIdleEnd l w, .biphaseIdleEnd l), (.drainLimit l w, .drainLimit l)]

theorem laneRows_exec {l : Four} {w : ChannelWord} {i : Instr} {h : Happening} (row : (i, h) ∈ laneRows l w) :
    h.lane = some l ∧ ∀ s, exec i s = .next (s.sampleWith h w) := by
  simp only [laneRows, List.mem_cons, List.not_mem_nil, or_false, Prod.mk.injEq] at row
  obtain ⟨rfl, rfl⟩ | ⟨rfl, rfl⟩ | ⟨rfl, rfl⟩ | ⟨rfl, rfl⟩ | ⟨rfl, rfl⟩ := row <;> exact ⟨rfl, fun _ => rfl⟩

theorem exec_laneRow {s : State} {x : Sampling} {name : CapName} {c : Capture} {l : Four} {w : ChannelWord} {i : Instr} {h : Happening}
    (wf : s.sto.wf = true) (holds : s.canHold x name c) (row : (i, h) ∈ laneRows l w)
    (mem : h ∈ (laneHandle l (s.lanes.get l) x.div (x.item name (x.nextWord w))).2.2) :
    exec i s = exec (if x.next = 0 then .firstSample w else .sample w) s := by
  obtain ⟨lane, next⟩ := laneRows_exec row
  rw [next, exec_nextSample holds.1, sampleWith_of_mem (Prod.mk.eta).symm ((takeSample_came_iff w wf holds lane).2 mem)]

theorem exec_laneRow_idle {s : State} {x : Sampling} {name : CapName} {c : Capture} {l : Four} {w : ChannelWord} {i : Instr}
    {h : Happening} (wf : s.sto.wf = true) (holds : s.canHold x name c) (row : (i, h) ∈ laneRows l w)
    (absent : h ∉ (laneHandle l (s.lanes.get l) x.div (x.item name (x.nextWord w))).2.2) : exec i s = .next s := by
  obtain ⟨lane, next⟩ := laneRows_exec row
  rw [next, sampleWith_of_not_mem (mt (takeSample_came_iff w wf holds lane).1 absent)]

/-! ## One event entered (R138, R139) -/

theorem appendEvent_events (s : State) (e : Event) :
    (s.appendEvent e).evl.events = s.evl.events ++ [{ e with seq := s.evl.nextSeq }] := by
  have checked : ∀ (u : State) p, (u.checkReady p).evl.events = u.evl.events := fun u p => by
    obtain ⟨-, -, -, -, -, events⟩ := holdings_eq_iff.1 (holdings_checkReady u p)
    exact events
  unfold State.appendEvent
  rw [checked, checked]
  rfl

section Room

variable {s : State} {e : Event} {c : Capture} (hc : s.sto.capture e.cap = some c) (room : s.evl.events.length < 8192)

include hc room

theorem enterEvent_enters (held : s.sto.alreadyExpired c e = false) : s.enterEvent e = s.appendEvent e := by
  have free : s.evl.events.length < Config.eventCapacity := room
  unfold State.enterEvent
  simp only [hc, held, Bool.false_eq_true, if_false]
  unfold State.enterWithRoom
  exact if_pos free

/-- With room in the list no block is lost to an entry. -/
theorem enterEvent_blocks : (s.enterEvent e).sto.blocks = s.sto.blocks := by
  cases held : s.sto.alreadyExpired c e with
  | false => rw [enterEvent_enters hc room held, appendEvent_sto]
  | true =>
    unfold State.enterEvent
    simp only [hc, held, if_true]
    rw [modifyCapture_eq hc]
    rfl

/-- The event is entered where it does not start before its capture's oldest held time, as the entry leaves it. -/
theorem enterEvent_newest {d : Capture} (head : d.head = c.head)
    (held : ∀ o, c.origin = some o → ((o + (s.enterEvent e).sto.oldestIndex d * c.div : Nat) : Int) ≤ e.start) :
    (s.enterEvent e).evl.events = s.evl.events ++ [{ e with seq := s.evl.nextSeq }] := by
  have oldest : (s.enterEvent e).sto.oldestIndex d = s.sto.oldestIndex c := by
    unfold Store.oldestIndex
    rw [enterEvent_blocks hc room, head]
  have unexpired : s.sto.alreadyExpired c e = false := by
    unfold Store.alreadyExpired Store.oldestTime Capture.timeOf
    rw [oldest] at held
    cases origin : c.origin with
    | none => rfl
    | some o => exact decide_eq_false (Int.not_lt.2 (held o origin))
  rw [enterEvent_enters hc room unexpired, appendEvent_events]

end Room

/-- One lane's event, with none of the others. -/
def loneEvent (l : Four) (e : Event) : Quad (List Event) := (Quad.all []).set l [e]

theorem enterAll_loneEvent (l : Four) (e : Event) (s : State) :
    s.enterAll ((loneEvent l e).toList.map List.length).sum (loneEvent l e) = s.enterEvent e := by
  fin_cases l <;> rfl

/-! ## A sample on which one lane's frame ends, with one event (R109, R112, R113) -/

/-- The context after the frame, with the hunt basis that it leaves (R108, R109). -/
def LaneCtx.closed (k : LaneCtx) (hunt : Option HuntBasis) : LaneCtx :=
  { k with word := none, kctx := .cleared, drainLimit := none, hunt := hunt }

theorem timeChannel_eq (cfg : LaneCfg) :
    timeChannel cfg = if cfg.kind = .twoWire ∨ cfg.kind = .clocked then cfg.clock else cfg.data := by
  unfold timeChannel
  cases cfg.kind <;> rfl

/-- What a sample's events do outside the lanes, with the lanes that emitted them (R129). -/
def State.effectsOn (s : State) (D : Nat) (it : SampleItem) : Quad LaneEffects :=
  s.allEffects ((s.lanesHandle D it).map fun y => y.1) ((s.lanesHandle D it).map fun y => y.2.1)

theorem lanesHandle_get (s : State) (D : Nat) (it : SampleItem) (i : Four) :
    (s.lanesHandle D it).get i = laneHandle i (s.lanes.get i) D it := get_numbered _ i

theorem effectsOn_get (s : State) (D : Nat) (it : SampleItem) (i : Four) : (s.effectsOn D it).get i =
    s.effectsOfLane i (laneHandle i (s.lanes.get i) D it).1 (laneHandle i (s.lanes.get i) D it).2.1 := by
  unfold State.effectsOn State.allEffects
  rw [get_numbered, get_map, get_map, lanesHandle_get]

theorem effectsOn_off {s : State} {D : Nat} {it : SampleItem} {i : Four} (off : (s.lanes.get i).state = .off) :
    ((s.effectsOn D it).get i).events = [] := by
  rw [effectsOn_get, laneHandle_off i off]
  unfold State.effectsOfLane
  cases (s.lanes.get i).ctx <;> rfl

/-- A lane's sample that ends its frame or its drain with the one event `e`, as the row `row`. -/
structure FrameEnds (s : State) (x : Sampling) (name : CapName) (l : Four) (k : LaneCtx) (w : ChannelWord) (after : LaneState)
    (hunt : Option HuntBasis) (e : Emission) (row : Happening) : Prop where
  handles : laneHandle l (s.lanes.get l) x.div (x.item name (x.nextWord w)) =
    ({ s.lanes.get l with state := after, ctx := some (k.closed hunt) }, [e], [row])
  untested : e.kind ≠ .addr ∧ e.kind ≠ .word

namespace FrameEnds

variable {s : State} {x : Sampling} {name : CapName} {c : Capture} {l : Four} {k : LaneCtx} {w : ChannelWord} {after : LaneState}
  {hunt : Option HuntBasis} {e : Emission} {row : Happening} (h : FrameEnds s x name l k w after hunt e row)

include h

theorem effects : (s.effectsOn x.div (x.item name (x.nextWord w))).get l =
    laneEffects l (k.closed hunt) (s.acq.plan.matchLists.get l) (s.skewOf (timeChannel k.cfg)) [e] := by
  rw [effectsOn_get, h.handles]
  rfl

theorem events (alone : ∀ m, m ≠ l → (s.lanes.get m).state = .off) :
    (s.effectsOn x.div (x.item name (x.nextWord w))).map (fun y => y.events) = loneEvent l
      (eventOf l (k.closed hunt) (s.acq.plan.matchLists.get l) (s.skewOf (timeChannel k.cfg)) k.lastStart e) := by
  refine quad_ext fun i => ?_
  rw [get_map]
  by_cases here : i = l
  · subst here
    rw [h.effects, loneEvent, quad_get_set]
    rfl
  · rw [effectsOn_off (alone i here), loneEvent, quad_get_set_ne _ _ here]
    fin_cases i <;> rfl

variable {n : Nat} {b : Block} {u : State} (runs : RunsOnFrom s x name c w n b u)

include runs

/-- The lane as the sample step leaves it (R105, R108, R109, R113). -/
theorem lane : let y := ((u.lanesSample x.div (x.item name (x.nextWord w))).1.lanes.get l)
    y.state = after ∧ y.frame = (s.lanes.get l).frame ∧ y.ctx = some { k.closed hunt with
      lastStart := some (correctedTimes (s.skewOf (timeChannel k.cfg)) k.lastStart e).1 } := by
  have handled : ((s.lanesHandle x.div (x.item name (x.nextWord w))).map fun y => y.1).get l =
      { s.lanes.get l with state := after, ctx := some (k.closed hunt) } := by
    rw [get_map, lanesHandle_get, h.handles]
  obtain ⟨frame, state, ctx⟩ := lanesAfter_frame ((s.lanesHandle x.div (x.item name (x.nextWord w))).map fun y => y.1)
    (s.effectsOn x.div (x.item name (x.nextWord w))) x.next l
  intro y
  have lanes : y = (lanesAfter _ (s.effectsOn x.div (x.item name (x.nextWord w))) x.next).get l :=
    congrArg (fun q => Quad.get q l) runs.handed.lanes_
  rw [lanes, frame, state, ctx, h.effects, handled]
  exact ⟨rfl, rfl, rfl⟩

/-- The capture's counts (R112). -/
theorem counts (ends : e.kind = .error ∨ e.kind = .stop ∨ e.kind = .partialFrame) :
    ∃ c', (u.lanesSample x.div (x.item name (x.nextWord w))).1.sto.capture name = some c' ∧ c'.head = c.head ∧
      c'.frames.get l = min 65535 (c.frames.get l + if e.kind = .error then 0 else 1) ∧
      c'.errors.get l = min 65535 (c.errors.get l + if e.kind = .error then 1 else 0) := by
  obtain ⟨c', hc', record⟩ := runs.handed.capture
  refine ⟨c', hc', by rw [record]; rfl, ?_, ?_⟩
  · have count : c'.frames.get l = satAdd Config.max16 (c.frames.get l)
        ((s.effectsOn x.div (x.item name (x.nextWord w))).get l).frames := by
      rw [record]
      exact get_numbered _ l
    rw [count, h.effects, laneEffects_frames]
    obtain kind | kind | kind := ends <;> rw [List.filter_singleton, kind] <;> rfl
  · have count : c'.errors.get l = satAdd Config.max16 (c.errors.get l)
        ((s.effectsOn x.div (x.item name (x.nextWord w))).get l).errors := by
      rw [record]
      exact get_numbered _ l
    rw [count, h.effects, laneEffects_errors]
    obtain kind | kind | kind := ends <;> rw [List.filter_singleton, kind] <;> rfl

/-- With the other lanes OFF the event is the only one that comes to the list (R138). -/
theorem entry (cap : k.capture = name) (alone : ∀ m, m ≠ l → (s.lanes.get m).state = .off)
    (room : s.evl.events.length < 8192) {d : Capture} (head : d.head = c.head)
    (held : ∀ o, c.origin = some o →
      ((o + (u.lanesSample x.div (x.item name (x.nextWord w))).1.sto.oldestIndex d * c.div : Nat) : Int) ≤
        (correctedTimes (s.skewOf (timeChannel k.cfg)) k.lastStart e).1) :
    (u.lanesSample x.div (x.item name (x.nextWord w))).1.evl.events = s.evl.events ++
      [{ eventOf l (k.closed hunt) (s.acq.plan.matchLists.get l) (s.skewOf (timeChannel k.cfg)) k.lastStart e with
        seq := s.evl.nextSeq }] := by
  obtain ⟨v, entered, evl, capture⟩ := runs.enters
  rw [entered, State.enterEvents, show ((s.allEffects _ _).map fun y => y.events) = _ from h.events alone, enterAll_loneEvent] at held ⊢
  have hc : v.sto.capture (eventOf l (k.closed hunt) (s.acq.plan.matchLists.get l) (s.skewOf (timeChannel k.cfg)) k.lastStart e).cap =
      some (c.countLanes (s.effectsOn x.div (x.item name (x.nextWord w)))) :=
    (congrArg v.sto.capture cap).trans capture
  rw [enterEvent_newest hc (by rw [evl]; exact room) (d := d) head held, evl]

end FrameEnds

/-! ## A sample on which no channel changes -/

section Quiet

variable {x : Sampling} {w : ChannelWord} (still : x.prev = some (x.nextWord w)) (name : CapName) (ch : Nat)

include still

theorem item_rises_still : (x.item name (x.nextWord w)).rises ch = false := by
  simp [SampleItem.rises, Sampling.item, still]

theorem item_falls_still : (x.item name (x.nextWord w)).falls ch = false := by
  simp [SampleItem.falls, Sampling.item, still]

theorem item_changes_still : (x.item name (x.nextWord w)).changes ch = false := by
  simp [SampleItem.changes, item_rises_still still, item_falls_still still]

end Quiet

theorem timedOut_of_late {since : Option Nat} {q timeout raw : Nat} (h : since = some q) (late : q + timeout ≤ raw) :
    timedOut since timeout raw = true := by
  subst h
  exact decide_eq_true late

theorem not_timedOut_of_early {since : Option Nat} {q timeout raw : Nat} (h : since = some q) (early : raw < q + timeout) :
    timedOut since timeout raw = false := by
  subst h
  exact decide_eq_false (Nat.not_le.2 early)

theorem shortWord_eq_nil {k : LaneCtx} (noWord : k.word = none) (frame : Nat) (msb : Bool) (least t : Nat) :
    k.shortWord frame msb least t = [] := by
  simp [LaneCtx.shortWord, LaneCtx.bits, noWord]

/-- The event with which a frame ends by itself or is cut off (R109, R116, R118, R123). -/
def LaneCtx.ending (k : LaneCtx) (frame : Nat) (kind : EventKind) (err : Option ErrKind) (value : Option Nat) (t : Nat) : Emission :=
  { kind, frame, pos := k.wordPos, value, attrs := if kind ≠ .error ∧ k.truncated = true then 0x80 else 0, err, bits := none,
    rawStart := t, rawEnd := t }

theorem stopEvent_eq_ending (k : LaneCtx) (frame t : Nat) : k.stopEvent frame t = k.ending frame .stop none none t := by
  simp [LaneCtx.stopEvent, LaneCtx.plainEvent, LaneCtx.ending]

section Cases

variable {s : State} {x : Sampling} {name : CapName} {l : Four} {k : LaneCtx} {w : ChannelWord} (quiet : s.quietLane x w l k)

include quiet

theorem frameEnds_of_ends {basis : HuntBasis} {kind : EventKind} {err : Option ErrKind} {row : Happening}
    (inFrame : (s.lanes.get l).state = .inFrame ∨ (s.lanes.get l).state = .draining)
    (untested : kind ≠ .addr ∧ kind ≠ .word)
    (step : ((s.lanes.get l).work l k).inside x.div (x.item name (x.nextWord w)) = ((s.lanes.get l).work l k).ends k basis
      [k.ending (s.lanes.get l).frame kind err none x.nextRaw] [row]) :
    FrameEnds s x name l k w (s.lanes.get l).state.afterFrame (if (s.lanes.get l).state = .draining then none else some basis)
      (k.ending (s.lanes.get l).frame kind err none x.nextRaw) row :=
  ⟨laneHandle_ends l quiet.1 quiet.2.1 inFrame step, untested⟩

theorem frameEnds_of_cut {limit : Nat} {kctx : KindCtx} (draining : (s.lanes.get l).state = .draining)
    (atLimit : k.drainLimit = some limit) (reached : limit ≤ x.nextRaw)
    (step : ((s.lanes.get l).work l k).inside x.div (x.item name (x.nextWord w)) =
      ((s.lanes.get l).work l k).goesOn (k.withKctx kctx) []) :
    FrameEnds s x name l k w .held none (k.ending (s.lanes.get l).frame .partialFrame none (some k.wordPos) x.nextRaw)
      (.drainLimit l) := by
  refine ⟨(laneHandle_cut l quiet.1 quiet.2.1 draining (c' := k.withKctx kctx) atLimit reached step).trans ?_, nofun, nofun⟩
  cases truncated : k.truncated <;>
    simp [LaneCtx.ending, LaneCtx.leftFrame, LaneCtx.closed, LaneCtx.withKctx, Sampling.item, truncated]

variable (inFrame : (s.lanes.get l).state = .inFrame ∨ (s.lanes.get l).state = .draining)

include inFrame

theorem frameEnds_stall (kind : k.cfg.kind = .twoWire) {e : Nat} (edge : k.kctx.clockEdge = some e)
    (late : e + k.cfg.timeout ≤ x.nextRaw) :
    FrameEnds s x name l k w (s.lanes.get l).state.afterFrame
      (if (s.lanes.get l).state = .draining then none else some { qualified := true, since := none })
      (k.ending (s.lanes.get l).frame .error (some .stall) none x.nextRaw) (.twoWireStall l) := by
  have still := quiet.2.2
  refine frameEnds_of_ends quiet inFrame ⟨nofun, nofun⟩ ?_
  rw [LaneWork.inside_twoWire _ kind, LaneWork.twoWireFrame_stalls (item_changes_still still name _)
    (LaneState.inside_of_frame inFrame) (timedOut_of_late edge late)
    (by simp [item_falls_still still]) (by simp [item_rises_still still])]
  rfl

theorem frameEnds_asyncIdle (kind : k.cfg.kind = .async) (free : k.kctx.char = none) {q : Nat} (since : k.kctx.idleSince = some q)
    (ready : k.kctx.waitIdle = false) (idle : (x.nextWord w).getLsbD k.cfg.data = k.cfg.idleHigh)
    (late : q + k.cfg.timeout ≤ x.nextRaw) :
    FrameEnds s x name l k w (s.lanes.get l).state.afterFrame
      (if (s.lanes.get l).state = .draining then none else some { qualified := true, since := none })
      (k.ending (s.lanes.get l).frame .stop none none x.nextRaw) (.asyncIdleEnd l) := by
  have rests : ((s.lanes.get l).work l k).asyncStep x.div (x.item name (x.nextWord w)) = _ :=
    (LaneWork.asyncStep_rests free (by simp [item_changes_still quiet.2.2])).trans (LaneWork.goesOn_self _).symm
  refine frameEnds_of_ends quiet inFrame ⟨nofun, nofun⟩ ?_
  rw [LaneWork.inside_async kind, LaneWork.asyncFrame_ends rests
    (asyncEnds_iff.2 ⟨free, idle, ready, timedOut_of_late since late⟩), Lane.work_ctx, stopEvent_eq_ending]
  rfl

variable (noWord : k.word = none)

include noWord

theorem frameEnds_clockedIdle (kind : k.cfg.kind = .clocked) (select : k.cfg.select = none) {e : Nat}
    (edge : k.kctx.clockEdge = some e) (late : e + k.cfg.timeout ≤ x.nextRaw) :
    FrameEnds s x name l k w (s.lanes.get l).state.afterFrame
      (if (s.lanes.get l).state = .draining then none else some { qualified := false, since := some e })
      (k.ending (s.lanes.get l).frame .stop none none x.nextRaw) (.clockedIdleEnd l) := by
  refine frameEnds_of_ends quiet inFrame ⟨nofun, nofun⟩ ?_
  rw [LaneWork.inside_clocked _ kind, LaneWork.clockedFrame_idle select (item_changes_still quiet.2.2 name _)
    (timedOut_of_late edge late), Lane.work_ctx, shortWord_eq_nil noWord, stopEvent_eq_ending, edge]
  rfl

theorem frameEnds_biphaseIdle (kind : k.cfg.kind = .biphase) {e : Nat} (reference : k.kctx.reference = some e)
    (late : e + k.cfg.timeout ≤ x.nextRaw) :
    FrameEnds s x name l k w (s.lanes.get l).state.afterFrame
      (if (s.lanes.get l).state = .draining then none else some { qualified := false, since := some e })
      (k.ending (s.lanes.get l).frame .stop none none x.nextRaw) (.biphaseIdleEnd l) := by
  refine frameEnds_of_ends quiet inFrame ⟨nofun, nofun⟩ ?_
  rw [LaneWork.inside_biphase kind, LaneWork.biphaseFrame_idle reference (by simp [item_changes_still quiet.2.2])
    late, Lane.work_ctx, shortWord_eq_nil noWord, stopEvent_eq_ending]
  rfl

end Cases

/-- What keeps a frame open on a sample on which no channel changes: its clock or its interval is not yet timed out, its select is there
still, or its line is not idle (R116, R117, R118, R120, R122). -/
def LaneCtx.staysOpen (k : LaneCtx) (x : Sampling) (w : ChannelWord) : Prop :=
  ((k.cfg.kind = .twoWire ∨ (k.cfg.kind = .clocked ∧ k.cfg.select = none)) ∧
      (∃ e, k.kctx.clockEdge = some e ∧ x.nextRaw < e + k.cfg.timeout)) ∨
    (k.cfg.kind = .clocked ∧ k.cfg.select ≠ none) ∨
    (k.cfg.kind = .async ∧ k.kctx.char = none ∧
      (k.kctx.idleSince = none ∨ ¬ (x.nextWord w).getLsbD k.cfg.data = k.cfg.idleHigh)) ∨
    (k.cfg.kind = .biphase ∧ ∃ e, k.kctx.reference = some e ∧ x.nextRaw < e + k.cfg.timeout)

section StaysOpen

variable {s : State} {x : Sampling} {l : Four} {k : LaneCtx} {w : ChannelWord} (still : x.prev = some (x.nextWord w))
  (name : CapName)

include still

theorem clockedFrame_still {v : LaneWork} (lively : v.ctx.cfg.select = none →
    timedOut v.ctx.kctx.clockEdge v.ctx.cfg.timeout x.nextRaw = false) : v.clockedFrame (x.item name (x.nextWord w)) =
      v.goesOn (v.ctx.withKctx (LaneWork.clockedMarks v.ctx.cfg (x.item name (x.nextWord w)) v.ctx.kctx)) [] := by
  refine LaneWork.clockedFrame_goesOn ?_ (LaneWork.clockedBit_skips ?_)
  · rintro (⟨turns, -⟩ | ⟨select, -, late⟩)
    · unfold LaneWork.selectTurns at turns
      cases select : v.ctx.cfg.select <;> simp [select, item_changes_still still] at turns
    · exact absurd late (by rw [show (x.item name (x.nextWord w)).raw = x.nextRaw from rfl, lively select]; nofun)
  · rintro ⟨sampling, -⟩
    have change := LaneWork.clock_changes_of_sampling sampling
    rw [item_changes_still still] at change
    cases change

/-- Such a frame goes on, with its events and its place in the frame as they were. -/
theorem inside_staysOpen (stays : k.staysOpen x w) : ∃ kctx, ((s.lanes.get l).work l k).inside x.div (x.item name (x.nextWord w)) =
    ((s.lanes.get l).work l k).goesOn (k.withKctx kctx) [] := by
  have changes := item_changes_still still name
  obtain ⟨kind | ⟨kind, _⟩, e, edge, early⟩ | ⟨kind, select⟩ | ⟨kind, free, busy⟩ | ⟨kind, e, reference, early⟩ := stays
  · refine ⟨k.kctx, ?_⟩
    rw [LaneWork.inside_twoWire _ kind, LaneWork.twoWireFrame_waits (changes _) (not_timedOut_of_early edge early)
      (by simp [item_falls_still still]) (by simp [item_rises_still still])]
    exact (LaneWork.goesOn_self _).symm
  · rw [LaneWork.inside_clocked _ kind]
    exact ⟨_, clockedFrame_still still name fun _ => not_timedOut_of_early edge early⟩
  · rw [LaneWork.inside_clocked _ kind]
    exact ⟨_, clockedFrame_still still name fun none_ => absurd none_ select⟩
  · refine ⟨k.kctx, ?_⟩
    have rests : ((s.lanes.get l).work l k).asyncStep x.div (x.item name (x.nextWord w)) = _ :=
      (LaneWork.asyncStep_rests free (by simp [changes])).trans (LaneWork.goesOn_self _).symm
    rw [LaneWork.inside_async kind, LaneWork.asyncFrame_goesOn rests]
    · rfl
    · rintro ends
      obtain ⟨-, idle, -, late⟩ := asyncEnds_iff.1 ends
      obtain unknown | active := busy
      · rw [Lane.work_ctx, unknown] at late
        cases late
      · exact active idle
  · refine ⟨k.kctx, ?_⟩
    rw [LaneWork.inside_biphase kind, LaneWork.biphaseFrame_waits reference (by simp [changes]) early]
    exact (LaneWork.goesOn_self _).symm

end StaysOpen

/-- Settles O53: a row of a lane is the sample step with that row among what the lane brings about; where a frame ends on a sample on
which no channel changes, the lane's handling is the frame's end with one event, which is handed on and entered. -/
theorem laneFrameEnds : Obligations.LaneFrameEnds := by
  refine ⟨fun s x name c l w wf h => fun _ _ row => ⟨exec_laneRow wf h row, exec_laneRow_idle wf h row⟩,
    fun s x name c l k w wf h later runsOn quiet cap noWord => ?_⟩
  obtain ⟨n, b, u, runs⟩ := laterSample_runsOn w wf h later runsOn
  extract_lets raw lane idle skew ends inFrame own
  have entered : ∀ {i row after hunt kind err value}, (i, row) ∈ laneRows l w →
      (kind = EventKind.error ∨ kind = .stop ∨ kind = .partialFrame) →
      FrameEnds s x name l k w after hunt (k.ending lane.frame kind err value raw) row → ends i after hunt kind err value := by
    intro i row after hunt kind err value mem kinds ending
    have next : exec i s = _ := (exec_laneRow wf h mem (by rw [ending.handles]; exact List.mem_singleton_self row)).trans
      ((congrArg (exec · s) (if_neg later)).trans runs.next)
    have last : (correctedTimes (s.skewOf (timeChannel k.cfg)) k.lastStart (k.ending lane.frame kind err value raw)).1 =
        (match k.lastStart with | some y => max y ((raw : Int) - skew) | none => (raw : Int) - skew) := by
      rw [timeChannel_eq]
      unfold correctedTimes
      cases k.lastStart
      · rfl
      · exact max_comm _ _
    obtain ⟨state, frame, ctx⟩ := ending.lane runs
    obtain ⟨c', hc', head, frames, errors⟩ := ending.counts runs kinds
    refine ⟨_, _, c', next, runs.handed.timebase.trans runs.held.timebase, runs.handed.acq.trans runs.acq, last, state, frame, ctx,
      hc', frames, errors, fun alone room held => ⟨_, ending.entry runs cap alone room head held, rfl, cap, rfl, rfl, rfl, rfl, rfl,
        rfl, rfl, ?_⟩⟩
    have untested : matchSet k.cfg.kind (s.acq.plan.matchLists.get l) (k.ending lane.frame kind err value raw) = [] := by
      rw [matchSet_eq, if_neg (not_or.2 ending.untested)]
    show ((matchSet k.cfg.kind _ _).filter _).map _ = _
    rw [untested]
    rfl
  refine ⟨fun inside kind ⟨e, edge, late⟩ => entered (by simp [laneRows]) (.inl rfl) (frameEnds_stall quiet inside kind edge late),
    fun e inside kind select edge late => entered (by simp [laneRows]) (.inr (.inl rfl))
      (frameEnds_clockedIdle quiet inside noWord kind select edge late),
    fun q inside kind free since ready atIdle late => entered (by simp [laneRows]) (.inr (.inl rfl))
      (frameEnds_asyncIdle quiet inside kind free since ready atIdle late),
    fun e inside kind reference late => entered (by simp [laneRows]) (.inr (.inl rfl))
      (frameEnds_biphaseIdle quiet inside noWord kind reference late),
    fun limit draining atLimit reached stays => ?_⟩
  obtain ⟨kctx, step⟩ := inside_staysOpen (s := s) (l := l) quiet.2.2 name stays
  exact entered (by simp [laneRows]) (.inr (.inr rfl)) (frameEnds_of_cut quiet draining atLimit reached step)

end Sys2Proof.Machine
end

section
/-! SUPPORT. The ready state of the event list's ports (R145): what one check does, and the end of a request. -/

namespace Sys2Proof.Machine

open Sys2Proof

/-- The backlog of a port's state reaches its threshold (R145). -/
def Evl.full (e : Evl) (x : EventPort) : Bool := decide (x.threshold ≤ (e.events.filter fun f => x.cursor ≤ f.seq).length)

/-- A PRIMED port whose backlog has reached its threshold becomes SPENT; nothing else of EVL changes. -/
theorem checkReady_evl (s : State) (p : Port) :
    (s.checkReady p).evl = { s.evl with port := s.evl.port.set p { s.evl.port.get p with
      primed := (s.evl.port.get p).primed && !s.evl.full (s.evl.port.get p) } } := by
  have spent : (readyCheck (s.evl.port.get p) (s.evl.backlog p)).1 = { s.evl.port.get p with
      primed := (s.evl.port.get p).primed && !s.evl.full (s.evl.port.get p) } := by
    unfold readyCheck Evl.full Evl.backlog
    generalize s.evl.port.get p = x
    obtain ⟨cursor, missed, threshold, primed⟩ := x
    cases primed
    · rfl
    · by_cases reached : threshold ≤ (s.evl.events.filter fun f => cursor ≤ f.seq).length <;> simp [reached]
  unfold State.checkReady
  rw [← spent]
  dsimp only
  split <;> rfl

/-- The check raises EVENTS_READY to its port, and no other class, when it makes the port SPENT. -/
theorem checkReady_hasNotice (s : State) (p q : Port) (n : Notice) :
    (s.checkReady p).hasNotice q n = (s.hasNotice q n ||
      (decide (q = p) && decide (n = .eventsReady)) && ((s.evl.port.get p).primed && s.evl.full (s.evl.port.get p))) := by
  have raised : (readyCheck (s.evl.port.get p) (s.evl.backlog p)).2 =
      ((s.evl.port.get p).primed && s.evl.full (s.evl.port.get p)) := by
    unfold readyCheck Evl.full Evl.backlog
    split
    · next reached => exact reached.symm
    · next short => exact (Bool.eq_false_iff.2 short).symm
  unfold State.checkReady
  rw [← raised]
  dsimp only
  split
  · next r => rw [hasNotice_raise, r, Bool.and_true]; rfl
  · next r => rw [Bool.eq_false_iff.2 r, Bool.and_false, Bool.or_false]; rfl

/-- The check reaches EVL and the ports alone. -/
theorem checkReady_only (s : State) (p : Port) :
    s.checkReady p = (s.setEvl (s.checkReady p).evl).setPorts (s.checkReady p).ports := by
  unfold State.checkReady
  dsimp only
  split <;> rfl

/-- The end of a request of EVL that has set the port's state (R145). -/
theorem rearmReady_modifyEventPort (s : State) (p : Port) (f : EventPort → EventPort) :
    (s.modifyEventPort p f).rearmReady p = s.afterEventRequest p (f (s.evl.port.get p)) := by
  unfold State.rearmReady State.checkReady State.modifyEventPort State.afterEventRequest readyRearm Evl.backlog
  generalize f (s.evl.port.get p) = x
  obtain ⟨cursor, missed, threshold, primed⟩ := x
  by_cases short : (s.evl.events.filter fun f => cursor ≤ f.seq).length < threshold
  · have below : ¬ threshold ≤ (s.evl.events.filter fun f => cursor ≤ f.seq).length := Nat.not_le.2 short
    simp [readyCheck, short, below]
  · cases primed <;> simp [readyCheck, short, Nat.not_lt.1 short]

end Sys2Proof.Machine
end

section
/-! SUPPORT. The law of sequence of the event list (R137) and the block map's form (R31) along every operation of STO and EVL. -/

namespace Sys2Proof.Machine

open Sys2Proof

/-! ## The law of sequence (R137): what changes the list -/

namespace Evl.lawful

variable {e : Evl}

/-- A listed event's sequence number. -/
theorem seq_range (h : e.lawful) {x : Event} (listed : x ∈ e.events) : 1 ≤ x.seq ∧ x.seq < e.nextSeq := by
  obtain ⟨-, bounds, -⟩ := h
  exact bounds x listed

/-- A port's cursor. -/
theorem cursor_range (h : e.lawful) (p : Port) : 1 ≤ (e.port.get p).cursor ∧ (e.port.get p).cursor ≤ e.nextSeq := by
  obtain ⟨-, -, cursors, -⟩ := h
  exact cursors p

/-- The next sequence is at least 1. -/
theorem one_le_nextSeq (h : e.lawful) : 1 ≤ e.nextSeq := (h.cursor_range .a).1.trans (h.cursor_range .a).2

/-- Events leave the list, in any choice, with their missed counts (R141 to R143). -/
theorem remove (h : e.lawful) (gone : Event → Bool) : (e.remove gone).lawful := by
  obtain ⟨rising, bounds, cursors, room⟩ := h
  refine ⟨rising.filter _, fun x hx => bounds x (List.mem_of_mem_filter hx), fun p => ?_, (List.length_filter_le _ _).trans room⟩
  cases p
  · exact cursors .a
  · exact cursors .b

/-- A port's state changes, with a cursor in range. -/
theorem setPort (h : e.lawful) (p : Port) {x : EventPort} (low : 1 ≤ x.cursor) (high : x.cursor ≤ e.nextSeq) :
    Evl.lawful { e with port := e.port.set p x } := by
  obtain ⟨rising, bounds, cursors, room⟩ := h
  refine ⟨rising, bounds, fun q => ?_, room⟩
  dsimp only
  by_cases same : q = p
  · rw [same, perPort_get_set]
    exact ⟨low, high⟩
  · rw [perPort_get_set_ne _ _ same]
    exact cursors q

/-- An event is entered where there is room, with the next sequence (R138). -/
theorem append (h : e.lawful) (room : e.events.length < Config.eventCapacity) (x : Event) :
    Evl.lawful { e with events := e.events ++ [{ x with seq := e.nextSeq }], nextSeq := e.nextSeq + 1 } := by
  have first := h.one_le_nextSeq
  obtain ⟨rising, bounds, cursors, -⟩ := h
  refine ⟨List.pairwise_append.2 ⟨rising, List.pairwise_singleton _ _, fun y hy z hz => ?_⟩, fun y hy => ?_,
    fun p => ⟨(cursors p).1, Nat.le_succ_of_le (cursors p).2⟩, ?_⟩
  · obtain rfl := List.mem_singleton.1 hz
    exact (bounds y hy).2
  · obtain old | new := List.mem_append.1 hy
    · exact ⟨(bounds y old).1, Nat.lt_succ_of_lt (bounds y old).2⟩
    · obtain rfl := List.mem_singleton.1 new
      exact ⟨first, Nat.lt_succ_self _⟩
  · rw [List.length_append, List.length_singleton]
    exact room

/-- ENGINE_RESET empties the list and moves both cursors to the next sequence (R144). -/
theorem engineReset (h : e.lawful) : e.engineReset.lawful := by
  refine ⟨List.Pairwise.nil, fun _ hx => (nomatch hx), fun p => ?_, Nat.zero_le _⟩
  cases p <;> exact ⟨h.one_le_nextSeq, Nat.le_refl _⟩

/-- PORT_RESET moves its port's cursor to the next sequence (R144). -/
theorem portReset (h : e.lawful) (p : Port) : (e.portReset p).lawful := h.setPort p h.one_le_nextSeq (Nat.le_refl _)

end Evl.lawful

/-! ## Both forms along a step -/

/-- What a step owes to the law of sequence and to the block map's form. -/
structure FormsKept (s t : State) : Prop where
  list : s.evl.lawful → t.evl.lawful
  map : s.sto.wf = true → t.sto.wf = true

/-- What the two forms read: EVL and the block map. -/
def State.forms (s : State) : Evl × List (Nat × Block) := (s.evl, s.sto.blocks)

theorem forms_eq_iff {s t : State} : t.forms = s.forms ↔ t.evl = s.evl ∧ t.sto.blocks = s.sto.blocks := Prod.mk_inj

namespace FormsKept

variable {s t u : State}

theorem refl (s : State) : FormsKept s s := ⟨id, id⟩

theorem trans (h : FormsKept s t) (k : FormsKept t u) : FormsKept s u := ⟨k.list ∘ h.list, k.map ∘ h.map⟩

theorem of_forms (h : t.forms = s.forms) : FormsKept s t := by
  obtain ⟨evl, blocks⟩ := forms_eq_iff.1 h
  exact ⟨fun l => evl ▸ l, wf_of_blocks blocks⟩

/-- A step that leaves EVL as it was. -/
theorem of_store (evl : t.evl = s.evl) (wf : s.sto.wf = true → t.sto.wf = true) : FormsKept s t := ⟨fun l => evl ▸ l, wf⟩

/-- A step that leaves the block map as it was. -/
theorem of_list (lawful : s.evl.lawful → t.evl.lawful) (blocks : t.sto.blocks = s.sto.blocks) : FormsKept s t :=
  ⟨lawful, wf_of_blocks blocks⟩

end FormsKept

theorem OnlyPorts.formsKept {s t : State} (h : OnlyPorts s t) : FormsKept s t := by
  unfold OnlyPorts at h
  rw [h]
  exact .of_forms rfl

/-! ## Operations that reach neither EVL nor the block map -/

section

variable (s : State)

@[simp] theorem forms_setTimebase (x : Nat) : (s.setTimebase x).forms = s.forms := rfl
@[simp] theorem forms_advanceTo (x : Nat) : (s.advanceTo x).forms = s.forms := rfl
@[simp] theorem forms_setPods (x : Quad Pod) : (s.setPods x).forms = s.forms := rfl
@[simp] theorem forms_setPod (i : Four) (x : Pod) : (s.setPod i x).forms = s.forms := rfl
@[simp] theorem forms_setSmp (x : Option Sampling) : (s.setSmp x).forms = s.forms := rfl
@[simp] theorem forms_setAcq (x : Acq) : (s.setAcq x).forms = s.forms := rfl
@[simp] theorem forms_setTrg (x : Trg) : (s.setTrg x).forms = s.forms := rfl
@[simp] theorem forms_setLanes (x : Quad Lane) : (s.setLanes x).forms = s.forms := rfl
@[simp] theorem forms_setVrn (x : Vrn) : (s.setVrn x).forms = s.forms := rfl
@[simp] theorem forms_setPort (p : Port) (x : PortCtl) : (s.setPort p x).forms = s.forms := rfl
@[simp] theorem forms_raise (p : Port) (n : Notice) : (s.raise p n).forms = s.forms := rfl
@[simp] theorem forms_raiseBoth (n : Notice) : (s.raiseBoth n).forms = s.forms := rfl
@[simp] theorem forms_setFreeIx (x : Nat) : (s.setFreeIx x).forms = s.forms := rfl
@[simp] theorem forms_renderGone (p : Port) : (s.renderGone p).forms = s.forms := rfl

@[simp] theorem forms_modifyCapture (name : CapName) (f : Capture → Capture) : (s.modifyCapture name f).forms = s.forms :=
  forms_eq_iff.2 ⟨rfl, modify_blocks _ _ _⟩

@[simp] theorem forms_modifyActive (f : Capture → Capture) : (s.modifyActive f).forms = s.forms := by
  unfold State.modifyActive
  split
  · exact forms_modifyCapture _ _ _
  · rfl

@[simp] theorem forms_noteMatches (fx : Quad LaneEffects) : (s.noteMatches fx).forms = s.forms := by
  unfold State.noteMatches
  split <;> rfl

@[simp] theorem forms_setOrigin (x : Sampling) : (s.setOrigin x).forms = s.forms := by
  unfold State.setOrigin
  split
  · exact forms_modifyActive s _
  · rfl

@[simp] theorem forms_beginPulse : s.beginPulse.forms = s.forms := by
  unfold State.beginPulse
  dsimp only
  split <;> rfl

@[simp] theorem forms_stageActions (a : StageActions) (n : Nat) : (s.stageActions a n).forms = s.forms := by
  unfold State.stageActions
  dsimp only
  split <;> split <;> simp

@[simp] theorem forms_declare (source : TrigSource) (t : Nat) : (s.declare source t).forms = s.forms := by
  unfold State.declare
  cases s.acq.active <;> simp

/-! ### The renderer, PRB, the plan and the engine -/

@[simp] theorem forms_afterFetch (p : Port) (n : Nat) : (s.afterFetch p n).forms = s.forms := by
  unfold State.afterFetch
  dsimp only
  split
  · split <;> rfl
  · split <;> rfl
  · rfl

@[simp] theorem forms_cancelRender (p : Port) : (s.cancelRender p).forms = s.forms := by
  unfold State.cancelRender
  split <;> rfl

@[simp] theorem forms_resetRender (p : Port) : (s.resetRender p).forms = s.forms := by
  unfold State.resetRender
  split <;> rfl

@[simp] theorem forms_queueItem (p : Port) (x : RenderCtx) (item : Item) : (s.queueItem p x item).forms = s.forms := by
  unfold State.queueItem
  dsimp only
  split <;> rfl

theorem forms_renderStartAnswer (p : Port) (slot : Byte) (num : BitVec 16) (start width : BitVec 64) (columns : BitVec 16)
    (channels : List Byte) (lanes : Byte) :
    (renderStartAnswer p slot num start width columns channels lanes s).1.forms = s.forms := by
  unfold renderStartAnswer
  split
  · rfl
  · rfl
  · dsimp only
    split <;> rfl

theorem forms_renderFetchAnswer (p : Port) (count : Byte) : (renderFetchAnswer p count s).1.forms = s.forms := by
  unfold renderFetchAnswer
  split
  · rfl
  · dsimp only
    split
    · simp
    · split <;> rfl

theorem forms_podRescanAnswer (pod : Byte) : (podRescanAnswer pod s).1.forms = s.forms := by
  unfold podRescanAnswer
  split
  · rfl
  · split
    · rfl
    · split <;> rfl

theorem forms_failAttempt (i : Four) (signs : List BusSign) (t : Nat) : (s.failAttempt i signs t).forms = s.forms := by
  rw [failAttempt_eq]
  split <;> rfl

theorem forms_finishAttempt (i : Four) (bytes : List Byte) (t : Nat) : (s.finishAttempt i bytes t).forms = s.forms := by
  rw [finishAttempt_eq]
  rfl

@[simp] theorem forms_losePod (i : Four) (moment : Nat) : (s.losePod i moment).forms = s.forms := by
  unfold State.losePod
  split
  · split
    · dsimp only
      split <;> simp
    · rfl
  · rfl

theorem forms_editIdle (p : Port) (plan : Plan) : (s.editIdle p plan).1.forms = s.forms := by
  unfold State.editIdle
  split <;> rfl

theorem forms_editProbe (p : Port) (x : ProbePlan) : (s.editProbe p x).1.forms = s.forms := by
  simp [State.editProbe, State.copyThresholds, State.acceptPlan]

theorem forms_editMatch (p : Port) (l : Four) (entries : List MatchEntry) : (s.editMatch p l entries).1.forms = s.forms := by
  unfold State.editMatch
  split
  · rfl
  · simp [State.acceptPlan]

theorem forms_inRangeOr {α : Type} (sec : Section) (r : Except FieldFault α) {f : α → State × Answer}
    (h : ∀ x, (f x).1.forms = s.forms) : (s.inRangeOr sec r f).1.forms = s.forms := by
  unfold State.inRangeOr
  split
  · rfl
  · exact h _

theorem forms_planEditAnswer (p : Port) (sec : Byte) (expected : BitVec 32) (contents : List Byte) :
    (planEditAnswer p sec expected contents s).1.forms = s.forms := by
  unfold planEditAnswer
  split
  · rfl
  · split
    · rfl
    · exact forms_inRangeOr _ _ _ fun _ => forms_editIdle _ _ _
    · exact forms_inRangeOr _ _ _ fun _ => forms_editProbe _ _ _
    · exact forms_inRangeOr _ _ _ fun _ => forms_editIdle _ _ _
    · exact forms_inRangeOr _ _ _ fun _ => forms_editIdle _ _ _
    · exact forms_inRangeOr _ _ _ fun _ => forms_editMatch _ _ _ _

theorem forms_forceAnswer : (forceAnswer s).1.forms = s.forms := by
  unfold forceAnswer
  split
  · dsimp only
    split <;> rfl
  · dsimp only
    split <;> rfl
  · rfl

/-! ### The store's requests that change no block -/

theorem forms_retainAnswer (p : Port) (slot : Byte) (num : BitVec 16) : (retainAnswer p slot num s).1.forms = s.forms := by
  unfold retainAnswer
  split
  · rfl
  · split
    · exact forms_modifyCapture _ _ _
    · rfl

theorem forms_releaseAnswer (p : Port) (slot : Byte) (num : BitVec 16) : (releaseAnswer p slot num s).1.forms = s.forms := by
  unfold releaseAnswer
  split
  · rfl
  · split
    · exact forms_modifyCapture _ _ _
    · rfl

theorem forms_storeHealthAnswer (clear : Byte) : (storeHealthAnswer clear s).1.forms = s.forms := by
  unfold storeHealthAnswer
  dsimp only
  split <;> rfl

theorem forms_storeTestAnswer (kind : Byte) : (storeTestAnswer kind s).1.forms = s.forms := by
  unfold storeTestAnswer
  split <;> rfl

end

/-! ## Removals and events (R40, R45, R138 to R143) -/

theorem removeCapture_formsKept (s : State) (i : Four) : FormsKept s (s.removeCapture i) := by
  refine ⟨fun l => ?_, removeCapture_wf s i⟩
  unfold State.removeCapture
  split
  · exact l
  · next name _ =>
    rw [(rendersGone_spec _ name).1]
    exact l.remove _

theorem reclaim_formsKept {s t : State} (h : s.reclaim = some t) : FormsKept s t := by
  obtain ⟨i, -, e⟩ := Option.map_eq_some_iff.1 h
  cases e
  exact (removeCapture_formsKept s i).trans (.of_forms rfl)

theorem expireEvents_formsKept (s : State) (name : CapName) (oldest : Nat) : FormsKept s (s.expireEvents name oldest) := by
  unfold State.expireEvents
  extract_lets gone k
  have left_ : FormsKept s (s.setEvl (s.evl.remove fun e => gone e)) := .of_list (fun l => l.remove _) rfl
  exact left_.trans (.of_forms (forms_modifyCapture _ _ _))

theorem checkReady_formsKept (s : State) (p : Port) : FormsKept s (s.checkReady p) := by
  refine .of_list (fun l => ?_) (by rw [checkReady_sto])
  rw [checkReady_evl]
  exact l.setPort p (l.cursor_range p).1 (l.cursor_range p).2

theorem appendEvent_formsKept (s : State) (e : Event) (room : s.evl.events.length < Config.eventCapacity) :
    FormsKept s (s.appendEvent e) := by
  have appended : FormsKept s (s.setEvl { s.evl with
      events := s.evl.events ++ [{ e with seq := s.evl.nextSeq }], nextSeq := s.evl.nextSeq + 1 }) :=
    .of_list (fun l => l.append room e) rfl
  exact (appended.trans (checkReady_formsKept _ .a)).trans (checkReady_formsKept _ .b)

theorem enterWithRoom_formsKept (fuel : Nat) (e : Event) (s : State) : FormsKept s (State.enterWithRoom fuel e s) := by
  induction fuel generalizing s with
  | zero =>
    unfold State.enterWithRoom
    split
    · next room => exact appendEvent_formsKept s e room
    · exact .of_forms (forms_modifyCapture _ _ _)
  | succ n ih =>
    unfold State.enterWithRoom
    split
    · next room => exact appendEvent_formsKept s e room
    · split
      · next hf hr => cases hf; exact (reclaim_formsKept hr).trans (ih _)
      · exact .of_forms (forms_modifyCapture _ _ _)

theorem enterEvent_formsKept (s : State) (e : Event) : FormsKept s (s.enterEvent e) := by
  unfold State.enterEvent
  split
  · exact .refl s
  · split
    · exact .of_forms (forms_modifyCapture _ _ _)
    · exact enterWithRoom_formsKept _ _ _

theorem enterHead_formsKept (s : State) (l : List Event) : FormsKept s (l.head?.elim s s.enterEvent) := by
  cases l with
  | nil => exact .refl s
  | cons e _ => exact enterEvent_formsKept s e

theorem enterAll_formsKept (fuel : Nat) (events : Quad (List Event)) (s : State) :
    FormsKept s (State.enterAll fuel events s) := by
  induction fuel generalizing s events with
  | zero => exact .refl s
  | succ n ih =>
    unfold State.enterAll
    split
    · exact .refl s
    · exact (enterHead_formsKept s _).trans (ih _ _)
    · have chosen : FormsKept s (s.setFreeIx (s.freeIx + 1)) := .of_forms rfl
      exact (chosen.trans (enterHead_formsKept _ _)).trans (ih _ _)

theorem handOn_formsKept (s : State) (lanes : Quad Lane) (out : Quad (List Emission)) (n : Nat) :
    FormsKept s (s.handOn lanes out n).1 := by
  unfold State.handOn
  extract_lets fx
  refine FormsKept.trans ?_ (enterAll_formsKept _ _ _)
  exact .of_forms (by simp)

/-! ## The requests of the event list (R145 to R148) -/

/-- A request that leaves its port's cursor in range keeps the law of sequence, whatever it makes of the ready state. -/
theorem afterEventRequest_formsKept {s : State} {p : Port} {x : EventPort}
    (cursor : s.evl.lawful → 1 ≤ x.cursor ∧ x.cursor ≤ s.evl.nextSeq) : FormsKept s (s.afterEventRequest p x) := by
  unfold State.afterEventRequest
  have moved : ∀ primed, FormsKept s (s.setEvl { s.evl with port := s.evl.port.set p { x with primed := primed } }) :=
    fun _ => .of_list (fun l => l.setPort p (cursor l).1 (cursor l).2) rfl
  dsimp only
  split
  · exact (moved _).trans (.of_forms rfl)
  · exact moved _

theorem rearmReady_formsKept {s : State} {p : Port} {f : EventPort → EventPort}
    (cursor : s.evl.lawful → 1 ≤ (f (s.evl.port.get p)).cursor ∧ (f (s.evl.port.get p)).cursor ≤ s.evl.nextSeq) :
    FormsKept s ((s.modifyEventPort p f).rearmReady p) := by
  rw [rearmReady_modifyEventPort]
  exact afterEventRequest_formsKept cursor

/-- A read moves the cursor past the last event returned, which is below the next sequence (R146). -/
theorem eventsReadAnswer_formsKept (p : Port) (count : Byte) (s : State) : FormsKept s (eventsReadAnswer p count s).1 := by
  unfold eventsReadAnswer
  split
  · exact .refl s
  · extract_lets x evs cursor
    refine rearmReady_formsKept fun l => ?_
    show 1 ≤ cursor ∧ cursor ≤ s.evl.nextSeq
    cases last : evs.getLast? with
    | none => simpa only [cursor, last] using l.cursor_range p
    | some e =>
      have listed : e ∈ s.evl.events := List.mem_of_mem_filter (List.mem_of_mem_take (List.mem_of_getLast? last))
      simp only [cursor, last]
      exact ⟨Nat.le_add_left 1 e.seq, (l.seq_range listed).2⟩

/-- A seek moves the cursor to a listed event, or to the next sequence (R147). -/
theorem seekTo_formsKept {p : Port} {found : Option Event} {s : State} (listed : ∀ e, found = some e → e ∈ s.evl.events) :
    FormsKept s (seekTo p found s).1 := by
  refine rearmReady_formsKept fun l => ?_
  cases found with
  | none => exact ⟨l.one_le_nextSeq, Nat.le_refl _⟩
  | some e => exact ⟨(l.seq_range (listed e rfl)).1, (l.seq_range (listed e rfl)).2.le⟩

theorem eventsSeekAnswer_formsKept (p : Port) (target : SeekTarget) (s : State) :
    FormsKept s (eventsSeekAnswer p target s).1 := by
  unfold eventsSeekAnswer
  split
  · split
    · exact .refl s
    · exact seekTo_formsKept fun _ found => List.mem_of_find?_eq_some found
  · split
    · exact .refl s
    · exact seekTo_formsKept fun _ found => List.mem_of_find?_eq_some found
  · exact rearmReady_formsKept fun l => ⟨l.one_le_nextSeq, Nat.le_refl _⟩
  · exact .refl s

theorem eventsThresholdAnswer_formsKept (p : Port) (threshold : BitVec 16) (s : State) :
    FormsKept s (eventsThresholdAnswer p threshold s).1 := by
  unfold eventsThresholdAnswer
  split
  · exact .refl s
  · exact rearmReady_formsKept fun l => l.cursor_range p

/-! ## Placing and reading records (R38 to R42, R49 to R52) -/

theorem recycle_formsKept (s : State) (name : CapName) (c : Capture) (index : Nat) :
    FormsKept s (s.recycle name c index) := by
  have stored : FormsKept s (s.setSto (s.sto.recycle name c index)) := .of_store rfl (recycle_wf _ _ _ _)
  unfold State.recycle
  dsimp only
  split
  · split
    · exact stored.trans (expireEvents_formsKept _ _ _)
    · exact stored
  · exact stored

theorem nextBlock_formsKept {s t : State} {name : CapName} {c : Capture} {index : Nat} (h : s.nextBlock name c index = some t) :
    FormsKept s t := by
  have recycled : ∀ {u}, (if c.mode = .window && s.sto.canRecycle c then some (s.recycle name c index) else none) = some u →
      FormsKept s u := by
    intro u hu
    split at hu
    · cases hu; exact recycle_formsKept _ _ _ _
    · cases hu
  have appended : ∀ (u : State) {n}, u.sto.lowestFree = some n →
      FormsKept u (u.setSto (u.sto.appendBlock name c n index)) := fun _ _ free =>
    .of_store rfl (appendBlock_wf _ _ _ (lowestFree_lt free))
  unfold State.nextBlock at h
  dsimp only at h
  split at h
  · split at h
    · next free => cases h; exact appended _ free
    · split at h
      · next hr =>
        split at h
        · next free => cases h; exact (reclaim_formsKept hr).trans (appended _ free)
        · exact recycled h
      · exact recycled h
  · exact recycled h

theorem placeRecord_formsKept (s : State) (name : CapName) (word : ChannelWord) (index : Nat) :
    FormsKept s (s.placeRecord name word index).1 := by
  refine ⟨?_, placeRecord_wf s name word index⟩
  unfold State.placeRecord
  split
  · next n b c _ _ =>
    split
    · exact id
    · have sealed_ : FormsKept s (s.setSto (s.sto.seal n)) := .of_store rfl (seal_wf _ _)
      dsimp only
      split
      · next hn =>
        have found := sealed_.trans (nextBlock_formsKept hn)
        split
        · exact found.list
        · exact found.list
      · exact id
  · exact id

theorem holdSample_formsKept (s : State) (x : Sampling) (name : CapName) (word : ChannelWord) :
    FormsKept s (s.holdSample x name word).1 := by
  unfold State.holdSample
  split
  · exact .of_store rfl (extendRecord_wf _ _)
  · exact placeRecord_formsKept _ _ _ _

theorem sealFilling_formsKept (s : State) (name : CapName) : FormsKept s (s.sealFilling name) := by
  unfold State.sealFilling
  split
  · exact .of_store rfl (seal_wf _ _)
  · exact .refl s

theorem noteReads_evl (s : State) (name : CapName) (es : List ReadEntry) : (s.noteReads name es).evl = s.evl := by
  have one : ∀ (u : State) e, (State.noteRead name u e).evl = u.evl := by
    intro u e
    unfold State.noteRead
    split <;> rfl
  induction es generalizing s with
  | nil => rfl
  | cons e es ih => exact (ih _).trans (one s e)

theorem noteReads_formsKept (s : State) (name : CapName) (es : List ReadEntry) : FormsKept s (s.noteReads name es) :=
  .of_store (noteReads_evl s name es) (noteReads_wf s name es)

theorem readRecordsAnswer_formsKept (slot : Byte) (num : BitVec 16) (start : BitVec 64) (count : Byte) (s : State) :
    FormsKept s (readRecordsAnswer slot num start count s).1 := by
  unfold readRecordsAnswer
  split
  · exact .refl s
  · split
    · exact .refl s
    · dsimp only
      split
      · exact .refl s
      · exact noteReads_formsKept _ _ _

/-! ## Arming and the end of a capture (R37, R44, R45, R70 to R75) -/

/-- The first block of a new capture is a FREE one (R37). -/
theorem secureBlock_formsKept {fuel : Nat} {s : State} {r : State × Nat} (h : State.secureBlock fuel s = some r) :
    FormsKept s r.1 ∧ r.2 < Config.blockCount := by
  induction fuel generalizing s with
  | zero =>
    unfold State.secureBlock at h
    split at h
    · next free => cases h; exact ⟨.refl s, lowestFree_lt free⟩
    · cases h
  | succ n ih =>
    unfold State.secureBlock at h
    split at h
    · next free => cases h; exact ⟨.refl s, lowestFree_lt free⟩
    · split at h
      · next hf hr =>
        cases hf
        exact (ih h).imp_left (reclaim_formsKept hr).trans
      · cases h

theorem secure_formsKept {s u : State} {i : Four} {n : Nat} (h : s.secure = some (u, i, n)) :
    FormsKept s u ∧ n < Config.blockCount := by
  unfold State.secure at h
  split at h
  · obtain ⟨r, hr, e⟩ := Option.map_eq_some_iff.1 h
    cases e
    exact secureBlock_formsKept hr
  · split at h
    · next hr =>
      obtain ⟨r, hb, e⟩ := Option.map_eq_some_iff.1 h
      cases e
      exact (secureBlock_formsKept hb).imp_left (reclaim_formsKept hr).trans
    · cases h

theorem completeArm_formsKept (s : State) (i : Four) {n : Nat} (block : n < Config.blockCount) :
    FormsKept s (s.completeArm i n) := .of_store rfl fun w => insertBlock_sorted _ block w

theorem armSteps_formsKept {s u : State} {name : CapName} (h : s.armSteps = .ok (u, name)) : FormsKept s u := by
  unfold State.armSteps at h
  split at h
  · cases h
  · split at h
    · cases h
    · split at h
      · cases h
      · next secured =>
        cases h
        obtain ⟨kept, block⟩ := secure_formsKept secured
        exact kept.trans (completeArm_formsKept _ _ block)

theorem armAnswer_formsKept (s : State) : FormsKept s (armAnswer s).1 := by
  unfold armAnswer
  split
  · exact .refl s
  · split
    · exact .refl s
    · next arm => exact (armSteps_formsKept arm).trans (.of_forms rfl)

theorem rearm_formsKept (s : State) : FormsKept s s.rearm := by
  unfold State.rearm
  split
  · next arm => exact (armSteps_formsKept arm).trans (.of_forms rfl)
  · exact .of_forms rfl

theorem finishWrite_formsKept (s : State) : FormsKept s s.finishWrite := by
  unfold State.finishWrite
  split
  · exact .refl s
  · next name _ =>
    extract_lets s1 removed done_ ended
    have sealed_ : FormsKept s s1 := sealFilling_formsKept s name
    have completed : FormsKept s1 ended := .of_forms (forms_modifyCapture s1 _ _)
    split
    · exact sealed_
    · split
      · exact (sealed_.trans (removeCapture_formsKept s1 _)).trans (.of_forms rfl)
      · dsimp only
        split
        · exact (sealed_.trans completed).trans (rearm_formsKept ended)
        · exact sealed_.trans completed

theorem enterStopping_formsKept (s : State) (why : EndReason) : FormsKept s (s.enterStopping why) := by
  have begun : ∀ u : State, FormsKept u u.beginFinalWrite := fun u => by
    unfold State.beginFinalWrite
    split
    · split
      · exact finishWrite_formsKept u
      · exact .refl u
    · exact .refl u
  have stopped : ∀ (u : State) t n, FormsKept u (u.lanesStop t n) := fun u t n =>
    (handOn_formsKept u _ _ _).trans (.of_forms rfl)
  unfold State.enterStopping
  extract_lets ended
  have marked : FormsKept s (ended.setTrg s.trg.toStandby) := .of_forms (forms_modifyActive s _)
  have halted : ∀ u : State, FormsKept u ((u.setSmp none).stopEngine why) := fun _ => .of_forms rfl
  exact ((marked.trans (stopped _ _ _)).trans (halted _)).trans (begun _)

theorem stopAnswer_formsKept (s : State) : FormsKept s (stopAnswer s).1 := by
  unfold stopAnswer
  split
  · exact .refl s
  · exact .of_forms rfl
  · split
    · exact .of_forms rfl
    · exact enterStopping_formsKept s _

theorem discardActive_formsKept (s : State) : FormsKept s s.discardActive := by
  unfold State.discardActive
  extract_lets s1 s2
  have off : FormsKept s s1 := .of_forms rfl
  have removed : FormsKept s1 s2 := by
    simp only [s2]
    split
    · exact removeCapture_formsKept s1 _
    · exact .refl s1
  exact (off.trans removed).trans (.of_forms rfl)

theorem abortAnswer_formsKept (s : State) : FormsKept s (abortAnswer s).1 := by
  unfold abortAnswer
  split
  · exact .refl s
  · exact .of_forms (forms_modifyActive s _)
  · exact (discardActive_formsKept s).trans (.of_forms rfl)

/-! ## A sample (R21 to R26, R64 to R70) -/

theorem deliver_formsKept (s : State) (D : Nat) (it : SampleItem) : FormsKept s (s.deliver D it).1 :=
  deliver_keeps (R := FormsKept) .refl .trans (fun _ _ => .of_forms rfl)
    (fun a x n => .of_forms (forms_stageActions a x n)) (fun a source t => .of_forms (forms_declare a source t))
    (fun _ => .of_forms rfl) (fun a => handOn_formsKept a _ _ _) enterStopping_formsKept s

theorem takeSample_formsKept (s : State) (w : ChannelWord) : FormsKept s (s.takeSample w).1 := by
  unfold State.takeSample
  split
  · next x name _ _ =>
    extract_lets raw word s1 h
    have timed : FormsKept s s1 := .of_forms (by simp [s1])
    have held : FormsKept s h.1 := timed.trans (holdSample_formsKept s1 x name word)
    have sampled : FormsKept h.1 (h.1.setSmp (some (x.held word))) := .of_forms rfl
    split
    · exact (held.trans sampled).trans (deliver_formsKept _ _ _)
    · exact held.trans (enterStopping_formsKept _ _)
  · exact .refl s

theorem sampleRow_formsKept (s : State) (due : Bool) (w : ChannelWord) :
    FormsKept s (if due then (s.takeSample w).1 else s) := by
  split
  · exact takeSample_formsKept s w
  · exact .refl s

/-! ## The resets (R144, R183, R184, R186) -/

theorem portResetAnswer_formsKept (p : Port) (s : State) : FormsKept s (portResetAnswer p s).1 := by
  have cancelled : FormsKept s ((s.setSto (s.sto.dropRetains p)).cancelRender p) := .of_forms (forms_cancelRender _ p)
  have moved : ∀ u : State, FormsKept u (u.setEvl (u.evl.portReset p)) := fun _ => .of_list (fun l => l.portReset p) rfl
  exact (cancelled.trans (moved _)).trans (.of_forms rfl)

theorem engineResetAnswer_formsKept (p : Port) (s : State) : FormsKept s (engineResetAnswer p s).1 := by
  unfold engineResetAnswer
  split
  · have emptied : ∀ u : State, FormsKept u ((u.setSto u.sto.engineReset).setEvl u.evl.engineReset) := fun _ =>
      ⟨Evl.lawful.engineReset, fun _ => rfl⟩
    have ended : ∀ u : State, FormsKept u ((u.resetRender .a).resetRender .b) := fun _ => .of_forms (by simp)
    unfold State.engineReset
    extract_lets s1 s2 s3 s4
    have idle : FormsKept s s2 := .of_forms rfl
    exact ((idle.trans (emptied s2)).trans (ended s3)).trans (.of_forms rfl)
  · exact .refl s

theorem execNrst_formsKept {s t : State} (h : execNrst s = .next t) : FormsKept s t := by
  cases h
  exact ⟨fun _ => reset_evl_lawful, fun _ => reset_wf⟩

end Sys2Proof.Machine
end

section
/-! SUPPORT. The law of sequence (R137) and the block map's form (R31) on every command, and the proof that every step keeps them (O7). -/

namespace Sys2Proof.Machine

open Sys2Proof

/-! ## The commands that come in on no port and take no sample -/

/-- The rows of the pods and of the trigger lines. -/
def Instr.ofPins : Instr → Bool
  | .sensePresent _ _ | .debounceExpiry _ | .podDetach _ _ | .descriptorReadDone _ _ _ | .addressNak _ _ | .clockHoldTimeout _ _
  | .retryWaitExpiry _ | .triggerInEdge _ _ | .triggerOutPulseEnd => true
  | _ => false

/-- They reach neither EVL nor the block map. -/
theorem forms_of_pins {c : Instr} {s t : State} (row : Instr.ofPins c = true) (h : exec c s = .next t) : t.forms = s.forms := by
  cases c with
  | sensePresent i at_ =>
    unfold exec execSensePresent at h
    dsimp only at h
    split at h <;> (cases h; rfl)
  | debounceExpiry i =>
    unfold exec execDebounceExpiry at h
    dsimp only at h
    split at h <;> (cases h; rfl)
  | podDetach i at_ =>
    unfold exec execPodDetach at h
    dsimp only at h
    split at h
    · cases h; rfl
    · cases h; exact forms_losePod _ _ _
  | descriptorReadDone i bytes at_ =>
    unfold exec execDescriptorReadDone at h
    dsimp only at h
    split at h
    · cases h; exact forms_finishAttempt _ _ _ _
    · cases h; rfl
  | addressNak i at_ =>
    unfold exec execAddressNak at h
    dsimp only at h
    split at h
    · cases h; exact forms_failAttempt _ _ _ _
    · cases h; rfl
  | clockHoldTimeout i at_ =>
    unfold exec execClockHoldTimeout at h
    dsimp only at h
    split at h
    · cases h; exact forms_failAttempt _ _ _ _
    · cases h; rfl
  | retryWaitExpiry i =>
    unfold exec execRetryWaitExpiry at h
    dsimp only at h
    split at h <;> (cases h; rfl)
  | triggerInEdge level at_ =>
    unfold exec execTriggerInEdge at h
    dsimp only at h
    split at h <;> (cases h; rfl)
  | triggerOutPulseEnd =>
    unfold exec execTriggerOutPulseEnd at h
    dsimp only at h
    split at h <;> (cases h; rfl)
  | _ => exact absurd row Bool.false_ne_true

/-- A column is read from the store, which may mark blocks as damaged (R52, R155 to R159). -/
theorem execColumnItem_formsKept {s t : State} (h : execColumnItem s = .next t) : FormsKept s t := by
  unfold execColumnItem at h
  split at h
  · cases h; exact .refl s
  · split at h
    · cases h; exact .refl s
    · split at h
      · cases h
        exact (noteReads_formsKept _ _ _).trans (.of_forms (forms_queueItem _ _ _ _))
      · cases h; exact .of_forms rfl

/-- An annotation is told of the listed events, and changes none of them (R160, R161). -/
theorem execAnnotationItem_forms {s t : State} (h : execAnnotationItem s = .next t) : t.forms = s.forms := by
  unfold execAnnotationItem at h
  split at h
  · cases h; rfl
  · split at h
    · cases h; rfl
    · split at h
      · cases h; exact forms_queueItem _ _ _ _
      · cases h; rfl

/-! ## Every command -/

theorem request_formsKept {f : State → State × Answer} (answer : ∀ u, FormsKept u (f u).1) {s t : State} {c : Instr} {p : Port}
    {tag : Byte} (h : s.request c p tag f = .next t) : FormsKept s t :=
  request_keeps (R := FormsKept) FormsKept.trans OnlyPorts.formsKept answer h

/-- Every command keeps the law of sequence and the block map's form. -/
theorem exec_formsKept {c : Instr} {s t : State} (h : exec c s = .next t) : FormsKept s t := by
  have transacted : ∀ p kind bytes, FormsKept s (s.transaction p kind bytes) := fun p kind bytes =>
    (transaction_onlyPorts s p kind bytes).formsKept
  have asked : ∀ {f : State → State × Answer}, (∀ u, (f u).1.forms = u.forms) → ∀ {d p tag}, s.request d p tag f = .next t →
      FormsKept s t := fun answer _ _ _ => request_formsKept fun u => .of_forms (answer u)
  cases c with
  | nrst => exact execNrst_formsKept h
  | sendTransaction p bytes => cases h; exact transacted _ _ _
  | fetchTransaction p n => cases h; exact transacted _ _ _
  | otherKindTransaction p kind bytes => cases h; exact transacted _ _ _
  | ident p tag => exact asked (f := fun s => (s, .ident p s.timebase)) (fun _ => rfl) h
  | planRead p tag sec => exact asked (fun u => by rw [planReadAnswer_state]) h
  | planEdit p tag sec expected contents => exact asked (fun u => forms_planEditAnswer u p sec expected contents) h
  | arm p tag => exact request_formsKept armAnswer_formsKept h
  | stop p tag => exact request_formsKept stopAnswer_formsKept h
  | force p tag => exact asked forms_forceAnswer h
  | abort p tag => exact request_formsKept abortAnswer_formsKept h
  | status p tag => exact asked (f := fun s => (s, .status s.statusReport)) (fun _ => rfl) h
  | captureList p tag => exact asked (f := fun s => (s, .captureList (numbered.map s.sto.listEntry))) (fun _ => rfl) h
  | captureInfo p tag slot num => exact asked (fun u => by rw [captureInfoAnswer_state]) h
  | retain p tag slot num => exact asked (fun u => forms_retainAnswer u p slot num) h
  | release p tag slot num => exact asked (fun u => forms_releaseAnswer u p slot num) h
  | readRecords p tag slot num start count => exact request_formsKept (readRecordsAnswer_formsKept slot num start count) h
  | eventsRead p tag count => exact request_formsKept (eventsReadAnswer_formsKept p count) h
  | eventsSeek p tag target => exact request_formsKept (eventsSeekAnswer_formsKept p target) h
  | eventsThreshold p tag threshold => exact request_formsKept (eventsThresholdAnswer_formsKept p threshold) h
  | renderStart p tag slot num start width columns channels lanes =>
    exact asked (fun u => forms_renderStartAnswer u p slot num start width columns channels lanes) h
  | renderFetch p tag count => exact asked (fun u => forms_renderFetchAnswer u p count) h
  | renderCancel p tag => exact asked (f := renderCancelAnswer p) (fun u => forms_cancelRender u p) h
  | noticeRead p tag => exact asked (f := noticeReadAnswer p) (fun _ => rfl) h
  | noticeEnable p tag enables => exact request_formsKept (fun u => (noticeEnableAnswer_onlyPorts p enables u).formsKept) h
  | podInfo p tag pod => exact asked (fun u => by rw [podInfoAnswer_state]) h
  | podRescan p tag pod => exact asked (fun u => forms_podRescanAnswer u pod) h
  | storeHealth p tag clear => exact asked (fun u => forms_storeHealthAnswer u clear) h
  | storeTest p tag kind => exact asked (fun u => forms_storeTestAnswer u kind) h
  | portReset p tag => exact request_formsKept (portResetAnswer_formsKept p) h
  | engineReset p tag => exact request_formsKept (engineResetAnswer_formsKept p) h
  | firstSample w => cases h; exact sampleRow_formsKept s _ w
  | sample w => cases h; exact sampleRow_formsKept s _ w
  | armedEntry w => cases h; exact sampleRow_formsKept s _ w
  | withinExpiry w => cases h; exact sampleRow_formsKept s _ w
  | stageSatisfied w => cases h; exact sampleRow_formsKept s _ w
  | postDone w => cases h; exact sampleRow_formsKept s _ w
  | twoWireStall l w => cases h; exact sampleRow_formsKept s _ w
  | clockedIdleEnd l w => cases h; exact sampleRow_formsKept s _ w
  | asyncIdleEnd l w => cases h; exact sampleRow_formsKept s _ w
  | biphaseIdleEnd l w => cases h; exact sampleRow_formsKept s _ w
  | drainLimit l w => cases h; exact sampleRow_formsKept s _ w
  | finalWriteComplete =>
    unfold exec execFinalWriteComplete at h
    dsimp only at h
    split at h
    · cases h; exact finishWrite_formsKept s
    · cases h; exact .refl s
  | columnItem => exact execColumnItem_formsKept h
  | annotationItem => exact .of_forms (execAnnotationItem_forms h)
  | _ => exact .of_forms (forms_of_pins rfl h)

theorem step_formsKept {s t : State} (h : step s = .next t) : FormsKept s t := by
  unfold step at h
  split at h
  · cases h; exact .of_forms rfl
  · next c rest _ =>
    have queued : FormsKept s (s.setPending rest) := .of_forms rfl
    exact queued.trans (exec_formsKept h)

/-- Settles O7: every command keeps both forms, one lemma for each operation that reaches EVL or the block map. -/
theorem listFormsKept : Obligations.ListFormsKept :=
  ⟨fun _ _ lawful h => (step_formsKept h).list lawful, fun _ _ wf h => (step_formsKept h).map wf⟩

end Sys2Proof.Machine
end

section
/-! SUPPORT. An event that comes to the event list (R138 to R140, R145): what the entry does, why the reclaims it may need do not depend on
how many are allowed, and the proof of the statement (O38). -/

namespace Sys2Proof.Machine

open Sys2Proof

/-! ## The entry (R138, R145) -/

/-- The list with the event at its end, under the next sequence, before the checks (R138). -/
def State.listed (s : State) (e : Event) : State :=
  s.setEvl { s.evl with events := s.evl.events ++ [{ e with seq := s.evl.nextSeq }], nextSeq := s.evl.nextSeq + 1 }

/-- Both ports' ready states are checked (R145). -/
def State.checkBoth (s : State) : State := (s.checkReady .a).checkReady .b

theorem appendEvent_eq (s : State) (e : Event) : s.appendEvent e = (s.listed e).checkBoth := rfl

theorem checkReady_full (s : State) (p : Port) (x : EventPort) : (s.checkReady p).evl.full x = s.evl.full x := by
  rw [checkReady_evl]
  rfl

/-- Both checks see the same list, and each changes its own port alone. -/
theorem checkBoth_port (s : State) (q : Port) : s.checkBoth.evl.port.get q =
    { s.evl.port.get q with primed := (s.evl.port.get q).primed && !s.checkBoth.evl.full (s.evl.port.get q) } := by
  unfold State.checkBoth
  simp only [checkReady_full]
  rw [checkReady_evl, checkReady_full, checkReady_evl]
  cases q <;> rfl

/-- The checks raise EVENTS_READY alone, to each PRIMED port whose backlog has reached its threshold. -/
theorem checkBoth_hasNotice (s : State) (q : Port) (n : Notice) : s.checkBoth.hasNotice q n = (s.hasNotice q n ||
    decide (n = .eventsReady) && ((s.evl.port.get q).primed && s.checkBoth.evl.full (s.evl.port.get q))) := by
  unfold State.checkBoth
  simp only [checkReady_full]
  rw [checkReady_hasNotice, checkReady_hasNotice, checkReady_full]
  have unchecked : (s.checkReady .a).evl.port.get .b = s.evl.port.get .b := by rw [checkReady_evl]; rfl
  cases q <;> simp [unchecked]

theorem checkBoth_events (s : State) : s.checkBoth.evl.events = s.evl.events ∧ s.checkBoth.evl.nextSeq = s.evl.nextSeq := by
  unfold State.checkBoth
  rw [checkReady_evl, checkReady_evl]
  exact ⟨rfl, rfl⟩

/-- The checks reach EVL and the ports alone. -/
theorem checkBoth_only (s : State) : s.checkBoth = (s.setEvl s.checkBoth.evl).setPorts s.checkBoth.ports := by
  have second : s.checkBoth = ((s.checkReady .a).setEvl s.checkBoth.evl).setPorts s.checkBoth.ports := checkReady_only _ .b
  rw [checkReady_only s .a] at second
  exact second

/-! ## Reclaims for room (R140) -/

/-- The number of slots that hold a capture. -/
def Store.heldSlots (x : Store) : Nat := x.slots.toList.countP Option.isSome

theorem heldSlots_le (x : Store) : x.heldSlots ≤ 4 := List.countP_le_length

/-- A reclaim empties one slot. -/
theorem reclaim_heldSlots {s t : State} (h : s.reclaim = some t) : t.sto.heldSlots + 1 = s.sto.heldSlots := by
  obtain ⟨i, victim, slots⟩ := reclaim_slots h
  obtain ⟨v, held, -⟩ := victim_some _ _ victim
  unfold Store.heldSlots
  rw [slots]
  generalize s.sto.slots = x at held ⊢
  rcases four_cases i with rfl | rfl | rfl | rfl <;>
    (simp only [Quad.get] at held; simp [Quad.set, Quad.toList, List.countP_cons, held, Nat.add_comm, Nat.add_left_comm])

/-- The allowance of reclaims is never used up: one for each held capture is enough. -/
theorem enterWithRoom_fuel {n : Nat} {e : Event} {s : State} (enough : s.sto.heldSlots ≤ n) :
    State.enterWithRoom n e s = State.enterWithRoom (n + 1) e s := by
  induction n generalizing s with
  | zero =>
    have none_ : s.reclaim = none := by
      cases hr : s.reclaim with
      | none => rfl
      | some t =>
        have := reclaim_heldSlots hr
        omega
    unfold State.enterWithRoom
    rw [none_]
  | succ n ih =>
    unfold State.enterWithRoom
    cases hr : s.reclaim with
    | none => rfl
    | some t =>
      have fewer := reclaim_heldSlots hr
      simp only [ih (s := t) (by omega)]

theorem enterWithRoom_room {s : State} (fuel : Nat) (e : Event) (room : s.evl.events.length < 8192) :
    State.enterWithRoom fuel e s = s.appendEvent e := by
  unfold State.enterWithRoom
  exact if_pos room

/-- With a full list and a capture to reclaim, the event comes again to what the reclaim leaves. -/
theorem enterWithRoom_reclaims {fuel : Nat} {e : Event} {s u : State} (full : 8192 ≤ s.evl.events.length)
    (hr : s.reclaim = some u) : State.enterWithRoom (fuel + 1) e s = State.enterWithRoom fuel e u := by
  have noRoom : ¬ s.evl.events.length < Config.eventCapacity := Nat.not_lt.2 full
  conv_lhs => unfold State.enterWithRoom
  rw [if_neg noRoom, hr]

/-- With a full list and nothing to reclaim, the event is discarded and counted. -/
theorem enterWithRoom_discards {fuel : Nat} {e : Event} {s : State} (full : 8192 ≤ s.evl.events.length)
    (hr : s.reclaim = none) : State.enterWithRoom fuel e s =
      s.modifyCapture e.cap fun c => { c with truncated := satAdd Config.max32 c.truncated 1 } := by
  have noRoom : ¬ s.evl.events.length < Config.eventCapacity := Nat.not_lt.2 full
  unfold State.enterWithRoom
  rw [if_neg noRoom, hr]
  cases fuel <;> rfl

/-- A capture that is not COMPLETE is not reclaimed, and neither is its head block. -/
theorem reclaim_keepsIncomplete {s u : State} {name : CapName} {c : Capture} (wf : s.sto.wf = true) (hr : s.reclaim = some u)
    (hc : s.sto.capture name = some c) (incomplete : c.complete = false)
    (own : ∀ b, lookupBlock s.sto.blocks c.head = some b → b.owner = name) :
    u.sto.capture name = some c ∧ u.sto.oldestIndex c = s.sto.oldestIndex c := by
  obtain ⟨i, v, slot, complete, -, -, -, removed, -⟩ := (reclaimTakesOldest s wf).2 u hr
  obtain ⟨blocks, sto, -⟩ := removed
  have elsewhere : name.slot ≠ i := fun same => by
    rw [← same, (slots_of_capture hc).1] at slot
    cases slot
    exact Bool.false_ne_true (incomplete.symm.trans complete)
  refine ⟨?_, ?_⟩
  · rw [sto]
    exact (capture_set_ne elsewhere).trans hc
  · have other : ∀ b, lookupBlock s.sto.blocks c.head = some b → b.owner ≠ CapName.mk i v.num := fun b hb same =>
      elsewhere (congrArg CapName.slot ((own b hb).symm.trans same))
    unfold Store.oldestIndex
    rw [blocks]
    cases hb : lookupBlock s.sto.blocks c.head with
    | none => rfl
    | some b => rw [Option.filter_some, if_pos (decide_eq_true (other b hb))]

/-! ## An event that comes (R138, R139) -/

theorem alreadyExpired_eq_false {x : Store} {c : Capture} {e : Event}
    (held : ∀ o, c.origin = some o → ((o + x.oldestIndex c * c.div : Nat) : Int) ≤ e.start) : x.alreadyExpired c e = false := by
  unfold Store.alreadyExpired Store.oldestTime Capture.timeOf
  cases origin : c.origin with
  | none => rfl
  | some o => exact decide_eq_false (Int.not_lt.2 (held o origin))

theorem alreadyExpired_eq_true {x : Store} {c : Capture} {e : Event} {o : Nat} (origin : c.origin = some o)
    (before : e.start < ((o + x.oldestIndex c * c.div : Nat) : Int)) : x.alreadyExpired c e = true := by
  unfold Store.alreadyExpired Store.oldestTime Capture.timeOf
  rw [origin]
  exact decide_eq_true before

/-- An event of a capture that is gone is not entered (R138). -/
theorem enterEvent_of_gone {s : State} {e : Event} (gone : s.sto.capture e.cap = none) : s.enterEvent e = s := by
  unfold State.enterEvent
  rw [gone]

/-- An event that starts before its capture's oldest held time is counted as expired (R139). -/
theorem enterEvent_of_expired {s : State} {e : Event} {c : Capture} (hc : s.sto.capture e.cap = some c)
    (expired : s.sto.alreadyExpired c e = true) :
    s.enterEvent e = s.modifyCapture e.cap fun c => { c with expired := satAdd Config.max32 c.expired 1 } := by
  unfold State.enterEvent
  rw [hc]
  exact if_pos expired

/-- Any other event comes to the room test (R140). -/
theorem enterEvent_of_held {s : State} {e : Event} {c : Capture} (hc : s.sto.capture e.cap = some c)
    (held : s.sto.alreadyExpired c e = false) : s.enterEvent e = State.enterWithRoom 5 e s := by
  unfold State.enterEvent
  rw [hc]
  exact if_neg (Bool.eq_false_iff.1 held)

/-- Settles O38: an entry by its two checks; a reclaim leaves the event's own capture and its oldest held time, so the event that
comes again comes as to a fresh list. -/
theorem eventEntry : Obligations.EventEntry := by
  intro s e
  extract_lets entered
  have enters : ∀ u : State, entered u (u.appendEvent e) := fun u => by
    obtain ⟨events, nextSeq⟩ := checkBoth_events (u.listed e)
    refine ⟨events, nextSeq, fun q => ⟨checkBoth_port (u.listed e) q, ?_, fun n other => ?_⟩, checkBoth_only (u.listed e),
      (appendEvent_keeps u e).slot⟩
    · rw [appendEvent_eq, checkBoth_hasNotice, decide_eq_true rfl, Bool.true_and]
      rfl
    · rw [appendEvent_eq, checkBoth_hasNotice, decide_eq_false other, Bool.false_and, Bool.or_false]
      rfl
  refine ⟨enterEvent_of_gone, fun c hc => ⟨fun o origin before => ?_, fun held => ?_⟩⟩
  · rw [enterEvent_of_expired hc (alreadyExpired_eq_true origin before), modifyCapture_eq hc]
    rfl
  · have tests := enterEvent_of_held hc (alreadyExpired_eq_false held)
    refine ⟨fun room => ⟨_, tests.trans (enterWithRoom_room _ _ room), enters s⟩, fun full nothing => ?_, fun u full hr => ?_⟩
    · rw [tests, enterWithRoom_discards full nothing, modifyCapture_eq hc]
      rfl
    · rw [enterWithRoom_reclaims full hr] at tests
      refine ⟨fun room => ⟨_, tests.trans (enterWithRoom_room _ _ room), enters u⟩, fun incomplete wf own => ?_⟩
      obtain ⟨stays, oldest⟩ := reclaim_keepsIncomplete wf hr hc incomplete own
      have enough : u.sto.heldSlots ≤ 4 := heldSlots_le _
      refine ⟨stays, tests.trans ((enterWithRoom_fuel enough).trans (enterEvent_of_held stays (alreadyExpired_eq_false ?_)).symm)⟩
      rwa [oldest]

end Sys2Proof.Machine
end

section
/-! SUPPORT. EVENTS_READ, EVENTS_SEEK and EVENTS_THRESHOLD (R145 to R148): what each answers and does, and the proof of the statement
(O39). -/

namespace Sys2Proof.Machine

open Sys2Proof

/-- The backlog of a port whose state has been set (R137). -/
theorem modifyEventPort_backlog (s : State) (p : Port) (f : EventPort → EventPort) :
    (s.modifyEventPort p f).evl.backlog p =
      (s.evl.events.filter fun e => (f (s.evl.port.get p)).cursor ≤ e.seq).length := by
  simp [Evl.backlog, State.modifyEventPort]

/-! ## The three answers -/

/-- A count outside 1 to 16 (R146). -/
theorem eventsReadAnswer_invalid (p : Port) {count : Byte} (s : State) (range : count.toNat = 0 ∨ 16 < count.toNat) :
    eventsReadAnswer p count s = (s, .plain .invalid) := if_pos (range.imp_left Nat.lt_one_iff.2)

/-- A read of at most `count` events from the cursor on, with the cursor that the last of them gives (R146). -/
theorem eventsReadAnswer_reads {p : Port} {count : Byte} {s : State} (low : 1 ≤ count.toNat) (high : count.toNat ≤ 16)
    {x : EventPort} (port : s.evl.port.get p = x) {evs : List Event}
    (read : (s.evl.events.filter fun e => x.cursor ≤ e.seq).take count.toNat = evs) {cursor : Nat}
    (next : (evs = [] ∧ cursor = x.cursor) ∨ ∃ e, evs.getLast? = some e ∧ cursor = e.seq + 1) :
    eventsReadAnswer p count s = (s.afterEventRequest p { x with cursor := cursor, missed := 0 },
      .events evs x.missed (s.evl.events.filter fun e => cursor ≤ e.seq).length s.evl.nextSeq) := by
  have inRange : ¬ (count.toNat < 1 ∨ 16 < count.toNat) := by omega
  unfold eventsReadAnswer
  rw [if_neg inRange]
  simp only [port, read, rearmReady_modifyEventPort, modifyEventPort_backlog]
  obtain ⟨rfl, rfl⟩ | ⟨e, last, rfl⟩ := next
  · rfl
  · simp only [last]
    rfl

/-- A seek moves the cursor to the event found, and to the next sequence where none is (R147). -/
theorem seekTo_eq (p : Port) (found : Option Event) (s : State) :
    seekTo p found s = (s.afterEventRequest p { s.evl.port.get p with cursor := found.elim s.evl.nextSeq Event.seq },
      .seek found.isNone (found.elim s.evl.nextSeq Event.seq)
        (s.evl.events.filter fun e => found.elim s.evl.nextSeq Event.seq ≤ e.seq).length) := by
  unfold seekTo
  cases found <;> (simp only [rearmReady_modifyEventPort, modifyEventPort_backlog]; rfl)

/-- NEWEST is a seek to the next sequence that counts as found (R147). -/
theorem eventsSeekAnswer_newest (p : Port) (s : State) :
    eventsSeekAnswer p .newest s = (s.afterEventRequest p { s.evl.port.get p with cursor := s.evl.nextSeq },
      .seek false s.evl.nextSeq (s.evl.events.filter fun e => s.evl.nextSeq ≤ e.seq).length) := by
  unfold eventsSeekAnswer
  simp only [rearmReady_modifyEventPort, modifyEventPort_backlog]
  rfl

/-- A threshold outside 1 to 8192 (R148). -/
theorem eventsThresholdAnswer_invalid (p : Port) {v : BitVec 16} (s : State) (range : v.toNat = 0 ∨ 8192 < v.toNat) :
    eventsThresholdAnswer p v s = (s, .plain .invalid) := if_pos (range.imp_left Nat.lt_one_iff.2)

theorem eventsThresholdAnswer_sets (p : Port) {v : BitVec 16} (s : State) (low : 1 ≤ v.toNat) (high : v.toNat ≤ 8192) :
    eventsThresholdAnswer p v s = (s.afterEventRequest p { s.evl.port.get p with threshold := v.toNat },
      .threshold v.toNat (s.evl.events.filter fun e => (s.evl.port.get p).cursor ≤ e.seq).length) := by
  have inRange : ¬ (v.toNat < 1 ∨ 8192 < v.toNat) := by omega
  unfold eventsThresholdAnswer
  rw [if_neg inRange]
  simp only [rearmReady_modifyEventPort, modifyEventPort_backlog]

/-! ## The capture that a seek names (R35) -/

/-- A seek that names no held capture is refused with the answer of the lookup (R35, R147). -/
theorem eventsSeekAnswer_refuses (p : Port) {target : SeekTarget} {slot : Byte} {num : BitVec 16} {time : BitVec 64} {s : State}
    {a : Answer} (names : target = .firstOf slot num ∨ target = .atTime slot num time) (refused : s.named slot num = .error a) :
    eventsSeekAnswer p target s = (s, a) := by
  unfold eventsSeekAnswer
  obtain rfl | rfl := names <;> simp only [refused]

/-- A seek that names a held capture searches the list for the first event that it wants (R147). -/
theorem eventsSeekAnswer_seeks (p : Port) {target : SeekTarget} {slot : Byte} {num : BitVec 16} {s : State} {name : CapName}
    {c : Capture} {wanted : Event → Bool} (named : s.named slot num = .ok (name, c))
    (targets : (target = .firstOf slot num ∧ wanted = fun e => decide (e.cap = name)) ∨
      ∃ time : BitVec 64, target = .atTime slot num time ∧
        wanted = fun e => decide (e.cap = name ∧ (time.toNat : Int) ≤ e.start)) :
    eventsSeekAnswer p target s = seekTo p (s.evl.events.find? wanted) s := by
  unfold eventsSeekAnswer
  obtain ⟨rfl, rfl⟩ | ⟨time, rfl, rfl⟩ := targets <;> simp only [named]

/-! ## The statement -/

/-- Settles O39: each request that the port holds is answered as its owner answers it, by what its operands are. -/
theorem eventListRequests : Obligations.EventListRequests := by
  refine ⟨fun p tag count s holds => ?_, fun p tag target s holds => ?_, fun p tag v s holds => ?_⟩
  · have taken : exec (.eventsRead p tag count) s = _ := request_taken s _ p tag (eventsReadAnswer p count) holds
    rw [taken]
    refine ⟨fun range => ?_, fun low high cursor next => ?_⟩
    · rw [eventsReadAnswer_invalid p s range]
      rfl
    · rw [eventsReadAnswer_reads low high rfl rfl next]
      rfl
  · have taken : exec (.eventsSeek p tag target) s = _ := request_taken s _ p tag (eventsSeekAnswer p target) holds
    intro refuses moves
    have refused : ∀ {a}, eventsSeekAnswer p target s = (s, a) → refuses a := fun {a} h => by
      show exec (.eventsSeek p tag target) s = _
      rw [taken, h]
      rfl
    have sought : ∀ {found}, eventsSeekAnswer p target s = seekTo p found s →
        moves found.isNone (found.elim s.evl.nextSeq Event.seq) := fun {found} h => by
      show exec (.eventsSeek p tag target) s = _
      rw [taken, h, seekTo_eq]
      rfl
    refine ⟨fun k body other => refused (by rw [other]; rfl),
      fun slot num time names out => refused (eventsSeekAnswer_refuses p names (named_invalid s out num)),
      fun slot num time i names here gone => refused (eventsSeekAnswer_refuses p names (named_gone here gone)),
      fun newest => ?_, fun slot num i c wanted here there number targets => ?_⟩
    · show exec (.eventsSeek p tag target) s = _
      rw [taken, newest, eventsSeekAnswer_newest]
      rfl
    · rw [number] at targets
      have seeks := eventsSeekAnswer_seeks p (named_held here there number) targets
      exact ⟨fun e found => sought (found := some e) (found ▸ seeks), fun found => sought (found := none) (found ▸ seeks)⟩
  · have taken : exec (.eventsThreshold p tag v) s = _ := request_taken s _ p tag (eventsThresholdAnswer p v) holds
    rw [taken]
    refine ⟨fun range => ?_, fun low high => ?_⟩
    · rw [eventsThresholdAnswer_invalid p s range]
      rfl
    · rw [eventsThresholdAnswer_sets p s low high]
      rfl

end Sys2Proof.Machine
end

section
/-! SUPPORT. What reaches the renderer from outside VRN: the end of renders alone (R150, R164, R165, R183, R184), along every operation
and every command that is not the renderer's own. -/

namespace Sys2Proof.Machine

open Sys2Proof

/-! ## Renders that end -/

/-- The contexts and the turn of `t` come from those of `s` by ends of renders, each with its turn passed on (R150, R154). -/
def RendersEnd (s t : State) : Prop := Relation.ReflTransGen (fun v w : Vrn => ∃ p why, w = v.endRender p why) s.vrn t.vrn

namespace RendersEnd

variable {s t u : State}

theorem of_vrn (h : t.vrn = s.vrn) : RendersEnd s t := by
  unfold RendersEnd
  rw [h]

theorem refl (s : State) : RendersEnd s s := of_vrn rfl

theorem trans (h : RendersEnd s t) (k : RendersEnd t u) : RendersEnd s u := Relation.ReflTransGen.trans h k

theorem of_end {p : Port} {why : RenderEnd} (h : t.vrn = s.vrn.endRender p why) : RendersEnd s t := .single ⟨p, why, h⟩

/-- What every end of a render keeps, ends of renders keep. -/
theorem keep (h : RendersEnd s t) {P : Vrn → Prop} (kept : ∀ v p why, P v → P (v.endRender p why)) (hs : P s.vrn) : P t.vrn := by
  unfold RendersEnd at h
  generalize t.vrn = w at h
  induction h with
  | refl => exact hs
  | tail _ last ih =>
    obtain ⟨p, why, rfl⟩ := last
    exact kept _ p why ih

end RendersEnd

theorem OnlyPorts.rendersEnd {s t : State} (h : OnlyPorts s t) : RendersEnd s t := by
  unfold OnlyPorts at h
  rw [h]
  exact .of_vrn rfl

/-! ## Operations that do not reach VRN -/

section

variable (s : State)

@[simp] theorem vrn_modifyActive (f : Capture → Capture) : (s.modifyActive f).vrn = s.vrn := by
  unfold State.modifyActive
  split <;> rfl

@[simp] theorem vrn_checkReady (p : Port) : (s.checkReady p).vrn = s.vrn := by
  unfold State.checkReady
  dsimp only
  split <;> rfl

@[simp] theorem vrn_rearmReady (p : Port) : (s.rearmReady p).vrn = s.vrn := vrn_checkReady _ p

theorem vrn_appendEvent (e : Event) : (s.appendEvent e).vrn = s.vrn := by
  unfold State.appendEvent
  rw [vrn_checkReady, vrn_checkReady]
  rfl

@[simp] theorem vrn_noteMatches (fx : Quad LaneEffects) : (s.noteMatches fx).vrn = s.vrn := by
  unfold State.noteMatches
  split <;> rfl

theorem vrn_recycle (name : CapName) (c : Capture) (index : Nat) : (s.recycle name c index).vrn = s.vrn := by
  unfold State.recycle
  dsimp only
  split
  · split <;> rfl
  · rfl

theorem vrn_sealFilling (name : CapName) : (s.sealFilling name).vrn = s.vrn := by
  unfold State.sealFilling
  split <;> rfl

@[simp] theorem vrn_setOrigin (x : Sampling) : (s.setOrigin x).vrn = s.vrn := by
  unfold State.setOrigin
  split
  · exact vrn_modifyActive s _
  · rfl

@[simp] theorem vrn_beginPulse : s.beginPulse.vrn = s.vrn := by
  unfold State.beginPulse
  dsimp only
  split <;> rfl

theorem vrn_stageActions (a : StageActions) (n : Nat) : (s.stageActions a n).vrn = s.vrn := by
  unfold State.stageActions
  dsimp only
  split <;> split <;> simp <;> rfl

theorem vrn_declare (source : TrigSource) (t : Nat) : (s.declare source t).vrn = s.vrn := by
  unfold State.declare
  cases s.acq.active <;> simp <;> rfl

@[simp] theorem vrn_seekTo (p : Port) (found : Option Event) : (seekTo p found s).1.vrn = s.vrn := by
  unfold seekTo
  simp only [vrn_rearmReady]
  rfl

theorem vrn_eventsReadAnswer (p : Port) (count : Byte) : (eventsReadAnswer p count s).1.vrn = s.vrn := by
  unfold eventsReadAnswer
  split
  · rfl
  · exact vrn_rearmReady _ p

theorem vrn_eventsSeekAnswer (p : Port) (target : SeekTarget) : (eventsSeekAnswer p target s).1.vrn = s.vrn := by
  unfold eventsSeekAnswer
  split
  · split <;> simp
  · split <;> simp
  · exact vrn_rearmReady _ p
  · rfl

theorem vrn_eventsThresholdAnswer (p : Port) (threshold : BitVec 16) :
    (eventsThresholdAnswer p threshold s).1.vrn = s.vrn := by
  unfold eventsThresholdAnswer
  split
  · rfl
  · exact vrn_rearmReady _ p

theorem vrn_podRescanAnswer (pod : Byte) : (podRescanAnswer pod s).1.vrn = s.vrn := by
  unfold podRescanAnswer
  split
  · rfl
  · split
    · rfl
    · split <;> rfl

theorem vrn_retainAnswer (p : Port) (slot : Byte) (num : BitVec 16) : (retainAnswer p slot num s).1.vrn = s.vrn := by
  unfold retainAnswer
  split
  · rfl
  · split <;> rfl

theorem vrn_releaseAnswer (p : Port) (slot : Byte) (num : BitVec 16) : (releaseAnswer p slot num s).1.vrn = s.vrn := by
  unfold releaseAnswer
  split
  · rfl
  · split <;> rfl

theorem vrn_readRecordsAnswer (slot : Byte) (num : BitVec 16) (start : BitVec 64) (count : Byte) :
    (readRecordsAnswer slot num start count s).1.vrn = s.vrn := by
  unfold readRecordsAnswer
  split
  · rfl
  · split
    · rfl
    · dsimp only
      split
      · rfl
      · exact (noteReads_only _ s _).vrn

theorem vrn_storeHealthAnswer (clear : Byte) : (storeHealthAnswer clear s).1.vrn = s.vrn := by
  unfold storeHealthAnswer
  dsimp only
  split <;> rfl

theorem vrn_storeTestAnswer (kind : Byte) : (storeTestAnswer kind s).1.vrn = s.vrn := by
  unfold storeTestAnswer
  split <;> rfl

theorem vrn_forceAnswer : (forceAnswer s).1.vrn = s.vrn := by
  unfold forceAnswer
  split
  · dsimp only
    split <;> rfl
  · dsimp only
    split <;> rfl
  · rfl

/-! ### The plan and the pods -/

theorem vrn_editIdle (p : Port) (plan : Plan) : (s.editIdle p plan).1.vrn = s.vrn := by
  unfold State.editIdle
  split <;> rfl

theorem vrn_editProbe (p : Port) (x : ProbePlan) : (s.editProbe p x).1.vrn = s.vrn := vrn_modifyActive _ _

theorem vrn_editMatch (p : Port) (l : Four) (entries : List MatchEntry) : (s.editMatch p l entries).1.vrn = s.vrn := by
  unfold State.editMatch
  split
  · rfl
  · exact vrn_modifyActive _ _

theorem vrn_inRangeOr {α : Type} (sec : Section) (r : Except FieldFault α) {f : α → State × Answer}
    (h : ∀ x, (f x).1.vrn = s.vrn) : (s.inRangeOr sec r f).1.vrn = s.vrn := by
  unfold State.inRangeOr
  split
  · rfl
  · exact h _

theorem vrn_planEditAnswer (p : Port) (sec : Byte) (expected : BitVec 32) (contents : List Byte) :
    (planEditAnswer p sec expected contents s).1.vrn = s.vrn := by
  unfold planEditAnswer
  split
  · rfl
  · split
    · rfl
    · exact vrn_inRangeOr _ _ _ fun _ => vrn_editIdle _ _ _
    · exact vrn_inRangeOr _ _ _ fun _ => vrn_editProbe _ _ _
    · exact vrn_inRangeOr _ _ _ fun _ => vrn_editIdle _ _ _
    · exact vrn_inRangeOr _ _ _ fun _ => vrn_editIdle _ _ _
    · exact vrn_inRangeOr _ _ _ fun _ => vrn_editMatch _ _ _ _

theorem vrn_failAttempt (i : Four) (signs : List BusSign) (t : Nat) : (s.failAttempt i signs t).vrn = s.vrn := by
  rw [failAttempt_eq]
  split <;> rfl

theorem vrn_finishAttempt (i : Four) (bytes : List Byte) (t : Nat) : (s.finishAttempt i bytes t).vrn = s.vrn := by
  rw [finishAttempt_eq]
  rfl

theorem vrn_losePod (i : Four) (moment : Nat) : (s.losePod i moment).vrn = s.vrn := by
  unfold State.losePod
  split
  · split
    · dsimp only
      split <;> exact vrn_modifyActive _ _
    · rfl
  · rfl

/-- The rows of the pods and of the trigger lines do not reach VRN. -/
theorem vrn_of_pins {c : Instr} {s t : State} (row : Instr.ofPins c = true) (h : exec c s = .next t) : t.vrn = s.vrn := by
  cases c with
  | sensePresent i at_ =>
    unfold exec execSensePresent at h
    dsimp only at h
    split at h <;> (cases h; rfl)
  | debounceExpiry i =>
    unfold exec execDebounceExpiry at h
    dsimp only at h
    split at h <;> (cases h; rfl)
  | podDetach i at_ =>
    unfold exec execPodDetach at h
    dsimp only at h
    split at h
    · cases h; rfl
    · cases h; exact vrn_losePod _ _ _
  | descriptorReadDone i bytes at_ =>
    unfold exec execDescriptorReadDone at h
    dsimp only at h
    split at h
    · cases h; exact vrn_finishAttempt _ _ _ _
    · cases h; rfl
  | addressNak i at_ =>
    unfold exec execAddressNak at h
    dsimp only at h
    split at h
    · cases h; exact vrn_failAttempt _ _ _ _
    · cases h; rfl
  | clockHoldTimeout i at_ =>
    unfold exec execClockHoldTimeout at h
    dsimp only at h
    split at h
    · cases h; exact vrn_failAttempt _ _ _ _
    · cases h; rfl
  | retryWaitExpiry i =>
    unfold exec execRetryWaitExpiry at h
    dsimp only at h
    split at h <;> (cases h; rfl)
  | triggerInEdge level at_ =>
    unfold exec execTriggerInEdge at h
    dsimp only at h
    split at h <;> (cases h; rfl)
  | triggerOutPulseEnd =>
    unfold exec execTriggerOutPulseEnd at h
    dsimp only at h
    split at h <;> (cases h; rfl)
  | _ => exact absurd row Bool.false_ne_true

end

/-! ## Removals and events (R40, R45, R138 to R143, R164) -/

theorem rendersGone_rendersEnd (s : State) (name : CapName) : RendersEnd s (s.rendersGone name) := by
  have one : ∀ (u : State) (p : Port), RendersEnd u (if (u.vrn.ctx.get p).names name then u.renderGone p else u) := fun u p => by
    split
    · exact .of_end rfl
    · exact .refl u
  exact (one s .a).trans (one _ .b)

/-- The removal of a capture ends the renders of it (R164). -/
theorem removeCapture_rendersEnd (s : State) (i : Four) : RendersEnd s (s.removeCapture i) := by
  unfold State.removeCapture
  split
  · exact .refl s
  · refine RendersEnd.trans ?_ (rendersGone_rendersEnd _ _)
    exact .of_vrn rfl

theorem reclaim_rendersEnd {s t : State} (h : s.reclaim = some t) : RendersEnd s t := by
  obtain ⟨i, -, e⟩ := Option.map_eq_some_iff.1 h
  cases e
  exact removeCapture_rendersEnd s i

theorem enterWithRoom_rendersEnd (fuel : Nat) (e : Event) (s : State) : RendersEnd s (State.enterWithRoom fuel e s) := by
  induction fuel generalizing s with
  | zero =>
    unfold State.enterWithRoom
    split
    · exact .of_vrn (vrn_appendEvent s e)
    · exact .refl s
  | succ n ih =>
    unfold State.enterWithRoom
    split
    · exact .of_vrn (vrn_appendEvent s e)
    · split
      · next hf hr => cases hf; exact (reclaim_rendersEnd hr).trans (ih _)
      · exact .refl s

theorem enterHead_rendersEnd (s : State) (l : List Event) : RendersEnd s (l.head?.elim s s.enterEvent) := by
  cases l with
  | nil => exact .refl s
  | cons e _ =>
    show RendersEnd s (s.enterEvent e)
    unfold State.enterEvent
    split
    · exact .refl s
    · split
      · exact .refl s
      · exact enterWithRoom_rendersEnd _ _ _

theorem enterAll_rendersEnd (fuel : Nat) (events : Quad (List Event)) (s : State) : RendersEnd s (State.enterAll fuel events s) := by
  induction fuel generalizing s events with
  | zero => exact .refl s
  | succ n ih =>
    unfold State.enterAll
    split
    · exact .refl s
    · exact (enterHead_rendersEnd s _).trans (ih _ _)
    · exact (enterHead_rendersEnd (s.setFreeIx (s.freeIx + 1)) _).trans (ih _ _)

theorem handOn_rendersEnd (s : State) (lanes : Quad Lane) (out : Quad (List Emission)) (n : Nat) :
    RendersEnd s (s.handOn lanes out n).1 := by
  unfold State.handOn
  extract_lets fx
  refine RendersEnd.trans ?_ (enterAll_rendersEnd _ _ _)
  exact .of_vrn (by simp)

/-! ## Placing records (R38 to R42) -/

theorem nextBlock_rendersEnd {s t : State} {name : CapName} {c : Capture} {index : Nat} (h : s.nextBlock name c index = some t) :
    RendersEnd s t := by
  have recycled : ∀ {u}, (if c.mode = .window && s.sto.canRecycle c then some (s.recycle name c index) else none) = some u →
      RendersEnd s u := by
    intro u hu
    split at hu
    · cases hu; exact .of_vrn (vrn_recycle _ _ _ _)
    · cases hu
  unfold State.nextBlock at h
  dsimp only at h
  split at h
  · split at h
    · cases h; exact .of_vrn rfl
    · split at h
      · next hr =>
        split at h
        · cases h; exact (reclaim_rendersEnd hr).trans (.of_vrn rfl)
        · exact recycled h
      · exact recycled h
  · exact recycled h

theorem placeRecord_rendersEnd (s : State) (name : CapName) (word : ChannelWord) (index : Nat) :
    RendersEnd s (s.placeRecord name word index).1 := by
  unfold State.placeRecord
  split
  · next n b c _ _ =>
    split
    · exact .of_vrn rfl
    · have sealed_ : RendersEnd s (s.setSto (s.sto.seal n)) := .of_vrn rfl
      dsimp only
      split
      · next hn =>
        have found := sealed_.trans (nextBlock_rendersEnd hn)
        split
        · exact found
        · exact found
      · exact sealed_
  · exact .refl s

theorem holdSample_rendersEnd (s : State) (x : Sampling) (name : CapName) (word : ChannelWord) :
    RendersEnd s (s.holdSample x name word).1 := by
  unfold State.holdSample
  split
  · exact .of_vrn rfl
  · exact placeRecord_rendersEnd _ _ _ _

/-! ## Arming and the end of a capture (R37, R44, R45, R70 to R75) -/

theorem secureBlock_rendersEnd {fuel : Nat} {s : State} {r : State × Nat} (h : State.secureBlock fuel s = some r) :
    RendersEnd s r.1 := by
  induction fuel generalizing s with
  | zero =>
    unfold State.secureBlock at h
    split at h
    · cases h; exact .refl s
    · cases h
  | succ n ih =>
    unfold State.secureBlock at h
    split at h
    · cases h; exact .refl s
    · split at h
      · next hf hr => cases hf; exact (reclaim_rendersEnd hr).trans (ih h)
      · cases h

theorem secure_rendersEnd {s u : State} {i : Four} {n : Nat} (h : s.secure = some (u, i, n)) : RendersEnd s u := by
  unfold State.secure at h
  split at h
  · obtain ⟨r, hr, e⟩ := Option.map_eq_some_iff.1 h
    cases e
    exact secureBlock_rendersEnd hr
  · split at h
    · next hr =>
      obtain ⟨r, hb, e⟩ := Option.map_eq_some_iff.1 h
      cases e
      exact (reclaim_rendersEnd hr).trans (secureBlock_rendersEnd hb)
    · cases h

theorem armSteps_rendersEnd {s u : State} {name : CapName} (h : s.armSteps = .ok (u, name)) : RendersEnd s u := by
  unfold State.armSteps at h
  split at h
  · cases h
  · split at h
    · cases h
    · split at h
      · cases h
      · next secured => cases h; exact (secure_rendersEnd secured).trans (.of_vrn rfl)

theorem armAnswer_rendersEnd (s : State) : RendersEnd s (armAnswer s).1 := by
  unfold armAnswer
  split
  · exact .refl s
  · split
    · exact .refl s
    · next arm => exact (armSteps_rendersEnd arm).trans (.of_vrn rfl)

theorem rearm_rendersEnd (s : State) : RendersEnd s s.rearm := by
  unfold State.rearm
  split
  · next arm => exact (armSteps_rendersEnd arm).trans (.of_vrn rfl)
  · exact .refl s

theorem finishWrite_rendersEnd (s : State) : RendersEnd s s.finishWrite := by
  unfold State.finishWrite
  split
  · exact .refl s
  · next name _ =>
    extract_lets s1 removed done_ ended
    have sealed_ : RendersEnd s s1 := .of_vrn (vrn_sealFilling s name)
    split
    · exact sealed_
    · split
      · exact sealed_.trans (removeCapture_rendersEnd s1 _)
      · dsimp only
        split
        · exact sealed_.trans (rearm_rendersEnd ended)
        · exact sealed_

theorem enterStopping_rendersEnd (s : State) (why : EndReason) : RendersEnd s (s.enterStopping why) := by
  have begun : ∀ u : State, RendersEnd u u.beginFinalWrite := fun u => by
    unfold State.beginFinalWrite
    split
    · split
      · exact finishWrite_rendersEnd u
      · exact .refl u
    · exact .refl u
  have stopped : ∀ (u : State) t n, RendersEnd u (u.lanesStop t n) := fun u t n => handOn_rendersEnd u _ _ _
  unfold State.enterStopping
  extract_lets ended
  have marked : RendersEnd s (ended.setTrg s.trg.toStandby) := .of_vrn (vrn_modifyActive s _)
  have halted : ∀ u : State, RendersEnd u ((u.setSmp none).stopEngine why) := fun _ => .of_vrn rfl
  exact ((marked.trans (stopped _ _ _)).trans (halted _)).trans (begun _)

theorem stopAnswer_rendersEnd (s : State) : RendersEnd s (stopAnswer s).1 := by
  unfold stopAnswer
  split
  · exact .refl s
  · exact .of_vrn rfl
  · split
    · exact .of_vrn rfl
    · exact enterStopping_rendersEnd s _

theorem discardActive_rendersEnd (s : State) : RendersEnd s s.discardActive := by
  unfold State.discardActive
  extract_lets s1 s2
  show RendersEnd s1 s2
  simp only [s2]
  split
  · exact removeCapture_rendersEnd s1 _
  · exact .refl s1

theorem abortAnswer_rendersEnd (s : State) : RendersEnd s (abortAnswer s).1 := by
  unfold abortAnswer
  split
  · exact .refl s
  · exact .of_vrn (vrn_modifyActive s _)
  · exact discardActive_rendersEnd s

/-! ## A sample (R21 to R26, R64 to R70) -/

theorem deliver_rendersEnd (s : State) (D : Nat) (it : SampleItem) : RendersEnd s (s.deliver D it).1 :=
  deliver_keeps (R := RendersEnd) .refl .trans (fun _ _ => .of_vrn rfl) (fun a x n => .of_vrn (vrn_stageActions a x n))
    (fun a source t => .of_vrn (vrn_declare a source t)) (fun _ => .of_vrn rfl) (fun a => handOn_rendersEnd a _ _ _)
    enterStopping_rendersEnd s

theorem takeSample_rendersEnd (s : State) (w : ChannelWord) : RendersEnd s (s.takeSample w).1 := by
  unfold State.takeSample
  split
  · next x name _ _ =>
    extract_lets raw word s1 h
    have timed : RendersEnd s s1 := .of_vrn (vrn_setOrigin _ x)
    have held : RendersEnd s h.1 := timed.trans (holdSample_rendersEnd s1 x name word)
    have sampled : RendersEnd h.1 (h.1.setSmp (some (x.held word))) := .of_vrn rfl
    split
    · exact (held.trans sampled).trans (deliver_rendersEnd _ _ _)
    · exact held.trans (enterStopping_rendersEnd _ _)
  · exact .refl s

theorem sampleRow_rendersEnd (s : State) (due : Bool) (w : ChannelWord) : RendersEnd s (if due then (s.takeSample w).1 else s) := by
  split
  · exact takeSample_rendersEnd s w
  · exact .refl s

/-! ## The resets and the cancel (R153, R165, R183, R184) -/

theorem cancelRender_rendersEnd (s : State) (p : Port) : RendersEnd s (s.cancelRender p) := by
  unfold State.cancelRender
  split
  · exact .of_end rfl
  · exact .refl s

theorem portResetAnswer_rendersEnd (p : Port) (s : State) : RendersEnd s (portResetAnswer p s).1 :=
  cancelRender_rendersEnd (s.setSto (s.sto.dropRetains p)) p

theorem engineResetAnswer_rendersEnd (p : Port) (s : State) : RendersEnd s (engineResetAnswer p s).1 := by
  have reset_ : ∀ (u : State) q, RendersEnd u (u.resetRender q) := fun u q => by
    unfold State.resetRender
    split
    · exact .of_end rfl
    · exact .refl u
  unfold engineResetAnswer
  split
  · unfold State.engineReset
    extract_lets s1 s2 s3 s4
    have idle : RendersEnd s s3 := .of_vrn rfl
    exact idle.trans ((reset_ s3 .a).trans (reset_ _ .b))
  · exact .refl s

/-! ## Every command that is not the renderer's own -/

/-- The commands that start a render, or make or fetch its items, and power-on. -/
def Instr.ofRenderer : Instr → Bool
  | .nrst | .renderStart _ _ _ _ _ _ _ _ _ | .renderFetch _ _ _ | .columnItem | .annotationItem => true
  | _ => false

theorem exec_rendersEnd {c : Instr} {s t : State} (row : Instr.ofRenderer c = false) (h : exec c s = .next t) : RendersEnd s t := by
  have transacted : ∀ p kind bytes, RendersEnd s (s.transaction p kind bytes) := fun p kind bytes =>
    (transaction_onlyPorts s p kind bytes).rendersEnd
  have ends : ∀ {f : State → State × Answer}, (∀ u, RendersEnd u (f u).1) → ∀ {d p tag}, s.request d p tag f = .next t →
      RendersEnd s t := fun answer _ _ _ => request_keeps (R := RendersEnd) .trans OnlyPorts.rendersEnd answer
  have asked : ∀ {f : State → State × Answer}, (∀ u, (f u).1.vrn = u.vrn) → ∀ {d p tag}, s.request d p tag f = .next t →
      RendersEnd s t := fun answer _ _ _ => ends fun u => .of_vrn (answer u)
  cases c with
  | sendTransaction p bytes => cases h; exact transacted _ _ _
  | fetchTransaction p n => cases h; exact transacted _ _ _
  | otherKindTransaction p kind bytes => cases h; exact transacted _ _ _
  | ident p tag => exact asked (f := fun s => (s, .ident p s.timebase)) (fun _ => rfl) h
  | planRead p tag sec => exact asked (fun u => by rw [planReadAnswer_state]) h
  | planEdit p tag sec expected contents => exact asked (fun u => vrn_planEditAnswer u p sec expected contents) h
  | arm p tag => exact ends armAnswer_rendersEnd h
  | stop p tag => exact ends stopAnswer_rendersEnd h
  | force p tag => exact asked vrn_forceAnswer h
  | abort p tag => exact ends abortAnswer_rendersEnd h
  | status p tag => exact asked (f := fun s => (s, .status s.statusReport)) (fun _ => rfl) h
  | captureList p tag => exact asked (f := fun s => (s, .captureList (numbered.map s.sto.listEntry))) (fun _ => rfl) h
  | captureInfo p tag slot num => exact asked (fun u => by rw [captureInfoAnswer_state]) h
  | retain p tag slot num => exact asked (fun u => vrn_retainAnswer u p slot num) h
  | release p tag slot num => exact asked (fun u => vrn_releaseAnswer u p slot num) h
  | readRecords p tag slot num start count => exact asked (fun u => vrn_readRecordsAnswer u slot num start count) h
  | eventsRead p tag count => exact asked (fun u => vrn_eventsReadAnswer u p count) h
  | eventsSeek p tag target => exact asked (fun u => vrn_eventsSeekAnswer u p target) h
  | eventsThreshold p tag threshold => exact asked (fun u => vrn_eventsThresholdAnswer u p threshold) h
  | renderCancel p tag => exact ends (f := renderCancelAnswer p) (fun u => cancelRender_rendersEnd u p) h
  | noticeRead p tag => exact asked (f := noticeReadAnswer p) (fun _ => rfl) h
  | noticeEnable p tag enables => exact ends (fun u => (noticeEnableAnswer_onlyPorts p enables u).rendersEnd) h
  | podInfo p tag pod => exact asked (fun u => by rw [podInfoAnswer_state]) h
  | podRescan p tag pod => exact asked (fun u => vrn_podRescanAnswer u pod) h
  | storeHealth p tag clear => exact asked (fun u => vrn_storeHealthAnswer u clear) h
  | storeTest p tag kind => exact asked (fun u => vrn_storeTestAnswer u kind) h
  | portReset p tag => exact ends (portResetAnswer_rendersEnd p) h
  | engineReset p tag => exact ends (engineResetAnswer_rendersEnd p) h
  | firstSample w => cases h; exact sampleRow_rendersEnd s _ w
  | sample w => cases h; exact sampleRow_rendersEnd s _ w
  | armedEntry w => cases h; exact sampleRow_rendersEnd s _ w
  | withinExpiry w => cases h; exact sampleRow_rendersEnd s _ w
  | stageSatisfied w => cases h; exact sampleRow_rendersEnd s _ w
  | postDone w => cases h; exact sampleRow_rendersEnd s _ w
  | twoWireStall l w => cases h; exact sampleRow_rendersEnd s _ w
  | clockedIdleEnd l w => cases h; exact sampleRow_rendersEnd s _ w
  | asyncIdleEnd l w => cases h; exact sampleRow_rendersEnd s _ w
  | biphaseIdleEnd l w => cases h; exact sampleRow_rendersEnd s _ w
  | drainLimit l w => cases h; exact sampleRow_rendersEnd s _ w
  | finalWriteComplete =>
    unfold exec execFinalWriteComplete at h
    dsimp only at h
    split at h
    · cases h; exact finishWrite_rendersEnd s
    · cases h; exact .refl s
  | nrst | renderStart | renderFetch | columnItem | annotationItem => cases row
  | _ => exact .of_vrn (vrn_of_pins rfl h)

end Sys2Proof.Machine
end

section
/-! SUPPORT. The renderer's law (R149, R150, R154) along its own operations: turns that pass, contexts that change, and the proof that every
step keeps it (O9). -/

namespace Sys2Proof.Machine

open Sys2Proof

/-! ## Turns (R154) -/

theorem port_eq_or (p q : Port) : q = p ∨ q = p.other := by cases p <;> cases q <;> simp [Port.other]

@[simp] theorem setCtx_get (v : Vrn) (p : Port) (x : RenderCtx) : (v.setCtx p x).ctx.get p = x := perPort_get_set _ _ _ _

@[simp] theorem setCtx_get_other (v : Vrn) (p : Port) (x : RenderCtx) : (v.setCtx p x).ctx.get p.other = v.ctx.get p.other :=
  perPort_get_set_other _ _ _ _

@[simp] theorem setCtx_turn (v : Vrn) (p : Port) (x : RenderCtx) : (v.setCtx p x).turn = v.turn := rfl

@[simp] theorem endTurn_ctx (v : Vrn) (p : Port) : (v.endTurn p).ctx = v.ctx := by
  unfold Vrn.endTurn
  split <;> rfl

@[simp] theorem claimTurn_ctx (v : Vrn) (p : Port) : (v.claimTurn p).ctx = v.ctx := by
  unfold Vrn.claimTurn
  split <;> rfl

theorem endTurn_turn (v : Vrn) (p : Port) : (v.endTurn p).turn = if v.turn = some p then v.nextTurn p else v.turn := by
  unfold Vrn.endTurn
  split <;> rfl

theorem claimTurn_turn (v : Vrn) (p : Port) : (v.claimTurn p).turn = if v.turn = none then some p else v.turn := by
  unfold Vrn.claimTurn
  split <;> rfl

namespace Vrn

/-- The turn, where one is held, is held by a RUNNING context. -/
def TurnRuns (v : Vrn) : Prop := ∀ q, v.turn = some q → (v.ctx.get q).state = .running

/-- The renderer rests only when no context is RUNNING. -/
def RestsIdle (v : Vrn) : Prop := v.turn = none → ∀ q, (v.ctx.get q).state ≠ .running

theorem lawful_iff {v : Vrn} : v.lawful ↔ (∀ q, (v.ctx.get q).lawful) ∧ v.TurnRuns ∧ v.RestsIdle := by
  unfold Vrn.lawful TurnRuns RestsIdle
  cases v.turn <;> simp

/-- A turn is handed to a RUNNING context, or to none where none is RUNNING. -/
theorem nextTurn_runs {v : Vrn} {p q : Port} (h : v.nextTurn p = some q) : (v.ctx.get q).state = .running := by
  unfold Vrn.nextTurn at h
  split at h
  · next other => cases h; exact other
  · split at h
    · next same => cases h; exact same
    · cases h

theorem nextTurn_rests {v : Vrn} {p : Port} (h : v.nextTurn p = none) (q : Port) : (v.ctx.get q).state ≠ .running := by
  unfold Vrn.nextTurn at h
  split at h
  · cases h
  · next other =>
    split at h
    · cases h
    · next same =>
      obtain rfl | rfl := port_eq_or p q
      · exact same
      · exact other

/-- After the end of `p`'s turn, the turn is with a RUNNING context if it was, or was `p`'s. -/
theorem endTurn_runs {v : Vrn} {p : Port} (h : v.turn = some p.other → (v.ctx.get p.other).state = .running) :
    (v.endTurn p).TurnRuns := by
  intro q turn
  rw [endTurn_turn] at turn
  rw [endTurn_ctx]
  split at turn
  · exact nextTurn_runs turn
  · next notHeld =>
    obtain rfl | rfl := port_eq_or p q
    · exact absurd turn notHeld
    · exact h turn

theorem endTurn_rests {v : Vrn} {p : Port} (h : v.RestsIdle) : (v.endTurn p).RestsIdle := by
  intro turn
  rw [endTurn_turn] at turn
  rw [endTurn_ctx]
  split at turn
  · exact nextTurn_rests turn
  · exact h turn

theorem claimTurn_runs {v : Vrn} {p : Port} (h : v.TurnRuns) (running : (v.ctx.get p).state = .running) :
    (v.claimTurn p).TurnRuns := by
  intro q turn
  rw [claimTurn_turn] at turn
  rw [claimTurn_ctx]
  split at turn
  · cases turn; exact running
  · exact h q turn

theorem claimTurn_rests (v : Vrn) (p : Port) : (v.claimTurn p).RestsIdle := by
  intro turn
  rw [claimTurn_turn] at turn
  split at turn
  · cases turn
  · contradiction

namespace lawful

variable {v : Vrn} {p : Port} {x : RenderCtx}

theorem ctx_lawful (h : v.lawful) (q : Port) : (v.ctx.get q).lawful := (lawful_iff.1 h).1 q

theorem turn_runs (h : v.lawful) : v.TurnRuns := (lawful_iff.1 h).2.1

theorem rests_idle (h : v.lawful) : v.RestsIdle := (lawful_iff.1 h).2.2

/-- The contexts after one has changed. -/
theorem setCtx_contexts (h : v.lawful) (hx : x.lawful) (q : Port) : ((v.setCtx p x).ctx.get q).lawful := by
  obtain rfl | rfl := port_eq_or p q
  · rw [setCtx_get]; exact hx
  · rw [setCtx_get_other]; exact h.ctx_lawful _

theorem setCtx_runs_other (h : v.lawful) : (v.setCtx p x).turn = some p.other → ((v.setCtx p x).ctx.get p.other).state = .running := by
  rw [setCtx_get_other]
  exact h.turn_runs _

/-- A context changes and stays in its state. -/
theorem setCtx (h : v.lawful) (hx : x.lawful) (same : x.state = (v.ctx.get p).state) : (v.setCtx p x).lawful := by
  have states : ∀ q, ((v.setCtx p x).ctx.get q).state = (v.ctx.get q).state := fun q => by
    obtain rfl | rfl := port_eq_or p q
    · rw [setCtx_get]; exact same
    · rw [setCtx_get_other]
  refine lawful_iff.2 ⟨h.setCtx_contexts hx, fun q turn => ?_, fun turn q => ?_⟩
  · rw [states]; exact h.turn_runs q turn
  · rw [states]; exact h.rests_idle turn q

/-- A context becomes other than RUNNING, or was RUNNING before, and its turn ends. -/
theorem setCtx_endTurn (h : v.lawful) (hx : x.lawful) (fresh : x.state = .running → (v.ctx.get p).state = .running) :
    ((v.setCtx p x).endTurn p).lawful := by
  refine lawful_iff.2 ⟨by rw [endTurn_ctx]; exact h.setCtx_contexts hx, endTurn_runs h.setCtx_runs_other,
    endTurn_rests fun turn q => ?_⟩
  obtain rfl | rfl := port_eq_or p q
  · rw [setCtx_get]; exact fun running => h.rests_idle turn _ (fresh running)
  · rw [setCtx_get_other]; exact h.rests_idle turn _

/-- A context becomes RUNNING: a turn it held ends, and it takes the turn if the renderer rests. -/
theorem setCtx_restart (h : v.lawful) (hx : x.lawful) (running : x.state = .running) :
    (((v.setCtx p x).endTurn p).claimTurn p).lawful := by
  refine lawful_iff.2 ⟨by rw [claimTurn_ctx, endTurn_ctx]; exact h.setCtx_contexts hx,
    claimTurn_runs (endTurn_runs h.setCtx_runs_other) ?_, claimTurn_rests _ p⟩
  rw [endTurn_ctx, setCtx_get]
  exact running

/-- A context that holds no turn becomes RUNNING and takes the turn if the renderer rests. -/
theorem setCtx_claimTurn (h : v.lawful) (hx : x.lawful) (running : x.state = .running) :
    ((v.setCtx p x).claimTurn p).lawful := by
  refine lawful_iff.2 ⟨by rw [claimTurn_ctx]; exact h.setCtx_contexts hx, claimTurn_runs (fun q turn => ?_) ?_, claimTurn_rests _ p⟩
  · obtain rfl | rfl := port_eq_or p q
    · rw [setCtx_get]; exact running
    · exact h.setCtx_runs_other turn
  · rw [setCtx_get]
    exact running

/-- A render ends (R150). -/
theorem endRender (h : v.lawful) (p : Port) (why : RenderEnd) : (v.endRender p why).lawful :=
  h.setCtx_endTurn (x := { state := .idle, render := none, queue := [], lastEnd := some why }) ⟨Nat.zero_le _, rfl, rfl⟩ nofun

end lawful

end Vrn

theorem RendersEnd.lawful {s t : State} (h : RendersEnd s t) (law : s.vrn.lawful) : t.vrn.lawful :=
  h.keep (fun _ p why l => l.endRender p why) law

/-! ## A context by its state (R149, R150) -/

namespace RenderCtx

variable {x : RenderCtx}

namespace lawful

theorem queue_le (h : x.lawful) : x.queue.length ≤ Config.queueCapacity := by
  obtain ⟨queue, -⟩ := h
  exact queue

theorem idle (h : x.lawful) (state : x.state = .idle) : x.render = none ∧ x.queue = [] := by
  obtain ⟨-, form⟩ := h
  rwa [state] at form

theorem running (h : x.lawful) (state : x.state = .running) : ∃ r, x.render = some r ∧ r.nextCol < r.columns := by
  obtain ⟨-, form⟩ := h
  rwa [state] at form

theorem waiting (h : x.lawful) (state : x.state = .waiting) :
    (∃ r, x.render = some r ∧ r.nextCol < r.columns) ∧ x.queue.length = Config.queueCapacity := by
  obtain ⟨-, form⟩ := h
  rwa [state] at form

theorem finished (h : x.lawful) (state : x.state = .finished) :
    (∃ r, x.render = some r ∧ r.nextCol = r.columns) ∧ x.queue ≠ [] := by
  obtain ⟨-, form⟩ := h
  rwa [state] at form

end lawful

/-- A RUNNING context with columns left and a queue in bounds. -/
theorem lawful_of_running {r : Render} (state : x.state = .running) (render : x.render = some r) (left_ : r.nextCol < r.columns)
    (queue : x.queue.length ≤ Config.queueCapacity) : x.lawful := by
  refine ⟨queue, ?_⟩
  rw [state]
  exact ⟨r, render, left_⟩

end RenderCtx

/-! ## RENDER_FETCH (R163) -/

theorem endTurn_eq (v : Vrn) (p : Port) : v.endTurn p = { v with turn := if v.turn = some p then v.nextTurn p else v.turn } := by
  rw [← endTurn_turn, ← endTurn_ctx v p]

theorem claimTurn_eq (v : Vrn) (p : Port) : v.claimTurn p = { v with turn := if v.turn = none then some p else v.turn } := by
  rw [← claimTurn_turn, ← claimTurn_ctx v p]

/-- The end of a render forgets what its context held. -/
@[simp] theorem setCtx_endRender (v : Vrn) (p : Port) (x : RenderCtx) (why : RenderEnd) :
    (v.setCtx p x).endRender p why = v.endRender p why := by
  simp [Vrn.endRender, Vrn.setCtx]

theorem inProgress_iff {x : RenderCtx} : x.inProgress = true ↔ x.state ≠ .idle := bne_iff_ne

section

variable {p : Port} {count : Byte} {s : State} {x : RenderCtx}

theorem renderFetchAnswer_invalid (range : count.toNat = 0 ∨ 16 < count.toNat) :
    renderFetchAnswer p count s = (s, .plain .invalid) := if_pos (range.imp_left Nat.lt_one_iff.2)

/-- A fetch with no render in progress (R163). -/
theorem renderFetchAnswer_idle (low : 1 ≤ count.toNat) (high : count.toNat ≤ 16) (ctx : s.vrn.ctx.get p = x) (state : x.state = .idle) :
    renderFetchAnswer p count s =
      (s, if x.lastEnd = some .gone then .plain .gone else .items [] .idle x.lastEnd (x.render.map Render.nextCol) x.queue.length) := by
  have resting : ¬ x.inProgress = true := fun h => inProgress_iff.1 h state
  unfold renderFetchAnswer
  rw [if_neg (by omega), ctx]
  dsimp only
  rw [if_neg resting, RenderCtx.itemsAnswer, state]
  split <;> rfl

/-- A fetch with a render in progress takes items from the head of the queue; what follows is told by `State.afterFetch`. -/
theorem renderFetchAnswer_inProgress (low : 1 ≤ count.toNat) (high : count.toNat ≤ 16) (ctx : s.vrn.ctx.get p = x)
    (state : x.state ≠ .idle) {t : State}
    (after : (s.setVrn (s.vrn.setCtx p { x with queue := x.queue.drop count.toNat })).afterFetch p (x.queue.take count.toNat).length = t) :
    renderFetchAnswer p count s = (t, (t.vrn.ctx.get p).itemsAnswer (x.queue.take count.toNat)) := by
  unfold renderFetchAnswer
  rw [if_neg (by omega), ctx]
  dsimp only
  rw [if_pos (inProgress_iff.2 state), after]

theorem renderFetchAnswer_running (low : 1 ≤ count.toNat) (high : count.toNat ≤ 16) (ctx : s.vrn.ctx.get p = x)
    (state : x.state = .running) : renderFetchAnswer p count s =
      (s.setVrn (s.vrn.setCtx p { x with queue := x.queue.drop count.toNat }),
        .items (x.queue.take count.toNat) .running x.lastEnd (x.render.map Render.nextCol) (x.queue.drop count.toNat).length) := by
  rw [renderFetchAnswer_inProgress low high ctx (by rw [state]; exact nofun) rfl]
  simp [State.afterFetch, RenderCtx.itemsAnswer, state]

theorem renderFetchAnswer_waiting (low : 1 ≤ count.toNat) (high : count.toNat ≤ 16) (ctx : s.vrn.ctx.get p = x)
    (state : x.state = .waiting) (full : x.queue.length = Config.queueCapacity) : renderFetchAnswer p count s =
      (s.setVrn ((s.vrn.setCtx p { x with queue := x.queue.drop count.toNat, state := .running }).claimTurn p),
        .items (x.queue.take count.toNat) .running x.lastEnd (x.render.map Render.nextCol) (x.queue.drop count.toNat).length) := by
  have some_ : ¬ (x.queue.take count.toNat).length = 0 := by
    rw [List.length_take, full]
    show ¬ min _ 64 = 0
    omega
  rw [renderFetchAnswer_inProgress low high ctx (by rw [state]; exact nofun) rfl]
  simp only [State.afterFetch, State.setVrn_vrn, setCtx_get, state, if_neg some_]
  simp [RenderCtx.itemsAnswer, Vrn.setCtx]

theorem renderFetchAnswer_finished (low : 1 ≤ count.toNat) (high : count.toNat ≤ 16) (ctx : s.vrn.ctx.get p = x)
    (state : x.state = .finished) (left_ : x.queue.drop count.toNat ≠ []) : renderFetchAnswer p count s =
      (s.setVrn (s.vrn.setCtx p { x with queue := x.queue.drop count.toNat }),
        .items (x.queue.take count.toNat) .finished x.lastEnd (x.render.map Render.nextCol) (x.queue.drop count.toNat).length) := by
  have more : (x.queue.drop count.toNat).isEmpty = false := List.isEmpty_eq_false_iff.2 left_
  rw [renderFetchAnswer_inProgress low high ctx (by rw [state]; exact nofun) rfl]
  simp [State.afterFetch, RenderCtx.itemsAnswer, state, more]

/-- A fetch that empties a FINISHED context ends its render DONE (R163). -/
theorem renderFetchAnswer_done (low : 1 ≤ count.toNat) (high : count.toNat ≤ 16) (ctx : s.vrn.ctx.get p = x)
    (state : x.state = .finished) (left_ : x.queue.drop count.toNat = []) : renderFetchAnswer p count s =
      ((s.setVrn (s.vrn.endRender p .done)).raise p .renderEnded,
        .items (x.queue.take count.toNat) .idle (some .done) none 0) := by
  have after : (s.setVrn (s.vrn.setCtx p { x with queue := x.queue.drop count.toNat })).afterFetch p
      (x.queue.take count.toNat).length = (s.setVrn (s.vrn.endRender p .done)).raise p .renderEnded := by
    simp [State.afterFetch, state, left_]
  rw [renderFetchAnswer_inProgress low high ctx (by rw [state]; exact nofun) after]
  refine congrArg (Prod.mk _) ?_
  show RenderCtx.itemsAnswer ((s.vrn.endRender p .done).ctx.get p) _ = _
  rw [names_endRender, if_pos rfl]
  rfl

end

/-! ## The renderer's requests keep its law (R151, R152, R163) -/

theorem renderFault_columns {c : Capture} {start width columns lanes : Nat} {channels : List Nat}
    (h : renderFault c start width columns channels lanes = none) : 1 ≤ columns := by
  unfold renderFault at h
  split at h
  · cases h
  · omega

theorem renderStartAnswer_lawful (p : Port) (slot : Byte) (num : BitVec 16) (start width : BitVec 64) (columns : BitVec 16)
    (channels : List Byte) (lanes : Byte) {s : State} (law : s.vrn.lawful) :
    (renderStartAnswer p slot num start width columns channels lanes s).1.vrn.lawful := by
  unfold renderStartAnswer
  split
  · exact law
  · exact law
  · dsimp only
    split
    · exact law
    · next passed =>
      refine law.setCtx_restart ?_ rfl
      exact RenderCtx.lawful_of_running rfl rfl (renderFault_columns passed) (Nat.zero_le _)

theorem renderFetchAnswer_lawful (p : Port) (count : Byte) {s : State} (law : s.vrn.lawful) :
    (renderFetchAnswer p count s).1.vrn.lawful := by
  by_cases range : count.toNat = 0 ∨ 16 < count.toNat
  · rw [renderFetchAnswer_invalid range]
    exact law
  · have low : 1 ≤ count.toNat := by omega
    have high : count.toNat ≤ 16 := by omega
    have ctx := law.ctx_lawful p
    have shorter : ((s.vrn.ctx.get p).queue.drop count.toNat).length ≤ Config.queueCapacity :=
      by
      rw [List.length_drop]
      exact (Nat.sub_le _ _).trans (ctx.queue_le)
    cases state : (s.vrn.ctx.get p).state with
    | idle =>
      rw [renderFetchAnswer_idle low high rfl state]
      exact law
    | running =>
      rw [renderFetchAnswer_running low high rfl state]
      obtain ⟨r, render, left_⟩ := ctx.running state
      refine law.setCtx ?_ rfl
      exact RenderCtx.lawful_of_running state render left_ shorter
    | waiting =>
      obtain ⟨⟨r, render, left_⟩, full⟩ := ctx.waiting state
      rw [renderFetchAnswer_waiting low high rfl state full]
      refine law.setCtx_claimTurn ?_ rfl
      exact RenderCtx.lawful_of_running rfl render left_ shorter
    | finished =>
      by_cases left_ : (s.vrn.ctx.get p).queue.drop count.toNat = []
      · rw [renderFetchAnswer_done low high rfl state left_]
        exact law.endRender p .done
      · rw [renderFetchAnswer_finished low high rfl state left_]
        refine law.setCtx ⟨shorter, ?_⟩ rfl
        rw [state]
        exact ⟨(ctx.finished state).1, left_⟩

/-! ## The renderer's items keep its law (R155, R162) -/

/-- The context at work holds the turn and is RUNNING (R154). -/
theorem atWork_eq_some {v : Vrn} {p : Port} {x : RenderCtx} {r : Render} : v.atWork = some (p, x, r) ↔
    v.turn = some p ∧ v.ctx.get p = x ∧ x.state = .running ∧ x.render = some r := by
  unfold Vrn.atWork
  cases v.turn with
  | none => simp
  | some q =>
    simp only [Option.some.injEq]
    constructor
    · intro h
      split at h
      · next state render =>
        cases h
        exact ⟨rfl, rfl, state, render⟩
      · cases h
    · rintro ⟨rfl, rfl, state, render⟩
      simp only [state, render]

theorem queueItem_vrn (s : State) (p : Port) (x : RenderCtx) (item : Item) :
    (s.queueItem p x item).vrn = s.vrn.setCtx p { x with queue := x.queue ++ [item] } := by
  unfold State.queueItem
  dsimp only
  split <;> rfl

/-- A RUNNING context that finds its queue full waits (R162). -/
theorem waitRender_lawful {s : State} {p : Port} {x : RenderCtx} (law : s.vrn.lawful) (ctx : s.vrn.ctx.get p = x)
    (state : x.state = .running) (full : Config.queueCapacity ≤ x.queue.length) : (s.waitRender p x).vrn.lawful := by
  have hx : x.lawful := ctx ▸ law.ctx_lawful p
  obtain ⟨r', render', left_⟩ := hx.running state
  have bound : x.queue.length ≤ Config.queueCapacity := hx.queue_le
  refine law.setCtx_endTurn ?_ nofun
  exact ⟨bound, ⟨r', render', left_⟩, Nat.le_antisymm bound full⟩

section

variable {s : State} {p : Port} {x : RenderCtx} {r : Render} (law : s.vrn.lawful) (ctx : s.vrn.ctx.get p = x)
  (state : x.state = .running) (render : x.render = some r)

include law ctx state render

theorem annotation_lawful (mark : Option Nat) (item : Item) (room : x.queue.length < Config.queueCapacity) :
    (s.queueItem p { x with render := some { r with mark := mark } } item).vrn.lawful := by
  have hx : x.lawful := ctx ▸ law.ctx_lawful p
  obtain ⟨r', render', left_⟩ := hx.running state
  obtain rfl : r' = r := Option.some.inj (render'.symm.trans render)
  rw [queueItem_vrn]
  refine law.setCtx ?_ (by rw [ctx])
  exact RenderCtx.lawful_of_running state rfl left_ (by simpa using room)

theorem column_lawful (item : Item) (room : x.queue.length < Config.queueCapacity) :
    ((s.queueItem p (x.columnDone r) item).vrn.endTurn p).lawful := by
  have hx : x.lawful := ctx ▸ law.ctx_lawful p
  obtain ⟨r', render', left_⟩ := hx.running state
  obtain rfl : r' = r := Option.some.inj (render'.symm.trans render)
  have queue : (x.queue ++ [item]).length ≤ Config.queueCapacity := by simpa using room
  rw [queueItem_vrn]
  refine law.setCtx_endTurn ⟨queue, ?_⟩ fun _ => by rw [ctx, state]
  unfold RenderCtx.columnDone
  by_cases more : r'.nextCol + 1 < r'.columns
  · simp only [if_pos more]
    exact ⟨_, rfl, more⟩
  · have last : r'.nextCol + 1 = r'.columns := by omega
    simp only [if_neg more]
    exact ⟨⟨_, rfl, last⟩, by simp⟩

end

theorem execAnnotationItem_lawful {s t : State} (h : execAnnotationItem s = .next t) (law : s.vrn.lawful) : t.vrn.lawful := by
  unfold execAnnotationItem at h
  split at h
  · cases h; exact law
  · next work =>
    obtain ⟨-, ctx, state, render⟩ := atWork_eq_some.1 work
    split at h
    · cases h; exact law
    · split at h
      · next room => cases h; exact annotation_lawful law ctx state render _ _ room
      · next full => cases h; exact waitRender_lawful law ctx state (Nat.not_lt.1 full)

theorem execColumnItem_lawful {s t : State} (h : execColumnItem s = .next t) (law : s.vrn.lawful) : t.vrn.lawful := by
  unfold execColumnItem at h
  split at h
  · cases h; exact law
  · next p x r work =>
    obtain ⟨-, ctx, state, render⟩ := atWork_eq_some.1 work
    split at h
    · cases h; exact law
    · split at h
      · next room =>
        cases h
        have same := (noteReads_only r.cap s (columnOf s.sto r r.nextCol).2).vrn
        exact column_lawful (s := s.noteReads r.cap _) (same ▸ law) (same ▸ ctx) state render _ room
      · next full => cases h; exact waitRender_lawful law ctx state (Nat.not_lt.1 full)

/-! ## Every step (R149, R150, R154) -/

theorem request_renderLawful {f : State → State × Answer} (answer : ∀ u : State, u.vrn.lawful → (f u).1.vrn.lawful) {s t : State}
    {c : Instr} {p : Port} {tag : Byte} (h : s.request c p tag f = .next t) : s.vrn.lawful → t.vrn.lawful :=
  request_keeps (R := fun a b => a.vrn.lawful → b.vrn.lawful) (fun h k => k ∘ h) (fun only => only.rendersEnd.lawful) answer h

theorem exec_renderLawful {c : Instr} {s t : State} (h : exec c s = .next t) (law : s.vrn.lawful) : t.vrn.lawful := by
  cases row : Instr.ofRenderer c with
  | false => exact (exec_rendersEnd row h).lawful law
  | true =>
    cases c with
    | nrst => cases h; exact reset_vrn_lawful
    | renderStart p tag slot num start width columns channels lanes =>
      exact request_renderLawful (fun _ => renderStartAnswer_lawful p slot num start width columns channels lanes) h law
    | renderFetch p tag count => exact request_renderLawful (fun _ => renderFetchAnswer_lawful p count) h law
    | columnItem => exact execColumnItem_lawful h law
    | annotationItem => exact execAnnotationItem_lawful h law
    | _ => cases row

/-- Settles O9: outside the renderer's own commands renders only end, and each of its own keeps its law. -/
theorem renderLawKept : Obligations.RenderLawKept := by
  intro s t law h
  unfold step at h
  split at h
  · cases h; exact law
  · exact exec_renderLawful h law

end Sys2Proof.Machine
end

section
/-! SUPPORT. The requests of the renderer (R151 to R154, R163): proofs of the statements on RENDER_START (O40) and on RENDER_FETCH and
RENDER_CANCEL (O41). -/

namespace Sys2Proof.Machine

open Sys2Proof

/-! ## RENDER_FETCH and RENDER_CANCEL (R153, R163) -/

/-- The end of the render of a context that is not RUNNING passes no turn on (R154). -/
theorem endRender_stopped {v : Vrn} {p : Port} (law : v.lawful) (stopped : (v.ctx.get p).state ≠ .running) (why : RenderEnd) :
    v.endRender p why = { v with ctx := v.ctx.set p { state := .idle, render := none, queue := [], lastEnd := some why } } := by
  have elsewhere : v.turn ≠ some p := fun turn => stopped (law.turn_runs p turn)
  unfold Vrn.endRender
  rw [endTurn_eq, setCtx_turn, if_neg elsewhere]
  rfl

/-- The end of a render passes its turn to the other context, if that is RUNNING (R150, R154). -/
theorem endRender_eq (v : Vrn) (p : Port) (why : RenderEnd) : v.endRender p why = {
    ctx := v.ctx.set p { state := .idle, render := none, queue := [], lastEnd := some why }
    turn := if v.turn = some p then (if (v.ctx.get p.other).state = .running then some p.other else none) else v.turn } := by
  unfold Vrn.endRender
  rw [endTurn_eq, Vrn.nextTurn, setCtx_get, setCtx_get_other, setCtx_turn]
  rfl

/-- Settles O41: each request that the port holds is answered by the state of the port's context. -/
theorem renderFetchAndCancel : Obligations.RenderFetchAndCancel := by
  refine ⟨fun p tag count s law holds => ?_, fun p tag s holds => ?_⟩
  · have taken : exec (.renderFetch p tag count) s = _ := request_taken s _ p tag (renderFetchAnswer p count) holds
    extract_lets x got left_ next after holding
    have fetched : ∀ {u a}, renderFetchAnswer p count s = (u, a) → after u a := fun {u a} h => by
      show exec (.renderFetch p tag count) s = _
      rw [taken, h]
      rfl
    have hx : x.lawful := law.ctx_lawful p
    refine ⟨fun range => fetched (renderFetchAnswer_invalid range), fun low high => ⟨fun state gone => ?_, fun state held => ?_,
      fun state => fetched (renderFetchAnswer_running low high rfl state), fun state => ?_,
      fun state more => fetched (renderFetchAnswer_finished low high rfl state more), fun state empty => ?_⟩⟩
    · have idle := renderFetchAnswer_idle low high (rfl : _ = x) state
      rw [if_pos gone] at idle
      exact fetched idle
    · have idle := renderFetchAnswer_idle low high (rfl : _ = x) state
      obtain ⟨render, queue⟩ := hx.idle state
      rw [if_neg held, render, queue] at idle
      exact fetched idle
    · have waits := renderFetchAnswer_waiting low high rfl state (hx.waiting state).2
      rw [claimTurn_eq] at waits
      exact fetched waits
    · have done_ := renderFetchAnswer_done low high rfl state empty
      rw [endRender_stopped law (by rw [state]; exact nofun)] at done_
      exact fetched done_
  · have taken : exec (.renderCancel p tag) s = _ := request_taken s _ p tag (renderCancelAnswer p) holds
    extract_lets after
    have cancelled : ∀ {u}, s.cancelRender p = u → after u := fun {u} h => by
      show exec (.renderCancel p tag) s = _
      rw [taken, renderCancelAnswer, h]
      rfl
    refine ⟨fun state => cancelled (if_neg fun h => inProgress_iff.1 h state), fun state => ?_⟩
    rw [← endRender_eq]
    exact cancelled (if_pos (inProgress_iff.2 state))

/-! ## RENDER_START (R151, R152) -/

/-- The checks of RENDER_START in the terms of the statement. -/
theorem renderFault_eq (c : Capture) (start width columns : Nat) (list : List Nat) (lanes : Nat) :
    renderFault c start width columns list lanes =
      if columns = 0 ∨ 1024 < columns then some .columns
      else if width < 64 ∨ 2 ^ 40 < width then some .width
      else if 256 * (2 ^ 64 - 1) < 256 * start + columns * width then some .window
      else if list.length = 0 ∨ 32 < list.length ∨ (∃ x ∈ list, 31 < x) ∨ ¬ list.Nodup then some .channelList
      else match list.find? fun x => !c.mask.getLsbD x with
        | some x => some (.channel x)
        | none => if 15 < lanes then some .laneSet else none := by
  have beyond : (list.any fun x => decide (31 < x)) = true ↔ ∃ x ∈ list, 31 < x := by simp
  have repeated : (!allDistinct list) = true ↔ ¬ list.Nodup := by rw [Bool.not_eq_true', ← Bool.not_eq_true, allDistinct_iff]
  unfold renderFault
  exact if_congr (or_congr_left Nat.lt_one_iff) rfl (if_congr Iff.rfl rfl (if_congr Iff.rfl rfl
    (if_congr (or_congr Nat.lt_one_iff (or_congr_right (or_congr beyond repeated))) rfl rfl)))

/-- The turn after a context has become RUNNING anew (R154). -/
theorem restart_eq (v : Vrn) (p : Port) {x : RenderCtx} (running : x.state = .running) :
    ((v.setCtx p x).endTurn p).claimTurn p = {
      ctx := v.ctx.set p x
      turn := if v.turn = some p then (if (v.ctx.get p.other).state = .running then some p.other else some p)
        else if v.turn = none then some p else v.turn } := by
  rw [claimTurn_eq, endTurn_eq, Vrn.nextTurn, setCtx_get, setCtx_get_other, setCtx_turn, if_pos running]
  by_cases held : v.turn = some p
  · simp only [if_pos held]
    split <;> rfl
  · simp only [if_neg held]
    rfl

theorem started_eq (x : RenderCtx) (r : Render) : x.started r = {
    state := .running, render := some r, queue := [], lastEnd := if x.state = .idle then x.lastEnd else some .replaced } := by
  unfold RenderCtx.started RenderCtx.inProgress
  cases x.state <;> rfl

section

variable {p : Port} {slot : Byte} {num : BitVec 16} {start width : BitVec 64} {columns : BitVec 16} {channels : List Byte}
  {lanes : Byte} {s : State} {name : CapName} {c : Capture}

theorem renderStartAnswer_refused {f : RenderFault} (named : s.named slot num = .ok (name, c))
    (fault : renderFault c start.toNat width.toNat columns.toNat (channels.map BitVec.toNat) lanes.toNat = some f) :
    renderStartAnswer p slot num start width columns channels lanes s = (s, .renderInvalid f) := by
  unfold renderStartAnswer
  simp only [named, fault]

/-- A start that passes every check (R150, R152, R154). -/
theorem renderStartAnswer_started (named : s.named slot num = .ok (name, c))
    (passed : renderFault c start.toNat width.toNat columns.toNat (channels.map BitVec.toNat) lanes.toNat = none) :
    renderStartAnswer p slot num start width columns channels lanes s = (s.setVrn {
        ctx := s.vrn.ctx.set p {
          state := .running, queue := []
          lastEnd := if (s.vrn.ctx.get p).state = .idle then (s.vrn.ctx.get p).lastEnd else some .replaced
          render := some {
            cap := name, start := start.toNat, width := width.toNat, columns := columns.toNat,
            channels := channels.map BitVec.toNat, lanes := BitVec.ofNat 4 lanes.toNat,
            skews := (channels.map BitVec.toNat).map s.skewOf, nextCol := 0, mark := none } }
        turn :=
          if s.vrn.turn = some p then (if (s.vrn.ctx.get p.other).state = .running then some p.other else some p)
          else if s.vrn.turn = none then some p
          else s.vrn.turn },
      .renderStarted ((channels.map BitVec.toNat).map s.skewOf)
        (if s.sto.heldCount c = 0 then none else s.sto.oldestTime c) (s.sto.lastTime c)) := by
  unfold renderStartAnswer
  simp only [named, passed]
  rw [restart_eq _ _ rfl, started_eq]

end

/-- Settles O40: the checks in their order, and what the start that passes them leaves. -/
theorem renderStart : Obligations.RenderStart := by
  intro p tag slot num start width columns channels lanes s holds
  have taken : exec (.renderStart p tag slot num start width columns channels lanes) s = _ :=
    request_taken s _ p tag (renderStartAnswer p slot num start width columns channels lanes) holds
  extract_lets e ctl answers list
  have answered : ∀ {a}, renderStartAnswer p slot num start width columns channels lanes s = (s, a) → answers a := fun {a} h => by
    show exec _ s = _
    rw [taken, h]
    rfl
  refine ⟨fun outside => answered ?_, fun i here gone => answered ?_, fun i c here held number => ?_⟩
  · simp only [renderStartAnswer, named_invalid s outside num]
  · simp only [renderStartAnswer, named_gone here gone]
  · have named := named_held here held number
    rw [← number] at named
    have fault : renderFault c start.toNat width.toNat columns.toNat list lanes.toNat = _ := renderFault_eq _ _ _ _ _ _
    by_cases count : columns.toNat = 0 ∨ 1024 < columns.toNat
    · rw [if_pos count] at fault ⊢
      exact answered (renderStartAnswer_refused named fault)
    rw [if_neg count] at fault ⊢
    by_cases range : width.toNat < 64 ∨ 2 ^ 40 < width.toNat
    · rw [if_pos range] at fault ⊢
      exact answered (renderStartAnswer_refused named fault)
    rw [if_neg range] at fault ⊢
    by_cases late : 256 * (2 ^ 64 - 1) < 256 * start.toNat + columns.toNat * width.toNat
    · rw [if_pos late] at fault ⊢
      exact answered (renderStartAnswer_refused named fault)
    rw [if_neg late] at fault ⊢
    by_cases malformed : list.length = 0 ∨ 32 < list.length ∨ (∃ x ∈ list, 31 < x) ∨ ¬ list.Nodup
    · rw [if_pos malformed] at fault ⊢
      exact answered (renderStartAnswer_refused named fault)
    rw [if_neg malformed] at fault ⊢
    cases unmasked : list.find? fun x => !c.mask.getLsbD x with
    | some x =>
      rw [unmasked] at fault
      exact answered (renderStartAnswer_refused named fault)
    | none =>
      rw [unmasked] at fault
      dsimp only at fault ⊢
      by_cases unknown : 15 < lanes.toNat
      · rw [if_pos unknown] at fault ⊢
        exact answered (renderStartAnswer_refused named fault)
      rw [if_neg unknown] at fault ⊢
      show exec _ s = _
      rw [taken, renderStartAnswer_started named fault]
      rfl

end Sys2Proof.Machine
end

section
/-! SUPPORT. The renderer's items (R154 to R162): which event is due, what an item's queueing leaves, what a column reads, and the proof of
the statement (O42). -/

namespace Sys2Proof.Machine

open Sys2Proof

/-! ## The annotation that is due (R160, R161) -/

/-- An event's start column is the next column exactly when its offset divides to it, or lies left of the view start in column 0. -/
theorem startColumn_iff {r : Render} (wide : 1 ≤ r.width) (e : Event) : (r.startColumn e).1 = r.nextCol ↔
    if 0 ≤ r.offset e.start then r.offset e.start / (r.width : Int) = (r.nextCol : Int) else r.nextCol = 0 := by
  unfold Render.startColumn
  split
  · next inside =>
    have nonneg : 0 ≤ r.offset e.start / (r.width : Int) := Int.ediv_nonneg inside (by omega)
    show (r.offset e.start / (r.width : Int)).toNat = _ ↔ _
    omega
  · exact eq_comm

theorem dueEvent_iff {r : Render} (wide : 1 ≤ r.width) (e : Event) : r.dueEvent e = true ↔ r.due e := by
  unfold Render.dueEvent Render.annotatable Render.due
  simp only [Bool.and_eq_true, decide_eq_true_iff, beq_iff_eq, startColumn_iff wide, and_assoc]
  refine and_congr_right fun _ => and_congr_right fun _ => and_congr_right fun _ => and_congr_right fun _ =>
    and_congr_right fun _ => ?_
  cases r.mark <;> simp

theorem dueAnnotation_eq_some {x : Evl} {r : Render} (wide : 1 ≤ r.width) {e : Event} :
    x.dueAnnotation r = some e ↔ x.firstDue r e := by
  unfold Evl.dueAnnotation Evl.firstDue
  rw [List.find?_eq_some_iff_append]
  simp only [Bool.not_eq_true', ← Bool.not_eq_true, dueEvent_iff wide]
  constructor
  · rintro ⟨due, before, after, list, earlier⟩
    exact ⟨before, after, list, earlier, due⟩
  · rintro ⟨before, after, list, earlier, due⟩
    exact ⟨due, before, after, list, earlier⟩

theorem dueAnnotation_eq_none {x : Evl} {r : Render} (wide : 1 ≤ r.width) (h : ∀ e, ¬ x.firstDue r e) :
    x.dueAnnotation r = none := by
  cases due : x.dueAnnotation r with
  | none => rfl
  | some e => exact absurd ((dueAnnotation_eq_some wide).1 due) (h e)

/-- The placement of an annotation (R160). -/
theorem annotation_eq (r : Render) (e : Event) {a b : Int} (ha : a = 256 * (e.start - (r.start : Int)))
    (hb : b = 256 * (e.stop - (r.start : Int))) : r.annotation e = Item.annotation e.seq e.lane e.kind e.value
      (if 0 ≤ a then (a / (r.width : Int)).toNat else 0)
      (if b < (r.columns : Int) * (r.width : Int) then (b / (r.width : Int)).toNat else r.columns - 1)
      (decide (a < 0)) (decide ((r.columns : Int) * (r.width : Int) ≤ b)) := by
  have start : r.startColumn e = (if 0 ≤ a then (a / (r.width : Int)).toNat else 0, decide (a < 0)) := by
    unfold Render.startColumn Render.offset
    rw [← ha]
    by_cases inside : 0 ≤ a
    · simp [if_pos inside, Int.not_lt.2 inside]
    · simp [if_neg inside, Int.not_le.1 inside]
  have stop : r.endColumn e = (if b < (r.columns : Int) * (r.width : Int) then (b / (r.width : Int)).toNat else r.columns - 1,
      decide ((r.columns : Int) * (r.width : Int) ≤ b)) := by
    unfold Render.endColumn Render.offset Render.windowEnd
    rw [← hb]
    by_cases inside : b < (r.columns : Int) * (r.width : Int)
    · simp [if_pos inside, Int.not_le.2 inside]
    · simp [if_neg inside, Int.not_lt.1 inside]
  unfold Render.annotation
  rw [start, stop]

/-! ## Queueing (R162) -/

/-- Queueing an item reaches VRN and the ports alone. -/
theorem queueItem_only (s : State) (p : Port) (x : RenderCtx) (item : Item) :
    s.queueItem p x item = (s.setVrn (s.queueItem p x item).vrn).setPorts (s.queueItem p x item).ports := by
  unfold State.queueItem
  dsimp only
  split <;> rfl

theorem queueItem_hasNotice (s : State) (p q : Port) (x : RenderCtx) (item : Item) (n : Notice) :
    (s.queueItem p x item).hasNotice q n = (s.hasNotice q n || (decide (q = p) && decide (n = .renderData) && x.queue.isEmpty)) := by
  unfold State.queueItem
  dsimp only
  split
  · next empty => rw [hasNotice_raise, empty, Bool.and_true]; rfl
  · next some_ => rw [Bool.eq_false_iff.2 some_, Bool.and_false, Bool.or_false]; rfl

theorem queueItem_ports_other (s : State) (p : Port) (x : RenderCtx) (item : Item) :
    (s.queueItem p x item).ports.get p.other = s.ports.get p.other := by
  unfold State.queueItem
  dsimp only
  split
  · exact raise_get_other _ _ _
  · rfl

/-- A full queue: the context waits, and its turn is the other's if that is RUNNING (R154, R162). -/
theorem waitRender_eq {s : State} {p : Port} (x : RenderCtx) (turn : s.vrn.turn = some p) : s.waitRender p x =
    s.setVrn { ctx := s.vrn.ctx.set p { x with state := .waiting }
               turn := if (s.vrn.ctx.get p.other).state = .running then some p.other else none } := by
  unfold State.waitRender
  rw [endTurn_eq, setCtx_turn, if_pos turn, Vrn.nextTurn, setCtx_get, setCtx_get_other]
  rfl

/-! ## What a column reads (R159) -/

/-- A block's reads tell what their checks find (R51, R52). -/
theorem readsOf_damaged {b : Nat × Block} {e : ReadEntry} (h : e ∈ readsOf b) :
    e.read.damaged = true ↔ e.check = some .uncorrectable := by
  obtain ⟨k, hk⟩ := List.mem_iff_getElem?.1 h
  obtain ⟨r, -, -, -, check, -, -, damaged, -⟩ := reckon_get hk
  rw [damaged, check]

/-- The listed channels of a render with their skews. -/
def Render.listed (r : Render) : List (Nat × Int) := r.channels.zip r.skews

/-- The held samples of the rendered capture. -/
def Store.renderSpan (x : Store) (r : Render) : Option HeldSpan := (x.capture r.cap).bind x.heldSpan

/-- The blocks of the rendered capture; none where it is gone. -/
def Store.renderChain (x : Store) (r : Render) : List (Nat × Block) :=
  match x.capture r.cap with
  | some c => x.chain c
  | none => []

/-- The sample ranges that the channels in view need in a column. -/
def columnRanges (held : Option HeldSpan) (r : Render) (j : Nat) : List (Nat × Nat) :=
  r.listed.filterMap fun y => (neededOf held r j y).map fun n => (n.low (match held with | some h => h.oldest | none => 0), n.stop)

/-- The reads of a column with a channel in view. -/
def Store.columnReads (x : Store) (r : Render) (j : Nat) : List ReadEntry :=
  (x.renderChain r).flatMap (columnReadsOf (columnRanges (x.renderSpan r) r j))

/-- A channel's entry in a column, from the reads. -/
def columnEntryOf (held : Option HeldSpan) (r : Render) (j : Nat) (es : List ReadEntry) (y : Nat × Int) : ColumnEntry :=
  match neededOf held r j y with
  | some n => n.entry es y.1
  | none => .unknown

/-- A listed channel is in view in a column. -/
def Store.ColumnInView (x : Store) (r : Render) (j : Nat) : Prop :=
  ∃ y ∈ r.listed, columnClass (x.renderSpan r) r j y.2 = .inView

/-- A column with a channel in view (R157, R158). -/
theorem columnOf_inView {x : Store} {r : Render} {j : Nat} (inView : x.ColumnInView r j) : columnOf x r j =
    (.column j false false ((x.columnReads r j).any fun e => e.read.damaged)
      (r.listed.map (columnEntryOf (x.renderSpan r) r j (x.columnReads r j))), x.columnReads r j) := by
  have some_ : (r.listed.map fun y => columnClass (x.renderSpan r) r j y.2).contains .inView = true :=
    List.contains_iff_mem.2 (List.mem_map.2 inView)
  exact if_pos some_

/-- A column with no channel in view (R157). -/
theorem columnOf_outOfView {x : Store} {r : Render} {j : Nat} (out : ¬ x.ColumnInView r j) : columnOf x r j =
    (.column j (!decide (∃ y ∈ r.listed, columnClass (x.renderSpan r) r j y.2 = .after))
      (decide (∃ y ∈ r.listed, columnClass (x.renderSpan r) r j y.2 = .after)) false (r.listed.map fun _ => .unknown), []) := by
  have none_ : ¬ (r.listed.map fun y => columnClass (x.renderSpan r) r j y.2).contains .inView = true := fun h =>
    out (List.mem_map.1 (List.contains_iff_mem.1 h))
  have after : (r.listed.map fun y => columnClass (x.renderSpan r) r j y.2).contains .after =
      decide (∃ y ∈ r.listed, columnClass (x.renderSpan r) r j y.2 = .after) := by
    rw [Bool.eq_iff_iff, decide_eq_true_iff, List.contains_iff_mem, List.mem_map]
  rw [← after]
  exact if_neg none_

/-- Every read of a column is one of a block of the rendered capture. -/
theorem columnReads_subset {x : Store} {r : Render} {j : Nat} {e : ReadEntry} (h : e ∈ x.columnReads r j) :
    ∃ c, x.capture r.cap = some c ∧ ∃ y ∈ x.chain c, e ∈ readsOf y := by
  obtain ⟨y, hy, he⟩ := List.mem_flatMap.1 h
  have read : e ∈ readsOf y := by
    unfold columnReadsOf at he
    dsimp only at he
    split at he
    · cases he
    · exact (List.takeWhile_sublist _).subset he
  unfold Store.renderChain at hy
  split at hy
  · next c hc => exact ⟨c, hc, y, hy, read⟩
  · cases hy

/-- A column reads nothing but records of the rendered capture. -/
theorem columnOf_reads {x : Store} {r : Render} {j : Nat} {e : ReadEntry} (h : e ∈ (columnOf x r j).2) :
    ∃ c, x.capture r.cap = some c ∧ ∃ y ∈ x.chain c, e ∈ readsOf y := by
  by_cases inView : x.ColumnInView r j
  · rw [columnOf_inView inView] at h
    exact columnReads_subset h
  · rw [columnOf_outOfView inView] at h
    cases h

/-- An item is DAMAGED exactly when a read is (R159). -/
theorem columnOf_damaged (x : Store) (r : Render) (j : Nat) : ∃ void beyond damaged entries,
    (columnOf x r j).1 = .column j void beyond damaged entries ∧ entries.length = min r.channels.length r.skews.length ∧
      (damaged = true ↔ ∃ e ∈ (columnOf x r j).2, e.check = some .uncorrectable) := by
  have count : r.listed.length = min r.channels.length r.skews.length := List.length_zip
  by_cases inView : x.ColumnInView r j
  · rw [columnOf_inView inView]
    refine ⟨_, _, _, _, rfl, (List.length_map _).trans count, ?_⟩
    rw [List.any_eq_true]
    refine exists_congr fun e => and_congr_right fun he => ?_
    obtain ⟨c, -, b, -, read⟩ := columnReads_subset he
    exact readsOf_damaged read
  · rw [columnOf_outOfView inView]
    exact ⟨_, _, _, _, rfl, (List.length_map _).trans count, by simp⟩

/-- The reads of a column of a chain with no flipped bit find nothing (R51). -/
theorem columnOf_clean {x : Store} {r : Render} (j : Nat)
    (clean : ∀ c, x.capture r.cap = some c → ∀ e ∈ x.chain c, ∀ y ∈ e.2.records, y.flips = 0) :
    ∀ e ∈ (columnOf x r j).2, e.check = none := fun e he => by
  obtain ⟨c, hc, b, hb, read⟩ := columnOf_reads he
  exact (reckon_clean (clean c hc b hb) _ _ _).2 e read

/-- No reads change nothing. -/
theorem readsNoted_nil (s : State) (name : CapName) : s.readsNoted s name [] := by
  refine ⟨rfl, rfl, fun _ _ => rfl, fun before after e k split_ => ?_, fun n => (congrFun Option.map_id _).symm, fun c hc => hc,
    fun _ _ => rfl, rfl, rfl, fun q => (Bool.or_false _).symm⟩
  simp at split_

/-- Every read of a column has its consequences, whether the capture is held or gone. -/
theorem columnOf_noted (s : State) (r : Render) (j : Nat) :
    s.readsNoted (s.noteReads r.cap (columnOf s.sto r j).2) r.cap (columnOf s.sto r j).2 := by
  cases hc : s.sto.capture r.cap with
  | some c => exact noteReads_noted hc _
  | none =>
    have nothing : (columnOf s.sto r j).2 = [] := List.eq_nil_iff_forall_not_mem.2 fun e he => by
      obtain ⟨c, held, -⟩ := columnOf_reads he
      cases hc.symm.trans held
    rw [nothing]
    exact readsNoted_nil s r.cap

/-! ## A column item (R155, R162) -/

/-- What the column item of the next column leaves where the queue has room. -/
def State.columnQueued (s : State) (p : Port) (x : RenderCtx) (r : Render) : State :=
  let u := (s.noteReads r.cap (columnOf s.sto r r.nextCol).2).queueItem p (x.columnDone r) (columnOf s.sto r r.nextCol).1
  u.setVrn (u.vrn.endTurn p)

section

variable {s : State} {p : Port} {x : RenderCtx} {r : Render}

theorem columnQueued_vrn (turn : s.vrn.turn = some p) : (s.columnQueued p x r).vrn = {
    ctx := s.vrn.ctx.set p { x with
      state := if r.nextCol + 1 < r.columns then .running else .finished
      render := some { r with nextCol := r.nextCol + 1, mark := none }
      queue := x.queue ++ [(columnOf s.sto r r.nextCol).1] }
    turn := if (s.vrn.ctx.get p.other).state = .running then some p.other
      else if r.nextCol + 1 < r.columns then some p else none } := by
  have same := (noteReads_only r.cap s (columnOf s.sto r r.nextCol).2).vrn
  have running : ∀ c : Prop, [Decidable c] → ((if c then RenderState.running else .finished) = .running ↔ c) := fun c _ => by
    by_cases h : c <;> simp [h]
  show Vrn.endTurn (State.vrn _) p = _
  rw [queueItem_vrn, same, endTurn_eq, setCtx_turn, if_pos turn, Vrn.nextTurn, setCtx_get, setCtx_get_other]
  simp only [RenderCtx.columnDone, running]
  rfl

theorem columnQueued_hasNotice (q : Port) (n : Notice) : (s.columnQueued p x r).hasNotice q n =
    ((s.noteReads r.cap (columnOf s.sto r r.nextCol).2).hasNotice q n ||
      (decide (q = p) && decide (n = .renderData) && x.queue.isEmpty)) := queueItem_hasNotice _ p q _ _ n

/-- Beside its reads' consequences the column item reaches VRN and the ports alone. -/
theorem columnQueued_only : s.columnQueued p x r =
    ((s.noteReads r.cap (columnOf s.sto r r.nextCol).2).setVrn (s.columnQueued p x r).vrn).setPorts (s.columnQueued p x r).ports := by
  unfold State.columnQueued
  exact congrArg (fun t : State => t.setVrn _) (queueItem_only _ _ _ _)

theorem columnQueued_sto : (s.columnQueued p x r).sto = (s.noteReads r.cap (columnOf s.sto r r.nextCol).2).sto := by
  rw [columnQueued_only]
  rfl

theorem columnQueued_evl : (s.columnQueued p x r).evl = s.evl := by
  rw [columnQueued_only, ← (noteReads_only r.cap s (columnOf s.sto r r.nextCol).2).evl]
  rfl

theorem columnQueued_freeIx : (s.columnQueued p x r).freeIx = s.freeIx := by
  rw [columnQueued_only, ← (noteReads_only r.cap s (columnOf s.sto r r.nextCol).2).freeIx]
  rfl

theorem columnQueued_keeps : KeepsCore s (s.columnQueued p x r) :=
  ((noteReads_keeps s _ _).trans (queueItem_keeps _ _ _ _)).trans (setVrn_keeps _ _)

theorem execColumnItem_queues (work : s.vrn.atWork = some (p, x, r)) (due : s.evl.dueAnnotation r = none)
    (room : x.queue.length < 64) : execColumnItem s = .next (s.columnQueued p x r) := by
  unfold execColumnItem
  simp only [work, due]
  exact if_pos room

end

/-- An item that joins the queue tells its owner, and no one else (R162). -/
theorem queueItem_told (s : State) (p : Port) (x : RenderCtx) (item : Item) :
    (s.queueItem p x item).hasNotice p .renderData = (s.hasNotice p .renderData || x.queue.isEmpty) ∧
      (s.queueItem p x item).ports.get p.other = s.ports.get p.other ∧
      ((s.queueItem p x item).ports.get p).slot = (s.ports.get p).slot ∧
      ∀ n, n ≠ .renderData → (s.queueItem p x item).hasNotice p n = s.hasNotice p n := by
  refine ⟨?_, queueItem_ports_other s p x item, (queueItem_keeps s p x item).slot p, fun n other => ?_⟩
  · rw [queueItem_hasNotice, decide_eq_true rfl, decide_eq_true rfl, Bool.true_and, Bool.true_and]
  · rw [queueItem_hasNotice, decide_eq_false other, Bool.and_false, Bool.false_and, Bool.or_false]

/-! ## The statement -/

/-- Settles O42: the context at work by what is due for it, and by the room of its queue. -/
theorem rendererItems : Obligations.RendererItems := by
  refine ⟨fun s rests => ?_, fun x r j => ?_, fun s p x r turn ctx state render wide => ?_⟩
  · have idle : s.vrn.atWork = none := by
      unfold Vrn.atWork
      rw [rests]
    constructor
    · show execColumnItem s = _
      unfold execColumnItem
      rw [idle]
    · show execAnnotationItem s = _
      unfold execAnnotationItem
      rw [idle]
  · obtain ⟨void, beyond, damaged, entries, item, count, told⟩ := columnOf_damaged x r j
    exact ⟨void, beyond, damaged, entries, item, count, told, fun e he => columnOf_reads he⟩
  · have work : s.vrn.atWork = some (p, x, r) := atWork_eq_some.2 ⟨turn, ctx, state, render⟩
    extract_lets passed waits told
    have waited : s.waitRender p x = waits := waitRender_eq x turn
    refine ⟨fun e first => ?_, fun none_ => ?_⟩
    · have due : s.evl.dueAnnotation r = some e := (dueAnnotation_eq_some wide).2 first
      refine ⟨?_, fun full => ?_, fun room => ?_⟩
      · show execColumnItem s = _
        unfold execColumnItem
        simp only [work, due]
        rfl
      · show execAnnotationItem s = _
        unfold execAnnotationItem
        simp only [work, due]
        rw [← waited]
        exact if_neg (Nat.not_lt.2 full)
      · have queued : execAnnotationItem s =
            .next (s.queueItem p { x with render := some { r with mark := some e.seq } } (r.annotation e)) := by
          unfold execAnnotationItem
          simp only [work, due]
          exact if_pos room
        refine ⟨_, _, _, queued, rfl, rfl, ?_, queueItem_told _ _ _ _, queueItem_only _ _ _ _⟩
        rw [queueItem_vrn, annotation_eq r e rfl rfl]
        rfl
    · have due := dueAnnotation_eq_none wide none_
      refine ⟨?_, fun full => ?_, fun room => ?_⟩
      · show execAnnotationItem s = _
        unfold execAnnotationItem
        simp only [work, due]
      · show execColumnItem s = _
        unfold execColumnItem
        simp only [work, due]
        rw [← waited]
        exact if_neg (Nat.not_lt.2 full)
      · have only := noteReads_only r.cap s (columnOf s.sto r r.nextCol).2
        have core := columnQueued_keeps (s := s) (p := p) (x := x) (r := r)
        refine ⟨_, execColumnItem_queues work due room, columnQueued_vrn turn, fun clean => ?_, fun _ => ?_, ?_,
          fun q n other apart => ?_, core.slot, core.timebase, core.pods, core.smp, core.acq, core.trg, core.lanes,
          columnQueued_evl, core.pending, columnQueued_freeIx⟩
        · have same := noteReads_clean (name := r.cap) (s := s) (columnOf_clean r.nextCol clean)
          have reaches := columnQueued_only (s := s) (p := p) (x := x) (r := r)
          rw [same] at reaches
          refine ⟨?_, reaches⟩
          unfold State.columnQueued
          rw [same]
          exact queueItem_told s p (x.columnDone r) _
        · refine readsNoted_of_same (columnOf_noted s r r.nextCol) columnQueued_sto fun q => ?_
          rw [columnQueued_hasNotice]
          simp
        · rw [columnQueued_hasNotice, only.notices p .renderData (by decide)]
          simp
        · rw [columnQueued_hasNotice, only.notices q n other]
          obtain rfl | notData := apart
          · simp
          · simp [notData]

end Sys2Proof.Machine
end

section
/-! SUPPORT. The reads of a chain that reads clean against its held samples (R23, R33, R50), and what a column reads of them: reads left out
lie outside the samples that a channel needs (R159). -/

namespace Sys2Proof.Machine

open Sys2Proof

/-! ## Reads that follow on each other -/

/-- The reads start at index `f`, each holds a sample, and each starts where the one before it ends. -/
def ReadsFrom : Nat → List ReadEntry → Prop
  | _, [] => True
  | f, e :: es => e.read.first = f ∧ 1 ≤ e.read.run ∧ ReadsFrom (f + e.read.run) es

/-- The words of the samples that reads return. -/
def wordsOf (es : List ReadEntry) : List ChannelWord := es.flatMap fun e => List.replicate e.read.run e.read.word

theorem wordsOf_cons (e : ReadEntry) (es : List ReadEntry) :
    wordsOf (e :: es) = List.replicate e.read.run e.read.word ++ wordsOf es := List.flatMap_cons

theorem wordsOf_length_cons (e : ReadEntry) (es : List ReadEntry) :
    (wordsOf (e :: es)).length = e.read.run + (wordsOf es).length := by
  rw [wordsOf_cons, List.length_append, List.length_replicate]

theorem ReadsFrom.append {a b : List ReadEntry} {f : Nat} (ha : ReadsFrom f a) (hb : ReadsFrom (f + (wordsOf a).length) b) :
    ReadsFrom f (a ++ b) := by
  induction a generalizing f with
  | nil => exact hb
  | cons e es ih =>
    obtain ⟨first, run, rest⟩ := ha
    rw [wordsOf_length_cons, ← Nat.add_assoc] at hb
    exact ⟨first, run, ih rest hb⟩

/-- Where a read lies among reads that follow on each other. -/
theorem ReadsFrom.range {es : List ReadEntry} {f : Nat} (h : ReadsFrom f es) {e : ReadEntry} (he : e ∈ es) :
    f ≤ e.read.first ∧ e.read.first + e.read.run ≤ f + (wordsOf es).length := by
  induction es generalizing f with
  | nil => cases he
  | cons d rest ih =>
    obtain ⟨first, -, follow⟩ := h
    rw [wordsOf_length_cons]
    obtain rfl | later := List.mem_cons.1 he
    · omega
    · have := ih follow later
      omega

/-- Past a bound every read starts above it. -/
theorem ReadsFrom.dropWhile_above {es : List ReadEntry} {f : Nat} (h : ReadsFrom f es) (top : Nat) {e : ReadEntry}
    (he : e ∈ es.dropWhile fun y => decide (y.read.first ≤ top)) : top < e.read.first := by
  induction es generalizing f with
  | nil => cases he
  | cons d rest ih =>
    have ⟨first, _, follow⟩ := h
    rw [List.dropWhile_cons] at he
    split at he
    · exact ih follow he
    · next high =>
      rw [decide_eq_true_iff] at high
      have above := (h.range he).1
      omega

/-! ## The reads of a clean chain (R23, R50) -/

/-- The reads of records with no flipped bit return their samples. -/
theorem reckon_samples {records : List Rec} (clean : ∀ r ∈ records, r.flips = 0 ∧ 1 ≤ r.run) (block number first : Nat) :
    ReadsFrom first (reckon block number first records) ∧
      wordsOf (reckon block number first records) = records.flatMap fun r => List.replicate r.run r.word := by
  induction records generalizing number first with
  | nil => exact ⟨trivial, rfl⟩
  | cons r rest ih =>
    obtain ⟨flips, run⟩ := clean r (List.mem_cons_self ..)
    obtain ⟨wordRead, runRead⟩ := read_true (r := r) (by rw [checkOf_clean flips]; exact nofun)
    obtain ⟨follow, words⟩ := ih (fun y hy => clean y (List.mem_cons_of_mem _ hy)) (number + 1) (first + r.run)
    unfold reckon
    rw [wordsOf_cons, wordRead, runRead, words]
    exact ⟨⟨rfl, run, follow⟩, rfl⟩

theorem samples_length (records : List Rec) :
    (records.flatMap fun r => List.replicate r.run r.word).length = (records.map Rec.run).sum := by
  rw [List.length_flatMap]
  simp only [List.length_replicate]

/-- The reads of blocks that read clean and follow on each other return their samples. -/
theorem blocks_samples {l : List (Nat × Block)} {f : Nat} (clean : ∀ b ∈ l, ∀ r ∈ b.2.records, r.flips = 0 ∧ 1 ≤ r.run)
    (follow : ∀ (i : Nat) (a b : Nat × Block), l[i]? = some a → l[i + 1]? = some b → a.2.endIndex = b.2.first)
    (head : ∀ b ∈ l.head?, b.2.first = f) :
    ReadsFrom f (l.flatMap readsOf) ∧
      wordsOf (l.flatMap readsOf) = l.flatMap fun b => b.2.records.flatMap fun r => List.replicate r.run r.word := by
  induction l generalizing f with
  | nil => exact ⟨trivial, rfl⟩
  | cons b rest ih =>
    obtain rfl : b.2.first = f := head b rfl
    obtain ⟨reads, words⟩ := reckon_samples (clean b (List.mem_cons_self ..)) b.1 0 b.2.first
    have next : ∀ d ∈ rest.head?, d.2.first = b.2.first + (wordsOf (readsOf b)).length := fun d hd => by
      have ends := follow 0 b d rfl (by rw [List.getElem?_cons_succ, ← List.head?_eq_getElem?]; exact hd)
      rw [← ends, readsOf, words, samples_length]
      rfl
    obtain ⟨later, more⟩ := ih (fun d hd => clean d (List.mem_cons_of_mem _ hd)) (fun i a d ha hd => follow (i + 1) a d ha hd) next
    rw [List.flatMap_cons, List.flatMap_cons]
    refine ⟨reads.append later, ?_⟩
    rw [← more, ← words]
    exact List.flatMap_append

/-! ## The reads that a column makes -/

/-- `es` are the reads `all` but for some that hold no sample from `lo` to `hi`. -/
inductive CoveredBy (lo hi : Nat) : List ReadEntry → List ReadEntry → Prop
  | nil : CoveredBy lo hi [] []
  | keep (e : ReadEntry) {all es : List ReadEntry} : CoveredBy lo hi all es → CoveredBy lo hi (e :: all) (e :: es)
  | skip (e : ReadEntry) {all es : List ReadEntry} :
      e.read.first + e.read.run ≤ lo ∨ hi < e.read.first → CoveredBy lo hi all es → CoveredBy lo hi (e :: all) es

namespace CoveredBy

variable {lo hi : Nat}

theorem append {a b x y : List ReadEntry} (h : CoveredBy lo hi a x) (k : CoveredBy lo hi b y) :
    CoveredBy lo hi (a ++ b) (x ++ y) := by
  induction h with
  | nil => exact k
  | keep e _ ih => exact .keep e ih
  | skip e out _ ih => exact .skip e out ih

theorem skip_all {all : List ReadEntry} (out : ∀ e ∈ all, e.read.first + e.read.run ≤ lo ∨ hi < e.read.first) :
    CoveredBy lo hi all [] := by
  induction all with
  | nil => exact .nil
  | cons e rest ih => exact .skip e (out e (List.mem_cons_self ..)) (ih fun d hd => out d (List.mem_cons_of_mem _ hd))

theorem takeWhile {all : List ReadEntry} {q : ReadEntry → Bool}
    (out : ∀ e ∈ all.dropWhile q, e.read.first + e.read.run ≤ lo ∨ hi < e.read.first) : CoveredBy lo hi all (all.takeWhile q) := by
  induction all with
  | nil => exact .nil
  | cons e rest ih =>
    cases kept : q e with
    | true =>
      rw [List.takeWhile_cons_of_pos kept]
      rw [List.dropWhile_cons_of_pos kept] at out
      exact .keep e (ih out)
    | false =>
      have no : ¬ q e = true := Bool.eq_false_iff.1 kept
      rw [List.takeWhile_cons_of_neg no]
      rw [List.dropWhile_cons_of_neg no] at out
      exact skip_all out

theorem subset {all es : List ReadEntry} (h : CoveredBy lo hi all es) {e : ReadEntry} (he : e ∈ es) : e ∈ all := by
  induction h with
  | nil => exact he
  | keep d _ ih =>
    obtain rfl | later := List.mem_cons.1 he
    · exact List.mem_cons_self ..
    · exact List.mem_cons_of_mem _ (ih later)
  | skip d _ _ ih => exact List.mem_cons_of_mem _ (ih he)

end CoveredBy

/-- The highest index needed of a block is at least that of each range that it takes part in. -/
theorem le_topNeeded {l : List (Nat × Nat)} {x : Nat × Nat} (hx : x ∈ l) (start : Nat) :
    x.2 ≤ l.foldl (fun acc y => max acc y.2) start := by
  have grows : ∀ (l : List (Nat × Nat)) (start : Nat), start ≤ l.foldl (fun acc y => max acc y.2) start := fun l => by
    induction l with
    | nil => exact fun _ => Nat.le_refl _
    | cons y rest ih => exact fun start => (Nat.le_max_left _ _).trans (ih _)
  induction l generalizing start with
  | nil => cases hx
  | cons y rest ih =>
    obtain rfl | later := List.mem_cons.1 hx
    · exact (Nat.le_max_right _ _).trans (grows rest _)
    · exact ih later _

/-- A block's part in a column leaves out no read with a sample of any needed range (R159). -/
theorem columnReadsOf_covers {ranges : List (Nat × Nat)} {lo hi : Nat} (needed : (lo, hi) ∈ ranges) {b : Nat × Block}
    (clean : ∀ r ∈ b.2.records, r.flips = 0 ∧ 1 ≤ r.run) : CoveredBy lo hi (readsOf b) (columnReadsOf ranges b) := by
  obtain ⟨reads, words⟩ := reckon_samples clean b.1 0 b.2.first
  have within : ∀ e ∈ readsOf b, b.2.first ≤ e.read.first ∧ e.read.first + e.read.run ≤ b.2.endIndex := fun e he => by
    have range := reads.range he
    rwa [words, samples_length] at range
  unfold columnReadsOf
  extract_lets here top
  have outside : (lo, hi) ∉ here → ∀ e ∈ readsOf b, e.read.first + e.read.run ≤ lo ∨ hi < e.read.first := fun absent e he => by
    have apart : ¬ (lo < b.2.endIndex ∧ b.2.first ≤ hi) := fun meets => absent (List.mem_filter.2 ⟨needed, decide_eq_true meets⟩)
    have := within e he
    omega
  split
  · next none_ =>
    refine .skip_all (outside fun there => ?_)
    rw [List.isEmpty_iff.1 none_] at there
    cases there
  · refine .takeWhile fun e he => ?_
    by_cases there : (lo, hi) ∈ here
    · have upTo : hi ≤ top := le_topNeeded there 0
      exact .inr (upTo.trans_lt (reads.dropWhile_above top he))
    · exact outside there e ((List.dropWhile_sublist _).subset he)

theorem columnReads_covers {ranges : List (Nat × Nat)} {lo hi : Nat} (needed : (lo, hi) ∈ ranges) {l : List (Nat × Block)}
    (clean : ∀ b ∈ l, ∀ r ∈ b.2.records, r.flips = 0 ∧ 1 ≤ r.run) :
    CoveredBy lo hi (l.flatMap readsOf) (l.flatMap (columnReadsOf ranges)) := by
  induction l with
  | nil => exact .nil
  | cons b rest ih =>
    rw [List.flatMap_cons, List.flatMap_cons]
    exact (columnReadsOf_covers needed (clean b (List.mem_cons_self ..))).append (ih fun d hd => clean d (List.mem_cons_of_mem _ hd))

end Sys2Proof.Machine
end

section
/-! SUPPORT. Levels and transitions, told from reads and told from samples (R158). -/

namespace Sys2Proof.Machine

open Sys2Proof

/-! ## The level at a sample -/

/-- Reads that start above an index do not reach it. -/
theorem levelWord_above {es : List ReadEntry} {n : Nat} (above : ∀ e ∈ es, n < e.read.first) (acc : ChannelWord) :
    es.foldl (fun acc e => if e.read.first ≤ n then e.read.word else acc) acc = acc := by
  induction es generalizing acc with
  | nil => rfl
  | cons e rest ih =>
    have later : ¬ e.read.first ≤ n := Nat.not_le.2 (above e (List.mem_cons_self ..))
    rw [List.foldl_cons, if_neg later]
    exact ih (fun d hd => above d (List.mem_cons_of_mem _ hd)) acc

/-- The word of a needed sample, by the reads that a column makes. -/
theorem levelWord_eq {lo hi n f : Nat} {all es : List ReadEntry} (h : CoveredBy lo hi all es) (reads : ReadsFrom f all)
    (low : lo ≤ n) (high : n ≤ hi) (from_ : f ≤ n) (upTo : n < f + (wordsOf all).length) (acc : ChannelWord) :
    es.foldl (fun acc e => if e.read.first ≤ n then e.read.word else acc) acc = (wordsOf all).getD (n - f) 0 := by
  induction h generalizing f acc with
  | nil => exact absurd upTo (Nat.not_lt.2 from_)
  | @keep e all es covered ih =>
    obtain ⟨first, run, follow⟩ := reads
    rw [wordsOf_length_cons] at upTo
    rw [List.foldl_cons, first, if_pos from_, wordsOf_cons]
    by_cases here : n < f + e.read.run
    · rw [levelWord_above fun d hd => here.trans_le (follow.range (covered.subset hd)).1,
        List.getD_append _ _ _ _ (by rw [List.length_replicate]; omega), List.getD_replicate _ (by omega)]
    · rw [ih follow (by omega) (by omega), List.getD_append_right _ _ _ _ (by rw [List.length_replicate]; omega),
        List.length_replicate, Nat.sub_sub]
  | @skip e all es out covered ih =>
    obtain ⟨first, run, follow⟩ := reads
    rw [wordsOf_length_cons] at upTo
    rw [ih follow (by omega) (by omega), wordsOf_cons, List.getD_append_right _ _ _ _ (by rw [List.length_replicate]; omega),
      List.length_replicate, Nat.sub_sub]

theorem levelAt_eq {lo hi n f : Nat} {all es : List ReadEntry} (h : CoveredBy lo hi all es) (reads : ReadsFrom f all)
    (low : lo ≤ n) (high : n ≤ hi) (from_ : f ≤ n) (upTo : n < f + (wordsOf all).length) (channel : Nat) :
    levelAt es channel n = ((wordsOf all).getD (n - f) 0).getLsbD channel :=
  congrArg (fun w : ChannelWord => w.getLsbD channel) (levelWord_eq h reads low high from_ upTo 0)

/-! ## Transitions -/

/-- A change of a channel's level at an index from `lo` to `hi`, as a count. -/
def changeAt (channel lo hi n : Nat) (w v : ChannelWord) : Nat :=
  if lo ≤ n ∧ n ≤ hi ∧ w.getLsbD channel ≠ v.getLsbD channel then 1 else 0

/-- The transitions at reads, the word before the first of them given. -/
def transitionsFrom (channel lo hi : Nat) : ChannelWord → List ReadEntry → Nat
  | _, [] => 0
  | w, e :: es => changeAt channel lo hi e.read.first w e.read.word + transitionsFrom channel lo hi e.read.word es

/-- The samples from index `f` on at which the level changes, the word before the first of them given. -/
def changesFrom (channel lo hi : Nat) : Nat → ChannelWord → List ChannelWord → Nat
  | _, _, [] => 0
  | f, w, v :: ws => changeAt channel lo hi f w v + changesFrom channel lo hi (f + 1) v ws

section

variable {channel lo hi : Nat}

@[simp] theorem changeAt_same (n : Nat) (w : ChannelWord) : changeAt channel lo hi n w w = 0 := if_neg fun h => h.2.2 rfl

theorem changeAt_outside {n : Nat} (out : n < lo ∨ hi < n) (w v : ChannelWord) : changeAt channel lo hi n w v = 0 :=
  if_neg fun h => by omega

/-- The model counts the transitions of reads from the first of them on. -/
theorem transitions_cons (e : ReadEntry) (es : List ReadEntry) :
    transitions channel lo hi (e :: es) = transitionsFrom channel lo hi e.read.word es := by
  induction es generalizing e with
  | nil => rfl
  | cons d rest ih =>
    unfold transitions transitionsFrom
    rw [ih]
    rfl

/-- A run of one word changes the level at its first sample alone. -/
theorem changesFrom_run {run : Nat} (some_ : 1 ≤ run) (f : Nat) (w v : ChannelWord) (ws : List ChannelWord) :
    changesFrom channel lo hi f w (List.replicate run v ++ ws) =
      changeAt channel lo hi f w v + changesFrom channel lo hi (f + run) v ws := by
  have quiet : ∀ k f, changesFrom channel lo hi f v (List.replicate k v ++ ws) = changesFrom channel lo hi (f + k) v ws := fun k => by
    induction k with
    | zero => exact fun _ => rfl
    | succ k ih =>
      intro f
      rw [List.replicate_succ, List.cons_append, changesFrom, changeAt_same, ih, Nat.zero_add, Nat.add_assoc, Nat.add_comm 1]
  obtain ⟨k, rfl⟩ := Nat.exists_eq_add_of_le' some_
  rw [List.replicate_succ, List.cons_append, changesFrom, quiet, Nat.add_assoc, Nat.add_comm 1]

/-- The changes counted over the places of the samples. -/
theorem changesFrom_eq_count (f : Nat) (w : ChannelWord) (ws : List ChannelWord) : changesFrom channel lo hi f w ws =
    ((List.range ws.length).filter fun m => decide (lo ≤ f + m ∧ f + m ≤ hi ∧
      ((w :: ws).getD m 0).getLsbD channel ≠ (ws.getD m 0).getLsbD channel)).length := by
  induction ws generalizing f w with
  | nil => rfl
  | cons v ws ih =>
    rw [changesFrom, ih, List.length_cons, List.range_succ_eq_map, List.filter_cons, List.filter_map, changeAt]
    have shift : ∀ m, f + 1 + m = f + (m + 1) := fun m => by omega
    simp only [shift, Nat.add_zero, List.getD_cons_zero, decide_eq_true_iff, Function.comp_def, Nat.succ_eq_add_one,
      List.getD_cons_succ]
    split <;> simp [Nat.add_comm]

/-- The reads that a column makes show the changes of its samples: a read left out before the first index needed starts no change,
and after one left out past the last index needed none counts. -/
theorem transitionsFrom_eq {low f : Nat} {all es : List ReadEntry} (h : CoveredBy low hi all es) (reads : ReadsFrom f all)
    (near : low < lo ∨ low ≤ f) {w v : ChannelWord} (before : v = w ∨ f < lo ∨ hi < f) :
    transitionsFrom channel lo hi v es = changesFrom channel lo hi f w (wordsOf all) := by
  induction h generalizing f v w with
  | nil => rfl
  | keep e _ ih =>
    obtain ⟨first, run, follow⟩ := reads
    have change : changeAt channel lo hi f v e.read.word = changeAt channel lo hi f w e.read.word := by
      obtain rfl | out := before
      · rfl
      · rw [changeAt_outside out, changeAt_outside out]
    rw [wordsOf_cons, changesFrom_run run, transitionsFrom, first, change, ih follow (by omega) (.inl rfl)]
  | skip e out _ ih =>
    obtain ⟨first, run, follow⟩ := reads
    have away : f < lo ∨ hi < f := by omega
    rw [wordsOf_cons, changesFrom_run run, changeAt_outside away, ih follow (by omega) (w := e.read.word) (by omega), Nat.zero_add]

/-- The transitions of the reads that a column makes, over the places of the samples; the first sample never counts. -/
theorem transitions_eq_count {low f : Nat} {all es : List ReadEntry} (h : CoveredBy low hi all es) (reads : ReadsFrom f all)
    (near : low < lo ∨ low ≤ f) : transitions channel lo hi es =
      ((List.range (wordsOf all).length).filter fun m => decide (0 < m ∧ lo ≤ f + m ∧ f + m ≤ hi ∧
        ((wordsOf all).getD m 0).getLsbD channel ≠ ((wordsOf all).getD (m - 1) 0).getLsbD channel)).length := by
  have shown : transitions channel lo hi es = changesFrom channel lo hi f ((wordsOf all).getD 0 0) (wordsOf all) := by
    have own : ∀ (e : ReadEntry) (es : List ReadEntry),
        transitions channel lo hi (e :: es) = transitionsFrom channel lo hi e.read.word (e :: es) := fun e es => by
      rw [transitions_cons, transitionsFrom, changeAt_same, Nat.zero_add]
    cases h with
    | nil => rfl
    | keep e covered =>
      have ⟨_, least, _⟩ := reads
      obtain ⟨k, run⟩ := Nat.exists_eq_add_of_le' least
      have head : ∀ es, (wordsOf (e :: es)).getD 0 0 = e.read.word := fun es => by
        rw [wordsOf_cons, run, List.replicate_succ]
        rfl
      rw [own, head]
      exact transitionsFrom_eq (.keep e covered) reads near (.inl rfl)
    | skip e out covered =>
      have ⟨first, run, _⟩ := reads
      cases es with
      | nil => exact transitionsFrom_eq (.skip e out covered) reads near (.inl rfl)
      | cons d rest =>
        rw [own]
        exact transitionsFrom_eq (.skip e out covered) reads near (.inr (by omega))
  rw [shown, changesFrom_eq_count]
  refine congrArg List.length (List.filter_congr fun m _ => decide_eq_decide.2 ?_)
  cases m with
  | zero => simp
  | succ m => simp [ne_comm]

end

end Sys2Proof.Machine
end

section
/-! SUPPORT. What a channel in view needs of the held samples (R156 to R158): the samples at and about a column's edges. -/

namespace Sys2Proof.Machine

open Sys2Proof

namespace HeldSpan

variable {h : HeldSpan} {r : Render} {k : Int}

/-! ## Offsets rise with the index -/

theorem offset_eq (h : HeldSpan) (r : Render) (k : Int) (n : Nat) :
    h.offset r k n = h.offset r k 0 + (n : Int) * (256 * (h.div : Int)) := by
  unfold HeldSpan.offset Render.offset
  push_cast
  ring

theorem offset_le_iff (div : 1 ≤ h.div) {m n : Nat} : h.offset r k m ≤ h.offset r k n ↔ m ≤ n := by
  have step : (0 : Int) < 256 * (h.div : Int) := by omega
  rw [offset_eq h r k m, offset_eq h r k n, add_le_add_iff_left, mul_le_mul_iff_of_pos_right step, Nat.cast_le]

/-- The least held index at or above an edge. -/
theorem firstFrom_le_iff (div : 1 ≤ h.div) {edge : Int} {n : Nat} :
    h.firstFrom r k edge ≤ n ↔ h.oldest ≤ n ∧ edge ≤ h.offset r k n := by
  have step : (0 : Int) < 256 * (h.div : Int) := by omega
  unfold firstFrom
  extract_lets need
  rw [max_le_iff]
  refine and_congr_right fun _ => ?_
  have reach : edge ≤ h.offset r k n ↔ need ≤ (n : Int) * (256 * (h.div : Int)) := by
    rw [offset_eq h r k n]
    exact sub_le_iff_le_add'.symm
  rw [reach]
  generalize 256 * (h.div : Int) = d at step ⊢
  split
  · next zero =>
    have nonneg : 0 ≤ (n : Int) * d := mul_nonneg (Int.natCast_nonneg n) step.le
    omega
  · have ceil : (need + d - 1) / d < (n : Int) + 1 ↔ need ≤ (n : Int) * d := by
      rw [Int.ediv_lt_iff_lt_mul step, add_mul, one_mul]
      omega
    rw [← ceil]
    omega

/-! ## The class of a channel (R157) -/

theorem columnClass_before {j : Nat} : columnClass (some h) r j k = .before ↔ r.rightEdge j ≤ h.offset r k h.oldest := by
  unfold columnClass
  dsimp only
  split
  · next before => simp [before]
  · next before => split <;> simp [before]

theorem columnClass_after {j : Nat} : columnClass (some h) r j k = .after ↔
    h.offset r k h.oldest < r.rightEdge j ∧ h.offset r k h.last < r.leftEdge j := by
  unfold columnClass
  dsimp only
  split
  · next before => simp [Int.not_lt.2 before]
  · next before => split <;> simp_all

theorem columnClass_inView {j : Nat} : columnClass (some h) r j k = .inView ↔
    h.offset r k h.oldest < r.rightEdge j ∧ r.leftEdge j ≤ h.offset r k h.last := by
  unfold columnClass
  dsimp only
  split
  · next before => simp [Int.not_lt.2 before]
  · next before =>
    split
    · next after => simp [Int.not_le.2 after]
    · next after => simp [Int.not_le.1 before, Int.not_lt.1 after]

/-! ## What a channel in view needs (R158) -/

theorem leftEdge_lt_rightEdge (wide : 1 ≤ r.width) (j : Nat) : r.leftEdge j < r.rightEdge j := by
  unfold Render.leftEdge Render.rightEdge
  rw [add_mul, one_mul]
  omega

theorem needed_start (h : HeldSpan) (r : Render) (j : Nat) (k : Int) : (h.needed r j k).start =
    if h.offset r k (h.needed r j k).firstIn = r.leftEdge j then some (h.needed r j k).firstIn
    else if h.oldest < (h.needed r j k).firstIn then some ((h.needed r j k).firstIn - 1) else none := by
  unfold needed
  simp only [decide_eq_true_iff]

section

variable {j : Nat} (div : 1 ≤ h.div) (inView : columnClass (some h) r j k = .inView) (held : h.oldest ≤ h.last)

include div

theorem firstIn_le_iff {n : Nat} : (h.needed r j k).firstIn ≤ n ↔ h.oldest ≤ n ∧ r.leftEdge j ≤ h.offset r k n :=
  firstFrom_le_iff div

/-- A channel's lowest index read lies before its first one in the column, where an older sample is held. -/
theorem low_near : (h.needed r j k).low h.oldest < (h.needed r j k).firstIn ∨ (h.needed r j k).low h.oldest ≤ h.oldest := by
  have first := ((firstIn_le_iff div).1 (Nat.le_refl (h.needed r j k).firstIn)).1
  unfold Needed.low
  omega

/-- No index gives the start level where every held sample lies right of the left edge. -/
theorem leftEdge_lt_of_start_none (start : (h.needed r j k).start = none) {n : Nat} (low : h.oldest ≤ n) :
    r.leftEdge j < h.offset r k n := by
  rw [needed_start] at start
  have first := firstIn_le_iff (r := r) (k := k) (j := j) div (n := (h.needed r j k).firstIn)
  generalize (h.needed r j k).firstIn = i at start first
  split at start
  · cases start
  · next offEdge =>
    split at start
    · cases start
    · next early =>
      have above := (first.1 (Nat.le_refl i)).2
      have later := (offset_le_iff (r := r) (k := k) div).2 ((Nat.not_lt.1 early).trans low)
      omega

/-- The index that gives the start level is the last one at or left of the left edge. -/
theorem le_start_iff {i : Nat} (start : (h.needed r j k).start = some i) {n : Nat} (low : h.oldest ≤ n) :
    n ≤ i ↔ h.offset r k n ≤ r.leftEdge j := by
  rw [needed_start] at start
  have first := fun n => firstIn_le_iff (r := r) (k := k) (j := j) div (n := n)
  generalize (h.needed r j k).firstIn = m at start first
  split at start
  · next onEdge =>
    cases start
    rw [← onEdge, offset_le_iff div]
  · next offEdge =>
    split at start
    · next after =>
      cases start
      have above := ((first m).1 (Nat.le_refl m)).2
      have left_ : m ≤ n ↔ r.leftEdge j ≤ h.offset r k n := (first n).trans (and_iff_right low)
      have rises := offset_le_iff (r := r) (k := k) div (m := m) (n := n)
      omega
    · cases start

include inView

/-- A held index is at most the one needed last exactly when it lies left of the right edge. -/
theorem le_stop_iff {n : Nat} (low : h.oldest ≤ n) (high : n ≤ h.last) :
    n ≤ (h.needed r j k).stop ↔ h.offset r k n < r.rightEdge j := by
  have first : ¬ h.firstFrom r k (r.rightEdge j) ≤ h.oldest := fun le =>
    ((firstFrom_le_iff div).1 le).2.not_gt (columnClass_inView.1 inView).1
  have right : h.firstFrom r k (r.rightEdge j) ≤ n ↔ r.rightEdge j ≤ h.offset r k n := by
    rw [firstFrom_le_iff div]
    exact and_iff_right low
  show n ≤ min h.last (h.firstFrom r k (r.rightEdge j) - 1) ↔ _
  rw [← not_le, ← right]
  omega

include held

theorem firstIn_le_last : (h.needed r j k).firstIn ≤ h.last := (firstIn_le_iff div).2 ⟨held, (columnClass_inView.1 inView).2⟩

theorem stop_held : h.oldest ≤ (h.needed r j k).stop ∧ (h.needed r j k).stop ≤ h.last :=
  ⟨(le_stop_iff div inView (Nat.le_refl _) held).2 (columnClass_inView.1 inView).1, Nat.min_le_left _ _⟩

/-- The index that gives the start level is held, and it is among the indices read. -/
theorem start_range (wide : 1 ≤ r.width) {i : Nat} (start : (h.needed r j k).start = some i) :
    h.oldest ≤ i ∧ i ≤ h.last ∧ (h.needed r j k).low h.oldest ≤ i ∧ i ≤ (h.needed r j k).stop := by
  have last := firstIn_le_last div inView held
  have first := ((firstIn_le_iff div).1 (Nat.le_refl (h.needed r j k).firstIn)).1
  have about : h.oldest ≤ i ∧ (h.needed r j k).firstIn - 1 ≤ i ∧ i ≤ (h.needed r j k).firstIn := by
    rw [needed_start] at start
    split at start
    · cases start; omega
    · split at start
      · cases start; omega
      · cases start
  obtain ⟨oldest, near, below⟩ := about
  have left_ := (le_start_iff div start oldest).1 (Nat.le_refl i)
  exact ⟨oldest, below.trans last, max_le oldest near,
    (le_stop_iff div inView oldest (below.trans last)).2 (left_.trans_lt (leftEdge_lt_rightEdge wide j))⟩

/-- The lowest index read for a channel is at most the one needed last. -/
theorem low_le_stop (wide : 1 ≤ r.width) : (h.needed r j k).low h.oldest ≤ (h.needed r j k).stop := by
  have last := firstIn_le_last div inView held
  have first := (stop_held div inView held).1
  refine max_le first ?_
  by_cases older : h.oldest < (h.needed r j k).firstIn
  · have low : h.oldest ≤ (h.needed r j k).firstIn - 1 := by omega
    have before : ¬ (h.needed r j k).firstIn ≤ (h.needed r j k).firstIn - 1 := by omega
    rw [firstIn_le_iff div, and_iff_right low, not_le] at before
    exact (le_stop_iff div inView low (by omega)).2 (before.trans (leftEdge_lt_rightEdge wide j))
  · omega

end

end HeldSpan

end Sys2Proof.Machine
end

section
/-! SUPPORT. A column item against the held samples (R156 to R158): the classes, the entries, and the proof of the statement (O43). -/

namespace Sys2Proof.Machine

open Sys2Proof

/-! ## The held samples of a clean chain (R23) -/

theorem chain_head (x : Store) (c : Capture) : ∀ b ∈ (x.chain c).head?, b.2.first = x.oldestIndex c := fun b hb => by
  have unfolded : x.chain c = match lookupBlock x.blocks c.head with
      | none => []
      | some d => (c.head, d) :: chainFrom x.blocks (Config.blockCount - 1) d.next := rfl
  rw [unfolded] at hb
  unfold Store.oldestIndex
  cases found : lookupBlock x.blocks c.head with
  | none => rw [found] at hb; cases hb
  | some d => rw [found] at hb; cases hb; rfl

section

variable {x : Store} {c : Capture}

theorem heldCount_eq (x : Store) (c : Capture) : x.heldCount c = (x.samples c).length := by
  unfold Store.heldCount Store.samples
  rw [List.length_flatMap]
  simp only [samples_length]
  rfl

theorem chain_samples (clean : x.cleanChain c) :
    ReadsFrom (x.oldestIndex c) ((x.chain c).flatMap readsOf) ∧ wordsOf ((x.chain c).flatMap readsOf) = x.samples c := by
  obtain ⟨records, follow⟩ := clean
  exact blocks_samples records follow (chain_head x c)

end

/-- The held samples of a capture, from its origin, its oldest index and their number. -/
def spanOf (o div oldest count : Nat) : HeldSpan := { origin := o, div := div, oldest := oldest, last := oldest + count - 1 }

theorem renderSpan_eq {x : Store} {r : Render} {c : Capture} {o : Nat} (hc : x.capture r.cap = some c) (origin : c.origin = some o) :
    x.renderSpan r = if (x.samples c).length = 0 then none
      else some (spanOf o c.div (x.oldestIndex c) (x.samples c).length) := by
  unfold Store.renderSpan Store.heldSpan Store.lastIndex Store.writtenEnd
  rw [hc, Option.bind_some, origin, heldCount_eq]
  by_cases none_ : (x.samples c).length = 0
  · simp only [if_pos none_]
  · simp only [if_neg none_]
    rfl

/-! ## Classes, told from all held samples (R157) -/

section

variable {r : Render} {j o div oldest count : Nat} {k : Int} {held : Option HeldSpan}
  (span : held = if count = 0 then none else some (spanOf o div oldest count)) (rises : 1 ≤ div)

include span rises

theorem columnClass_before_iff : columnClass held r j k = .before ↔
    0 < count ∧ ∀ m, m < count → r.rightEdge j ≤ (spanOf o div oldest count).offset r k (oldest + m) := by
  by_cases none_ : count = 0
  · rw [span, if_pos none_]
    simp [columnClass, none_]
  · rw [span, if_neg none_, HeldSpan.columnClass_before]
    refine ⟨fun first => ⟨Nat.pos_of_ne_zero none_, fun m _ => ?_⟩, fun h => h.2 0 (Nat.pos_of_ne_zero none_)⟩
    exact first.trans ((HeldSpan.offset_le_iff rises).2 (Nat.le_add_right _ _))

theorem columnClass_after_iff (wide : 1 ≤ r.width) : columnClass held r j k = .after ↔
    ∀ m, m < count → (spanOf o div oldest count).offset r k (oldest + m) < r.leftEdge j := by
  by_cases none_ : count = 0
  · rw [span, if_pos none_]
    simp [columnClass, none_]
  · rw [span, if_neg none_, HeldSpan.columnClass_after]
    have edges := HeldSpan.leftEdge_lt_rightEdge wide j
    have rise : ∀ {a b}, (spanOf o div oldest count).offset r k a ≤ (spanOf o div oldest count).offset r k b ↔ a ≤ b :=
      HeldSpan.offset_le_iff rises
    refine ⟨fun ⟨_, last⟩ m hm => (rise.2 ?_).trans_lt last, fun h => ⟨?_, ?_⟩⟩
    · show oldest + m ≤ oldest + count - 1
      omega
    · exact (h 0 (Nat.pos_of_ne_zero none_)).trans edges
    · have last := h (count - 1) (by omega)
      rwa [← Nat.add_sub_assoc (by omega)] at last

end

/-! ## The entry of a channel in view (R158) -/

section

variable {r : Render} {j o div oldest count : Nat} {k : Int} {h : HeldSpan} (span : h = spanOf o div oldest count) (some_ : 0 < count)
  (rises : 1 ≤ div) (inView : columnClass (some h) r j k = .inView)

include span some_ rises inView

/-- The index that gives the start level is that of a held sample at or left of the left edge, and it is read. -/
theorem start_sample (wide : 1 ≤ r.width) {i : Nat} (start : (h.needed r j k).start = some i) :
    ∃ m, i = oldest + m ∧ m < count ∧ (h.needed r j k).low oldest ≤ i ∧ i ≤ (h.needed r j k).stop ∧
      h.offset r k i ≤ r.leftEdge j := by
  subst span
  have about : oldest ≤ oldest + count - 1 := by omega
  obtain ⟨first, last, low, high⟩ := HeldSpan.start_range rises inView about wide start
  have left_ := (HeldSpan.le_start_iff rises start first).1 (Nat.le_refl i)
  obtain ⟨m, rfl⟩ : ∃ m, i = oldest + m := Nat.exists_eq_add_of_le first
  have bound : oldest + m ≤ oldest + count - 1 := last
  exact ⟨m, rfl, by omega, low, high, left_⟩

/-- A held sample is at most the one that gives the end level exactly when it lies left of the right edge. -/
theorem sample_le_stop_iff {m : Nat} (held : m < count) :
    oldest + m ≤ (h.needed r j k).stop ↔ h.offset r k (oldest + m) < r.rightEdge j := by
  subst span
  refine HeldSpan.le_stop_iff rises inView (Nat.le_add_right _ _) ?_
  show oldest + m ≤ oldest + count - 1
  omega

/-- The index that gives the end level is that of a held sample. -/
theorem stop_sample : ∃ m, (h.needed r j k).stop = oldest + m ∧ m < count := by
  subst span
  have about : oldest ≤ oldest + count - 1 := by omega
  obtain ⟨first, last⟩ := HeldSpan.stop_held rises inView about
  obtain ⟨m, hm⟩ := Nat.exists_eq_add_of_le first
  have bound : ((spanOf o div oldest count).needed r j k).stop ≤ oldest + count - 1 := last
  exact ⟨m, hm, by change _ = oldest + m at hm; omega⟩

end

section

variable {r : Render} {j o div oldest channel : Nat} {k : Int} {all es : List ReadEntry} {h : HeldSpan}
  (reads : ReadsFrom oldest all) (some_ : 0 < (wordsOf all).length) (span : h = spanOf o div oldest (wordsOf all).length)
  (rises : 1 ≤ div) (wide : 1 ≤ r.width) (inView : columnClass (some h) r j k = .inView)
  (covered : CoveredBy ((h.needed r j k).low oldest) (h.needed r j k).stop all es)

section

include some_ span rises inView wide

/-- With no sample at or left of the left edge the start level is unknown. -/
theorem entry_start_unknown (right : ∀ m, m < (wordsOf all).length → r.leftEdge j < h.offset r k (oldest + m)) :
    ((h.needed r j k).entry es channel).start = .unknown := by
  show (match (_ : Option Nat) with | some i => viewLevel (levelAt es channel i) | none => .unknown) = _
  cases start : (h.needed r j k).start with
  | none => rfl
  | some i =>
    obtain ⟨m, rfl, held, -, -, left_⟩ := start_sample span some_ rises inView wide start
    exact absurd left_ (right m held).not_ge

end

include reads covered

/-- The level shown for an index that is read is that of its sample. -/
theorem levelAt_needed {m : Nat} (held : m < (wordsOf all).length) (low : (h.needed r j k).low oldest ≤ oldest + m)
    (high : oldest + m ≤ (h.needed r j k).stop) :
    levelAt es channel (oldest + m) = ((wordsOf all).getD m 0).getLsbD channel := by
  rw [levelAt_eq covered reads low high (Nat.le_add_right _ _) (Nat.add_lt_add_left held _), Nat.add_sub_cancel_left]

include some_ span rises inView

/-- The start level is that of the last sample at or left of the left edge. -/
theorem entry_start {m : Nat} (wide : 1 ≤ r.width) (left_ : h.offset r k (oldest + m) ≤ r.leftEdge j)
    (later : ∀ m', m < m' → m' < (wordsOf all).length → r.leftEdge j < h.offset r k (oldest + m')) :
    ((h.needed r j k).entry es channel).start = viewLevel (((wordsOf all).getD m 0).getLsbD channel) := by
  show (match (_ : Option Nat) with | some i => viewLevel (levelAt es channel i) | none => .unknown) = _
  have oldest_ : h.oldest ≤ oldest + m := by rw [span]; exact Nat.le_add_right _ _
  have rises_ : 1 ≤ h.div := by rw [span]; exact rises
  cases start : (h.needed r j k).start with
  | none => exact absurd left_ (HeldSpan.leftEdge_lt_of_start_none rises_ start oldest_).not_ge
  | some i =>
    obtain ⟨n, rfl, heldN, low, high, leftN⟩ := start_sample span some_ rises inView wide start
    have upTo := (HeldSpan.le_start_iff rises_ start oldest_).2 left_
    have same : n = m := by
      by_contra other
      exact absurd leftN (later n (by omega) heldN).not_ge
    dsimp only
    rw [levelAt_needed reads covered heldN low high, same]

/-- The end level is that of the last sample left of the right edge. -/
theorem entry_stop {m : Nat} (wide : 1 ≤ r.width) (held : m < (wordsOf all).length) (left_ : h.offset r k (oldest + m) < r.rightEdge j)
    (later : ∀ m', m < m' → m' < (wordsOf all).length → r.rightEdge j ≤ h.offset r k (oldest + m')) :
    ((h.needed r j k).entry es channel).stop = viewLevel (((wordsOf all).getD m 0).getLsbD channel) := by
  obtain ⟨n, stop, heldN⟩ := stop_sample span some_ rises inView
  have upTo := (sample_le_stop_iff span some_ rises inView held).2 left_
  have leftN := (sample_le_stop_iff span some_ rises inView heldN).1 stop.ge
  have same : n = m := by
    by_contra other
    exact absurd leftN (later n (by omega) heldN).not_gt
  have low : (h.needed r j k).low oldest ≤ oldest + n := by
    subst span
    rw [← stop]
    refine HeldSpan.low_le_stop rises inView ?_ wide
    show oldest ≤ oldest + (wordsOf all).length - 1
    omega
  show viewLevel (levelAt es channel (h.needed r j k).stop) = _
  rw [stop, levelAt_needed reads covered heldN low stop.ge, same]

/-- The count is that of the samples in the column on which the level changes. -/
theorem entry_count : ((h.needed r j k).entry es channel).count =
    min 255 ((List.range (wordsOf all).length).filter fun m => decide (0 < m ∧ r.leftEdge j ≤ h.offset r k (oldest + m) ∧
      h.offset r k (oldest + m) < r.rightEdge j ∧
        ((wordsOf all).getD m 0).getLsbD channel ≠ ((wordsOf all).getD (m - 1) 0).getLsbD channel)).length := by
  have rises_ : 1 ≤ h.div := by rw [span]; exact rises
  have near : (h.needed r j k).low oldest < (h.needed r j k).firstIn ∨ (h.needed r j k).low oldest ≤ oldest := by
    have near := HeldSpan.low_near (r := r) (k := k) (j := j) rises_
    rwa [show h.oldest = oldest by rw [span]; rfl] at near
  show min 255 (transitions channel (h.needed r j k).firstIn (h.needed r j k).stop es) = _
  rw [transitions_eq_count covered reads near]
  refine congrArg (fun l : List Nat => min 255 l.length) (List.filter_congr fun m hm => decide_eq_decide.2 ?_)
  have held := List.mem_range.1 hm
  have first : (h.needed r j k).firstIn ≤ oldest + m ↔ r.leftEdge j ≤ h.offset r k (oldest + m) := by
    rw [HeldSpan.firstIn_le_iff rises_, span]
    exact and_iff_right (Nat.le_add_right _ _)
  rw [first, sample_le_stop_iff span some_ rises inView held]

end

/-! ## The column (R157, R158) -/

theorem columnEntryOf_outOfView {held : Option HeldSpan} {r : Render} {j : Nat} {y : Nat × Int} {es : List ReadEntry}
    (out : columnClass held r j y.2 ≠ .inView) : columnEntryOf held r j es y = .unknown := by
  unfold columnEntryOf neededOf
  cases held with
  | none => rfl
  | some h => simp only [if_neg out]

theorem columnEntryOf_inView {h : HeldSpan} {r : Render} {j : Nat} {y : Nat × Int} {es : List ReadEntry}
    (inView : columnClass (some h) r j y.2 = .inView) : columnEntryOf (some h) r j es y = (h.needed r j y.2).entry es y.1 := by
  unfold columnEntryOf neededOf
  simp only [if_pos inView]

/-- A channel in view has its range among those that the column reads. -/
theorem mem_columnRanges {h : HeldSpan} {r : Render} {j : Nat} {y : Nat × Int} (listed : y ∈ r.listed)
    (inView : columnClass (some h) r j y.2 = .inView) :
    ((h.needed r j y.2).low h.oldest, (h.needed r j y.2).stop) ∈ columnRanges (some h) r j :=
  List.mem_filterMap.2 ⟨y, listed, by simp only [neededOf, if_pos inView, Option.map_some]⟩

/-- The entry at a place of the channel list is that of the channel listed there. -/
theorem entry_at {l : List (Nat × Int)} {f : Nat × Int → ColumnEntry} {i : Nat} {y : Nat × Int} {n : ColumnEntry}
    (hy : l[i]? = some y) (hn : (l.map f)[i]? = some n) : n = f y := by
  rw [List.getElem?_map, hy] at hn
  exact (Option.some.inj hn).symm

/-- Where the capture reads clean, no column of it is DAMAGED. -/
theorem columnReads_sound {x : Store} {r : Render} {c : Capture} (hc : x.capture r.cap = some c) (clean : x.cleanChain c) (j : Nat) :
    ((x.columnReads r j).any fun e => e.read.damaged) = false := by
  rw [List.any_eq_false]
  intro e he damaged
  obtain ⟨d, hd, b, hb, read⟩ := columnReads_subset he
  obtain rfl : c = d := Option.some.inj (hc.symm.trans hd)
  have found := (reckon_clean (fun y hy => (clean.1 b hb y hy).1) b.1 0 b.2.first).2 e read
  rw [readsOf_damaged read, found] at damaged
  cases damaged

/-- A column's reads cover what each of its channels in view needs. -/
theorem columnReads_covered {x : Store} {r : Render} {c : Capture} {j : Nat} {h : HeldSpan} {y : Nat × Int}
    (hc : x.capture r.cap = some c) (clean : x.cleanChain c) (span : x.renderSpan r = some h) (listed : y ∈ r.listed)
    (inView : columnClass (some h) r j y.2 = .inView) : CoveredBy ((h.needed r j y.2).low h.oldest) (h.needed r j y.2).stop
      ((x.chain c).flatMap readsOf) (x.columnReads r j) := by
  have chain : x.renderChain r = x.chain c := by
    unfold Store.renderChain
    rw [hc]
  unfold Store.columnReads
  rw [chain, span]
  exact columnReads_covers (mem_columnRanges listed inView) clean.1

/-- Settles O43: the flags by the classes, and the entries of the channels in view by the reads that cover what they need. -/
theorem columnShowsSamples : Obligations.ColumnShowsSamples := by
  intro x r c o j hc origin rises wide clean
  obtain ⟨reads, wordsEq⟩ := chain_samples clean
  have span := renderSpan_eq hc origin
  rw [← wordsEq] at span ⊢
  extract_lets words listed left_ right off level before after
  have offset : ∀ k m, (spanOf o c.div (x.oldestIndex c) words.length).offset r k (x.oldestIndex c + m) = off k m := fun k m => by
    simp only [off, HeldSpan.offset, spanOf, Render.offset]
    push_cast
    ring
  have isBefore : ∀ k, columnClass (x.renderSpan r) r j k = .before ↔ before k := fun k => by
    rw [columnClass_before_iff span rises]
    refine and_congr_right fun _ => forall₂_congr fun m _ => ?_
    rw [offset]
    rfl
  have isAfter : ∀ k, columnClass (x.renderSpan r) r j k = .after ↔ after k := fun k => by
    rw [columnClass_after_iff span rises wide]
    refine forall₂_congr fun m _ => ?_
    rw [offset]
    rfl
  have inView_iff : ∀ k, columnClass (x.renderSpan r) r j k = .inView ↔ ¬ before k ∧ ¬ after k := fun k => by
    rw [← isBefore, ← isAfter]
    cases columnClass (x.renderSpan r) r j k <;> simp
  by_cases some_ : x.ColumnInView r j
  · rw [columnOf_inView some_, columnReads_sound hc clean]
    obtain ⟨y, hy, inView⟩ := some_
    obtain ⟨notBefore, notAfter⟩ := (inView_iff y.2).1 inView
    refine ⟨_, _, _, rfl, List.length_map _, ?_, ?_, fun i ch k n hi hn => ⟨fun outside => ?_, fun notBefore notAfter => ?_⟩⟩
    · exact iff_of_false Bool.false_ne_true fun all => notBefore (all y hy)
    · exact iff_of_false Bool.false_ne_true fun all => (all.1 y hy).elim notBefore notAfter
    · obtain rfl := entry_at hi hn
      exact columnEntryOf_outOfView (y := (ch, k)) fun inView => ((inView_iff k).1 inView).elim fun b a => outside.elim b a
    · obtain rfl := entry_at hi hn
      have inView : columnClass (x.renderSpan r) r j k = .inView := (inView_iff k).2 ⟨notBefore, notAfter⟩
      have held : 0 < words.length := Nat.pos_of_ne_zero fun none_ => notAfter fun m hm => absurd hm (by omega)
      rw [if_neg held.ne'] at span
      have covered := columnReads_covered (y := (ch, k)) hc clean span (List.mem_of_getElem? hi) (span ▸ inView)
      rw [span] at inView ⊢
      rw [columnEntryOf_inView (y := (ch, k)) inView]
      refine ⟨fun m hm left_ later => ?_, fun later => ?_, fun m hm left_ later => ?_, ?_⟩
      · exact entry_start reads held rfl rises inView covered wide ((offset k m).trans_le left_) fun m' hlt hm' =>
          (later m' hlt hm').trans_eq (offset k m').symm
      · exact entry_start_unknown held rfl rises wide inView fun m hm => (later m hm).trans_eq (offset k m).symm
      · exact entry_stop reads held rfl rises inView covered wide hm ((offset k m).trans_lt left_) fun m' hlt hm' =>
          (later m' hlt hm').trans_eq (offset k m').symm
      · rw [entry_count reads held rfl rises inView covered]
        refine congrArg (fun l : List Nat => min 255 l.length) (List.filter_congr fun m _ => decide_eq_decide.2 ?_)
        rw [← offset k m]
        rfl
  · have classes : ∀ y ∈ listed, before y.2 ∨ after y.2 := fun y hy => by
      by_contra neither
      exact some_ ⟨y, hy, (inView_iff y.2).2 (not_or.1 neither)⟩
    rw [columnOf_outOfView some_]
    refine ⟨_, _, _, rfl, List.length_map _, ?_, ?_, fun i ch k n hi hn => ⟨fun _ => ?_, fun notBefore notAfter => ?_⟩⟩
    · rw [Bool.not_eq_true', decide_eq_false_iff_not]
      refine ⟨fun none_ y hy => (classes y hy).resolve_right fun a => none_ ⟨y, hy, (isAfter y.2).2 a⟩,
        fun all ⟨y, hy, a⟩ => ?_⟩
      exact nomatch a.symm.trans ((isBefore y.2).2 (all y hy))
    · rw [decide_eq_true_iff, and_iff_right classes]
      exact exists_congr fun y => and_congr_right fun _ => isAfter y.2
    · exact entry_at hi hn
    · exact absurd (classes _ (List.mem_of_getElem? hi)) (not_or.2 ⟨notBefore, notAfter⟩)

end Sys2Proof.Machine
end
